-- ==== Sys2Proof/Word.lean ====
section
/-!
DEFINITION. The word types of the machine. Only names of widths stand here: every helper that
could be mended later stands in Decode.lean or under Machine/.
-/
namespace Sys2Proof

/-- A byte. -/
abbrev Byte := BitVec 8
/-- A 32-bit register or a lane mask. -/
abbrev Word32 := BitVec 32
/-- A 64-bit scalar register, address or instruction word. -/
abbrev Word64 := BitVec 64
/-- One bit per lane of a group; bit l is lane l (04 R60). -/
abbrev Mask := BitVec 32

end Sys2Proof
end

