-- ==== Sys2Proof/Syntax.lean ====
section
/-!
DEFINITION. The abstract form of every operation of spec/opcode_table.json: one constructor per
row. The instruction rows are what a group executes (02 R39); the event rows are the steps of
the other agents (95_what_each_step_holds.md). Register numbers and operation codes are already
taken apart here; nothing below Decode.lean sees an encoded word.
-/
namespace Sys2Proof

/-- A named register, predicate or accumulator tile (02 R28, 16 R367). -/
inductive Opd where
  | v (n : Nat)
  | x (n : Nat)
  | s (n : Nat)
  | p (n : Nat)
  | acc (n : Nat)
deriving DecidableEq, Repr

/-- A source: the register and its empty-action bit; `bang` is the written `!` (02 R27). -/
structure Src where
  o : Opd
  bang : Bool
deriving DecidableEq, Repr

/-- The guard: predicate 0 to 6, or 7 for pt, and its negation (02 R26). -/
structure Ctl where
  neg : Bool
  pg : Nat
deriving DecidableEq, Repr

/-- Type codes 0x0 to 0xD (02 R32, Table 2-8), in the order of their codes. -/
inductive Ty where
  | b32 | i32 | n32 | b64 | i64 | n64 | i16 | n16 | f32 | f16 | bf16 | f64 | f16x2 | bf16x2
deriving DecidableEq, Repr

/-- Rounding suffix (02 R31): nearest-even, toward zero, up, down. -/
inductive Rm where
  | ne | rz | rp | rm
deriving DecidableEq, Repr

/-- Conditions of `bru` (04 Table 4-4). -/
inductive BrCc where
  | z | nz | neg | nneg
deriving DecidableEq, Repr

/-- Conditions of `icmp` (05 R98). -/
inductive ICc where
  | eq | ne | lt | le | gt | ge
deriving DecidableEq, Repr

/-- Relations of `fcmp` (07 R170). -/
inductive FCc where
  | eq | ne | lt | le | gt | ge | un | or
deriving DecidableEq, Repr

/-- Selectors of `ident` (05 Table 5-2), in the order of their codes. -/
inductive IdSel where
  | lane | group | team | clux | cluy | cluz | cluster | ngroup | nteam | core | die | slot | tenant
deriving DecidableEq, Repr

/-- Modes of `xlane` (05 R104). -/
inductive XMode where
  | idx | xor | up | down
deriving DecidableEq, Repr

/-- Second operand of `xlane`: a v-register or an immediate 0 to 31 (05 R104). -/
inductive XArg where
  | reg (b : Src)
  | imm (n : Nat)
deriving DecidableEq, Repr

/-- Access widths (06 Table 6-6): 8, 16, 32, 64 and 128 bits. -/
inductive Wd where
  | b8 | b16 | b32 | b64 | b128
deriving DecidableEq, Repr

/-- Index operand of a memory operand: IDX, SCL, POL and their shared empty action FI (02 R25, R27). -/
structure IdxOp where
  i : Opd
  scl : Nat
  pol : Option Opd
  fi : Bool
deriving DecidableEq, Repr

/-- A format-M memory operand (02 R25). `bs` is the base kind; `off` is OFF19, 0 in index forms;
`idx` is the index form. -/
structure MemOp where
  bs : Bool
  base : Src
  off : BitVec 19
  idx : Option IdxOp
deriving DecidableEq, Repr

/-- A shed-ring operand (06 R143, R146): ring 0 to 7, view (true = consumer), offset or index. -/
structure RingOp where
  ring : Nat
  cons : Bool
  off : BitVec 19
  idx : Option IdxOp
deriving DecidableEq, Repr

/-- Scopes (01 R20), in the order of their codes. -/
inductive Scope where
  | grp | team | clu | dev | sys
deriving DecidableEq, Repr

/-- Operations of `atom` and `atomf` (12 Table 12-2). -/
inductive AOp where
  | add | sub | and | or | xor | min | max | exch | cas
deriving DecidableEq, Repr

/-- Destination of `qcp` (15 R342): global, scratchpad, or a ring. -/
inductive QDst where
  | g | sp | ring (n : Nat)
deriving DecidableEq, Repr

/-- Integer-class form bits: A, scalar form (Q), type (05 R87, R88). -/
structure IForm where
  ax : Bool
  scal : Bool
  ty : Ty
deriving DecidableEq, Repr

/-- Floating-point form bits: A, rounding, type (07 R165). -/
structure FForm where
  ax : Bool
  rm : Rm
  ty : Ty
deriving DecidableEq, Repr

/-- Modifiers of `hdrn` (16 Table 16-5). -/
structure DrnMods where
  bias : Bool
  act : Bool
  req : Bool
  amax : Bool
  sp : Bool
  clr : Bool
deriving DecidableEq, Repr

/-- Where an uncorrectable error strikes (18 R409). -/
inductive EccSite where
  | memory (pa : Nat)
  | vreg (core slot lane n : Nat)
  | xreg (core slot lane n : Nat)
  | sreg (core slot n : Nat)
  | scratch (team addr : Nat)
  | groupBuffer (core slot key : Nat)
  | teamLevel (team key : Nat)
  | clusterLevel (cluster key : Nat)
  | stash (team window entry off : Nat)
  | tile (team acc elem : Nat)
deriving DecidableEq, Repr

/-- One row of the table each. Rows with a `source_mnemonic` are instructions. -/
inductive Instr where
  -- control flow (04 Table 4-4)
  | nop (c : Ctl)
  | bra (c : Ctl) (off : BitVec 24)
  | braLong (c : Ctl) (off : Word64)
  | bru (c : Ctl) (cc : BrCc) (a : Src) (off : BitVec 24)
  | bruLong (c : Ctl) (cc : BrCc) (a : Src) (off : Word64)
  | brx (c : Ctl) (a : Src)
  | call (c : Ctl) (off : BitVec 24)
  | callLong (c : Ctl) (off : Word64)
  | callx (c : Ctl) (a : Src)
  | ret
  | join
  | exit (c : Ctl)
  | plog (c : Ctl) (d a b : Opd) (tt : BitVec 4)
  | voteAll (c : Ctl) (d a : Opd)
  | voteAny (c : Ctl) (d a : Opd)
  | voteLeader (c : Ctl) (d a : Opd)
  | voteBallot (c : Ctl) (scal : Bool) (d a : Opd)
  | ipf (c : Ctl) (l0 : Bool) (a b : Src)
  | iinv (c : Ctl) (d : Opd) (a b : Src)
  | iinvDone (id : Nat)
  | runaOn (c : Ctl)
  | runaOff (c : Ctl)
  | fetchFill (core line : Nat)
  | shadowLimitReached (core slot : Nat)
  -- integer and address (05 Table 5-1)
  | iadd (c : Ctl) (f : IForm) (d : Opd) (a b : Src)
  | iaddImm (c : Ctl) (f : IForm) (d : Opd) (a : Src) (imm : BitVec 19)
  | isub (c : Ctl) (f : IForm) (d : Opd) (a b : Src)
  | isubImm (c : Ctl) (f : IForm) (d : Opd) (a : Src) (imm : BitVec 19)
  | imul (c : Ctl) (f : IForm) (d : Opd) (a b : Src)
  | imulImm (c : Ctl) (f : IForm) (d : Opd) (a : Src) (imm : BitVec 19)
  | imulh (c : Ctl) (f : IForm) (d : Opd) (a b : Src)
  | imad (c : Ctl) (f : IForm) (d : Opd) (a b e : Src)
  | iabs (c : Ctl) (f : IForm) (d : Opd) (a : Src)
  | imin (c : Ctl) (f : IForm) (d : Opd) (a b : Src)
  | iminImm (c : Ctl) (f : IForm) (d : Opd) (a : Src) (imm : BitVec 19)
  | imax (c : Ctl) (f : IForm) (d : Opd) (a b : Src)
  | imaxImm (c : Ctl) (f : IForm) (d : Opd) (a : Src) (imm : BitVec 19)
  | lop (c : Ctl) (ax : Bool) (ty : Ty) (d : Opd) (a b e : Src) (tt : BitVec 8)
  | shl (c : Ctl) (f : IForm) (d : Opd) (a b : Src)
  | shlImm (c : Ctl) (f : IForm) (d : Opd) (a : Src) (imm : BitVec 19)
  | shr (c : Ctl) (f : IForm) (d : Opd) (a b : Src)
  | shrImm (c : Ctl) (f : IForm) (d : Opd) (a : Src) (imm : BitVec 19)
  | sar (c : Ctl) (f : IForm) (d : Opd) (a b : Src)
  | sarImm (c : Ctl) (f : IForm) (d : Opd) (a : Src) (imm : BitVec 19)
  | shfL (c : Ctl) (ax : Bool) (d : Opd) (a b e : Src)
  | shfR (c : Ctl) (ax : Bool) (d : Opd) (a b e : Src)
  | popc (c : Ctl) (f : IForm) (d : Opd) (a : Src)
  | clz (c : Ctl) (f : IForm) (d : Opd) (a : Src)
  | brev (c : Ctl) (ty : Ty) (d : Opd) (a : Src)
  | bfe (c : Ctl) (f : IForm) (d : Opd) (a b : Src)
  | bfi (c : Ctl) (f : IForm) (d : Opd) (a b e : Src)
  | prmt (c : Ctl) (d : Opd) (a b e : Src)
  | icmp (c : Ctl) (f : IForm) (cc : ICc) (d : Opd) (a b : Src)
  | icmpImm (c : Ctl) (f : IForm) (cc : ICc) (d : Opd) (a : Src) (imm : BitVec 19)
  | isel (c : Ctl) (ax : Bool) (ty : Ty) (d : Opd) (a b : Src) (q : Opd)
  | mov (c : Ctl) (f : IForm) (fromScal : Bool) (d : Opd) (a : Src)
  | movi (c : Ctl) (f : IForm) (d : Opd) (imm : BitVec 19)
  | moviLong (c : Ctl) (f : IForm) (d : Opd) (imm : Word64)
  | ident (c : Ctl) (scal : Bool) (sel : IdSel) (d : Opd)
  | xlane (c : Ctl) (ax : Bool) (mode : XMode) (ty : Ty) (d : Opd) (a : Src) (b : XArg)
  | lea (c : Ctl) (f : IForm) (d : Opd) (a b : Src) (sh : Nat)
  | cvti (c : Ctl) (f : IForm) (sty : Ty) (sat : Bool) (d : Opd) (a : Src)
  -- memory access (06 Table 6-7)
  | ld (c : Ctl) (ax : Bool) (w : Wd) (sx : Bool) (d : Opd) (m : MemOp)
  | ldLong (c : Ctl) (ax : Bool) (w : Wd) (sx : Bool) (d : Opd) (m : MemOp) (off : Word64)
  | loadDataArrival (id : Nat) (evict : Option Nat)
  | st (c : Ctl) (ax : Bool) (w : Wd) (a : Src) (m : MemOp)
  | stLong (c : Ctl) (ax : Bool) (w : Wd) (a : Src) (m : MemOp) (off : Word64)
  | lds (c : Ctl) (ax : Bool) (w : Wd) (sx fw clr : Bool) (d : Opd) (m : MemOp)
  | sts (c : Ctl) (ax : Bool) (w : Wd) (set : Bool) (a : Src) (m : MemOp)
  | ldr (c : Ctl) (ax : Bool) (w : Wd) (sx fw clr : Bool) (d : Opd) (r : RingOp)
  | str (c : Ctl) (ax : Bool) (w : Wd) (set : Bool) (a : Src) (r : RingOp)
  | pf (c : Ctl) (lvl : Nat) (m : MemOp)
  | pfLong (c : Ctl) (lvl : Nat) (m : MemOp) (off : Word64)
  | stmap (c : Ctl) (w : Nat) (a b e : Src)
  | stunmap (c : Ctl) (w : Nat)
  | femEmpty (c : Ctl) (a b : Src)
  | femFull (c : Ctl) (a b : Src)
  | femAx (c : Ctl) (a b : Src)
  | femPr (c : Ctl) (a b : Src)
  | ringq (c : Ctl) (ring : Nat) (d : Opd)
  | cwbL3 (c : Ctl) (d : Opd) (a b : Src)
  | cwbMem (c : Ctl) (d : Opd) (a b : Src)
  | cinvCore (c : Ctl) (d : Opd) (a b : Src)
  | cinvDie (c : Ctl) (d : Opd) (a b : Src)
  | cinvDev (c : Ctl) (d : Opd) (a b : Src)
  | cacheOpDone (id : Nat)
  | tlbq (c : Ctl) (kind : Nat) (d : Opd) (a : Src)
  | translationQueryDone (id : Nat)
  -- floating point (07 Table 7-4)
  | fadd (c : Ctl) (f : FForm) (d : Opd) (a b : Src)
  | faddImm (c : Ctl) (f : FForm) (d : Opd) (a : Src) (imm : BitVec 19)
  | fsub (c : Ctl) (f : FForm) (d : Opd) (a b : Src)
  | fmul (c : Ctl) (f : FForm) (d : Opd) (a b : Src)
  | fmulImm (c : Ctl) (f : FForm) (d : Opd) (a : Src) (imm : BitVec 19)
  | fma (c : Ctl) (f : FForm) (d : Opd) (a b e : Src)
  | fdot2 (c : Ctl) (f : FForm) (d : Opd) (a b e : Src)
  | fscale (c : Ctl) (f : FForm) (d : Opd) (a b : Src)
  | fmin (c : Ctl) (ax : Bool) (ty : Ty) (d : Opd) (a b : Src)
  | fminImm (c : Ctl) (ax : Bool) (ty : Ty) (d : Opd) (a : Src) (imm : BitVec 19)
  | fmax (c : Ctl) (ax : Bool) (ty : Ty) (d : Opd) (a b : Src)
  | fmaxImm (c : Ctl) (ax : Bool) (ty : Ty) (d : Opd) (a : Src) (imm : BitVec 19)
  | fmov (c : Ctl) (ax : Bool) (ty : Ty) (abs neg : Bool) (d : Opd) (a : Src)
  | fcmp (c : Ctl) (ty : Ty) (cc : FCc) (d : Opd) (a b : Src)
  | fcmpImm (c : Ctl) (ty : Ty) (cc : FCc) (d : Opd) (a : Src) (imm : BitVec 19)
  | fcvt (c : Ctl) (f : FForm) (sty : Ty) (hi : Bool) (d : Opd) (a : Src) (b : Option Src)
  | frnd (c : Ctl) (md : Rm) (ty : Ty) (d : Opd) (a : Src)
  | frcps (c : Ctl) (d : Opd) (a : Src)
  | frsqs (c : Ctl) (d : Opd) (a : Src)
  | fsqrt (c : Ctl) (f : FForm) (d : Opd) (a : Src)
  | fdiv (c : Ctl) (f : FForm) (d : Opd) (a b : Src)
  | fex2 (c : Ctl) (d : Opd) (a : Src)
  | flg2 (c : Ctl) (d : Opd) (a : Src)
  | longLatencyResult (id : Nat)
  | fclass (c : Ctl) (ty : Ty) (d : Opd) (a : Src)
  | fxtrExp (c : Ctl) (ty : Ty) (d : Opd) (a : Src)
  | fxtrMan (c : Ctl) (ty : Ty) (d : Opd) (a : Src)
  | xacc (c : Ctl) (ty : Ty) (acc : Src) (b : Src)
  | xrnd (c : Ctl) (md : Rm) (clr : Bool) (d : Opd) (acc : Src)
  -- approximate only (08 Table 8-7)
  | endorse (c : Ctl) (ty : Ty) (d : Opd) (a : Src)
  | rail (c : Ctl) (d : Opd) (code : Option Nat) (a : Option Src)
  | railq (c : Ctl) (d : Opd)
  | tolq (c : Ctl) (d : Opd) (a : Src)
  | regulatorStep (core : Nat)
  | regulatorSettle (core : Nat)
  -- visibility (11 Table 11-3)
  | cmt (c : Ctl) (sc : Scope) (excl : Bool) (d : Opd)
  | commitPlacement (id : Nat)
  | abt (c : Ctl) (sc : Scope) (d : Opd) (range : Option (Src × Src))
  | abortPlacement (id : Nat)
  | fence (c : Ctl) (sc : Scope)
  | lda (c : Ctl) (sc : Scope) (w : Wd) (sx : Bool) (d : Opd) (m : MemOp)
  | ldaLong (c : Ctl) (sc : Scope) (w : Wd) (sx : Bool) (d : Opd) (m : MemOp) (off : Word64)
  | bufq (c : Ctl) (d : Opd)
  | rlq (c : Ctl) (sp : Bool) (d : Opd) (a b : Src)
  | stashInvalidate (team window entry : Nat)
  -- atomics and synchronisation (12 Table 12-3)
  | atom (c : Ctl) (op : AOp) (sc : Scope) (ty : Ty) (d : Option Opd) (a b : Src) (e : Option Src)
  | atomf (c : Ctl) (op : AOp) (sc : Scope) (ty : Ty) (d : Option Opd) (a b : Src) (e : Option Src)
  | xadd (c : Ctl) (sc : Scope) (ty : Ty) (a b : Src)
  | atomicPerform (id word : Nat)
  | bari (c : Ctl) (bar : Nat) (a : Src)
  | barv (c : Ctl) (bar : Nat) (d : Opd)
  | barrierArrivalCounted (id : Nat)
  | barw (c : Ctl) (a : Src)
  | tkt (c : Ctl) (n : Nat) (d : Opd)
  | tktw (c : Ctl) (a : Src)
  | tkts (c : Ctl) (n : Nat)
  | park (c : Ctl) (sc : Scope) (d : Opd) (a b e : Src)
  | parkTimeout (core slot : Nat)
  | wake (c : Ctl) (sc : Scope) (d : Opd) (a b : Src)
  | groupWake (core slot : Nat)
  -- steps of the memory system and of the boot chain of replay
  -- (11 R231; 06 R114; 15 R337; 23 R481 to R488; 21 R449)
  | homeAcknowledge (id : Nat)
  | walkDone (id : Nat)
  | engineSectorComplete (core : Nat) (heddle : Bool) (id : Nat)
  | s1Complete
  | s2ToS3Transition
  | s3RetireTimeout
  | checkpointComplete
  | ckptRestoreComplete
  | replayIntervalBoundary (core slot : Nat)
  -- tasks (14 Table 14-7)
  | spawn (c : Ctl) (bin : Nat) (a : Src)
  | binf (c : Ctl) (bin : Nat)
  | binTimerExpiry (core bin : Nat)
  | binLaunch (core bin : Nat)
  | tpostRec (c : Ctl) (d : Opd) (a b : Src)
  | tpostBin (c : Ctl) (bin : Nat) (d : Opd) (a b : Src)
  | tdec (c : Ctl) (d : Opd) (a b : Src)
  | tq (c : Ctl) (d : Opd) (a : Src)
  | treadleReply (id : Nat)
  | taskDispatch (die idx : Nat)
  | lnch (c : Ctl) (d : Opd) (a : Src)
  | yield (c : Ctl)
  | selectLaunch
  | clusterPlace (lno : Nat)
  | clusterRetry (lno : Nat)
  | teamRetire (team : Nat)
  | gridComplete (lno : Nat)
  -- Quill (15 Table 15-6)
  | qcp (c : Ctl) (dst : QDst) (sc : Scope) (d : Opd) (blk b : Src)
  | qcpSt (c : Ctl) (dst : QDst) (sc : Scope) (d : Opd) (blk b : Src)
  | qcpm (c : Ctl) (d : Opd) (blk b e : Src)
  | qmc (c : Ctl) (sc : Scope) (d : Opd) (blk b e : Src)
  | qcol (c : Ctl) (sc : Scope) (d : Opd) (blk : Src)
  | qput (c : Ctl) (sc : Scope) (d : Opd) (blk : Src)
  | qget (c : Ctl) (sc : Scope) (d : Opd) (blk : Src)
  | qstatEng (c : Ctl) (d : Opd)
  | qstatCmd (c : Ctl) (d : Opd) (a : Src)
  | quillAccept (core : Nat)
  | quillDataPhaseStart (core id : Nat)
  | quillComplete (core id : Nat)
  | mcastReceive (core id team : Nat)
  | collectiveRelease (core id : Nat)
  | collectiveTimeout (core id : Nat)
  | peerTransferTimeout (core id : Nat)
  -- Heddle (16 Table 16-5)
  | hmm (c : Ctl) (ax : Bool) (acc : Opd) (blk : Src) (fa fb : Nat)
  | hmmf (c : Ctl) (acc : Opd) (blk : Src) (fa fb : Nat)
  | hclr (c : Ctl) (fp : Bool) (acc : Opd)
  | hacl (c : Ctl) (fp : Bool) (acc : Opd) (blk : Src)
  | hdrn (c : Ctl) (m : DrnMods) (sc : Scope) (acc : Opd) (blk : Src) (fo : Nat)
  | bpack (c : Ctl) (blk : Src) (fs : Nat)
  | bunpk (c : Ctl) (blk : Src) (fs : Nat)
  | fmtqSlot (c : Ctl) (d : Opd) (fs : Nat)
  | fmtqAcc (c : Ctl) (d : Opd) (acc : Nat)
  | heddleAccept (core : Nat)
  | heddleCommandStart (core id : Nat)
  | heddleComplete (core id : Nat)
  -- system (18 Table 18-8)
  | trap (c : Ctl) (n : Nat)
  | brkp (c : Ctl) (n : Nat)
  | siblingStop (core slot : Nat)
  | rtt
  | rttSkip
  | srd (c : Ctl) (num : Nat) (d : Opd) (i : Option Opd)
  | swr (c : Ctl) (num : Nat) (i : Option Opd) (a : Src)
  | sleep (c : Ctl) (a : Src)
  | sleepExpiry (core slot : Nat)
  | spt (c : Ctl)
  | sliceExpiry (core : Nat)
  | drainBudgetExpiry (team : Nat)
  | safepointWindowExpiry (core slot : Nat)
  | saveReported (clu : Nat)
  | teamRestore (clu : Nat)
  | preReqSaveHalted (tenant : Nat)
  | preReqEnd (tenant : Nat)
  | preReqAll (tenant : Nat)
  | mmFrespResume (tenant : Nat) (seq : BitVec 56)
  | mmFrespFail (tenant : Nat) (seq : BitVec 56)
  | mmInv (tenant : Nat) (w : Word64)
  | invalidationDone (tenant : Nat)
  | mmFqbaseWrite (tenant : Nat) (w : Word64)
  | mmFqptrHeadWrite (tenant : Nat) (w : Word64)
  | trdQptrTailWrite (q : Nat) (w : Word64)
  | trdQctlWrite (q : Nat) (w : Word64)
  | railSharedWrite (w : Word64)
  | specialRegisterWrite (off : Nat) (w : Word64)
  | eccCorrectable
  | eccUncorrectable (site : EccSite)
  | repairTableError (copy seg : Nat)
  | repairTableDoubleFault (seg : Nat)
  | repairTableRebuilt (seg : Nat)
  -- trace and debug (21 Table 21-10)
  | tmark (c : Ctl) (n : Nat) (a : Src)
  | msmp (c : Ctl)
  | rmark (c : Ctl) (d : Opd)
  | pcnt (c : Ctl) (d : Opd) (n : Nat)
  | vclk (c : Ctl) (d : Opd) (a : Src)
  | traceAggregationRelease (stream : Nat)
  | syncIntervalExpiry (stream : Nat)
  | idleStampReport (stream source : Nat)
  | svCtlWrite (stream : Nat) (w : Word64)
  | svBaseWrite (stream : Nat) (w : Word64)
  | svPtrWrite (stream : Nat) (w : Word64)
  | svRplWrite (stream : Nat) (w : Word64)
  | svRplgo (stream : Nat) (w : Word64)
  -- the platform (23)
  | hostPostedWrite (pa : Nat) (bytes : List Byte)
  | hostRead (pa len : Nat)
  | weftPeerWrite (peer : Nat) (va : Word64) (bytes : List Byte)
  | weftPeerRead (peer : Nat) (va : Word64) (len : Nat)
  | mailboxImageChunk (bytes : List Byte) (last : Bool)
  | attestationReport (nonce : List Byte)
  | logEntries
  | powerGood
  | bootSourceTimeout
  | networkImageFetched (image : List Byte)
  | mmCkptCheckpoint (base : Word64)
  | mmCkptRestore (base : Word64)
  | mmCkptBadOp (op : Nat)
  | thermalWarn (sensor : Nat) (t : BitVec 16)
  | thermalHold (sensor : Nat) (t : BitVec 16)
  | thermalHoldClear
  | thermalShutdown (sensor : Nat) (t : BitVec 16)
  | linkStateChange (port state width rate : Nat)
  | ptpSyncMessage (ofs : Word32) (lock : Bool) (stamp : Word64)
  | collectiveContributionArrival (core id rank : Nat) (bytes : List Byte) (agree : Bool)
  | cxlCacheSnoop (line : Nat) (inval : Bool)
  | lossOfPower
  | refreshBegin (mc : Nat)
  | refreshEnd (mc : Nat)
deriving DecidableEq, Repr

end Sys2Proof
end

