-- ==== Sys2Proof/Decode.lean ====
section
/-!
DEFINITION. Instruction words (02 R21 to R40 and the encoding table of every class). `parse` reads the
fields an opcode's entry names; `view` lays an instruction out in the fields of its format, and
`Instr.encode` packs them into words. A word is an instruction only when packing what was read
gives the word back, so every unused field and companion bit must be zero (02 R35).
Event rows have no word.
-/
namespace Sys2Proof

/-! ## Bit helpers -/

/-- Bits [lo + n - 1 : lo] of a number. -/
def bitsAt (w lo n : Nat) : Nat := w / 2 ^ lo % 2 ^ n

/-- Bit lo of a number. -/
def bitAt (w lo : Nat) : Bool := w / 2 ^ lo % 2 == 1

/-- A Bool as the bit it stands for. -/
def bit (b : Bool) : Nat := if b then 1 else 0

/-- The two's-complement value of the low n bits. -/
def sextInt (n w : Nat) : Int :=
  if w % 2 ^ n < 2 ^ (n - 1) then (w % 2 ^ n : Nat) else (w % 2 ^ n : Nat) - (2 ^ n : Nat)

/-! ## Codes of the enumerated fields -/

/-- The code of a type (02 Table 2-8). -/
def Ty.code : Ty → Nat
  | .b32 => 0 | .i32 => 1 | .n32 => 2 | .b64 => 3 | .i64 => 4 | .n64 => 5 | .i16 => 6 | .n16 => 7
  | .f32 => 8 | .f16 => 9 | .bf16 => 10 | .f64 => 11 | .f16x2 => 12 | .bf16x2 => 13

/-- The type of a code; 0xE and 0xF are reserved (02 Table 2-8). -/
def Ty.ofCode : Nat → Option Ty
  | 0 => some .b32 | 1 => some .i32 | 2 => some .n32 | 3 => some .b64 | 4 => some .i64
  | 5 => some .n64 | 6 => some .i16 | 7 => some .n16 | 8 => some .f32 | 9 => some .f16
  | 10 => some .bf16 | 11 => some .f64 | 12 => some .f16x2 | 13 => some .bf16x2 | _ => none

/-- Types whose operands are register pairs (02 R29). -/
def Ty.wide : Ty → Bool
  | .b64 | .i64 | .n64 | .f64 => true
  | _ => false

/-- Operand width in bits (02 Table 2-8). -/
def Ty.width : Ty → Nat
  | .b64 | .i64 | .n64 | .f64 => 64
  | .i16 | .n16 | .f16 | .bf16 => 16
  | _ => 32

def Rm.code : Rm → Nat
  | .ne => 0 | .rz => 1 | .rp => 2 | .rm => 3

def Rm.ofCode : Nat → Rm
  | 1 => .rz | 2 => .rp | 3 => .rm | _ => .ne

def BrCc.code : BrCc → Nat
  | .z => 0 | .nz => 1 | .neg => 2 | .nneg => 3

def BrCc.ofCode : Nat → Option BrCc
  | 0 => some .z | 1 => some .nz | 2 => some .neg | 3 => some .nneg | _ => none

def ICc.code : ICc → Nat
  | .eq => 0 | .ne => 1 | .lt => 2 | .le => 3 | .gt => 4 | .ge => 5

def ICc.ofCode : Nat → Option ICc
  | 0 => some .eq | 1 => some .ne | 2 => some .lt | 3 => some .le | 4 => some .gt | 5 => some .ge
  | _ => none

def FCc.code : FCc → Nat
  | .eq => 0 | .ne => 1 | .lt => 2 | .le => 3 | .gt => 4 | .ge => 5 | .un => 6 | .or => 7

def FCc.ofCode : Nat → Option FCc
  | 0 => some .eq | 1 => some .ne | 2 => some .lt | 3 => some .le | 4 => some .gt | 5 => some .ge
  | 6 => some .un | 7 => some .or | _ => none

def IdSel.code : IdSel → Nat
  | .lane => 0 | .group => 1 | .team => 2 | .clux => 3 | .cluy => 4 | .cluz => 5 | .cluster => 6
  | .ngroup => 7 | .nteam => 8 | .core => 9 | .die => 10 | .slot => 11 | .tenant => 12

def IdSel.ofCode : Nat → Option IdSel
  | 0 => some .lane | 1 => some .group | 2 => some .team | 3 => some .clux | 4 => some .cluy
  | 5 => some .cluz | 6 => some .cluster | 7 => some .ngroup | 8 => some .nteam | 9 => some .core
  | 10 => some .die | 11 => some .slot | 12 => some .tenant | _ => none

def XMode.code : XMode → Nat
  | .idx => 0 | .xor => 1 | .up => 2 | .down => 3

def XMode.ofCode : Nat → Option XMode
  | 0 => some .idx | 1 => some .xor | 2 => some .up | 3 => some .down | _ => none

def Wd.code : Wd → Nat
  | .b8 => 0 | .b16 => 1 | .b32 => 2 | .b64 => 3 | .b128 => 4

def Wd.ofCode : Nat → Option Wd
  | 0 => some .b8 | 1 => some .b16 | 2 => some .b32 | 3 => some .b64 | 4 => some .b128 | _ => none

/-- Access width in bytes. -/
def Wd.bytes : Wd → Nat
  | .b8 => 1 | .b16 => 2 | .b32 => 4 | .b64 => 8 | .b128 => 16

/-- Registers a value of this width takes (06 R143). -/
def Wd.regs : Wd → Nat
  | .b64 => 2 | .b128 => 4 | _ => 1

def Scope.code : Scope → Nat
  | .grp => 0 | .team => 1 | .clu => 2 | .dev => 3 | .sys => 4

def Scope.ofCode : Nat → Option Scope
  | 0 => some .grp | 1 => some .team | 2 => some .clu | 3 => some .dev | 4 => some .sys | _ => none

def AOp.code : AOp → Nat
  | .add => 0 | .sub => 1 | .and => 2 | .or => 3 | .xor => 4 | .min => 5 | .max => 6 | .exch => 7
  | .cas => 8

def AOp.ofCode : Nat → Option AOp
  | 0 => some .add | 1 => some .sub | 2 => some .and | 3 => some .or | 4 => some .xor
  | 5 => some .min | 6 => some .max | 7 => some .exch | 8 => some .cas | _ => none

/-! ## Specifiers (02 R28) -/

/-- Vector position: v below 0xC0, x from 0xC0. -/
def vecSpec (n : Nat) : Opd := if n < 192 then .v n else .x (n - 192)

/-- Scalar position: s below 0x40; 0xC0 and above name x-registers; the rest is ILLEGAL. -/
def scalSpec (n : Nat) : Option Opd :=
  if n < 64 then some (.s n) else if 192 ≤ n then some (.x (n - 192)) else none

/-- Predicate position: p0 to p6 and pt (7); 0xC0 and above name x-registers; the rest is ILLEGAL. -/
def predSpec (n : Nat) : Option Opd :=
  if n < 8 then some (.p n) else if 192 ≤ n then some (.x (n - 192)) else none

/-- Accumulator position (16 R367): acc0 to acc7. -/
def accSpec (n : Nat) : Option Opd := if n < 8 then some (.acc n) else none

/-- A position that is scalar in the scalar form and vector otherwise (05 R87). -/
def formSpec (scal : Bool) (n : Nat) : Option Opd := if scal then scalSpec n else some (vecSpec n)

def Opd.code : Opd → Nat
  | .v n => n | .x n => 192 + n | .s n => n | .p n => n | .acc n => n

/-! ## The formats (02 Tables 2-2 to 2-5) -/

/-- The fields below the head of a word, by format. -/
inductive Body where
  | r (dst sa sb sc : Nat) (fa fb fc : Bool) (md ext : Nat)
  | i (dst sa imm : Nat) (fa : Bool) (md ext6 : Nat)
  | b (off cnd : Nat) (fc : Bool) (md ext : Nat)
  | m (dt base mid : Nat) (bs ix : Bool) (mod6 : Nat) (fd fb fi : Bool) (ext4 : Nat)
deriving DecidableEq, Repr

/-- An instruction laid out in fields. `w1` is the second word of a long form. -/
structure View where
  op : Nat
  ax : Bool
  c : Ctl
  body : Body
  w1 : Option Nat
deriving DecidableEq, Repr

def Body.pack : Body → Nat
  | .r dst sa sb sc fa fb fc md ext =>
    dst * 2 ^ 43 + sa * 2 ^ 35 + sb * 2 ^ 27 + sc * 2 ^ 19 + bit fa * 2 ^ 18 + bit fb * 2 ^ 17
      + bit fc * 2 ^ 16 + md * 2 ^ 8 + ext * 2
  | .i dst sa imm fa md ext6 =>
    dst * 2 ^ 43 + sa * 2 ^ 35 + imm * 2 ^ 16 + md * 2 ^ 8 + ext6 * 2 ^ 2 + bit fa * 2
  | .b off cnd fc md ext => off * 2 ^ 27 + cnd * 2 ^ 19 + bit fc * 2 ^ 18 + md * 2 ^ 8 + ext * 2
  | .m dt base mid bs ix mod6 fd fb fi ext4 =>
    dt * 2 ^ 43 + base * 2 ^ 35 + mid * 2 ^ 16 + bit bs * 2 ^ 15 + bit ix * 2 ^ 14 + mod6 * 2 ^ 8
      + bit fd * 2 ^ 7 + bit fb * 2 ^ 6 + bit fi * 2 ^ 5 + ext4 * 2

/-- The first word (02 R24). -/
def View.word0 (v : View) : Nat :=
  v.op * 2 ^ 56 + bit v.ax * 2 ^ 55 + bit v.c.neg * 2 ^ 54 + v.c.pg * 2 ^ 51 + v.body.pack
    + bit v.w1.isSome

/-! Field readers of a first word. -/
def fOp (w : Nat) : Nat := bitsAt w 56 8
def fAx (w : Nat) : Bool := bitAt w 55
def fCtl (w : Nat) : Ctl := ⟨bitAt w 54, bitsAt w 51 3⟩
def fDst (w : Nat) : Nat := bitsAt w 43 8
def fSa (w : Nat) : Nat := bitsAt w 35 8
def fSb (w : Nat) : Nat := bitsAt w 27 8
def fSc (w : Nat) : Nat := bitsAt w 19 8
def fFa (w : Nat) : Bool := bitAt w 18
def fFb (w : Nat) : Bool := bitAt w 17
def fFc (w : Nat) : Bool := bitAt w 16
def fMod (w : Nat) : Nat := bitsAt w 8 8
def fExt (w : Nat) : Nat := bitsAt w 1 7
def fImm (w : Nat) : BitVec 19 := BitVec.ofNat 19 (bitsAt w 16 19)
def fExt6 (w : Nat) : Nat := bitsAt w 2 6
def fFaI (w : Nat) : Bool := bitAt w 1
def fOff24 (w : Nat) : BitVec 24 := BitVec.ofNat 24 (bitsAt w 27 24)
def fBs (w : Nat) : Bool := bitAt w 15
def fIx (w : Nat) : Bool := bitAt w 14
def fFd (w : Nat) : Bool := bitAt w 7
def fFbM (w : Nat) : Bool := bitAt w 6
def fFi (w : Nat) : Bool := bitAt w 5
def fExt4 (w : Nat) : Nat := bitsAt w 1 4
def fLong (w : Nat) : Bool := bitAt w 0
/-- MOD[15], which chooses format I where an opcode has both (02 R31). -/
def fI (w : Nat) : Bool := bitAt w 15
/-- MOD[14], Q (02 R31). -/
def fQ (w : Nat) : Bool := bitAt w 14
def fRm (w : Nat) : Rm := Rm.ofCode (bitsAt w 12 2)
def fTy (w : Nat) : Option Ty := Ty.ofCode (bitsAt w 8 4)
/-- MOD[10:8], where scopes stand in the classes 0x90, 0xC0 and 0xD0. -/
def fScope (w : Nat) : Option Scope := Scope.ofCode (bitsAt w 8 3)

def srcA (w : Nat) (o : Opd) : Src := ⟨o, fFa w⟩
def srcB (w : Nat) (o : Opd) : Src := ⟨o, fFb w⟩
def srcC (w : Nat) (o : Opd) : Src := ⟨o, fFc w⟩
def vA (w : Nat) : Src := srcA w (vecSpec (fSa w))
def vB (w : Nat) : Src := srcB w (vecSpec (fSb w))
def vC (w : Nat) : Src := srcC w (vecSpec (fSc w))
def sA (w : Nat) : Option Src := (scalSpec (fSa w)).map (srcA w)
def sB (w : Nat) : Option Src := (scalSpec (fSb w)).map (srcB w)
def sC (w : Nat) : Option Src := (scalSpec (fSc w)).map (srcC w)
def vD (w : Nat) : Opd := vecSpec (fDst w)
def sD (w : Nat) : Option Opd := scalSpec (fDst w)
def pD (w : Nat) : Option Opd := predSpec (fDst w)

/-! ## Reading an instruction from its word -/

/-- The form bits of the integer class (05 R87). -/
def fIForm (w : Nat) : Option IForm := (fTy w).map (⟨fAx w, fQ w, ·⟩)
/-- The form bits of the floating-point class (07 R165). -/
def fFForm (w : Nat) : Option FForm := (fTy w).map (⟨fAx w, fRm w, ·⟩)

/-- The memory operand of format M (02 R25); OFF19 is kept only outside the index form. -/
def parseMem (w : Nat) : Option MemOp := do
  let b ← if fBs w then scalSpec (fSa w) else some (vecSpec (fSa w))
  let base : Src := ⟨b, fFbM w⟩
  if fIx w then
    let pol ← if bitsAt w 16 8 = 255 then some none else (scalSpec (bitsAt w 16 8)).map some
    some ⟨fBs w, base, 0, some ⟨vecSpec (fSb w), bitsAt w 24 3, pol, fFi w⟩⟩
  else some ⟨fBs w, base, fImm w, none⟩

/-- A ring operand (06 R143): ring in BASE[2:0], view in BASE[3]. -/
def parseRing (w : Nat) : Option RingOp := do
  let m ← parseMem w
  some ⟨fSa w % 8, fSa w / 8 % 2 == 1, m.off, m.idx⟩

def parseCtl (w w1 : Nat) : Option Instr :=
  let c := fCtl w
  let off := fOff24 w
  let long := BitVec.ofNat 64 w1
  match fOp w with
  | 0x01 => some (.nop c)
  | 0x02 => some (if fLong w then .braLong c long else .bra c off)
  | 0x03 => do
    let cc ← BrCc.ofCode (fExt w)
    let a := (⟨← scalSpec (fSc w), bitAt w 18⟩ : Src)
    some (if fLong w then .bruLong c cc a long else .bru c cc a off)
  | 0x04 => some (.brx c (vA w))
  | 0x05 => some (if fLong w then .callLong c long else .call c off)
  | 0x06 => some (.callx c (vA w))
  | 0x07 => some .ret
  | 0x08 => some .join
  | 0x09 => some (.exit c)
  | 0x0A => do some (.plog c (← pD w) (← predSpec (fSa w)) (← predSpec (fSb w))
      (BitVec.ofNat 4 (fExt w)))
  | 0x0B => do
    let a ← predSpec (fSa w)
    match fExt w with
    | 0 => some (.voteAll c (← pD w) a)
    | 1 => some (.voteAny c (← pD w) a)
    | 2 => if bitAt w 8 then some (.voteBallot c true (← sD w) a)
           else some (.voteBallot c false (vD w) a)
    | 3 => some (.voteLeader c (← pD w) a)
    | _ => none
  | 0x0C => do some (.ipf c (fExt w == 1) (← sA w) (← sB w))
  | 0x0D => do some (.iinv c (← sD w) (← sA w) (← sB w))
  | 0x0E => match fExt w with
    | 0 => some (.runaOff c)
    | 1 => some (.runaOn c)
    | _ => none
  | _ => none

/-- A three-field integer instruction with formats R and I (05 Table 5-1). -/
def parseRI (w : Nat) (r : IForm → Opd → Src → Src → Instr)
    (i : IForm → Opd → Src → BitVec 19 → Instr) : Option Instr := do
  let f ← fIForm w
  let d ← formSpec f.scal (fDst w)
  let a ← formSpec f.scal (fSa w)
  if fI w then some (i f d ⟨a, fFaI w⟩ (fImm w))
  else some (r f d (srcA w a) (srcB w (← formSpec f.scal (fSb w))))

/-- A two-source integer instruction of format R. -/
def parseR2 (w : Nat) (r : IForm → Opd → Src → Src → Instr) : Option Instr := do
  let f ← fIForm w
  some (r f (← formSpec f.scal (fDst w)) (srcA w (← formSpec f.scal (fSa w)))
    (srcB w (← formSpec f.scal (fSb w))))

/-- A three-source integer instruction of format R. -/
def parseR3 (w : Nat) (r : IForm → Opd → Src → Src → Src → Instr) : Option Instr := do
  let f ← fIForm w
  some (r f (← formSpec f.scal (fDst w)) (srcA w (← formSpec f.scal (fSa w)))
    (srcB w (← formSpec f.scal (fSb w))) (srcC w (← formSpec f.scal (fSc w))))

/-- A one-source integer instruction of format R. -/
def parseR1 (w : Nat) (r : IForm → Opd → Src → Instr) : Option Instr := do
  let f ← fIForm w
  some (r f (← formSpec f.scal (fDst w)) (srcA w (← formSpec f.scal (fSa w))))

def parseInt (w w1 : Nat) : Option Instr :=
  let c := fCtl w
  match fOp w with
  | 0x20 => parseRI w (.iadd c) (.iaddImm c)
  | 0x21 => parseRI w (.isub c) (.isubImm c)
  | 0x22 => parseRI w (.imul c) (.imulImm c)
  | 0x23 => parseR2 w (.imulh c)
  | 0x24 => parseR3 w (.imad c)
  | 0x25 => parseR1 w (.iabs c)
  | 0x26 => parseRI w (.imin c) (.iminImm c)
  | 0x27 => parseRI w (.imax c) (.imaxImm c)
  | 0x28 => do some (.lop c (fAx w) (← fTy w) (vD w) (vA w) (vB w) (vC w)
      (BitVec.ofNat 8 (bit (fQ w) * 128 + fExt w)))
  | 0x29 => parseRI w (.shl c) (.shlImm c)
  | 0x2A => parseRI w (.shr c) (.shrImm c)
  | 0x2B => parseRI w (.sar c) (.sarImm c)
  | 0x2C => match fExt w with
    | 0 => some (.shfL c (fAx w) (vD w) (vA w) (vB w) (vC w))
    | 1 => some (.shfR c (fAx w) (vD w) (vA w) (vB w) (vC w))
    | _ => none
  | 0x2D => parseR1 w (.popc c)
  | 0x2E => parseR1 w (.clz c)
  | 0x2F => do some (.brev c (← fTy w) (vD w) (vA w))
  | 0x30 => parseR2 w (.bfe c)
  | 0x31 => parseR3 w (.bfi c)
  | 0x32 => do
    let f ← fIForm w
    let d ← pD w
    let a ← formSpec f.scal (fSa w)
    if fI w then some (.icmpImm c f (← ICc.ofCode (fExt6 w)) d ⟨a, fFaI w⟩ (fImm w))
    else some (.icmp c f (← ICc.ofCode (fExt w)) d (srcA w a) (srcB w (← formSpec f.scal (fSb w))))
  | 0x33 => do some (.isel c (fAx w) (← fTy w) (vD w) (vA w) (vB w) (← predSpec (fSc w)))
  | 0x34 => do
    let f ← fIForm w
    let fromScal := fExt w == 1
    some (.mov c f fromScal (← formSpec f.scal (fDst w)) (srcA w (← formSpec fromScal (fSa w))))
  | 0x35 => do
    let f ← fIForm w
    let d ← formSpec f.scal (fDst w)
    some (if fLong w then .moviLong c f d (BitVec.ofNat 64 w1) else .movi c f d (fImm w))
  | 0x36 => do some (.ident c (fQ w) (← IdSel.ofCode (fExt w)) (← formSpec (fQ w) (fDst w)))
  | 0x37 => do
    let b := if fExt w < 4 then XArg.reg (vB w) else XArg.imm (fSc w)
    some (.xlane c (fAx w) (← XMode.ofCode (fExt w % 4)) (← fTy w) (vD w) (vA w) b)
  | 0x38 => do
    let f ← fIForm w
    some (.lea c f (← formSpec f.scal (fDst w)) (srcA w (← formSpec f.scal (fSa w)))
      (srcB w (← formSpec f.scal (fSb w))) (fSc w))
  | 0x39 => do
    let f ← fIForm w
    some (.cvti c f (← Ty.ofCode (fExt w % 16)) (fExt w / 16 % 2 == 1)
      (← formSpec f.scal (fDst w)) (srcA w (← formSpec f.scal (fSa w))))
  | 0x3A => some (.prmt c (vD w) (vA w) (vB w) (vC w))
  | _ => none

/-- MOD6 of format M (06 Table 6-6): WD, SX, Q2. -/
def fWd (w : Nat) : Option Wd := Wd.ofCode (bitsAt w 8 3)
def fSx (w : Nat) : Bool := bitAt w 11
def fQ2 (w : Nat) : Nat := bitsAt w 12 2

def parseMemory (w w1 : Nat) : Option Instr :=
  let c := fCtl w
  let long := BitVec.ofNat 64 w1
  let dt := vecSpec (fDst w)
  let ds : Src := ⟨dt, fFd w⟩
  match fOp w with
  | 0x40 => do
    let m ← parseMem w
    let wd ← fWd w
    some (if fLong w then .ldLong c (fAx w) wd (fSx w) dt m long else .ld c (fAx w) wd (fSx w) dt m)
  | 0x41 => do
    let m ← parseMem w
    let wd ← fWd w
    some (if fLong w then .stLong c (fAx w) wd ds m long else .st c (fAx w) wd ds m)
  | 0x42 => do
    some (.lds c (fAx w) (← fWd w) (fSx w) (fQ2 w % 2 == 1) (fQ2 w / 2 == 1) dt (← parseMem w))
  | 0x43 => do some (.sts c (fAx w) (← fWd w) (fQ2 w % 2 == 1) ds (← parseMem w))
  | 0x44 => do
    some (.ldr c (fAx w) (← fWd w) (fSx w) (fQ2 w % 2 == 1) (fQ2 w / 2 == 1) dt (← parseRing w))
  | 0x45 => do some (.str c (fAx w) (← fWd w) (fQ2 w % 2 == 1) ds (← parseRing w))
  | 0x46 => do
    let m ← parseMem w
    some (if fLong w then .pfLong c (fExt4 w) m long else .pf c (fExt4 w) m)
  | 0x47 => do some (.stmap c (fExt w) (← sA w) (← sB w) (← sC w))
  | 0x48 => some (.stunmap c (fExt w))
  | 0x49 => do
    let a ← sA w
    let b ← sB w
    match fExt w with
    | 0 => some (.femEmpty c a b)
    | 1 => some (.femFull c a b)
    | 2 => some (.femAx c a b)
    | 3 => some (.femPr c a b)
    | _ => none
  | 0x4A => do some (.ringq c (fExt w) (← sD w))
  | 0x4B => do
    let d ← sD w
    let a ← sA w
    let b ← sB w
    match fExt w with
    | 0 => some (.cwbL3 c d a b)
    | 1 => some (.cwbMem c d a b)
    | _ => none
  | 0x4C => do
    let d ← sD w
    let a ← sA w
    let b ← sB w
    match fExt w with
    | 0 => some (.cinvCore c d a b)
    | 1 => some (.cinvDie c d a b)
    | 2 => some (.cinvDev c d a b)
    | _ => none
  | 0x4D => do some (.tlbq c (fExt w) (← sD w) (← sA w))
  | _ => none

/-- A two-source floating-point instruction with formats R and I (07 Table 7-4). -/
def parseFRI (w : Nat) (r : FForm → Opd → Src → Src → Instr)
    (i : FForm → Opd → Src → BitVec 19 → Instr) : Option Instr := do
  let f ← fFForm w
  some (if fI w then i f (vD w) ⟨vecSpec (fSa w), fFaI w⟩ (fImm w) else r f (vD w) (vA w) (vB w))

def parseFp (w : Nat) : Option Instr :=
  let c := fCtl w
  match fOp w with
  | 0x60 => parseFRI w (.fadd c) (.faddImm c)
  | 0x61 => do some (.fsub c (← fFForm w) (vD w) (vA w) (vB w))
  | 0x62 => parseFRI w (.fmul c) (.fmulImm c)
  | 0x63 => do some (.fma c (← fFForm w) (vD w) (vA w) (vB w) (vC w))
  | 0x64 => parseFRI w (fun f => .fmin c f.ax f.ty) (fun f => .fminImm c f.ax f.ty)
  | 0x65 => parseFRI w (fun f => .fmax c f.ax f.ty) (fun f => .fmaxImm c f.ax f.ty)
  | 0x66 => do some (.fmov c (fAx w) (← fTy w) (bitAt (fExt w) 1) (bitAt (fExt w) 2) (vD w) (vA w))
  | 0x67 => do
    let t ← fTy w
    let d ← pD w
    if fI w then
      some (.fcmpImm c t (← FCc.ofCode (fExt6 w)) d ⟨vecSpec (fSa w), fFaI w⟩ (fImm w))
    else some (.fcmp c t (← FCc.ofCode (fExt w)) d (vA w) (vB w))
  | 0x68 => do
    let f ← fFForm w
    let b := if f.ty = .f16x2 ∨ f.ty = .bf16x2 then some (vB w) else none
    some (.fcvt c f (← Ty.ofCode (fExt w % 16)) (fExt w / 16 % 2 == 1) (vD w) (vA w) b)
  | 0x69 => do some (.frnd c (fRm w) (← fTy w) (vD w) (vA w))
  | 0x6A => some (.frcps c (vD w) (vA w))
  | 0x6B => some (.frsqs c (vD w) (vA w))
  | 0x6C => do some (.fsqrt c (← fFForm w) (vD w) (vA w))
  | 0x6D => do some (.fdiv c (← fFForm w) (vD w) (vA w) (vB w))
  | 0x6E => some (.fex2 c (vD w) (vA w))
  | 0x6F => some (.flg2 c (vD w) (vA w))
  | 0x70 => do some (.fclass c (← fTy w) (vD w) (vA w))
  | 0x71 => do some (.fscale c (← fFForm w) (vD w) (vA w) (vB w))
  | 0x72 => do
    let t ← fTy w
    match fExt w with
    | 0 => some (.fxtrExp c t (vD w) (vA w))
    | 1 => some (.fxtrMan c t (vD w) (vA w))
    | _ => none
  | 0x73 => do some (.fdot2 c (← fFForm w) (vD w) (vA w) (vB w) (vC w))
  | 0x74 => do some (.xacc c (← fTy w) (vA w) (vB w))
  | 0x75 => some (.xrnd c (fRm w) (fQ w) (vD w) (vA w))
  | _ => none

def parseApprox (w : Nat) : Option Instr :=
  let c := fCtl w
  match fOp w with
  | 0x80 => do some (.endorse c (← fTy w) (vD w) (vA w))
  | 0x81 => do
    if fExt w = 8 then some (.rail c (← sD w) none (some (← sA w)))
    else some (.rail c (← sD w) (some (fExt w)) none)
  | 0x82 => do some (.railq c (← sD w))
  | 0x83 => do some (.tolq c (← sD w) (← sA w))
  | _ => none

def parseVis (w w1 : Nat) : Option Instr :=
  let c := fCtl w
  match fOp w with
  | 0x90 => do some (.cmt c (← fScope w) (bitAt w 11) (← sD w))
  | 0x91 => do
    let sc ← fScope w
    let d ← sD w
    match fExt w with
    | 0 => some (.abt c sc d none)
    | 1 => some (.abt c sc d (some (← sA w, ← sB w)))
    | _ => none
  | 0x92 => do some (.fence c (← fScope w))
  | 0x93 => do
    let sc ← Scope.ofCode (fQ2 w + 1)
    let wd ← fWd w
    let m ← parseMem w
    some (if fLong w then .ldaLong c sc wd (fSx w) (vD w) m (BitVec.ofNat 64 w1)
      else .lda c sc wd (fSx w) (vD w) m)
  | 0x94 => do some (.bufq c (← sD w))
  | 0x95 => do some (.rlq c (fExt w == 1) (← sD w) (← sA w) (← sB w))
  | _ => none

/-- MOD[14:12], the scope of the class 0xA0 (12 R274). -/
def fScopeA (w : Nat) : Option Scope := Scope.ofCode (bitsAt w 12 3)

def parseSync (w : Nat) : Option Instr :=
  let c := fCtl w
  match fOp w with
  | 0xA0 => do
    let op ← AOp.ofCode (fExt w)
    some (.atom c op (← fScopeA w) (← fTy w) (if fI w then none else some (vD w)) (vA w) (vB w)
      (if op = .cas then some (vC w) else none))
  | 0xA1 => do
    let op ← AOp.ofCode (fExt w)
    some (.atomf c op (← fScopeA w) (← fTy w) (if fI w then none else some (vD w)) (vA w) (vB w)
      (if op = .cas then some (vC w) else none))
  | 0xA2 => do some (.xadd c (← fScopeA w) (← fTy w) (vA w) (vB w))
  | 0xA3 => do some (.bari c (fExt w) (← sA w))
  | 0xA4 => do some (.barv c (fExt w) (← sD w))
  | 0xA5 => do some (.barw c (← sA w))
  | 0xA6 => do some (.tkt c (fExt w) (← sD w))
  | 0xA7 => do some (.tktw c (← sA w))
  | 0xA8 => some (.tkts c (fExt w))
  | 0xA9 => do some (.park c (← fScopeA w) (← sD w) (← sA w) (← sB w) (← sC w))
  | 0xAA => do some (.wake c (← fScopeA w) (← sD w) (← sA w) (← sB w))
  | _ => none

def parseTask (w : Nat) : Option Instr :=
  let c := fCtl w
  match fOp w with
  | 0xB0 => some (.spawn c (fExt w) (vA w))
  | 0xB1 => some (.binf c (fExt w))
  | 0xB2 => do
    let d ← sD w
    let a ← sA w
    let b ← sB w
    if fExt w < 16 then some (.tpostRec c d a b) else some (.tpostBin c (fExt w - 16) d a b)
  | 0xB3 => do some (.tdec c (← sD w) (← sA w) (← sB w))
  | 0xB4 => do some (.tq c (← sD w) (← sA w))
  | 0xB5 => do some (.lnch c (← sD w) (← sA w))
  | 0xB6 => some (.yield c)
  | _ => none

/-- MOD[15:14], DK of `qcp` (15 R342). -/
def fQDst (w : Nat) : Option QDst :=
  match bitsAt w 14 2 with
  | 0 => some .g
  | 1 => some .sp
  | 2 => some (.ring (fExt w))
  | _ => none

def parseQuill (w : Nat) : Option Instr :=
  let c := fCtl w
  match fOp w with
  | 0xC0 => do
    let k ← fQDst w
    let sc ← fScope w
    let d ← sD w
    let a ← sA w
    let b ← sB w
    some (if bitAt w 13 then .qcpSt c k sc d a b else .qcp c k sc d a b)
  | 0xC1 => do some (.qcpm c (← sD w) (← sA w) (← sB w) (← sC w))
  | 0xC2 => do some (.qmc c (← fScope w) (← sD w) (← sA w) (← sB w) (← sC w))
  | 0xC3 => do some (.qcol c (← fScope w) (← sD w) (← sA w))
  | 0xC4 => do some (.qput c (← fScope w) (← sD w) (← sA w))
  | 0xC5 => do some (.qget c (← fScope w) (← sD w) (← sA w))
  | 0xC6 => do
    let d ← sD w
    match fExt w with
    | 0 => some (.qstatEng c d)
    | 1 => some (.qstatCmd c d (← sA w))
    | _ => none
  | _ => none

def parseHeddle (w : Nat) : Option Instr :=
  let c := fCtl w
  let e := fExt w
  match fOp w with
  | 0xD0 => do some (.hmm c (fAx w) (← accSpec (fDst w)) (← sA w) (e % 8) (e / 8))
  | 0xD1 => do some (.hmmf c (← accSpec (fDst w)) (← sA w) (e % 8) (e / 8))
  | 0xD2 => do some (.hclr c (bitAt e 3) (← accSpec (fDst w)))
  | 0xD3 => do some (.hacl c (bitAt e 3) (← accSpec (fDst w)) (← sA w))
  | 0xD4 => do
    some (.hdrn c ⟨bitAt w 15, bitAt w 14, bitAt w 13, bitAt w 12, bitAt w 11, bitAt e 3⟩
      (← fScope w) (← accSpec (fDst w)) (← sA w) (e % 8))
  | 0xD5 => do some (.bpack c (← sA w) e)
  | 0xD6 => do some (.bunpk c (← sA w) e)
  | 0xD7 => do
    let d ← sD w
    some (if bitAt e 3 then .fmtqAcc c d (e % 8) else .fmtqSlot c d (e % 8))
  | _ => none

def parseSys (w : Nat) : Option Instr :=
  let c := fCtl w
  match fOp w with
  | 0xE0 => some (.trap c (fExt w))
  | 0xE1 => match fExt w with
    | 0 => some .rtt
    | 1 => some .rttSkip
    | _ => none
  | 0xE2 => do
    let i ← if fExt6 w = 1 then (scalSpec (fSa w)).map some else some none
    some (.srd c (bitsAt w 16 12) (← sD w) i)
  | 0xE3 => do
    let i ← if fExt6 w = 1 then (sD w).map some else some none
    some (.swr c (bitsAt w 16 12) i ⟨← scalSpec (fSa w), fFaI w⟩)
  | 0xE4 => some (.brkp c (fExt w))
  | 0xE5 => do some (.sleep c (← sA w))
  | 0xE6 => some (.spt c)
  | _ => none

def parseTrace (w : Nat) : Option Instr :=
  let c := fCtl w
  match fOp w with
  | 0xF0 => do some (.tmark c (fExt w) (← sA w))
  | 0xF1 => some (.msmp c)
  | 0xF2 => do some (.rmark c (← sD w))
  | 0xF3 => do some (.pcnt c (← sD w) (fExt w))
  | 0xF4 => do some (.vclk c (← sD w) (← sA w))
  | _ => none

/-- The instruction whose entry the opcode selects, read from the fields that entry names
(02 Table 2-9). None: an unassigned or reserved opcode, an undefined sub-field value, or a
specifier code that R28 makes ILLEGAL. -/
def parse (w w1 : Nat) : Option Instr :=
  match fOp w / 16 with
  | 0x0 => parseCtl w w1
  | 0x2 | 0x3 => parseInt w w1
  | 0x4 => parseMemory w w1
  | 0x6 | 0x7 => parseFp w
  | 0x8 => parseApprox w
  | 0x9 => parseVis w w1
  | 0xA => parseSync w
  | 0xB => parseTask w
  | 0xC => parseQuill w
  | 0xD => parseHeddle w
  | 0xE => parseSys w
  | 0xF => parseTrace w
  | _ => none

/-! ## Laying an instruction out -/

/-- The guard of an instruction that takes only PG = 7 with PN = 0 (04 R70, 18 R411). -/
def Ctl.always : Ctl := ⟨false, 7⟩

/-- MOD of the integer class (02 Table 2-7). -/
def modI (imm : Bool) (f : IForm) : Nat := bit imm * 128 + bit f.scal * 64 + f.ty.code
/-- MOD of the floating-point class (02 Table 2-7). -/
def modF (imm : Bool) (md : Rm) (t : Ty) : Nat := bit imm * 128 + md.code * 16 + t.code

/-- Format R with the fields named; what is left out is zero. -/
def bodyR (dst : Nat := 0) (a : Src := ⟨.v 0, false⟩) (b : Src := ⟨.v 0, false⟩)
    (e : Src := ⟨.v 0, false⟩) (md : Nat := 0) (ext : Nat := 0) : Body :=
  .r dst a.o.code b.o.code e.o.code a.bang b.bang e.bang md ext

def vwR (op : Nat) (c : Ctl) (b : Body) (ax : Bool := false) : Option View := some ⟨op, ax, c, b, none⟩

/-- The integer class, formats R and I. -/
def vwInt (op : Nat) (c : Ctl) (f : IForm) (d : Nat) (a b e : Src) (ext : Nat) : Option View :=
  some ⟨op, f.ax, c, bodyR d a b e (modI false f) ext, none⟩
def vwIntImm (op : Nat) (c : Ctl) (f : IForm) (d : Opd) (a : Src) (imm : BitVec 19) (ext6 : Nat) :
    Option View :=
  some ⟨op, f.ax, c, .i d.code a.o.code imm.toNat a.bang (modI true f) ext6, none⟩
/-- The floating-point class, formats R and I. -/
def vwFp (op : Nat) (c : Ctl) (ax : Bool) (md : Rm) (t : Ty) (d : Opd) (a b e : Src) (ext : Nat) :
    Option View :=
  some ⟨op, ax, c, bodyR d.code a b e (modF false md t) ext, none⟩
def vwFpImm (op : Nat) (c : Ctl) (ax : Bool) (md : Rm) (t : Ty) (d : Opd) (a : Src)
    (imm : BitVec 19) (ext6 : Nat) : Option View :=
  some ⟨op, ax, c, .i d.code a.o.code imm.toNat a.bang (modF true md t) ext6, none⟩

/-- A source field the instruction does not read. -/
def Src.zero : Src := ⟨.v 0, false⟩

/-- The 19 bits [34:16] of format M. -/
def MemOp.mid (m : MemOp) : Nat :=
  match m.idx with
  | none => m.off.toNat
  | some i => i.i.code * 2 ^ 11 + i.scl * 2 ^ 8 + (match i.pol with | none => 255 | some p => p.code)
def MemOp.fi (m : MemOp) : Bool := match m.idx with | none => false | some i => i.fi

/-- Format M. `d` carries DT and FD. -/
def vwMem (op : Nat) (c : Ctl) (ax : Bool) (d : Src) (m : MemOp) (mod6 ext4 : Nat)
    (w1 : Option Nat) : Option View :=
  some ⟨op, ax, c, .m d.o.code m.base.o.code m.mid m.bs m.idx.isSome mod6 d.bang m.base.bang m.fi
    ext4, w1⟩
/-- Format M of `ldr` and `str`. -/
def vwRing (op : Nat) (c : Ctl) (ax : Bool) (d : Src) (r : RingOp) (mod6 : Nat) : Option View :=
  vwMem op c ax d ⟨false, ⟨.v (r.ring + 8 * bit r.cons), false⟩, r.off, r.idx⟩ mod6 0 none
def mod6 (w : Wd) (sx : Bool) (q2 : Nat) : Nat := q2 * 16 + bit sx * 8 + w.code
def Opd.src (o : Opd) : Src := ⟨o, false⟩

/-- Format B. -/
def vwBr (op : Nat) (c : Ctl) (cnd : Src) (ext : Nat) (off : BitVec 24) (w1 : Option Nat) :
    Option View :=
  some ⟨op, false, c, .b off.toNat cnd.o.code cnd.bang 0 ext, w1⟩

def XMode.view (m : XMode) : XArg → Src × Src × Nat
  | .reg b => (b, Src.zero, m.code)
  | .imm n => (Src.zero, ⟨.s n, false⟩, m.code + 4)

/-- MOD of `atom`, `atomf` and `xadd` (12 R274). -/
def modA (nr : Bool) (sc : Scope) (t : Ty) : Nat := bit nr * 128 + sc.code * 16 + t.code

def QDst.code : QDst → Nat
  | .g => 0 | .sp => 1 | .ring _ => 2
def QDst.ext : QDst → Nat
  | .ring n => n | _ => 0

/-- The fields of an instruction (the encoding table of every class). None for an event row. -/
def view : Instr → Option View
  | .nop c => vwR 0x01 c (bodyR)
  | .bra c off => vwBr 0x02 c Src.zero 0 off none
  | .braLong c off => vwBr 0x02 c Src.zero 0 0 (some off.toNat)
  | .bru c cc a off => vwBr 0x03 c a cc.code off none
  | .bruLong c cc a off => vwBr 0x03 c a cc.code 0 (some off.toNat)
  | .brx c a => vwR 0x04 c (bodyR (a := a))
  | .call c off => vwBr 0x05 c Src.zero 0 off none
  | .callLong c off => vwBr 0x05 c Src.zero 0 0 (some off.toNat)
  | .callx c a => vwR 0x06 c (bodyR (a := a))
  | .ret => vwR 0x07 Ctl.always (bodyR)
  | .join => vwR 0x08 Ctl.always (bodyR)
  | .exit c => vwR 0x09 c (bodyR)
  | .plog c d a b tt => vwR 0x0A c (bodyR (dst := d.code) (a := a.src) (b := b.src) (ext := tt.toNat))
  | .voteAll c d a => vwR 0x0B c (bodyR (dst := d.code) (a := a.src) (ext := 0))
  | .voteAny c d a => vwR 0x0B c (bodyR (dst := d.code) (a := a.src) (ext := 1))
  | .voteLeader c d a => vwR 0x0B c (bodyR (dst := d.code) (a := a.src) (ext := 3))
  | .voteBallot c scal d a =>
    vwR 0x0B c (bodyR (dst := d.code) (a := a.src) (md := bit scal) (ext := 2))
  | .ipf c l0 a b => vwR 0x0C c (bodyR (a := a) (b := b) (ext := bit l0))
  | .iinv c d a b => vwR 0x0D c (bodyR (dst := d.code) (a := a) (b := b))
  | .runaOn c => vwR 0x0E c (bodyR (ext := 1))
  | .runaOff c => vwR 0x0E c (bodyR (ext := 0))
  | .iadd c f d a b => vwInt 0x20 c f d.code a b Src.zero 0
  | .iaddImm c f d a imm => vwIntImm 0x20 c f d a imm 0
  | .isub c f d a b => vwInt 0x21 c f d.code a b Src.zero 0
  | .isubImm c f d a imm => vwIntImm 0x21 c f d a imm 0
  | .imul c f d a b => vwInt 0x22 c f d.code a b Src.zero 0
  | .imulImm c f d a imm => vwIntImm 0x22 c f d a imm 0
  | .imulh c f d a b => vwInt 0x23 c f d.code a b Src.zero 0
  | .imad c f d a b e => vwInt 0x24 c f d.code a b e 0
  | .iabs c f d a => vwInt 0x25 c f d.code a Src.zero Src.zero 0
  | .imin c f d a b => vwInt 0x26 c f d.code a b Src.zero 0
  | .iminImm c f d a imm => vwIntImm 0x26 c f d a imm 0
  | .imax c f d a b => vwInt 0x27 c f d.code a b Src.zero 0
  | .imaxImm c f d a imm => vwIntImm 0x27 c f d a imm 0
  | .lop c ax ty d a b e tt => some ⟨0x28, ax, c,
      bodyR d.code a b e (tt.toNat / 128 * 64 + ty.code) (tt.toNat % 128), none⟩
  | .shl c f d a b => vwInt 0x29 c f d.code a b Src.zero 0
  | .shlImm c f d a imm => vwIntImm 0x29 c f d a imm 0
  | .shr c f d a b => vwInt 0x2A c f d.code a b Src.zero 0
  | .shrImm c f d a imm => vwIntImm 0x2A c f d a imm 0
  | .sar c f d a b => vwInt 0x2B c f d.code a b Src.zero 0
  | .sarImm c f d a imm => vwIntImm 0x2B c f d a imm 0
  | .shfL c ax d a b e => vwInt 0x2C c ⟨ax, false, .b32⟩ d.code a b e 0
  | .shfR c ax d a b e => vwInt 0x2C c ⟨ax, false, .b32⟩ d.code a b e 1
  | .popc c f d a => vwInt 0x2D c f d.code a Src.zero Src.zero 0
  | .clz c f d a => vwInt 0x2E c f d.code a Src.zero Src.zero 0
  | .brev c ty d a => vwInt 0x2F c ⟨false, false, ty⟩ d.code a Src.zero Src.zero 0
  | .bfe c f d a b => vwInt 0x30 c f d.code a b Src.zero 0
  | .bfi c f d a b e => vwInt 0x31 c f d.code a b e 0
  | .icmp c f cc d a b => vwInt 0x32 c f d.code a b Src.zero cc.code
  | .icmpImm c f cc d a imm => vwIntImm 0x32 c f d a imm cc.code
  | .isel c ax ty d a b q => vwInt 0x33 c ⟨ax, false, ty⟩ d.code a b q.src 0
  | .mov c f fromScal d a => vwInt 0x34 c f d.code a Src.zero Src.zero (bit fromScal)
  | .movi c f d imm =>
    some ⟨0x35, f.ax, c, .i d.code 0 imm.toNat false (modI false f) 0, none⟩
  | .moviLong c f d imm =>
    some ⟨0x35, f.ax, c, .i d.code 0 0 false (modI false f) 0, some imm.toNat⟩
  | .ident c scal sel d =>
    vwInt 0x36 c ⟨false, scal, .n32⟩ d.code Src.zero Src.zero Src.zero sel.code
  | .xlane c ax m ty d a b =>
    vwInt 0x37 c ⟨ax, false, ty⟩ d.code a (m.view b).1 (m.view b).2.1 (m.view b).2.2
  | .lea c f d a b sh => vwInt 0x38 c f d.code a b ⟨.s sh, false⟩ 0
  | .cvti c f sty sat d a =>
    vwInt 0x39 c f d.code a Src.zero Src.zero (sty.code + 16 * bit sat)
  | .prmt c d a b e => vwInt 0x3A c ⟨false, false, .b32⟩ d.code a b e 0
  | .ld c ax w sx d m => vwMem 0x40 c ax d.src m (mod6 w sx 0) 0 none
  | .ldLong c ax w sx d m off => vwMem 0x40 c ax d.src m (mod6 w sx 0) 0 (some off.toNat)
  | .st c ax w a m => vwMem 0x41 c ax a m (mod6 w false 0) 0 none
  | .stLong c ax w a m off => vwMem 0x41 c ax a m (mod6 w false 0) 0 (some off.toNat)
  | .lds c ax w sx fw clr d m => vwMem 0x42 c ax d.src m (mod6 w sx (bit fw + 2 * bit clr)) 0 none
  | .sts c ax w set a m => vwMem 0x43 c ax a m (mod6 w false (bit set)) 0 none
  | .ldr c ax w sx fw clr d r => vwRing 0x44 c ax d.src r (mod6 w sx (bit fw + 2 * bit clr))
  | .str c ax w set a r => vwRing 0x45 c ax a r (mod6 w false (bit set))
  | .pf c lvl m => vwMem 0x46 c false Src.zero m 0 lvl none
  | .pfLong c lvl m off => vwMem 0x46 c false Src.zero m 0 lvl (some off.toNat)
  | .stmap c w a b e => vwR 0x47 c (bodyR 0 a b e 0 w)
  | .stunmap c w => vwR 0x48 c (bodyR (ext := w))
  | .femEmpty c a b => vwR 0x49 c (bodyR (a := a) (b := b) (ext := 0))
  | .femFull c a b => vwR 0x49 c (bodyR (a := a) (b := b) (ext := 1))
  | .femAx c a b => vwR 0x49 c (bodyR (a := a) (b := b) (ext := 2))
  | .femPr c a b => vwR 0x49 c (bodyR (a := a) (b := b) (ext := 3))
  | .ringq c ring d => vwR 0x4A c (bodyR (dst := d.code) (ext := ring))
  | .cwbL3 c d a b => vwR 0x4B c (bodyR (dst := d.code) (a := a) (b := b) (ext := 0))
  | .cwbMem c d a b => vwR 0x4B c (bodyR (dst := d.code) (a := a) (b := b) (ext := 1))
  | .cinvCore c d a b => vwR 0x4C c (bodyR (dst := d.code) (a := a) (b := b) (ext := 0))
  | .cinvDie c d a b => vwR 0x4C c (bodyR (dst := d.code) (a := a) (b := b) (ext := 1))
  | .cinvDev c d a b => vwR 0x4C c (bodyR (dst := d.code) (a := a) (b := b) (ext := 2))
  | .tlbq c kind d a => vwR 0x4D c (bodyR (dst := d.code) (a := a) (ext := kind))
  | .fadd c f d a b => vwFp 0x60 c f.ax f.rm f.ty d a b Src.zero 0
  | .faddImm c f d a imm => vwFpImm 0x60 c f.ax f.rm f.ty d a imm 0
  | .fsub c f d a b => vwFp 0x61 c f.ax f.rm f.ty d a b Src.zero 0
  | .fmul c f d a b => vwFp 0x62 c f.ax f.rm f.ty d a b Src.zero 0
  | .fmulImm c f d a imm => vwFpImm 0x62 c f.ax f.rm f.ty d a imm 0
  | .fma c f d a b e => vwFp 0x63 c f.ax f.rm f.ty d a b e 0
  | .fmin c ax ty d a b => vwFp 0x64 c ax .ne ty d a b Src.zero 0
  | .fminImm c ax ty d a imm => vwFpImm 0x64 c ax .ne ty d a imm 0
  | .fmax c ax ty d a b => vwFp 0x65 c ax .ne ty d a b Src.zero 0
  | .fmaxImm c ax ty d a imm => vwFpImm 0x65 c ax .ne ty d a imm 0
  | .fmov c ax ty abs neg d a =>
    vwFp 0x66 c ax .ne ty d a Src.zero Src.zero (2 * bit abs + 4 * bit neg)
  | .fcmp c ty cc d a b => vwFp 0x67 c false .ne ty d a b Src.zero cc.code
  | .fcmpImm c ty cc d a imm => vwFpImm 0x67 c false .ne ty d a imm cc.code
  | .fcvt c f sty hi d a b =>
    vwFp 0x68 c f.ax f.rm f.ty d a (b.getD Src.zero) Src.zero (sty.code + 16 * bit hi)
  | .frnd c md ty d a => vwFp 0x69 c false md ty d a Src.zero Src.zero 0
  | .frcps c d a => vwFp 0x6A c false .ne .f32 d a Src.zero Src.zero 0
  | .frsqs c d a => vwFp 0x6B c false .ne .f32 d a Src.zero Src.zero 0
  | .fsqrt c f d a => vwFp 0x6C c f.ax f.rm f.ty d a Src.zero Src.zero 0
  | .fdiv c f d a b => vwFp 0x6D c f.ax f.rm f.ty d a b Src.zero 0
  | .fex2 c d a => vwFp 0x6E c false .ne .f32 d a Src.zero Src.zero 0
  | .flg2 c d a => vwFp 0x6F c false .ne .f32 d a Src.zero Src.zero 0
  | .fclass c ty d a => vwFp 0x70 c false .ne ty d a Src.zero Src.zero 0
  | .fscale c f d a b => vwFp 0x71 c f.ax f.rm f.ty d a b Src.zero 0
  | .fxtrExp c ty d a => vwFp 0x72 c false .ne ty d a Src.zero Src.zero 0
  | .fxtrMan c ty d a => vwFp 0x72 c false .ne ty d a Src.zero Src.zero 1
  | .fdot2 c f d a b e => vwFp 0x73 c f.ax f.rm f.ty d a b e 0
  | .xacc c ty acc b => vwFp 0x74 c false .ne ty acc.o acc b Src.zero 0
  | .xrnd c md clr d acc => some ⟨0x75, false, c,
      bodyR (dst := d.code) (a := acc) (md := bit clr * 64 + md.code * 16 + 8), none⟩
  | .endorse c ty d a => vwFp 0x80 c false .ne ty d a Src.zero Src.zero 0
  | .rail c d code a => vwR 0x81 c (bodyR (dst := d.code) (a := a.getD Src.zero)
      (ext := code.getD 8))
  | .railq c d => vwR 0x82 c (bodyR (dst := d.code))
  | .tolq c d a => vwR 0x83 c (bodyR (dst := d.code) (a := a))
  | .cmt c sc excl d => vwR 0x90 c (bodyR (dst := d.code) (md := bit excl * 8 + sc.code))
  | .abt c sc d none => vwR 0x91 c (bodyR (dst := d.code) (md := sc.code))
  | .abt c sc d (some r) =>
    vwR 0x91 c (bodyR (dst := d.code) (a := r.1) (b := r.2) (md := sc.code) (ext := 1))
  | .fence c sc => vwR 0x92 c (bodyR (md := sc.code))
  | .lda c sc w sx d m => vwMem 0x93 c false d.src m (mod6 w sx (sc.code - 1)) 0 none
  | .ldaLong c sc w sx d m off =>
    vwMem 0x93 c false d.src m (mod6 w sx (sc.code - 1)) 0 (some off.toNat)
  | .bufq c d => vwR 0x94 c (bodyR (dst := d.code))
  | .rlq c sp d a b => vwR 0x95 c (bodyR (dst := d.code) (a := a) (b := b) (ext := bit sp))
  | .atom c op sc ty d a b e => vwR 0xA0 c (bodyR ((d.map Opd.code).getD 0) a b
      (e.getD Src.zero) (modA d.isNone sc ty) op.code)
  | .atomf c op sc ty d a b e => vwR 0xA1 c (bodyR ((d.map Opd.code).getD 0) a b
      (e.getD Src.zero) (modA d.isNone sc ty) op.code)
  | .xadd c sc ty a b => vwR 0xA2 c (bodyR (a := a) (b := b) (md := modA false sc ty))
  | .bari c bar a => vwR 0xA3 c (bodyR (a := a) (ext := bar))
  | .barv c bar d => vwR 0xA4 c (bodyR (dst := d.code) (ext := bar))
  | .barw c a => vwR 0xA5 c (bodyR (a := a))
  | .tkt c n d => vwR 0xA6 c (bodyR (dst := d.code) (ext := n))
  | .tktw c a => vwR 0xA7 c (bodyR (a := a))
  | .tkts c n => vwR 0xA8 c (bodyR (ext := n))
  | .park c sc d a b e => vwR 0xA9 c (bodyR d.code a b e (sc.code * 16) 0)
  | .wake c sc d a b => vwR 0xAA c (bodyR (dst := d.code) (a := a) (b := b) (md := sc.code * 16))
  | .spawn c bin a => vwR 0xB0 c (bodyR (a := a) (ext := bin))
  | .binf c bin => vwR 0xB1 c (bodyR (ext := bin))
  | .tpostRec c d a b => vwR 0xB2 c (bodyR (dst := d.code) (a := a) (b := b))
  | .tpostBin c bin d a b =>
    vwR 0xB2 c (bodyR (dst := d.code) (a := a) (b := b) (ext := 16 + bin))
  | .tdec c d a b => vwR 0xB3 c (bodyR (dst := d.code) (a := a) (b := b))
  | .tq c d a => vwR 0xB4 c (bodyR (dst := d.code) (a := a))
  | .lnch c d a => vwR 0xB5 c (bodyR (dst := d.code) (a := a))
  | .yield c => vwR 0xB6 c (bodyR)
  | .qcp c k sc d blk b => vwR 0xC0 c (bodyR d.code blk b Src.zero (k.code * 64 + sc.code) k.ext)
  | .qcpSt c k sc d blk b =>
    vwR 0xC0 c (bodyR d.code blk b Src.zero (k.code * 64 + 32 + sc.code) k.ext)
  | .qcpm c d blk b e => vwR 0xC1 c (bodyR d.code blk b e 3 0)
  | .qmc c sc d blk b e => vwR 0xC2 c (bodyR d.code blk b e sc.code 0)
  | .qcol c sc d blk => vwR 0xC3 c (bodyR (dst := d.code) (a := blk) (md := sc.code))
  | .qput c sc d blk => vwR 0xC4 c (bodyR (dst := d.code) (a := blk) (md := sc.code))
  | .qget c sc d blk => vwR 0xC5 c (bodyR (dst := d.code) (a := blk) (md := sc.code))
  | .qstatEng c d => vwR 0xC6 c (bodyR (dst := d.code))
  | .qstatCmd c d a => vwR 0xC6 c (bodyR (dst := d.code) (a := a) (ext := 1))
  | .hmm c ax acc blk fa fb =>
    vwR 0xD0 c (bodyR (dst := acc.code) (a := blk) (md := 3) (ext := fa + 8 * fb)) ax
  | .hmmf c acc blk fa fb =>
    vwR 0xD1 c (bodyR (dst := acc.code) (a := blk) (md := 3) (ext := fa + 8 * fb))
  | .hclr c fp acc => vwR 0xD2 c (bodyR (dst := acc.code) (ext := 8 * bit fp))
  | .hacl c fp acc blk => vwR 0xD3 c (bodyR (dst := acc.code) (a := blk) (md := 3) (ext := 8 * bit fp))
  | .hdrn c m sc acc blk fo => vwR 0xD4 c (bodyR (dst := acc.code) (a := blk)
      (md := bit m.bias * 128 + bit m.act * 64 + bit m.req * 32 + bit m.amax * 16 + bit m.sp * 8
        + sc.code) (ext := fo + 8 * bit m.clr))
  | .bpack c blk fs => vwR 0xD5 c (bodyR (a := blk) (md := 3) (ext := fs))
  | .bunpk c blk fs => vwR 0xD6 c (bodyR (a := blk) (md := 3) (ext := fs))
  | .fmtqSlot c d fs => vwR 0xD7 c (bodyR (dst := d.code) (ext := fs))
  | .fmtqAcc c d acc => vwR 0xD7 c (bodyR (dst := d.code) (ext := 8 + acc))
  | .trap c n => vwR 0xE0 c (bodyR (ext := n))
  | .brkp c n => vwR 0xE4 c (bodyR (ext := n))
  | .rtt => vwR 0xE1 Ctl.always (bodyR)
  | .rttSkip => vwR 0xE1 Ctl.always (bodyR (ext := 1))
  | .srd c num d i => some ⟨0xE2, false, c,
      .i d.code ((i.map Opd.code).getD 0) num false 0 (bit i.isSome), none⟩
  | .swr c num i a => some ⟨0xE3, false, c,
      .i ((i.map Opd.code).getD 0) a.o.code num a.bang 0 (bit i.isSome), none⟩
  | .sleep c a => vwR 0xE5 c (bodyR (a := a))
  | .spt c => vwR 0xE6 c (bodyR)
  | .tmark c n a => vwR 0xF0 c (bodyR (a := a) (ext := n))
  | .msmp c => vwR 0xF1 c (bodyR)
  | .rmark c d => vwR 0xF2 c (bodyR (dst := d.code))
  | .pcnt c d n => vwR 0xF3 c (bodyR (dst := d.code) (ext := n))
  | .vclk c d a => vwR 0xF4 c (bodyR (dst := d.code) (a := a))
  | _ => none

/-- The words of an instruction: the first word, and the second of a long form. -/
def Instr.encode (i : Instr) : Option (Nat × Option Nat) := (view i).map fun v => (v.word0, v.w1)

/-! ## Registers named and types accepted -/

/-- The kind of a specifier position (02 R28; 16 R367 for accumulators). -/
inductive Pos where
  | vec | scal | pred | acc
deriving DecidableEq, Repr

/-- What a position says of x-registers (02 R34). -/
inductive XUse where
  | no | may | must
deriving DecidableEq, Repr

/-- One register operand: its position, how many registers it takes, what it says of x-registers. -/
structure Need where
  o : Opd
  pos : Pos
  len : Nat
  x : XUse
deriving DecidableEq, Repr

def nS (o : Opd) : Need := ⟨o, .scal, 1, .no⟩
def nBlk (o : Opd) (k : Nat) : Need := ⟨o, .scal, k, .no⟩
def nP (o : Opd) : Need := ⟨o, .pred, 1, .no⟩
def nAcc (o : Opd) : Need := ⟨o, .acc, 1, .no⟩
/-- A vector position that takes k registers. -/
def nV (o : Opd) (k : Nat) (x : XUse) : Need := ⟨o, .vec, k, x⟩
/-- x-registers in sources: only A = 1 forms (02 R34 rule 2). -/
def xSrc (ax : Bool) : XUse := if ax then .may else .no
/-- x-registers in destinations: asked for by A = 1, admitted by A = 0 (02 R34 rules 1 and 4). -/
def xDst (ax : Bool) : XUse := if ax then .must else .may
/-- The registers an operand of a type takes (02 R29). -/
def Ty.regs (t : Ty) : Nat := if t.wide then 2 else 1

/-- An operand of the integer class: a scalar position in the scalar form (05 R87). -/
def nI (f : IForm) (o : Opd) (k : Nat) (x : XUse) : Need :=
  if f.scal then ⟨o, .scal, 1, if x = .must then .must else .no⟩ else ⟨o, .vec, k, x⟩
def nID (f : IForm) (d : Opd) : Need := nI f d f.ty.regs (xDst f.ax)
def nIS (f : IForm) (a : Src) : Need := nI f a.o f.ty.regs (xSrc f.ax)
/-- Operands of the floating-point class. -/
def nFD (ax : Bool) (t : Ty) (d : Opd) : Need := nV d t.regs (xDst ax)
def nFS (ax : Bool) (t : Ty) (a : Src) : Need := nV a.o t.regs (xSrc ax)
/-- The registers of a memory operand (02 R25, R29): address positions take no x-register. -/
def nMem (m : MemOp) : List Need :=
  (if m.bs then nS m.base.o else nV m.base.o 2 .no) ::
    (match m.idx with
     | none => []
     | some i => nV i.i 1 .no :: (match i.pol with | none => [] | some p => [nS p]))
def nRing (r : RingOp) : List Need :=
  match r.idx with
  | none => []
  | some i => [nV i.i 1 .no]
def nOpt (o : Option Opd) : List Need := match o with | none => [] | some x => [nS x]

/-- Every register operand of an instruction. -/
def needs : Instr → List Need
  | .bru _ _ a _ | .bruLong _ _ a _ => [nS a.o]
  | .brx _ a | .callx _ a => [nV a.o 2 .no]
  | .plog _ d a b _ => [nP d, nP a, nP b]
  | .voteAll _ d a | .voteAny _ d a | .voteLeader _ d a => [nP d, nP a]
  | .voteBallot _ scal d a => [if scal then nS d else nV d 1 .may, nP a]
  | .ipf _ _ a b => [nS a.o, nS b.o]
  | .iinv _ d a b => [nS d, nS a.o, nS b.o]
  | .iadd _ f d a b | .isub _ f d a b | .imul _ f d a b | .imulh _ f d a b | .imin _ f d a b
  | .imax _ f d a b | .shl _ f d a b | .shr _ f d a b | .sar _ f d a b | .bfe _ f d a b =>
    [nID f d, nIS f a, nIS f b]
  | .iaddImm _ f d a _ | .isubImm _ f d a _ | .imulImm _ f d a _ | .iminImm _ f d a _
  | .imaxImm _ f d a _ | .shlImm _ f d a _ | .shrImm _ f d a _ | .sarImm _ f d a _ =>
    [nID f d, nIS f a]
  | .imad _ f d a b e | .bfi _ f d a b e => [nID f d, nIS f a, nIS f b, nIS f e]
  | .iabs _ f d a | .popc _ f d a | .clz _ f d a => [nID f d, nIS f a]
  | .lop _ ax ty d a b e _ => [nFD ax ty d, nFS ax ty a, nFS ax ty b, nFS ax ty e]
  | .shfL _ ax d a b e | .shfR _ ax d a b e =>
    [nFD ax .b32 d, nFS ax .b32 a, nFS ax .b32 b, nFS ax .b32 e]
  | .brev _ ty d a => [nFD false ty d, nFS false ty a]
  | .icmp _ f _ d a b => [nP d, nIS f a, nIS f b]
  | .icmpImm _ f _ d a _ => [nP d, nIS f a]
  | .isel _ ax ty d a b q => [nFD ax ty d, nFS ax ty a, nFS ax ty b, nP q]
  | .mov _ f fromScal d a => [nID f d,
      if fromScal then nS a.o else nV a.o f.ty.regs (xSrc f.ax)]
  | .movi _ f d _ | .moviLong _ f d _ => [nID f d]
  | .ident _ scal _ d => [nID ⟨false, scal, .n32⟩ d]
  | .xlane _ ax _ ty d a b => [nFD ax ty d, nFS ax ty a] ++
      (match b with | .reg b => [nFS ax .b32 b] | .imm _ => [])
  | .lea _ f d a b _ => [nI f d 2 .no, nI f a.o 2 .no, nI f b.o 1 .no]
  | .cvti _ f sty _ d a => [nID f d, nI f a.o sty.regs .no]
  | .prmt _ d a b e => [nFD false .b32 d, nFS false .b32 a, nFS false .b32 b, nFS false .b32 e]
  | .ld _ ax w _ d m | .ldLong _ ax w _ d m _ | .lds _ ax w _ _ _ d m =>
    nV d w.regs (xDst ax) :: nMem m
  | .st _ ax w a m | .stLong _ ax w a m _ | .sts _ ax w _ a m => nV a.o w.regs (xSrc ax) :: nMem m
  | .ldr _ ax w _ _ _ d r => nV d w.regs (xDst ax) :: nRing r
  | .str _ ax w _ a r => nV a.o w.regs (xSrc ax) :: nRing r
  | .pf _ _ m | .pfLong _ _ m _ => nMem m
  | .stmap _ _ a b e => [nS a.o, nS b.o, nS e.o]
  | .femEmpty _ a b | .femFull _ a b | .femAx _ a b | .femPr _ a b => [nS a.o, nS b.o]
  | .ringq _ _ d => [nS d]
  | .cwbL3 _ d a b | .cwbMem _ d a b | .cinvCore _ d a b | .cinvDie _ d a b | .cinvDev _ d a b =>
    [nS d, nS a.o, nS b.o]
  | .tlbq _ _ d a => [nS d, nS a.o]
  | .fadd _ f d a b | .fsub _ f d a b | .fmul _ f d a b | .fdiv _ f d a b =>
    [nFD f.ax f.ty d, nFS f.ax f.ty a, nFS f.ax f.ty b]
  | .faddImm _ f d a _ | .fmulImm _ f d a _ | .fsqrt _ f d a => [nFD f.ax f.ty d, nFS f.ax f.ty a]
  | .fma _ f d a b e => [nFD f.ax f.ty d, nFS f.ax f.ty a, nFS f.ax f.ty b, nFS f.ax f.ty e]
  | .fdot2 _ f d a b e =>
    [nFD f.ax .f32 d, nFS f.ax .f32 a, nFS f.ax .f32 b, nFS f.ax .f32 e]
  | .fscale _ f d a b => [nFD f.ax f.ty d, nFS f.ax f.ty a, nFS f.ax .i32 b]
  | .fmin _ ax ty d a b | .fmax _ ax ty d a b => [nFD ax ty d, nFS ax ty a, nFS ax ty b]
  | .fminImm _ ax ty d a _ | .fmaxImm _ ax ty d a _ | .fmov _ ax ty _ _ d a =>
    [nFD ax ty d, nFS ax ty a]
  | .fcmp _ ty _ d a b => [nP d, nFS false ty a, nFS false ty b]
  | .fcmpImm _ ty _ d a _ => [nP d, nFS false ty a]
  | .fcvt _ f sty _ d a b => [nFD f.ax f.ty d, nFS f.ax sty a] ++
      (match b with | none => [] | some b => [nFS f.ax sty b])
  | .frnd _ _ ty d a => [nFD false ty d, nFS false ty a]
  | .frcps _ d a | .frsqs _ d a | .fex2 _ d a | .flg2 _ d a => [nFD false .f32 d, nFS false .f32 a]
  | .fclass _ ty d a | .fxtrExp _ ty d a => [nV d 1 .may, nFS false ty a]
  | .fxtrMan _ ty d a => [nFD false ty d, nFS false ty a]
  | .xacc _ ty acc b => [nV acc.o 10 .no, nFS false ty b]
  | .xrnd _ _ _ d acc => [nV d 1 .may, nV acc.o 10 .no]
  | .endorse _ ty d a => [nV d ty.regs .no, nV a.o ty.regs .may]
  | .rail _ d _ a => nS d :: nOpt (a.map Src.o)
  | .railq _ d | .bufq _ d => [nS d]
  | .tolq _ d a => [nS d, nS a.o]
  | .cmt _ _ _ d => [nS d]
  | .abt _ _ d r => nS d :: (match r with | none => [] | some p => [nS p.1.o, nS p.2.o])
  | .lda _ _ w _ d m | .ldaLong _ _ w _ d m _ => nV d w.regs .may :: nMem m
  | .rlq _ _ d a b => [nS d, nS a.o, nS b.o]
  | .atom _ _ _ ty d a b e | .atomf _ _ _ ty d a b e =>
    (match d with | none => [] | some d => [nV d ty.regs .no]) ++
      [nV a.o 2 .no, nV b.o ty.regs .no] ++
      (match e with | none => [] | some e => [nV e.o ty.regs .no])
  | .xadd _ _ ty a b => [nV a.o 2 .no, nV b.o ty.regs .no]
  | .bari _ _ a | .barw _ a | .tktw _ a | .sleep _ a | .tmark _ _ a => [nS a.o]
  | .barv _ _ d | .tkt _ _ d | .qstatEng _ d | .fmtqSlot _ d _ | .rmark _ d | .pcnt _ d _ => [nS d]
  | .park _ _ d a b e => [nS d, nS a.o, nS b.o, nS e.o]
  | .wake _ _ d a b | .tpostRec _ d a b | .tpostBin _ _ d a b | .tdec _ d a b =>
    [nS d, nS a.o, nS b.o]
  | .spawn _ _ a => [nV a.o 2 .no]
  | .tq _ d a | .lnch _ d a | .qstatCmd _ d a | .vclk _ d a => [nS d, nS a.o]
  | .qcp _ _ _ d blk b | .qcpSt _ _ _ d blk b => [nS d, nBlk blk.o 6, nS b.o]
  | .qcpm _ d blk b e | .qmc _ _ d blk b e => [nS d, nBlk blk.o 6, nS b.o, nS e.o]
  | .qcol _ _ d blk => [nS d, nBlk blk.o 3]
  | .qput _ _ d blk | .qget _ _ d blk => [nS d, nBlk blk.o 6]
  | .hmm _ _ acc blk _ _ | .hmmf _ acc blk _ _ => [nAcc acc, nBlk blk.o 5]
  | .hclr _ _ acc => [nAcc acc]
  | .hacl _ _ acc blk => [nAcc acc, nBlk blk.o 3]
  | .hdrn _ _ _ acc blk _ => [nAcc acc, nBlk blk.o 10]
  | .bpack _ blk _ | .bunpk _ blk _ => [nBlk blk.o 5]
  | .fmtqAcc _ d acc => [nS d, nAcc (.acc acc)]
  | .srd _ _ d i => nS d :: nOpt i
  | .swr _ _ i a => nOpt i ++ [nS a.o]
  | _ => []

/-- Types of the integer class (05 R90: "all integer" is 0x0 to 0x7). -/
def Ty.isInt : Ty → Bool
  | .b32 | .i32 | .n32 | .b64 | .i64 | .n64 | .i16 | .n16 => true
  | _ => false
def Ty.isFp (t : Ty) : Bool := !t.isInt
def Ty.packed : Ty → Bool
  | .f16x2 | .bf16x2 => true
  | _ => false
/-- 0x8 to 0xB: the unpacked formats. -/
def Ty.isFp1 (t : Ty) : Bool := t.isFp && !t.packed
def Ty.isB : Ty → Bool
  | .b32 | .b64 => true
  | _ => false
/-- Signed types. -/
def Ty.isI : Ty → Bool
  | .i32 | .i64 | .i16 => true
  | _ => false
/-- The types of `imulh` and `bfe` (05 Table 5-1). -/
def Ty.isIN3264 : Ty → Bool
  | .i32 | .n32 | .i64 | .n64 => true
  | _ => false
/-- A = 1 types of the integer class (05 R107). -/
def Ty.axInt : Ty → Bool
  | .b32 | .i32 | .n32 | .i16 | .n16 => true
  | _ => false
/-- A = 1 types of the floating-point class (07 R182). -/
def Ty.axFp : Ty → Bool
  | .f32 | .f16 | .bf16 | .f16x2 | .bf16x2 => true
  | _ => false

/-- An integer-class entry: types accepted, whether it has a scalar form and A = 1 forms. -/
def okInt (f : IForm) (tys : Bool) (scal ax : Bool) : Bool :=
  tys && (scal || !f.scal) && (!f.ax || (ax && f.ty.axInt))
/-- A floating-point entry. -/
def okFp (ax : Bool) (t : Ty) (tys : Bool) : Bool := tys && (!ax || t.axFp)
/-- The immediate of a floating-point type (02 R33). -/
def okFpImm (t : Ty) (imm : BitVec 19) : Bool :=
  t != .f64 && (t == .f32 || imm.toNat < 65536)
/-- IX, SCL and POL of a memory operand (02 R25; 06 Table 6-7). -/
def okMem (m : MemOp) (pol long : Bool) : Bool :=
  match m.idx with
  | none => !long || m.off == 0
  | some i => i.scl ≤ 4 && (pol || i.pol.isNone) && m.off == 0
def okRing (r : RingOp) : Bool := okMem ⟨false, Src.zero, r.off, r.idx⟩ false false && r.ring < 8
/-- SX is for widths 8 and 16 only (06 Table 6-6). -/
def okSx (w : Wd) (sx : Bool) : Bool := !sx || w == .b8 || w == .b16
/-- The pairs of 07 Table 7-6. -/
def okFcvt (d s : Ty) (hi : Bool) (b : Bool) : Bool :=
  (b == d.packed) && (!hi || s.packed) &&
  ((d.isFp1 && s.isFp1 && d != s) || ((d == .f32 || d == .f64) && s.packed)
    || (d.packed && s == .f32) || (d.isFp1 && s.isInt && !s.isB) || (d.isInt && !d.isB && s.isFp1))
/-- Types of `atom` and `atomf` (12 Table 12-2). -/
def okAtom (op : AOp) (t : Ty) : Bool :=
  match op with
  | .min | .max => t.isIN3264
  | .exch | .cas => t.isB
  | _ => t.isInt && t.width != 16
def Ty.xaccTy : Ty → Bool
  | .f32 | .f16 | .bf16 | .f16x2 | .bf16x2 => true
  | _ => false
/-- Scopes of the class 0xA0 that reach 1 to 4. -/
def Scope.beyondGrp (s : Scope) : Bool := s != .grp

/-- Special-register numbers (18 Table 18-1, 21 Table 21-1): none where the number is reserved;
otherwise whether the register is named with an index. -/
def sregIndexed (n : Nat) : Option Bool :=
  if n ≤ 4 then some false
  else if 0x10 ≤ n ∧ n ≤ 0x13 then some false
  else if n = 0x14 ∨ n = 0x100 ∨ n = 0x101 then some true
  else if n = 0x200 ∨ n = 0x300 then some false
  else if 0x400 ≤ n ∧ n ≤ 0x405 then some true
  else if 0x500 ≤ n ∧ n ≤ 0x50B then some false
  else if n = 0x510 then some true
  else if n = 0x600 ∨ n = 0x700 then some false
  else if n = 0x701 then some true
  else if n = 0x702 then some false
  else if 0x703 ≤ n ∧ n ≤ 0x705 then some true
  else if n = 0x706 ∨ n = 0x707 then some false
  else if 0x800 ≤ n ∧ n ≤ 0x803 then some true
  else if 0x804 ≤ n ∧ n ≤ 0x806 then some false
  else if n = 0x900 then some false
  else none

/-- Counter numbers (21 Table 21-9). -/
def counterOk (n : Nat) : Bool := n ≤ 5 || (0x10 ≤ n && n ≤ 0x2B)

/-- The values an entry accepts in its fields (02 R35, fifth and sixth checks). -/
def formOk : Instr → Bool
  | .braLong _ off | .callLong _ off | .bruLong _ _ _ off => off.toNat % 8 == 0
  | .iadd _ f _ _ _ | .isub _ f _ _ _ | .imul _ f _ _ _ | .imad _ f _ _ _ _
  | .iaddImm _ f _ _ _ | .isubImm _ f _ _ _ | .imulImm _ f _ _ _ => okInt f f.ty.isInt true true
  | .imulh _ f _ _ _ => okInt f f.ty.isIN3264 true true
  | .iabs _ f _ _ => okInt f f.ty.isI true true
  | .imin _ f _ _ _ | .imax _ f _ _ _ | .iminImm _ f _ _ _ | .imaxImm _ f _ _ _ =>
    okInt f (f.ty.isInt && !f.ty.isB) true true
  | .lop _ ax ty _ _ _ _ _ => okInt ⟨ax, false, ty⟩ ty.isB false true
  | .shl _ f _ _ _ | .shr _ f _ _ _ | .shlImm _ f _ _ _ | .shrImm _ f _ _ _ =>
    okInt f f.ty.isB true true
  | .sar _ f _ _ _ | .sarImm _ f _ _ _ => okInt f (f.ty == .i32 || f.ty == .i64) true true
  | .popc _ f _ _ | .clz _ f _ _ | .bfi _ f _ _ _ _ => okInt f f.ty.isB true false
  | .brev _ ty _ _ => ty.isB
  | .bfe _ f _ _ _ => okInt f f.ty.isIN3264 true false
  | .icmp _ f cc _ _ _ | .icmpImm _ f cc _ _ _ =>
    okInt f f.ty.isInt true false && (!f.ty.isB || cc.code < 2)
  | .isel _ ax ty _ _ _ _ => okInt ⟨ax, false, ty⟩ ty.isB false true
  | .mov _ f _ _ _ => okInt f f.ty.isB true true
  | .movi _ f _ _ => okInt f f.ty.isB true true
  | .moviLong _ f _ imm => okInt f f.ty.isB true true && (f.ty == .b64 || imm.toNat < 2 ^ 32)
  | .ident _ scal sel _ => !(scal && sel == .lane)
  | .xlane _ ax _ ty _ _ b => okInt ⟨ax, false, ty⟩ ty.isB false true &&
      (match b with | .reg _ => true | .imm n => n < 32)
  | .lea _ f _ _ _ sh => okInt f (f.ty == .i32 || f.ty == .n32) true false && sh < 8
  | .cvti _ f sty _ _ _ => okInt f f.ty.isInt true false && sty.isInt
  | .ld _ _ w sx _ m => okMem m true false && okSx w sx
  | .ldLong _ _ w sx _ m _ => okMem m true true && okSx w sx
  | .st _ _ _ _ m => okMem m true false
  | .stLong _ _ _ _ m _ => okMem m true true
  | .lds _ _ w sx _ _ _ m => okMem m false false && okSx w sx
  | .sts _ _ _ _ _ m => okMem m false false
  | .ldr _ _ w sx _ _ _ r => okRing r && okSx w sx
  | .str _ _ _ _ _ r => okRing r
  | .pf _ lvl m => okMem m true false && lvl < 3
  | .pfLong _ lvl m _ => okMem m true true && lvl < 3
  | .stmap _ w _ _ _ | .stunmap _ w => w < 16
  | .ringq _ r _ => r < 8
  | .tlbq _ k _ _ => k < 3
  | .fadd _ f _ _ _ | .fsub _ f _ _ _ | .fmul _ f _ _ _ | .fma _ f _ _ _ _ =>
    okFp f.ax f.ty f.ty.isFp
  | .faddImm _ f _ _ imm | .fmulImm _ f _ _ imm => okFp f.ax f.ty f.ty.isFp && okFpImm f.ty imm
  | .fdot2 _ f _ _ _ _ => okFp f.ax f.ty f.ty.packed
  | .fscale _ f _ _ _ => okFp f.ax f.ty f.ty.isFp1
  | .fmin _ ax ty _ _ _ | .fmax _ ax ty _ _ _ | .fmov _ ax ty _ _ _ _ => okFp ax ty ty.isFp
  | .fminImm _ ax ty _ _ imm | .fmaxImm _ ax ty _ _ imm => okFp ax ty ty.isFp && okFpImm ty imm
  | .fcmp _ ty _ _ _ _ => ty.isFp1
  | .fcmpImm _ ty _ _ _ imm => ty.isFp1 && okFpImm ty imm
  | .fcvt _ f sty hi _ _ b => okFcvt f.ty sty hi b.isSome && (!f.ax || (f.ty.axFp && sty.axFp))
  | .frnd _ _ ty _ _ => ty.isFp
  | .fsqrt _ f _ _ => (f.ty == .f32 || f.ty == .f64) && (!f.ax || f.ty == .f32)
  | .fdiv _ f _ _ _ => (f.ty == .f32 || f.ty == .f64) && (!f.ax || f.ty == .f32)
  | .fclass _ ty _ _ | .fxtrExp _ ty _ _ | .fxtrMan _ ty _ _ => ty.isFp1
  | .xacc _ ty _ _ => ty.xaccTy
  | .xrnd _ _ _ d acc =>
    match d, acc.o with
    | .v n, .v b => !(b ≤ n && n < b + 10)
    | _, _ => true
  | .endorse _ ty d _ => ty.isB && (match d with | .x _ => false | _ => true)
  | .rail _ _ code _ => match code with | none => true | some n => n < 8
  | .abt _ sc _ _ => sc.code ≤ 2
  | .fence _ sc => sc.beyondGrp
  | .lda _ _ w sx _ m => okMem m false false && okSx w sx && w != .b128
  | .ldaLong _ _ w sx _ m _ => okMem m false true && okSx w sx && w != .b128
  | .atom _ op sc ty d _ _ _ => okAtom op ty && sc.beyondGrp && d != some (.v 0)
  | .atomf _ op sc ty d _ _ _ => okAtom op ty && (sc == .dev || sc == .sys) && d != some (.v 0)
  | .xadd _ sc ty _ _ => ty.xaccTy && sc.beyondGrp
  | .bari _ n _ | .barv _ n _ => n < 32
  | .tkt _ n _ | .tkts _ n => n < 64
  | .park _ sc _ _ _ _ | .wake _ sc _ _ _ => sc.beyondGrp && sc != .sys
  | .spawn _ n _ | .binf _ n | .tpostBin _ n _ _ _ => n < 16
  | .qcp _ k sc _ _ _ => sc.beyondGrp && (match k with | .ring n => n < 8 | _ => true)
  | .qcpSt _ k sc _ _ _ => sc.beyondGrp && (match k with | .ring _ => false | _ => true)
  | .qmc _ sc _ _ _ _ => sc.beyondGrp
  | .qcol _ sc _ _ | .qput _ sc _ _ | .qget _ sc _ _ => sc == .dev || sc == .sys
  | .hmm _ _ _ _ fa fb | .hmmf _ _ _ fa fb => fa < 8 && fb < 8
  | .hdrn _ m sc _ _ fo => sc.beyondGrp && (!m.sp || sc == .dev) && fo < 8
  | .bpack _ _ fs | .bunpk _ _ fs | .fmtqSlot _ _ fs => fs < 8
  | .fmtqAcc _ _ a => a < 8
  | .srd _ n _ i => sregIndexed n == some i.isSome
  | .swr _ n i _ => sregIndexed n == some i.isSome
  | .pcnt _ _ n => counterOk n
  | _ => true

/-- The bin an instruction names (14 R318: its bit in the header's bins used must be 1). -/
def binOf : Instr → Option Nat
  | .spawn _ n _ | .binf _ n | .tpostBin _ n _ _ _ => some n
  | _ => none

/-! ## The checks of 02 R35 -/

/-- Roles of a group (14 R308). -/
inductive Role where
  | copy | matrix | vector | general
deriving DecidableEq, Repr

/-- What decoding depends on beside the word (02 R36): the kernel header and the group's role. -/
structure DecCtx where
  vcnt : Nat
  xcnt : Nat
  scnt : Nat
  acc : Nat
  bins : Nat
  role : Role
deriving DecidableEq, Repr

/-- The largest header a kernel may have, and a general group. -/
def DecCtx.max : DecCtx := ⟨192, 64, 64, 8, 0xFFFF, .general⟩

/-- 02 R29: the alignment of a code that names several registers. -/
def alignOk (n len : Nat) : Bool :=
  if len = 4 then n % 4 == 0 else len = 1 || n % 2 == 0

/-- 02 R29 and R30 for one operand. -/
def Need.allocOk (k : DecCtx) (n : Need) : Bool :=
  match n.o with
  | .v i => alignOk i n.len && i + n.len ≤ k.vcnt
  | .x i => i < k.xcnt && (n.pos != .vec || n.len == 10 || alignOk i n.len)
  | .s i => i + n.len ≤ k.scnt
  | .p _ => true
  | .acc i => i < k.acc

/-- 02 R34 for one operand: does it take TYPE. -/
def Need.typeBad (n : Need) : Bool :=
  match n.o with
  | .x _ => n.x == .no || n.pos != .vec
  | _ => n.x == .must

/-- 14 Table 14-5. `vecForm`: a vector form of the integer class, `lop` included. -/
def roleOk (r : Role) (op : Nat) (vecForm : Bool) : Bool :=
  match r with
  | .general => true
  | _ =>
    op ≤ 0x0E || (0x20 ≤ op && op ≤ 0x3A && (!vecForm || r == .vector))
      || (0x81 ≤ op && op ≤ 0x83)
      || op == 0x90 || op == 0x91 || op == 0x92 || op == 0x94 || op == 0x95
      || (0xA3 ≤ op && op ≤ 0xAA) || (0xB1 ≤ op && op ≤ 0xB6)
      || (0xE0 ≤ op && op ≤ 0xE6) || (0xF0 ≤ op && op ≤ 0xF4)
      || (r == .copy && 0xC0 ≤ op && op ≤ 0xC6)
      || (r == .matrix && 0xD0 ≤ op && op ≤ 0xD7)
      || (r == .vector && ((0x40 ≤ op && op ≤ 0x4D) || (0x60 ≤ op && op ≤ 0x75) || op == 0x80
          || op == 0x93 || (0xA0 ≤ op && op ≤ 0xA2) || op == 0xB0))

/-- Q = 0, or `lop` with either value of Q (14 R308). -/
def vecFormOf (v : View) : Bool :=
  v.op == 0x28 ||
  (match v.body with
   | .r _ _ _ _ _ _ _ md _ => !bitAt md 6
   | .i _ _ _ _ md _ => !bitAt md 6
   | _ => true)

/-- The outcome of decoding: an instruction, or the class of the trap taken (02 R35). -/
inductive Decoded where
  | ok (i : Instr)
  | illegal
  | type
  | role
deriving DecidableEq, Repr

/-- 02 R26: PG = 7 with PN = 1 is not an instruction. -/
def Ctl.ok (c : Ctl) : Bool := !(c.neg && c.pg == 7)

/-- DecodeCheck (02 R35) over the first word and, where L = 1, the second. -/
def decode (k : DecCtx) (w w1 : Nat) : Decoded :=
  match parse w w1 with
  | none => .illegal
  | some i =>
    match view i with
    | none => .illegal
    | some v =>
      if v.word0 ≠ w ∨ (v.w1.isSome = true ∧ v.w1 ≠ some w1) ∨ v.c.ok = false ∨ formOk i = false then
        .illegal
      else if (needs i).any (fun n => !n.allocOk k) then .illegal
      else if (match binOf i with | none => false | some b => !bitAt k.bins b) then .illegal
      else if (needs i).any Need.typeBad then .type
      else if roleOk k.role v.op (vecFormOf v) then .ok i
      else .role

/-- The instruction in words numbered as spec/opcode_table.json numbers them: the first word is
bits 63..0, the second word of a long form bits 127..64. Bits the table does not give are zero. -/
def decodeTableWord (_nbits w : Nat) : Option Instr :=
  match decode .max (w % 2 ^ 64) (w / 2 ^ 64 % 2 ^ 64) with
  | .ok i => some i
  | _ => none

end Sys2Proof
end

