-- ==== Sys2Proof/Config.lean ====
section
/-!
DEFINITION. What the spec leaves open, as constants with no value: nothing can evaluate them, so a
statement about them holds whatever they are. Each is applied to plain data: to the number of free
values drawn so far (State.freeCount), or to the operands of a function the spec says is fixed.
-/
namespace Sys2Proof

/-- The n-th free value drawn (log 3): a member of a permissible set (08 R193), a drifted element
(08 R199), a view position (11 R241), an order among agents (00 R4). -/
opaque Config.freeBits : Nat → BitVec 64

/-- `fex2` on an operand whose result the spec does not fix exactly: which member of the 2-ulp
neighbourhood (07 R179; log 9). -/
opaque Config.fex2Pick : BitVec 32 → Nat

/-- `flg2` likewise (07 R179; log 9). -/
opaque Config.flg2Pick : BitVec 32 → Nat

/-- SHAKE256 and the other hashes of the boot chain (23 R479, R480; log 10). -/
opaque Config.hash : List Byte → List Byte

/-- Does a signature verify under a key (23 R479; log 10). -/
opaque Config.verifies : (key image signature : List Byte) → Bool

/-- The signature made with a per-boot key (23 R480; log 10). -/
opaque Config.sign : (boot : Nat) → List Byte → List Byte

/-- Which 1/64 of its channel a line of HBM lies in (18 R410). -/
opaque Config.segmentOf : Nat → BitVec 6

/-- The set that a line of a cache lies in, by the number of the cache: 1 L1, 2 L2, 3 L3, 4 L1i, 5 L0i
(06 R125 and 04 Table 4-1 name sets and give no map; log 72). -/
opaque Config.setOf : (cache line : Nat) → Nat

/-- How far the timestamp of a die stands from the device's own, by the PTP messages received so far; at most
4 units are used (21 R432). -/
opaque Config.dieSkew : (die messages : Nat) → Nat

/-- Packets that a station's queue for one stream holds beyond its first (21 R442 names the queue and gives
no size; log 73). -/
opaque Config.stationRoom : Nat

/-- Atomics that a near unit, or the far unit of a base die, queues beyond its first (12 Table 12-8 names the
queues and gives no size; log 74). -/
opaque Config.atomicRoom : (far : Bool) → Nat

/-- The row of its memory controller that a line of HBM lies in, and whether the row is one of those remapped
(21 Table 21-5; 23 R490). -/
opaque Config.rowOf : Nat → BitVec 32
opaque Config.rowRemapped : Nat → Bool

/-- Bytes of the context of a team (18 R403, R407), from its groups, its register counts, its scratchpad
and its accumulators. -/
opaque Config.contextBytes : (groups vcnt xcnt scnt scratch acc : Nat) → BitVec 24

/-- The parts of a boot image that the ROM checks (23 R479): the signing key, the signature, the image
with its signature field zeroed, the security version. -/
opaque Config.imageKey : List Byte → List Byte
opaque Config.imageSig : List Byte → List Byte
opaque Config.imageBare : List Byte → List Byte
opaque Config.imageVersion : List Byte → Nat

/-- The certificate of a per-boot key at a leaf index (23 R480). -/
opaque Config.certificate : Nat → List Byte

/-- The magic of a checkpoint head (23 R487). -/
opaque Config.ckptMagic : BitVec 64

end Sys2Proof
end

