-- ==== Sys2Proof/Machine/State.lean ====
section
/-!
DEFINITION. The state of the machine, as plain data, and the machine right after reset. Sparse
collections are association lists sorted by key that never list an entry equal to what an unlisted
key reads as (Machine/Store.lean keeps that form). INVENTORY.md lists every field with its rule.
-/
namespace Sys2Proof.Machine

/-- A sparse map: keys strictly rising. -/
abbrev AMap (α : Type) := List (Nat × α)

/-- A set of numbers: strictly rising. -/
abbrev NSet := List Nat

/-- Why the machine stops. Every trap and fault of the spec is an ordinary next state, so only the
absence of a machine that could step is a fault. -/
inductive Fault where
  /-- `step` while the module has no power and no event brings it back (23 R478, R489). Safe: the
  spec gives an unpowered module no step. -/
  | unpowered
deriving DecidableEq, Repr

/-- What has no meaning. -/
inductive Refusal where
  /-- An instruction whose meaning has not been written. Safe. -/
  | notModelled (mnemonic : String)
  /-- An instruction row executed while `cur` names no group: no step of the machine does this
  (Machine/Step.lean). Safe. -/
  | noGroup
deriving DecidableEq, Repr

/-! ## Groups -/

/-- KIND of a stack entry (04 Table 4-2). -/
inductive EKind where
  | div | brx | call | callx
deriving DecidableEq, Repr

/-- A reconvergence-stack entry (04 R60). -/
structure Entry where
  pc : Word64
  pend : Mask
  restore : Mask
  origin : Word64
  wait : BitVec 61
  kind : EKind
deriving DecidableEq, Repr

/-- Control state: PC, Act, Ex, the entries of the stack that are on chip, top first, and how many
entries below them lie in the spill area (04 R65). -/
structure Ctrl where
  pc : Word64 := 0
  act : Mask := 0
  ex : Mask := 0
  stack : List Entry := []
  deep : Nat := 0
deriving DecidableEq, Repr

/-- Shadow mode (04 R68): what is put back when it ends, the poisoned cells, and the count. -/
structure Shadow where
  saved : Ctrl
  pois : NSet
  count : Nat
  issuing : Bool
deriving DecidableEq, Repr

/-- Lower bounds of view positions: cluster and device (11 R241, R242). -/
structure VPos where
  c : Nat := 0
  d : Nat := 0
deriving DecidableEq, Repr

/-- Registers. Cells are numbered v: 32 n + lane; x: 6144 + 32 n + lane; s: 8192 + n;
p: 8256 + 32 n + lane. -/
structure Regs where
  v : AMap Word32 := []
  x : AMap Word32 := []
  s : AMap Word64 := []
  p : AMap Mask := []
  /-- Cells marked empty (02 R27). -/
  empt : NSet := []
  /-- Cells holding poisoned data (18 R409). -/
  pois : NSet := []
  /-- Positions of the loads a cell's value was computed from (04 R67, 11 R242). -/
  dep : AMap VPos := []
deriving DecidableEq, Repr

/-- A byte held above device-visible memory: its value, the virtual address that wrote it, the type
of its line, its reader count (11 R238, R253; 06 R126). -/
structure Held where
  b : Byte
  va : Nat
  ax : Bool
  cnt : Nat
  pois : Bool
  /-- Least accurate storage code since the byte was stored, and the width of its elements (08 R199). -/
  code : Nat
  tew : Bool := false
  /-- In a group buffer: how many commits of the buffer the group had issued when it stored the byte
  (11 R227, R231). -/
  tag : Nat := 0
  /-- The order in which stores were made, and after them their commits (06 R126). -/
  ser : Nat := 0
deriving DecidableEq, Repr

/-- Why a group is parked. -/
inductive Park where
  /-- An empty source or destination (02 R27): the cells waited on. -/
  | empty (cells : NSet)
  /-- A page walk (06 R114). -/
  | walk (id : Nat)
  /-- Open fault pages, with the lanes and addresses that faulted there (06 R117). -/
  | fault (pages : AMap (List (Nat × Nat)))
  /-- No fault-queue entry could be written (06 R118). -/
  | noQueue (tenant : Nat)
  /-- `.fw` on empty granules (06 R132). -/
  | fw (grans : NSet)
  /-- Producer view at full distance (06 R137). -/
  | ring (n : Nat)
  | barw (bar : Nat) (ph : Nat)
  | tktw (n : Nat) (t : Nat)
  /-- A `park` read outstanding, or registered in the park table (12 R282). -/
  | park
  /-- `sleep`: the clocks left (18 R415). -/
  | sleep (left : Nat)
  /-- The completion of this commit is waited on (12 R269). -/
  | commit (id : Nat)
  /-- The awaited event has happened; GROUP_WAKE makes the group ready (14 R316). -/
  | woken
deriving DecidableEq, Repr

/-- A page as an access uses it (06 Table 6-2): the leaf entry, its PA set for the 4 KiB page in a
64 KiB page, and the level it stands at. -/
structure Leaf where
  e : Word64
  lvl : Nat
deriving DecidableEq, Repr

/-- The outcome of a page walk (06 R112 to R118). -/
inductive WalkRes where
  | leaf (l : Leaf)
  | absent (lvl : Nat)
  /-- A valid entry that is malformed, and its level. -/
  | malformed (l : Leaf)
  /-- A tier-3 leaf that the host does not translate. -/
  | ats (l : Leaf)
  /-- The level-0 entry of index j of sixteen that do not agree: any one of them answers (06 R113). -/
  | mixed (es : List Word64) (j : Nat)
deriving DecidableEq, Repr

/-- Memory-ordering state of a group (11). -/
structure GMem where
  /-- The group buffer, by physical key. -/
  buf : AMap Held := []
  /-- Commits of the buffer issued so far. -/
  cmts : Nat := 0
  /-- Reference point in the team order (11 R235). -/
  ref : Nat := 0
  /-- Places of the group's completed commits and atomics (11 R241). -/
  seen : VPos := {}
  /-- Positions every later access must reach (11 R242: fence, lda). -/
  fen : VPos := {}
  /-- Positions of all accesses performed so far. -/
  allp : VPos := {}
  /-- Accesses not yet performed that later ones must follow, with the scope. -/
  fenIds : List (Nat × Scope) := []
  /-- Positions at which each byte was last read (11 R241). -/
  byteSeen : AMap VPos := []
  /-- Accesses and commits that later atomics and commits wait for (11 R259). -/
  hold : NSet := []
  /-- Control dependence, by lane (04 R67). -/
  ctlDep : AMap VPos := []
  /-- Walk results the waiting instruction has not yet used (06 R114): page number to outcome. -/
  walked : AMap WalkRes := []
  /-- Lanes and addresses of a fault that was answered `fail`, for the trap the group takes when it
  next runs (06 R120). -/
  failed : List (Nat × Nat) := []
deriving DecidableEq, Repr

/-- What the replay log holds of one instruction (21 R450; its form is the device's own, R451): the
operation that delivers it, the addresses it read, its destination values, whether they are known; of a
load, the bytes of a lane, and the lanes that read approximate elements, whose bytes are not in the log. -/
structure RVal where
  tag : Nat
  addrs : List Nat
  vals : List Nat
  filled : Bool
  width : Nat := 0
  apx : NSet := []
deriving DecidableEq, Repr

/-- Trap, halt and debug state of a group (18, 21). -/
structure GSys where
  fpsr : BitVec 5 := 0
  /-- Level: true at H. -/
  high : Bool := false
  epc : Word64 := 0
  scr0 : Word64 := 0
  scr1 : Word64 := 0
  /-- Lane-detail entry, words 0 to 7 (18 Table 18-4). -/
  ld : AMap Word64 := []
  gpc : Word64 := 0
  gst : BitVec 8 := 0
  /-- Queue mode: a trap recorded as pending: lane-detail entry, EPC, issue clock (18 R398). -/
  pendTrap : Option (AMap Word64 × Word64 × Nat) := none
  step : Bool := false
  stepHold : Bool := false
  /-- One instruction is being stepped (21 R460). -/
  stepping : Bool := false
  /-- Halted: the halt has reached the group; instructions left before it stops. -/
  skid : Option Nat := none
  stopped : Bool := false
deriving DecidableEq, Repr

/-- Trace, sampling and replay state of a group (21). -/
structure GTrc where
  /-- PC bits [63:32] as the stream knows them (21 R439). -/
  hi : BitVec 32 := 0
  started : Bool := false
  msmp : Bool := false
  /-- Number of the next interval, instructions issued in the open one, and its record (21 R449). -/
  interval : Nat := 0
  inInterval : Nat := 0
  rec? : Option Nat := none
  byMark : Bool := false
  /-- Replaying: values left to supply, instructions in the interval, its number (21 R452). -/
  replay : Option (List RVal × Nat × Nat) := none
  /-- Replaying: bytes that the log has given so far or the group has stored, by address (21 R452). -/
  repMem : AMap Byte := []
  /-- Replaying: what the selectors of `ident` return, but for the lane (21 R449, R452). -/
  ids : Option (List Nat) := none
deriving DecidableEq, Repr

/-- Counters of a group (21 Table 21-9), 64 bits each. -/
structure GCnt where
  issue : Word64 := 0
  lanes : Word64 := 0
  shadow : Word64 := 0
  raep : Word64 := 0
  fault : Word64 := 0
  xpath : Word64 := 0
deriving DecidableEq, Repr

/-- A group (01 R15). -/
structure Group where
  core : Nat
  slot : Nat
  team : Nat
  /-- Index within the team. -/
  gidx : Nat
  role : Role := .general
  /-- Spill-area number (14 R303). -/
  spill : Nat := 0
  ctl : Ctrl := {}
  regs : Regs := {}
  mem : GMem := {}
  sys : GSys := {}
  trc : GTrc := {}
  cnt : GCnt := {}
  runAhead : Bool := false
  shadow : Option Shadow := none
  park : Option Park := none
  /-- The address of the instruction word whose line a fetch of the group waits for (04 R57, R58). -/
  want : Option Nat := none
  /-- The fetch buffer (04 Table 4-1): at most four words, by address. -/
  fbuf : AMap Nat := []
  age : Nat := 0
  /-- One more than the clock of the group's last `yield`; 0 before that (14 R324). -/
  yieldAt : Nat := 0
  readySince : Nat := 0
  /-- One more than the clock at which the group last issued; 0 before that (14 R315, 21 R458). -/
  issuedAt : Nat := 0
  /-- One more than the clock of its last turn at issue; 0 before that (18 R395). -/
  triedAt : Nat := 0
  /-- Why the last attempt to issue was held: 1 trace, 2 a full structure, 3 a fence (21 R458). -/
  stall : Nat := 0
  /-- The engine command or bin that holds the group at issue (15 R328, 14 R319). -/
  held : Option Nat := none
  /-- A save has asked the group to stop; the clock of the request (18 R402). -/
  stopReq : Option Nat := none
  /-- Registers kept at a safe point: v, x and s live masks (03 R55). -/
  live : Option (Nat × Nat × Nat) := none
  /-- Stopped at its stopping place for a save (18 R402). -/
  frozen : Bool := false
  ended : Bool := false
deriving DecidableEq, Repr

/-! ## Kernels, teams, clusters, grids -/

/-- A ring descriptor (03 R53). -/
structure RingDesc where
  base : Nat
  stage : Nat
  depth : Nat
  pbar : Nat
  cbar : Nat
deriving DecidableEq, Repr

/-- A kernel header (03 R51). -/
structure Header where
  flags : Nat
  vcnt : Nat
  xcnt : Nat
  scnt : Nat
  maxg : Nat
  scratch : Nat
  roles : Nat × Nat × Nat
  rings : List RingDesc
  arith : Nat
  expect : Nat
  side : Nat
  fmts : Nat
  acc : Nat
  bins : Nat
deriving DecidableEq, Repr

/-- A shed ring: the two stage counters and the lap bits (06 R134). -/
structure Ring where
  p : BitVec 32
  c : BitVec 32
  lap : Nat
deriving DecidableEq, Repr

/-- A barrier word (12 R277). -/
structure Bar where
  count : Nat
  arr : Nat
  phase : BitVec 32
  held : Bool
  arr2 : Nat
deriving DecidableEq, Repr

/-- An entry of a stash window (06 R138 to R141): whether it is valid, its physical key and page
attributes, its 256 bytes, the clock of an outside commit that must still invalidate it, its dirty bytes
(offset to the key its team-level byte stands under), and the codes of its elements. -/
structure StashEntry where
  valid : Bool := false
  key : Nat := 0
  e : Word64 := 0
  bytes : List Byte := []
  inv : Option Nat := none
  dirty : AMap Nat := []
  codes : AMap Nat := []
  pois : NSet := []
deriving DecidableEq, Repr

/-- A stash window (06 R138): its scratchpad range, its global range, and its entries by index. -/
structure Window where
  sp : Nat
  va : Nat
  len : Nat
  entries : AMap StashEntry
deriving DecidableEq, Repr

/-- An order point (11 R230): its end position, the numbers given, what each event overwrote with the
clock of its completion, and the last place at which each unit wrote each 4-byte word (11 R235):
unit u + 1 for a commit of unit u, 0 for any other event. -/
structure Order (α : Type) where
  pos : Nat := 0
  seq : Nat := 0
  evs : List (Nat × Nat × AMap α) := []
  stamps : AMap (AMap Nat) := []
deriving DecidableEq, Repr

/-- A team's scratchpad (06 R128 to R133). -/
structure Scratch where
  bytes : AMap Byte := []
  /-- 16-byte granules that are full. -/
  full : NSet := []
  /-- 256-byte blocks that are approximate, with the least accurate code that has held each 32-bit
  element since it was written (an unlisted element: 0). -/
  ax : AMap (AMap Nat) := []
  pois : NSet := []
deriving DecidableEq, Repr

/-- How a team is being stopped or pre-empted (18 R399 to R405). -/
inductive Treat where
  | no
  | drain (deadline : Nat)
  | save
deriving DecidableEq, Repr

/-- A team (01 R15). -/
structure Team where
  cluster : Nat
  index : Nat
  core : Nat
  /-- Team number on the core, 0 to 15 (14 R303). -/
  num : Nat
  hdr : Header
  /-- The kernel's first instruction. -/
  entry : Nat := 0
  groups : List Nat
  sp : Scratch := {}
  rings : List Ring := []
  windows : AMap Window := []
  bars : AMap Bar := []
  lvl : AMap Held := []
  ord : Order (Option Held) := {}
  /-- Reference point in the cluster order. -/
  ref : Nat := 0
  /-- REQ, if the team holds a request, and the pending more accurate one (08 R188, R189). -/
  req : Option Nat := none
  reqPend : Option Nat := none
  /-- The team may not issue until its rail has settled (08 R188, R192). -/
  railHold : Bool := false
  tbase : Word64 := 0
  halted : Bool := false
  /-- Halted and waiting for the service agent (18 R396). -/
  agent : Bool := false
  /-- The group that trapped (18 R395). -/
  trapper : Option Nat := none
  gate : Bool := true
  qcount : Nat := 0
  hcount : Nat := 0
  /-- The last 256 Quill commands that have completed, newest first: number and status (15 R352). -/
  outcomes : List (Nat × Nat) := []
  /-- Accumulator elements (16 R359): 16384 t + 128 m + n; and the state words. -/
  tiles : AMap Word32 := []
  tstate : AMap Word64 := []
  /-- Poisoned elements (18 R409). -/
  tpois : NSet := []
  clean : Bool := true
  issued : Nat := 0
  since : Nat := 0
  treat : Treat := .no
  /-- The context slot it is being, or is, saved to (18 R401). -/
  ctxSlot : Option Nat := none
  /-- Saved for the agent: at restore its trapping group leaves H (18 R396). -/
  leaveH : Bool := false
  resident : Bool := true
  retired : Bool := false
  /-- Vector-clock index and clock (21 R453). -/
  track : Option Nat := none
  vc : AMap Nat := []
  /-- Its own entry would pass 0xFFFF_FFFF: it keeps its index and is no longer tracked. -/
  lapsed : Bool := false
  /-- Launched from a bin of its core: the bin, and the lanes' arguments (14 R310, R311). -/
  bin : Option (Nat × List Word64) := none
deriving DecidableEq, Repr

/-- A Bobbin counter (12 R281). -/
structure Ticket where
  next : BitVec 32
  serv : BitVec 32
  vc : AMap Nat
deriving DecidableEq, Repr

/-- A cluster (01 R12). -/
structure Cluster where
  grid : Nat
  index : Nat
  die : Nat
  teams : List Nat
  lvl : AMap Held := []
  ord : Order (Option Held) := {}
  /-- Reference point in the device order. -/
  ref : Nat := 0
  tickets : AMap Ticket := []
deriving DecidableEq, Repr

/-- A launch record (14 Table 14-1). -/
structure Record where
  entry : Nat
  gx : Nat
  gy : Nat
  gz : Nat
  g : Nat
  w : Nat
  h : Nat
  fit : Bool
  side : Bool
  prio : Nat
  tenant : Nat
  creg : Nat
  cscr : Nat
  cl1 : Nat
  seed : Nat
  slots : List Word64
  arg : Word64
  spill : Nat
  stack : Nat
  ctask : Word64
  crec : Nat
  binsAt : Nat
  stkbase : Nat
deriving DecidableEq, Repr

/-- A grid: one launch (01 R15, 14 R297). -/
structure Grid where
  lno : Nat
  addr : Nat
  rcd : Record
  hdr : Header
  /-- Bin descriptors: entry, timer (14 R309). -/
  binTab : List (Nat × Nat)
  binHdrs : AMap Header
  queue : Nat
  /-- The next linear index to place, and placed ones that are to be placed again (18 R401). -/
  next : Nat
  again : NSet := []
  /-- Pick returned none for the next cluster; it is due to be tried again (14 R306). -/
  waiting : Bool := false
  retry : Bool := false
  clusters : List Nat := []
  /-- Device position its groups must read at or after (14 R323). -/
  readFrom : Nat := 0
  /-- The tracked team that launched it: its clock then (21 R453). -/
  vc : Option (AMap Nat) := none
  /-- Complete (14 R297). -/
  done : Bool := false
deriving DecidableEq, Repr

/-! ## Operations in progress -/

/-- One lane access of a load: lane, virtual address, physical keys of its bytes, and per byte the
value already taken from the group buffer or the team level; the leaf entry it translated by, and the
view positions it may not precede. -/
structure LaneAcc where
  lane : Nat
  va : Nat
  e : Word64
  lo : VPos
  keys : List Nat
  got : List (Option Held)
deriving DecidableEq, Repr

/-- What a lane has received: its value, whether it is poisoned, and the positions it was read at. -/
structure Got where
  lane : Nat
  val : Nat
  pois : Bool
  pos : VPos
deriving DecidableEq, Repr

/-- A word of an atomic (12 R270): its key and address, its lanes with their B and C, and the positions
its event may not precede. -/
structure AWord where
  key : Nat
  va : Nat
  lanes : List (Nat × Nat × Nat)
  lo : VPos
deriving DecidableEq, Repr

/-- What a pending operation will do when its event happens. -/
inductive PendOp where
  | load (d : Opd) (w : Wd) (sx ax : Bool) (acc : List LaneAcc) (lda : Option Scope) (half : Bool)
      (pol : Option (BitVec 32)) (miss : Bool)
  /-- A value computed at issue, written on arrival: 0 a scratchpad load, 1 a long-latency result, 2 one
  that took the exact path (07 R178); per lane; and the lanes whose value is poisoned. -/
  | long (kind : Nat) (d : Opd) (n : Nat) (vals : List (Nat × Nat)) (pois : List Nat)
  | commit (d : Opd) (sc : Scope) (excl : Bool) (m : AMap Held) (placed acked : Bool) (st : Word64)
  /-- Once placed, its status word. -/
  | abort (d : Opd) (sc : Scope) (range : Option (Nat × Nat)) (st : Option Nat)
  | atom (d : Option Opd) (op : AOp) (sc : Scope) (ty : Ty) (far : Bool)
      (words : List AWord) (done : List Got)
  | xadd (sc : Scope) (ty : Ty) (words : List AWord) (pos : VPos)
  | barv (d : Opd) (bar : Nat)
  | tkt (d : Opd) (n : Nat)
  | tkts (n : Nat)
  | park (d : Opd) (sc : Scope) (key va : Nat) (expect : Word64) (timeout : Word64)
  | wake (d : Opd) (sc : Scope) (va : Nat) (limit : Word64)
  | rail (d : Opd) (code : Nat)
  | cache (d : Opd) (kind : Nat) (base len : Nat)
  | tlbq (d : Opd) (kind : Nat) (va : Word64)
  | iinv (d : Opd) (base len : Nat)
  | tpost (d : Opd) (bin : Option Nat) (payload : Word64) (count : Nat)
  | tdec (d : Opd) (ident : Word64) (amount : Nat)
  | tq (d : Opd) (ident : Word64)
  | lnch (d : Opd) (addr : Word64)
  | fmtq (d : Opd) (acc : Nat)
  | walk (pages : List Nat)
deriving DecidableEq, Repr

/-- An operation issued and not yet performed: its group, what it waits for (operation and scope of
the position bound), its view-position bounds, and its issue clock and PC. -/
structure Pend where
  id : Nat
  gid : Nat
  op : PendOp
  after : List (Nat × Scope)
  lo : VPos
  clk : Nat
  pc : Word64
  sampled : Option Nat
  /-- The places of those events of an atomic that have been performed (11 R241). -/
  place : VPos := {}
  /-- Of a sampled atomic, where the sampled lane's data came from (21 R448). -/
  lvl : Nat × Bool := (0, false)
deriving DecidableEq, Repr

/-- A `qcpm` follow-on (15 R344): the instruction and the block values read when the `qcpm` issued. -/
structure Follow where
  i : Instr
  c : Ctl
  blk : List Nat
  code : Nat
deriving DecidableEq, Repr

/-- An engine command's kind and operands (15, 16), other than its block. -/
inductive EngOp where
  | qcp (dst : QDst) (scatter : Bool) (b : Nat)
  | qcpm (b : Nat) (follow : Option Follow)
  | qmc (b mask : Nat)
  | qcol
  | qput
  | qget
  | hmm (ax : Bool) (acc fa fb : Nat)
  | hmmf (acc fa fb : Nat)
  | hclr (fp : Bool) (acc : Nat)
  | hacl (fp : Bool) (acc : Nat)
  | hdrn (m : DrnMods) (acc fo : Nat)
  | bpack (fs : Nat)
  | bunpk (fs : Nat)
deriving DecidableEq, Repr

/-- Where a command stands (15 R328): in the queue, accepted, or in its data phase. -/
inductive CmdSt where
  | queued | accepted | running
deriving DecidableEq, Repr

/-- Bytes an engine has read: whether any came from approximate data, and any from precise data. -/
structure Chunk where
  bs : List Byte
  ax : Bool
  pr : Bool
deriving DecidableEq, Repr

/-- An engine command: its number, the group, instruction and PC it came from, what it reads at issue and
at acceptance, and how far it has come. -/
structure Cmd where
  id : Nat
  heddle : Bool
  gid : Nat
  team : Nat
  i : Instr
  c : Ctl
  pc : Word64
  op : EngOp
  sc : Scope
  d : Option Opd := none
  blk : List Nat := []
  st : CmdSt := .queued
  no : Nat := 0
  /-- The clock of its acceptance. -/
  since : Nat := 0
  /-- The rail code at issue (16 R368). -/
  code : Nat := 0
  /-- View positions its reads may not precede (11 R250). -/
  lo : VPos := {}
  /-- The layout record or descriptor, or the vectors of `hdrn`, read at acceptance (15 R329; 16 R373). -/
  rcd : List Byte := []
  vecs : AMap (List Byte) := []
  /-- An operand read at acceptance was poisoned (18 R409). -/
  bad : Bool := false
  /-- The scratchpad address of a ring destination (15 R343). -/
  base : Nat := 0
  /-- Units of the data phase that are still to be performed, and those gathered before they are used. -/
  work : List Nat := []
  data : AMap Chunk := []
  /-- The data have been gathered and are being written. -/
  writes : Bool := false
  /-- Scratchpad blocks it has begun to write (15 R338). -/
  blocks : NSet := []
  bytes : Nat := 0
  sat : Bool := false
  status : Nat := 0
  mask : Nat := 0
  /-- Receivers or ranks not yet heard (15 R346, R350); contributions by rank. -/
  left : NSet := []
  heard : AMap (List Byte) := []
  failed : Bool := false
  /-- The fault page it waits on (15 R339), whether its completion record is what waits, and whether the
  record is to be left unwritten. -/
  fault : Option Nat := none
  atRec : Bool := false
  noRec : Bool := false
  /-- The absmax word has been merged (16 R376). -/
  merged : Bool := false
  /-- L2 lines held pinned for it as a copy has staged them (15 R344), and the line that each unit of an operand
  it has read pins (16 R365). -/
  pins : NSet := []
  hpins : AMap Nat := []
deriving DecidableEq, Repr

/-- A range-lock entry (11 R250): table slot, command, source or destination, space, range. -/
structure Lock where
  slot : Nat
  cmd : Nat
  src : Bool
  sp : Bool
  team : Nat
  base : Nat
  len : Nat
deriving DecidableEq, Repr

/-- The destination of a command that ended on a poisoned operand (18 R409): in the scratchpad of a team,
or in a tenant's address space. -/
structure BadDst where
  sp : Bool
  owner : Nat
  base : Nat
  len : Nat
deriving DecidableEq, Repr

/-- A park-table entry (12 R282). -/
structure ParkEnt where
  gid : Nat
  sc : Scope
  va : Nat
  deadline : Option Nat
  ord : Nat
  d : Opd
  /-- Its place in the replay log. -/
  tag : Nat
deriving DecidableEq, Repr

/-- A bin (14 R309, R310). -/
structure Bin where
  entry : Option (Nat × Nat) := none
  hdr : Option Header := none
  grid : Nat := 0
  lanes : List Word64 := []
  deadline : Option Nat := none
  forced : Bool := false
  fired : Bool := false
deriving DecidableEq, Repr

/-- A low-rail regulator (08 R190). -/
structure Regul where
  /-- The code it last settled at (Table 8-8 EFF), the code it stands at, the one it is moving to. -/
  eff : Nat := 7
  pos : Nat := 7
  next : Option Nat := none
deriving DecidableEq, Repr

/-- A packet on its way to a stream (21 R437): stream, stamp, die, source, type, payload. -/
structure Pkt where
  stream : Nat
  stamp : Nat
  die : Nat
  src : Nat
  ty : Nat
  body : List Byte
deriving DecidableEq, Repr

/-- A core (01 R10). An unlisted core is idle. -/
structure Core where
  creg : Nat := 0
  cscr : Nat := 88
  cl1 : Nat := 8
  teams : List Nat := []
  reg : Regul := {}
  locks : List Lock := []
  parks : List ParkEnt := []
  bins : AMap Bin := []
  cmds : List Cmd := []
  /-- Global destinations that engine commands have finished, with the ends of the orders then (15 R330). -/
  wrote : List (Nat × Nat × VPos) := []
  cnt : AMap Word64 := []
  sliceStart : Nat := 0
  sliceTenant : Option Nat := none
  sliceDone : Bool := false
  preStat : BitVec 8 := 0
  fifo : List Pkt := []
  /-- By stream: packets the FIFO has dropped since the last LOSS, and the first one's stamp (21 R442). -/
  dropped : AMap (Nat × Nat) := []
  mcount : Nat := 0
  lastIssue : AMap Nat := []
  /-- Instruction lines in L1i, by virtual line: physical key and the device position of the fill. -/
  l1i : AMap (Nat × Nat) := []
  /-- Those in the L0i of scheduler k, by 2^58 k plus the line (04 Table 4-1). -/
  l0i : AMap (Nat × Nat) := []
  /-- Translations held in the L1 TLB, by page number times 4 plus level. -/
  tlb : AMap Leaf := []
deriving DecidableEq, Repr

/-! ## Memory -/

/-- A 256-byte line in the caches (06 R122 to R127, 12 R266): the sectors that L1s hold (core x 4 +
sector), L2s (die x 4 + sector) and L3, the die whose L2 copy is dirty, dirtiness in L3, the owning near
unit, reader count, type, element width, and per 2-byte unit the least accurate code that has held it
since it was written. -/
structure Line where
  l1 : NSet := []
  l2 : NSet := []
  l2d : Option Nat := none
  l3 : NSet := []
  l3d : Bool := false
  own : Option Nat := none
  cnt : Nat := 0
  /-- By cache (l1Id, l2Id, l3Id): the class its copy was allocated with, and its last use (06 R125). -/
  cls : AMap Nat := []
  used : AMap Nat := []
  tol : Bool := false
  tew : Bool := false
  codes : AMap Nat := []
  /-- Sectors poisoned by a double fault of the remap table: so until the line is overwritten whole
  (18 R410). -/
  bad : NSet := []
  /-- The first device position after its stamps were lost (11 R236). -/
  lost : Nat := 0
  /-- The line has been allocated through a page, whose TOL bit it took (08 R198). -/
  typed : Bool := false
deriving DecidableEq, Repr

/-- A fault page (06 R118, R120): sequence number, tenant, page, waiters with the clock of their first
fault; once answered, the answer (true: fail) and its clock; and one more than the clock of its last
release. -/
structure FaultPage where
  id : Nat
  seq : Nat
  tenant : Nat
  page : Nat
  waiters : List (Nat × Nat)
  ans : Option (Bool × Nat) := none
  last : Nat := 0
deriving DecidableEq, Repr

/-! ## Tenants, streams, tasks, queues -/

structure Tenant where
  root : Word64 := 0
  fqbase : Word64 := 0
  fqhead : BitVec 32 := 0
  fqtail : BitVec 32 := 0
  fqseq : Nat := 0
  inv : Word64 := 0
  invDone : Bool := true
  dflt : Word64 := 0
  tslice : BitVec 32 := 2000000
  drain : BitVec 8 := 224
  budget : BitVec 32 := 200000
  ctx : Word64 := 0
  slots : NSet := []
deriving DecidableEq, Repr

/-- The device-only part of an interval's record (21 R449 to R451): where it lies, its snapshot, its
kernel, what the selectors of `ident` returned, its values, its instructions. -/
structure RplRec where
  off : Nat
  len : Nat
  int : Nat
  snap : Group
  hdr : Header
  rcd : Record
  ids : List Nat
  vals : List RVal := []
  /-- By operation: the lanes in which a load reads approximate elements. -/
  apxOf : AMap NSet := []
  count : Nat := 0
  apx : Bool := false
  byMark : Bool := false
  gid : List Byte
deriving DecidableEq, Repr

/-- A trace stream (21 R431): its registers, and the aggregation's state for it. -/
structure Stream where
  ctl : BitVec 12 := 0
  base : Word64 := 6
  rptr : BitVec 32 := 0
  wptr : BitVec 32 := 0
  syncTus : BitVec 32 := 0
  syncN : BitVec 16 := 256
  msmp : Word64 := 0
  rpl : Word64 := 0
  race : Word64 := 0
  racew : Word64 := 0
  races : BitVec 16 := 0
  raceov : Bool := false
  rpldiv : Bool := false
  rpldone : Bool := false
  rplov : Bool := false
  lostCnt : BitVec 32 := 0
  attach : Bool := false
  brk : AMap Word64 := []
  /-- Packets the aggregation holds, in merge order. -/
  queue : List Pkt := []
  /-- Stamp each source has reported (21 R433). -/
  heard : AMap Nat := []
  lastStamp : Nat := 0
  written : Nat := 0
  sinceSync : Nat := 0
  lastSync : Nat := 0
  syncDue : Bool := false
  drops : Nat := 0
  dropStamp : Nat := 0
  /-- EN has gone from 0 to 1 and nothing has been written since (21 R436). -/
  fresh : Bool := false
  rplOff : Nat := 0
  /-- The device's own part of the log: records by handle (21 R451). -/
  rplLog : AMap RplRec := []
  lastOwn : AMap Nat := []
deriving DecidableEq, Repr

inductive TaskSt where
  | free | wait | ready
deriving DecidableEq, Repr

/-- What the Treadle read of a launch (14 R294, R295): the address and supplying tenant of its record,
its number, its refusal code or 0, the record with its header, bin descriptors and their headers, the
device position that its groups may not precede and the clock of the tracked team that launched it. -/
structure Launch where
  addr : Nat
  tenant : Nat
  lno : Nat
  refused : Nat
  rcd : Option Record := none
  hdr : Option Header := none
  binTab : List (Nat × Nat) := []
  binHdrs : AMap Header := []
  readFrom : Nat := 0
  vc : Option (AMap Nat) := none
deriving DecidableEq, Repr

/-- A task-table entry (14 R313): for a launch task, what `tpost.rec` read; for a bin task, its bin
and the entry recorded. -/
structure Task where
  st : TaskSt := .free
  gen : BitVec 16 := 0
  cnt : BitVec 32 := 0
  bin : Option Nat := none
  payload : Word64 := 0
  core : Nat := 0
  grid : Nat := 0
  tenant : Nat := 0
  binEntry : Option (Nat × Nat) := none
  launch : Option Launch := none
deriving DecidableEq, Repr

/-- A launch queue (14 R298). -/
structure Queue where
  ctl : Word64 := 0
  head : BitVec 32 := 0
  tail : BitVec 32 := 0
deriving DecidableEq, Repr

structure Treadle where
  queues : AMap Queue := []
  ignored : Nat := 0
  /-- The device queue (14 R299). -/
  devq : List Launch := []
  /-- Queues whose head launch has been taken: the grid being placed. -/
  taken : AMap Nat := []
  wait : AMap Nat := []
  last : AMap Nat := []
  lno : BitVec 32 := 0
  tasks : AMap Task := []
  staleDec : Nat := 0
deriving DecidableEq, Repr

/-! ## The platform -/

structure Fuses where
  fused : NSet := []
  keys : List (List Byte) := []
  revoked : NSet := []
  rollback : Nat := 0
  netFirst : Bool := false
  boots : Nat := 0
  serial : Nat := 0
deriving DecidableEq, Repr

structure Boot where
  stage : Nat := 0
  hold2 : Bool := false
  net : Bool := false
  rej : Bool := false
  keyx : Bool := false
  hbmf : Bool := false
  thsd : Bool := false
  s3w : Bool := false
  /-- The ROM seeks from the network; the clock at which it turned to its source (23 R479). -/
  fromNet : Bool := false
  since : Nat := 0
  chunks : List Byte := []
  log : List Byte := []
  entries : List (List Byte) := []
  reports : Nat := 0
  /-- The S2 to S3 transition in progress: the clock it began. -/
  trans : Option Nat := none
  powered : Bool := true
deriving DecidableEq, Repr

/-- A host or peer access that a checkpoint holds (23 R488). -/
inductive HeldOp where
  | hostWrite (pa : Nat) (bytes : List Byte)
  | hostRead (pa len : Nat)
  | peerWrite (peer va : Nat) (bytes : List Byte)
  | peerRead (peer va len : Nat)
deriving DecidableEq, Repr

structure Plat where
  wsel : Word64 := 0
  werr : BitVec 32 := 0
  svc : Word64 := 0
  ptpPort : BitVec 4 := 0
  ptpOfs : Word32 := 0
  ptpLock : Bool := false
  ckpt : Word64 := 0
  ckCode : Nat := 0
  ckState : Nat := 0
  /-- The operation that runs, OP and BASE (23 R487). -/
  ckRun : Option (Nat × Nat) := none
  power : AMap Word32 := []
  temp : AMap (BitVec 16) := []
  hold : Bool := false
  warn : Bool := false
  hbmst : AMap Word64 := []
  link : AMap (BitVec 16) := []
  wpeer : AMap Word64 := []
  wgrp : AMap Word64 := []
  /-- MSI-X vectors sent to the host, and signals to the management cores (23 R477), newest first. -/
  msix : List Nat := []
  mgmt : List Nat := []
  /-- What host and peer reads and the mailbox returned, newest first. -/
  replies : List (List Byte) := []
  /-- Sectors sent to peers by `qput`: peer, remote address, bytes, newest first (15 R351). -/
  sent : List (Nat × Nat × List Byte) := []
  /-- Host and peer accesses held by a checkpoint (23 R488), oldest first. -/
  heldOps : List HeldOp := []
  eccCorr : Nat := 0
  /-- Packets in the queues of stations, oldest first; by source and stream, those dropped since the last LOSS and
  the first one's stamp (21 R442). -/
  stn : List Pkt := []
  stnDrops : AMap (Nat × Nat) := []
  /-- PTP messages received (21 R432). -/
  ptpMsgs : Nat := 0
  /-- Repair table: bad segments of copies 0 and 1 (18 R410). -/
  bad0 : NSet := []
  bad1 : NSet := []
deriving DecidableEq, Repr

/-- A turn of the oracle: clocks that pass, and the event that happens now. With none the machine
takes its own next step (log 4). -/
structure Turn where
  dt : Nat
  ev : Option Instr
deriving DecidableEq, Repr

/-- The machine. -/
structure State where
  /-- The group whose instruction is executed (the model's own; log 4). -/
  cur : Nat
  /-- The oracle (the model's own; log 4). -/
  turns : List Turn
  /-- Free values drawn so far (the model's own; log 3). -/
  freeCount : Nat
  /-- Names given to groups, teams, clusters, grids, operations (the model's own; log 4). -/
  nextId : Nat
  clk : Nat
  /-- SYS_TIME in ninths of its unit (18 Table 18-1; 21 R432). -/
  time9 : Nat
  fuses : Fuses
  /-- Installed bytes of tiers 0, 1 and 2 (06 R113). -/
  installed : Nat × Nat × Nat
  /-- Backing memory, by tier x 2^52 + offset. -/
  mem : List Host.Cell
  /-- Device-visible bytes not yet written back. -/
  dirty : AMap Byte
  /-- Bytes of approximate or compressed lines that caches hold clean, as they were before write-back drifted
  or truncated what memory holds (08 R199, R203). -/
  kept : AMap Byte
  /-- Tier-2 bytes written and not reported persistent: what they held before (06 R151; 11 R247). -/
  volat : AMap (List Byte)
  /-- Poisoned bytes (18 R409). -/
  pois : NSet
  /-- The bytes of spilled stack entries, by physical key: no other agent sees them (04 R65). -/
  spills : AMap Byte
  lines : AMap Line
  /-- Uses of lines and stores so far: recency and the order of stores (06 R125, R126). -/
  uses : Nat
  dev : Order (Option Byte)
  /-- Where the last `cmt.sys` to complete stands in the device order (11 R247). -/
  sysDone : Nat
  /-- L2 TLBs, by die. -/
  l2tlb : AMap (AMap Leaf)
  faults : List FaultPage
  frespIgnored : Nat
  pending : List Pend
  groups : AMap Group
  teams : AMap Team
  clusters : AMap Cluster
  grids : AMap Grid
  cores : AMap Core
  trd : Treadle
  /-- RAIL_SHARED (08 R187); and the codes its last write replaced, with the clock of that write. -/
  l2c : Nat
  l3c : Nat
  railSet : Option (Nat × Nat × Nat)
  /-- Destinations of engine commands whose operand was poisoned, until a group reads them (18 R409). -/
  badDst : List BadDst
  tenants : AMap Tenant
  streams : AMap Stream
  boot : Boot
  plat : Plat
deriving DecidableEq, Repr

/-- The machine right after reset: stage S0, nothing resident, every register at its reset value
(the sections named in INVENTORY.md; logs 3 to 8 for the values the spec does not give). -/
def State.reset : State where
  cur := 0
  turns := []
  freeCount := 0
  nextId := 0
  clk := 0
  time9 := 0
  fuses := {}
  installed := (768 * 2 ^ 30, 0, 0)
  mem := []
  dirty := []
  kept := []
  volat := []
  pois := []
  spills := []
  lines := []
  uses := 0
  dev := {}
  sysDone := 0
  l2tlb := []
  faults := []
  frespIgnored := 0
  pending := []
  groups := []
  teams := []
  clusters := []
  grids := []
  cores := []
  trd := {}
  l2c := 0
  l3c := 0
  railSet := none
  badDst := []
  tenants := []
  streams := []
  boot := {}
  plat := {}

end Sys2Proof.Machine
end

