-- ==== Sys2Proof/Machine/Store.lean ====
section
/-!
DEFINITION. Sparse maps and sets in canonical form, memory, and the accessors of the state's
collections. `get` of a key nothing lists is the default; `put` of the default removes the entry.
-/
namespace Sys2Proof.Machine

/-! ## Sparse maps -/

/-- The entry of a key, if listed. -/
def AMap.at? {α : Type} (m : AMap α) (k : Nat) : Option α :=
  (List.find? (fun e => e.1 == k) m).map fun e => e.2

/-- The value of a key; `d` where none is listed. -/
def AMap.get {α : Type} (d : α) (m : AMap α) (k : Nat) : α := (m.at? k).getD d

/-- The map without a key. -/
def AMap.del {α : Type} (m : AMap α) (k : Nat) : AMap α := m.filter (·.1 != k)

/-- Put an entry in front of the first larger key. -/
def AMap.place {α : Type} (k : Nat) (v : α) : AMap α → AMap α
  | [] => [(k, v)]
  | e :: m => if k < e.1 then (k, v) :: e :: m else e :: AMap.place k v m

/-- List a key with a value. -/
def AMap.set {α : Type} (m : AMap α) (k : Nat) (v : α) : AMap α := AMap.place k v (m.del k)

/-- List a key with a value, or remove it when the value is the default. -/
def AMap.put {α : Type} [DecidableEq α] (d : α) (m : AMap α) (k : Nat) (v : α) : AMap α :=
  if v = d then m.del k else m.set k v

/-- Apply a function to every listed value. -/
def AMap.mapVals {α : Type} (m : AMap α) (f : Nat → α → α) : AMap α := m.map fun e => (e.1, f e.1 e.2)

/-- Keys strictly rising, and no entry equal to the default. -/
def AMap.wf {α : Type} [DecidableEq α] (d : α) : AMap α → Bool
  | [] => true
  | [e] => e.2 != d
  | e :: f :: m => e.2 != d && e.1 < f.1 && AMap.wf d (f :: m)

/-! ## Sets -/

def NSet.has (s : NSet) (n : Nat) : Bool := s.any (· == n)
def NSet.del (s : NSet) (n : Nat) : NSet := s.filter (· != n)
def NSet.place (n : Nat) : NSet → NSet
  | [] => [n]
  | a :: s => if n < a then n :: a :: s else a :: NSet.place n s
def NSet.add (s : NSet) (n : Nat) : NSet := NSet.place n (s.del n)
def NSet.addAll (s : NSet) (ns : List Nat) : NSet := ns.foldl NSet.add s
def NSet.delAll (s : NSet) (ns : List Nat) : NSet := s.filter fun n => !ns.any (· == n)

/-! ## Memory -/

/-- What a byte of memory that nothing has written reads as (log 5). -/
def memDefault : Byte := 0

/-- The canonical form of memory: addresses strictly rising, no entry that reads as an unlisted
address does. -/
def Memory.wf (m : List Host.Cell) : Bool := AMap.wf memDefault m

/-- Read one byte of backing memory. -/
def Memory.read (m : List Host.Cell) (a : Nat) : Byte := AMap.get memDefault m a

/-- Write one byte of backing memory, keeping the canonical form. -/
def Memory.write (m : List Host.Cell) (a : Nat) (b : Byte) : List Host.Cell := AMap.put memDefault m a b

/-- Little-endian value of bytes (00 R2). -/
def leNat : List Byte → Nat
  | [] => 0
  | b :: bs => b.toNat + 256 * leNat bs

/-- The n little-endian bytes of a number. -/
def leBytes : Nat → Nat → List Byte
  | 0, _ => []
  | n + 1, w => BitVec.ofNat 8 w :: leBytes n (w / 256)

/-! ## Free values -/

/-- The next free value, below n (some value when n = 0). -/
def State.free (s : State) (n : Nat) : Nat × State :=
  ((Config.freeBits s.freeCount).toNat % n, { s with freeCount := s.freeCount + 1 })

/-- A free value in [lo, hi]; nothing is drawn when only one is allowed. -/
def State.freeIn (s : State) (lo hi : Nat) : Nat × State :=
  if hi ≤ lo then (lo, s) else
    let r := s.free (hi - lo + 1)
    (lo + r.1, r.2)

/-- Room for a key in a structure of sets of some ways: where the key's set is full without it, a free one
of the set's entries leaves. -/
def State.displace {α : Type} (s : State) (ways : Nat) (set : Nat → Nat) (m : AMap α) (key : Nat) :
    AMap α × State :=
  if m.length < ways then (m, s) else
    let same := m.filter fun e => e.1 != key && set e.1 == set key
    if (m.at? key).isSome || same.length < ways then (m, s) else
      let f := s.free same.length
      ((same[f.1]?).elim m (fun e => m.del e.1), f.2)

def State.fresh (s : State) : Nat × State := (s.nextId, { s with nextId := s.nextId + 1 })

/-! ## The collections of the state -/

def State.core (s : State) (c : Nat) : Core := AMap.get {} s.cores c
def State.setCore (s : State) (c : Nat) (k : Core) : State := { s with cores := AMap.put {} s.cores c k }
def State.modCore (s : State) (c : Nat) (f : Core → Core) : State := s.setCore c (f (s.core c))

def State.tenant (s : State) (t : Nat) : Tenant := AMap.get {} s.tenants t
def State.modTenant (s : State) (t : Nat) (f : Tenant → Tenant) : State :=
  { s with tenants := AMap.put {} s.tenants t (f (s.tenant t)) }

def State.stream (s : State) (t : Nat) : Stream := AMap.get {} s.streams t
def State.modStream (s : State) (t : Nat) (f : Stream → Stream) : State :=
  { s with streams := AMap.put {} s.streams t (f (s.stream t)) }

def State.line (s : State) (n : Nat) : Line := AMap.get {} s.lines n
def State.modLine (s : State) (n : Nat) (f : Line → Line) : State :=
  { s with lines := AMap.put {} s.lines n (f (s.line n)) }

def State.queue (s : State) (q : Nat) : Queue := AMap.get {} s.trd.queues q
def State.modQueue (s : State) (q : Nat) (f : Queue → Queue) : State :=
  { s with trd := { s.trd with queues := AMap.put {} s.trd.queues q (f (s.queue q)) } }

/-- A task entry, by die x 65536 + index. -/
def State.task (s : State) (k : Nat) : Task := AMap.get {} s.trd.tasks k
def State.setTask (s : State) (k : Nat) (t : Task) : State :=
  { s with trd := { s.trd with tasks := AMap.put {} s.trd.tasks k t } }

def State.group? (s : State) (g : Nat) : Option Group := AMap.at? s.groups g
def State.setGroup (s : State) (g : Nat) (v : Group) : State := { s with groups := AMap.set s.groups g v }
def State.modGroup (s : State) (g : Nat) (f : Group → Group) : State :=
  match s.group? g with
  | none => s
  | some v => s.setGroup g (f v)

def State.team? (s : State) (t : Nat) : Option Team := AMap.at? s.teams t
def State.setTeam (s : State) (t : Nat) (v : Team) : State := { s with teams := AMap.set s.teams t v }
def State.modTeam (s : State) (t : Nat) (f : Team → Team) : State :=
  match s.team? t with
  | none => s
  | some v => s.setTeam t (f v)

def State.cluster? (s : State) (c : Nat) : Option Cluster := AMap.at? s.clusters c
def State.modCluster (s : State) (c : Nat) (f : Cluster → Cluster) : State :=
  match s.cluster? c with
  | none => s
  | some v => { s with clusters := AMap.set s.clusters c (f v) }

def State.grid? (s : State) (n : Nat) : Option Grid := AMap.at? s.grids n
def State.modGrid (s : State) (n : Nat) (f : Grid → Grid) : State :=
  match s.grid? n with
  | none => s
  | some v => { s with grids := AMap.set s.grids n (f v) }

def State.pend? (s : State) (id : Nat) : Option Pend := s.pending.find? (·.id == id)
def State.dropPend (s : State) (id : Nat) : State :=
  { s with pending := s.pending.filter (·.id != id) }
def State.addPend (s : State) (p : Pend) : State := { s with pending := s.pending ++ [p] }
def State.setPend (s : State) (p : Pend) : State :=
  { s with pending := s.pending.map fun q => if q.id == p.id then p else q }

/-- The group in a slot of a core, if resident. -/
def State.groupAt (s : State) (core slot : Nat) : Option Nat :=
  (List.find? (fun e : Nat × Group => e.2.core == core && e.2.slot == slot && !e.2.ended &&
    (match s.team? e.2.team with | none => false | some t => t.resident)) s.groups).map (·.1)

/-- The grid, cluster and team a group belongs to. -/
def State.teamOf (s : State) (g : Group) : Option Team := s.team? g.team
def State.clusterOf (s : State) (g : Group) : Option Cluster := (s.teamOf g).bind fun t => s.cluster? t.cluster
def State.gridOf (s : State) (g : Group) : Option Grid := (s.clusterOf g).bind fun c => s.grid? c.grid
def State.tenantOf (s : State) (g : Group) : Nat := ((s.gridOf g).map (·.rcd.tenant)).getD 0
def State.teamTenant (s : State) (t : Team) : Nat :=
  (((s.cluster? t.cluster).bind fun c => s.grid? c.grid).map (·.rcd.tenant)).getD 0

/-! ## Sites and logical cores (01 R8, 18 R392, 23 R481) -/

/-- The sites that are enabled now: in S2 those of C0 only (23 R481). What HMAP_C1 to HMAP_C3, LMAP and SYS_NCORE
read in S1 is not stated; before S3 the model shows C0 alone in every stage (log 64). -/
def State.siteOn (s : State) (psi : Nat) : Bool :=
  psi < (if s.boot.stage = 3 then 144 else 36) && !s.fuses.fused.has psi

/-- The physical site indices of the enabled sites, in order: logical core i is the i-th. -/
def State.sites (s : State) : List Nat := (List.range 144).filter s.siteOn
def State.nCore (s : State) : Nat := s.sites.length
/-- Physical site of a logical core. -/
def State.psi (s : State) (core : Nat) : Nat := s.sites.getD core 0
def State.coreOfPsi (s : State) (psi : Nat) : Nat := ((List.range psi).filter s.siteOn).length
def State.dieOf (s : State) (core : Nat) : Nat := s.psi core / 36

/-- Lanes of a mask, in ascending order. -/
def lanesOf (m : Mask) : List Nat := (List.range 32).filter fun l => m.toNat.testBit l

def maskOf (ls : List Nat) : Mask := ls.foldl (fun m l => m ||| (1#32 <<< l)) 0

/-- Clocks of a bound the spec states in ns: 2.25 GHz, or 1.125 GHz with the bound doubled in
reduced service (02 R2; 23 R481, R482), which is the same number of clocks. -/
def nsClocks (ns : Nat) : Nat := (ns * 9 + 3) / 4

/-- Clocks of a time software programs, which keeps its real length in reduced service (23 R482). -/
def State.realClocks (s : State) (ns : Nat) : Nat :=
  if s.boot.stage = 3 then nsClocks ns else (ns * 9 + 7) / 8

/-- The device's own time, in units of 0.25 ns. -/
def State.time (s : State) : Nat := s.time9 / 9

/-- The timestamp of a die, which SYS_TIME returns there (18 Table 18-1; 21 R432). -/
def State.dieTime (s : State) (die : Nat) : Nat := s.time + Config.dieSkew die s.plat.ptpMsgs % 5

end Sys2Proof.Machine
end

