-- ==== Sys2Proof/Machine/Trace.lean ====
section
/-!
DEFINITION. The sources of the trace fabric (21 R431 to R446): packets are built here and enter the
core's trace FIFO. Their merging into streams is the aggregation's (Machine/Selvage.lean).
-/
namespace Sys2Proof.Machine

/-- Bits of SV_CTL (21 Table 21-2). -/
def ctlEN : Nat := 0
def ctlLL : Nat := 1
def ctlBM : Nat := 2
def ctlGRP : Nat := 3
def ctlMEM : Nat := 4
def ctlCMT : Nat := 5
def ctlENG : Nat := 6
def ctlSTN : Nat := 7
def ctlMARK : Nat := 8
def ctlXP : Nat := 9
def ctlRA : Nat := 10
def ctlRACE : Nat := 11

/-- A stream records an event kind: EN and the kind's bit are 1 (21 R446). -/
def State.traces (s : State) (t bitNo : Nat) : Bool :=
  (s.stream t).ctl.toNat.testBit ctlEN && (s.stream t).ctl.toNat.testBit bitNo

/-- Packet types (21 Table 21-4). -/
def tySYNC : Nat := 0x01
def tyLOSS : Nat := 0x02
def tyGSTART : Nat := 0x03
def tyGEND : Nat := 0x04
def tyBR : Nat := 0x05
def tyDIV : Nat := 0x06
def tyRCV : Nat := 0x07
def tyEXIT : Nat := 0x08
def tyIND : Nat := 0x09
def tyTMARK : Nat := 0x0A
def tyMSAMP : Nat := 0x0B
def tyCMT : Nat := 0x0C
def tyDISC : Nat := 0x0D
def tyENG : Nat := 0x0E
def tyRA : Nat := 0x0F
def tyXPATH : Nat := 0x10
def tySTOP : Nat := 0x11
def tyRMARK : Nat := 0x12
def tyRACE : Nat := 0x13
def tySTN : Nat := 0x14
def tyPCHI : Nat := 0x15

/-- Bytes of the trace FIFO (01 Table 1-2); a packet takes its header byte and payload (log 11). -/
def fifoSize : Nat := 16384
def Pkt.size (p : Pkt) : Nat := 1 + p.body.length
def Core.fifoUsed (c : Core) : Nat := (c.fifo.map Pkt.size).sum

/-- Add to a 64-bit counter of a core (21 R457). -/
def Core.count (c : Core) (n k : Nat) : Core :=
  { c with cnt := AMap.put 0 c.cnt n (AMap.get 0 c.cnt n + BitVec.ofNat 64 k) }

/-- What a place that has dropped packets owes before the next: one LOSS, with the stamp of the first of them
(21 R442). -/
def lossPkt (owed : Option (Nat × Nat)) (p : Pkt) (place : Byte) : List Pkt :=
  match owed with
  | none => []
  | some (n, stamp) => [{ p with stamp := stamp, ty := tyLOSS, body := leBytes 4 n ++ [place] }]

/-- One more packet is dropped. -/
def oneMore (owed : AMap (Nat × Nat)) (k stamp : Nat) : AMap (Nat × Nat) :=
  match owed.at? k with
  | none => owed.set k (1, stamp)
  | some (n, first) => owed.set k (n + 1, first)

/-- Put a packet into a core's FIFO; a full FIFO drops and counts it, and a LOSS stands before the
next packet that enters (21 R442). -/
def State.push (s : State) (core unit t ty : Nat) (body : List Byte) : State :=
  let c := s.core core
  let die := s.dieOf core
  let pk : Pkt := ⟨t, s.dieTime die, die, 8 * core + unit, ty, body⟩
  let pks := lossPkt (c.dropped.at? t) pk 1 ++ [pk]
  if c.fifoUsed + (pks.map Pkt.size).sum ≤ fifoSize then
    s.setCore core ({ c with fifo := c.fifo ++ pks, dropped := c.dropped.del t }.count 0x27 pks.length)
  else
    let s := s.setCore core ({ c with dropped := oneMore c.dropped t pk.stamp }.count 0x28 1)
    s.modStream t fun r => { r with lostCnt := r.lostCnt + 1 }

/-- GID (21 R438). -/
def State.gidBytes (s : State) (g : Group) : List Byte :=
  let num := ((s.teamOf g).map (·.num)).getD 0
  leBytes 1 g.core ++ leBytes 2 (g.slot % 512 + 512 * num)

/-- A group's packet whose payload starts with GID and PC; `tgt` is its TGT field, which stands
last. PCHI packets keep bits [63:32] known (21 R439). Memory samples come from the memory pipe, the others from
the group's scheduler (21 R433). -/
def State.emitPC (s : State) (gid : Nat) (bitNo ty : Nat) (pc : Word64) (mid : List Byte)
    (tgt : Option Word64) : State :=
  match s.group? gid with
  | none => s
  | some g =>
    let t := s.tenantOf g
    if s.traces t bitNo then
      let u := if ty = tyMSAMP then 4 else g.slot % 4
      let hi := BitVec.ofNat 32 (pc.toNat / 2 ^ 32)
      let pchi (s : State) (h : BitVec 32) :=
        s.push g.core u t tyPCHI (s.gidBytes g ++ leBytes 4 h.toNat)
      let low := match tgt with
        | none => true
        | some w => BitVec.ofNat 32 (w.toNat / 2 ^ 32) == g.trc.hi
      let s := if hi == g.trc.hi && low then s else pchi s hi
      let s := s.push g.core u t ty (s.gidBytes g ++ leBytes 4 pc.toNat ++ mid ++
        (match tgt with | none => [] | some w => leBytes 4 w.toNat))
      let hi' := match tgt with | none => hi | some w => BitVec.ofNat 32 (w.toNat / 2 ^ 32)
      let s := if hi' == hi then s else pchi s hi'
      s.modGroup gid fun g => { g with trc := { g.trc with hi := hi' } }
    else s

/-- A packet of a group without a PC (GSTART, GEND, DISC). -/
def State.emitG (s : State) (gid : Nat) (unit bitNo ty : Nat) (rest : List Byte) : State :=
  match s.group? gid with
  | none => s
  | some g =>
    if s.traces (s.tenantOf g) bitNo then
      s.push g.core unit (s.tenantOf g) ty (s.gidBytes g ++ rest)
    else s

/-- The source number of the stations of a kind on a die (21 R433 gives them numbers from 1152 on; log 73). -/
def stationSrc (die kind : Nat) : Nat := 1152 + 8 * die + kind

/-- A packet of a station enters the queue it keeps for a stream, or is dropped and counted there where the
queue is full (21 R442, R444). -/
def State.enqueue (s : State) (p : Pkt) : State :=
  let k := 65 * p.src + p.stream
  if (s.plat.stn.filter fun q => q.stream == p.stream && q.src == p.src).length ≤ Config.stationRoom then
    { s with plat := { s.plat with
      stn := s.plat.stn ++ lossPkt (s.plat.stnDrops.at? k) p 2 ++ [p], stnDrops := s.plat.stnDrops.del k } }
  else
    let s := { s with plat := { s.plat with stnDrops := oneMore s.plat.stnDrops k p.stamp } }
    s.modStream p.stream fun r => { r with lostCnt := r.lostCnt + 1 }

/-- A station event (21 Table 21-5), to the stream of the tenant whose request it concerns, or to the device
stream and every stream whose STN is 1 (21 R446). An L1 is among its core's other sources. -/
def State.station (s : State) (die kind inst ev arg : Nat) (tenant : Option Nat) : State :=
  let body := leBytes 2 (kind * 4096 + inst % 4096) ++ leBytes 1 ev ++ leBytes 4 (arg % 2 ^ 32)
  let put (s : State) (t : Nat) : State :=
    if !s.traces t ctlSTN then s
    else s.enqueue ⟨t, s.dieTime die, die, if kind = 0 then 8 * inst + 7 else stationSrc die kind, tySTN, body⟩
  match tenant with
  | some t => put s t
  | none => (List.range 65).foldl put s

end Sys2Proof.Machine
end

