-- ==== Sys2Proof/Machine/Rail.lean ====
section
/-!
DEFINITION. The low rail (08 R185 to R206): codes and their k values, the code in force, the sets an
approximate result is drawn from, drift, and truncation of compressed lines.
-/
namespace Sys2Proof.Machine

/-- 08 Table 8-1, k of 32-bit results, by code. -/
def k32 (code : Nat) : Nat := [0, 1, 2, 3, 4, 6, 8, 10].getD code 0
/-- k of binary16 and int16 results. -/
def k16 (code : Nat) : Nat := [0, 0, 1, 1, 2, 3, 4, 5].getD code 0
/-- k of BF16 results. -/
def kbf (code : Nat) : Nat := [0, 0, 1, 1, 2, 2, 3, 4].getD code 0
/-- k_s of stored elements: 32-bit, and 16-bit when `tew`. -/
def kStore (tew : Bool) (code : Nat) : Nat :=
  if tew then [0, 0, 0, 1, 1, 2, 3, 4].getD code 0 else [0, 0, 1, 2, 3, 4, 6, 8].getD code 0
/-- Heddle q. -/
def kHeddle (code : Nat) : Nat := [0, 2, 4, 6, 8, 10, 12, 14].getD code 0

/-- The low rail is off in reduced service (08 R205). -/
def State.railOff (s : State) : Bool := s.boot.stage != 3

/-- The REQ of a team as R193 uses it: 7 for a team that holds none (08 R188). -/
def Team.reqOr7 (t : Team) : Nat := t.req.getD 7

/-- The code an approximate instruction of a team takes its k from (08 R193, R205). -/
def State.codeOf (s : State) (team : Nat) : Nat :=
  if s.railOff then 0 else ((s.team? team).map Team.reqOr7).getD 7

/-- The target of a core's regulator (08 R188). -/
def State.railTarget (s : State) (core : Nat) : Nat :=
  (s.core core).teams.foldl (fun m t =>
    match s.team? t with
    | none => m
    | some t => min m (min (t.req.getD 7) (t.reqPend.getD 7))) 7

/-- The code in force on a core (08 R190): the less accurate of the two a moving regulator is
between. -/
def State.codeInForce (s : State) (core : Nat) : Nat :=
  if s.railOff then 0 else max (s.core core).reg.pos ((s.core core).reg.next.getD 0)

/-- The codes a write of RAIL_SHARED replaced, for the 2 µs in which it takes effect (08 R187). -/
def State.oldShared (s : State) : Nat × Nat :=
  match s.railSet with
  | some (a, b, c) => if s.clk < c + nsClocks 2000 then (a, b) else (0, 0)
  | none => (0, 0)

/-- Storage codes in force in L2 and L3: while a write takes effect, the less accurate (08 R187). -/
def State.l2Code (s : State) : Nat := if s.railOff then 0 else max s.l2c s.oldShared.1
def State.l3Code (s : State) : Nat := if s.railOff then 0 else max s.l3c s.oldShared.2

/-- A number with its low k bits free (08 R193, R199). -/
def State.freeLow (s : State) (k v : Nat) : Nat × State :=
  if k = 0 then (v, s) else
    let r := s.free (2 ^ k)
    (v / 2 ^ k * 2 ^ k + r.1, r.2)

/-- Permissible (08 R193) for an integer. -/
def State.permInt (s : State) (k c : Nat) : Nat × State := s.freeLow k c

/-- Permissible for a floating-point encoding with `f` fraction bits and `e` exponent bits; a NaN is
already canonical. -/
def State.permFp (s : State) (f e k c : Nat) : Nat × State :=
  if c / 2 ^ f % 2 ^ e = 2 ^ e - 1 then (c, s) else s.freeLow k c

/-- Truncate (08 R203): d = 8 or 16; the narrow encoding. -/
def truncate (d x : Nat) : Nat :=
  let mag := x % 2 ^ 31
  let sign := x / 2 ^ 31 % 2
  if mag > 0x7F800000 then (if d = 8 then 0x7FC000 else 0x7FC0)
  else if mag = 0x7F800000 then x / 2 ^ d
  else
    let q := mag / 2 ^ d
    let r := mag % 2 ^ d
    let up := r > 2 ^ (d - 1) || (r == 2 ^ (d - 1) && q % 2 == 1)
    let q' := if up then q + 1 else q
    let q' := if q' > 0x7F7FFFFF / 2 ^ d then 0x7F7FFFFF / 2 ^ d else q'
    sign * 2 ^ (31 - d) + q'

end Sys2Proof.Machine
end

