-- ==== Sys2Proof/Machine/Phys.lean ====
section
/-!
DEFINITION. Device-visible memory (11 R227): a byte that a cache holds stands over backing memory; the
device order keeps what every event overwrote, so a read at an earlier position can be answered
(11 R241). Lines record which caches hold them, with what the choice of a victim rests on (06 R125), and
no cache holds more than its size (01 R10, R13). Physical keys carry the tier and, for a compressed
page, its CMP and page size, because such a page is packed in its frame (08 R204).
-/
namespace Sys2Proof.Machine

/-- A key: ((cmp x 4 + page size) x 4 + tier) x 2^52 + offset; page size is 0 unless CMP is nonzero. -/
def physKey (cmp lvl tier off : Nat) : Nat :=
  ((cmp * 4 + (if cmp = 0 then 0 else lvl)) * 4 + tier) * 2 ^ 52 + off % 2 ^ 52
def keyOff (k : Nat) : Nat := k % 2 ^ 52
def keyTier (k : Nat) : Nat := k / 2 ^ 52 % 4
def keyLvl (k : Nat) : Nat := k / 2 ^ 54 % 4
def keyCmp (k : Nat) : Nat := k / 2 ^ 56
/-- Bytes of a page whose leaf stands at a level (06 R112). -/
def pageSize (lvl : Nat) : Nat := if lvl = 0 then 4096 else if lvl = 1 then 2 ^ 21 else 2 ^ 30
def lineOf (k : Nat) : Nat := k / 256

/-- Backing address of byte i of the element that key k lies in, for a compressed page (08 R204); none
for the bytes Widen appends. -/
def packedAddr (k : Nat) : Option Nat :=
  let size := pageSize (keyLvl k)
  let d := keyCmp k
  let inPage := keyOff k % size
  let frame := keyTier k * 2 ^ 52 + (keyOff k - inPage)
  let i := inPage % 4
  if i < d then none else some (frame + (4 - d) * (inPage / 4) + (i - d))

/-- Backing byte of a key, widened where the page is compressed. -/
def State.backByte (s : State) (k : Nat) : Byte :=
  if keyCmp k = 0 then Memory.read s.mem k
  else match packedAddr k with
    | none => 0
    | some a => Memory.read s.mem a

/-- The device-visible value of a byte now. -/
def State.devByte (s : State) (k : Nat) : Byte :=
  ((s.dirty.at? k).orElse fun _ => s.kept.at? k).getD (s.backByte k)

/-- What a byte was at a position of an order, from what later events overwrote. -/
def undoAt {α : Type} (evs : List (Nat × Nat × AMap α)) (p k : Nat) (now : α) : α :=
  evs.foldl (fun v e => if p < e.1 then (e.2.2.at? k).getD v else v) now

/-- The device-visible value of a byte at a device position (11 R229). -/
def State.devByteAt (s : State) (p k : Nat) : Byte :=
  (undoAt s.dev.evs p k (some (s.devByte k))).getD 0

/-- The device-visible bytes from a key on. -/
def State.devBytes (s : State) (k n : Nat) : List Byte := (List.range n).map fun i => s.devByte (k + i)
def State.devNat (s : State) (k n : Nat) : Nat := leNat (s.devBytes k n)

/-! ## Drift (08 R199)

At most the low 8 bits of an element drift, so the codes that have held it are kept with its lowest
byte. -/

/-- Raise the codes of the elements of some sectors of a line. -/
def raiseUnits (c : Nat) (secs : List Nat) (m : AMap Nat) : AMap Nat :=
  if c = 0 then m else
    secs.foldl (fun m q => (List.range 32).foldl (fun m u =>
      let o := 64 * q + 2 * u
      AMap.put 0 m o (max c (AMap.get 0 m o))) m) m

/-- The four sectors of a line (06 R122). -/
def allSecs : List Nat := [0, 1, 2, 3]

/-- One byte of an approximate element as a read returns it. -/
def State.driftByte (s : State) (tew : Bool) (code addr : Nat) (b : Byte) : Byte × State :=
  if addr % (if tew then 2 else 4) = 0 then
    let f := s.freeLow (kStore tew code) b.toNat
    (BitVec.ofNat 8 f.1, f.2)
  else (b, s)

/-- The device-visible byte of a line as a read returns it now. -/
def State.lineByte (s : State) (k : Nat) (b : Byte) : Byte × State :=
  let l := s.line (lineOf k)
  if l.tol then s.driftByte l.tew (AMap.get 0 l.codes (k % 256)) k b else (b, s)

/-- The lines of a set of keys, without repeats. -/
def linesOf (ks : List Nat) : NSet := ks.foldl (fun a k => NSet.add a (lineOf k)) []

/-! ## Homes and slices (06 R123) -/

/-- HomeChannel of a line number of a tier. -/
def homeChannel (n : Nat) : Nat :=
  256 * (n % 3) + (bitsAt n 0 8 ^^^ bitsAt n 8 8 ^^^ bitsAt n 16 8 ^^^ bitsAt n 24 8 ^^^ bitsAt n 32 8
    ^^^ bitsAt n 40 8)

/-- L2Slice. -/
def l2Slice (n : Nat) : Nat :=
  32 * (n % 3) + (bitsAt n 0 5 ^^^ bitsAt n 5 5 ^^^ bitsAt n 10 5 ^^^ bitsAt n 15 5 ^^^ bitsAt n 20 5
    ^^^ bitsAt n 25 5 ^^^ bitsAt n 30 5 ^^^ bitsAt n 35 5 ^^^ bitsAt n 40 5 ^^^ bitsAt n 45 3)

/-- The line number within its tier, and the tier, of a line. -/
def tierLine (n : Nat) : Nat := n % 2 ^ 44
def lineTier (n : Nat) : Nat := n / 2 ^ 44 % 4

/-- The home channel of a line, its base die's number among the dies, and its L2 slice. -/
def chanOf (n : Nat) : Nat := homeChannel (tierLine n)
def baseOf (n : Nat) : Nat := 4 + chanOf n / 384
def sliceOf (n : Nat) : Nat := l2Slice (tierLine n)

/-- The line has an L3 over it: tier 3 is never held there (06 R115), and in reduced service the L3 of B0
is the memory itself, with no cache of its own (23 R481). -/
def State.hasL3 (s : State) (n : Nat) : Bool := lineTier n != 3 && s.boot.stage == 3

/-- Memory of a line is out of reach while both copies of the remap table are bad in its segment (18 R410);
segment 64 c + k is the k-th of channel c. -/
def State.remapBad (s : State) (n : Nat) : Bool :=
  !s.plat.bad0.isEmpty && !s.plat.bad1.isEmpty && lineTier n == 0 && s.boot.stage == 3 &&
    (let g := 64 * chanOf n + (Config.segmentOf (tierLine n)).toNat
     s.plat.bad0.has g && s.plat.bad1.has g)

/-! ## Caches -/

/-- The caches by number: the L1 of a core, the L2 of a die, the L3 of a base die. -/
def l1Id (core : Nat) : Nat := core
def l2Id (die : Nat) : Nat := 200 + die
def l3Id (base : Nat) : Nat := 300 + base

/-- Some cache holds the line. -/
def Line.cached (l : Line) : Bool := !l.l1.isEmpty || !l.l2.isEmpty || !l.l3.isEmpty

/-- The sectors that a core's L1 holds, those that a die's L2 holds, and those of them that are dirty. -/
def Line.secs1 (l : Line) (core : Nat) : NSet := l.l1.filterMap fun e => if e / 4 = core then some (e % 4) else none
def Line.secs2 (l : Line) (die : Nat) : NSet := l.l2.filterMap fun e => if e / 4 = die then some (e % 4) else none
def Line.secsD (l : Line) : NSet := match l.l2d with | some d => l.secs2 d | none => []
/-- The sectors that its owning near unit holds (12 R266). -/
def Line.secsOwn (l : Line) : NSet := match l.own with | some c => l.secs1 c | none => []
/-- Some cache holds a sector. -/
def Line.holds (l : Line) (q : Nat) : Bool := l.l1.any (· % 4 == q) || l.l2.any (· % 4 == q) || l.l3.has q
/-- A cache holds some of the line. -/
def Line.inCache (l : Line) (id : Nat) : Bool :=
  if id < 200 then !(l.secs1 id).isEmpty else if id < 300 then !(l.secs2 (id - 200)).isEmpty else !l.l3.isEmpty

/-- The copies in some caches are used: a new one takes the class, and a hit leaves it (06 R125). `old` is the
line before. -/
def Line.touch (l old : Line) (ids : List Nat) (cls use : Nat) : Line :=
  { l with
    cls := ids.foldl (fun m i => if old.inCache i then m else AMap.put 0 m i cls) l.cls
    used := ids.foldl (fun m i => AMap.set m i use) l.used }

/-- Which level supplies a sector, by its number, to a core (21 R448 LVL): 0 L1, 1 same-die L2, 2 other-die
L2, 3 L3, 4 HBM, 5 CXL tier, 6 host. What another near unit owns comes by way of the home (12 R266). -/
def State.supplier (s : State) (sec core : Nat) : Nat :=
  let n := sec / 4
  let l := s.line n
  let q := sec % 4
  if l.l1.has (4 * core + q) then 0
  else if l.l2.has (4 * s.dieOf core + q) then 1
  else if l.secsD.has q then 2
  else if l.l3.has q || l.secsOwn.has q then 3
  else match lineTier n with
    | 0 => if s.boot.stage = 3 then 4 else 3
    | 3 => 6
    | _ => 5

/-! ## Backing memory -/

/-- A byte of backing memory is written; what a byte of tier 2 held before may come back until its device
reports it persistent (06 R151; 11 R247). -/
def State.memWrite (s : State) (a : Nat) (b : Byte) : State :=
  let old := Memory.read s.mem a
  let was := AMap.get [] s.volat a
  { s with
    volat := if a / 2 ^ 52 % 4 = 2 ∧ was.contains old = false then AMap.set s.volat a (old :: was) else s.volat
    mem := Memory.write s.mem a b }

/-- The backing bytes of a line. -/
def backingOf (n : Nat) : List Nat :=
  let ks := (List.range 256).map (n * 256 + ·)
  if keyCmp (n * 256) = 0 then ks else ks.filterMap packedAddr

/-- The CXL device has reported what was written of a line persistent (06 R151). -/
def State.persist (s : State) (n : Nat) : State :=
  if lineTier n = 2 then
    let as := backingOf n
    { s with volat := s.volat.filter fun e => !as.contains e.1 }
  else s

/-- What is left of a line after copies of it have gone: of a sector that no cache holds, memory has the value,
with no drift since (08 R199) and no poison of the remap table (18 R410). A line that leaves the chip loses
its stamps (11 R236). -/
def State.tidyLine (s : State) (n : Nat) : State :=
  let l := s.line n
  let gone : NSet := allSecs.filter fun q => !l.holds q
  let out (k : Nat) : Bool := lineOf k == n && gone.has (k / 64 % 4)
  let stamped := s.dev.stamps.any fun e => e.1 / 64 == n && e.2.any fun x => l.lost ≤ x.2
  let l' : Line := if l.cached then
      { l with
        codes := List.filter (fun e : Nat × Nat => !gone.has (e.1 / 64)) l.codes
        bad := l.bad.delAll gone
        cls := List.filter (fun e : Nat × Nat => l.inCache e.1) l.cls
        used := List.filter (fun e : Nat × Nat => l.inCache e.1) l.used }
    else { lost := if stamped then s.dev.pos + 1 else l.lost }
  { s with
    kept := s.kept.filter fun e => !out e.1
    pois := if l.bad.isEmpty then s.pois else
      s.pois.filter fun k => !(lineOf k == n && gone.has (k / 64 % 4) && l.bad.has (k / 64 % 4))
    lines := AMap.put {} s.lines n l' }

/-- The dirty bytes of some sectors of a line go to backing memory, with the bits they hold (08 R199); a
compressed line is truncated whole (08 R203, R204). Copies that stay in caches keep what they hold. -/
def State.writeBackBytes (s : State) (n : Nat) (secs : List Nat) : State :=
  let l := s.line n
  let mine (k : Nat) : Bool := lineOf k == n && secs.contains (k / 64 % 4)
  let keep (s : State) (k : Nat) (b : Byte) : State :=
    if l.tol && l.holds (k / 64 % 4) then { s with kept := AMap.set s.kept k b } else s
  let s :=
    if keyCmp (n * 256) = 0 then
      (s.dirty.filter fun e => mine e.1).foldl (fun s e =>
        let b := s.lineByte e.1 e.2
        keep (b.2.memWrite e.1 b.1) e.1 e.2) s
    else
      let d := keyCmp (n * 256)
      let whole := (List.range 256).map fun i => (n * 256 + i, s.devByte (n * 256 + i))
      let s := (List.range 64).foldl (fun s i =>
        let k := n * 256 + 4 * i
        let b := s.lineByte k (s.devByte k)
        let w := truncate (8 * d) (s.devNat k 4 / 256 * 256 + b.1.toNat)
        (List.range (4 - d)).foldl (fun (s : State) j =>
          match packedAddr (k + d + j) with
          | none => s
          | some a => s.memWrite a (BitVec.ofNat 8 (w / 256 ^ j))) b.2) s
      whole.foldl (fun s e => keep s e.1 e.2) s
  { s with
    dirty := s.dirty.filter fun e => !mine e.1
    lines := if l.bad.isEmpty then s.lines else AMap.put {} s.lines n { l with bad := l.bad.delAll secs } }

/-- What an L2 or a near unit holds dirty of a line is written to its home (12 R266; 06 R151): to L3; for tier 3,
which has none, into the L2 of the owner's die; in reduced service to the flat memory. -/
def State.toHome (s : State) (n : Nat) : State :=
  let l := s.line n
  let moved := NSet.addAll l.secsD l.secsOwn
  if l.l2d.isNone && l.own.isNone then s
  else if s.hasL3 n then
    s.modLine n fun l => Line.touch { l with
      l2d := none, own := none, l3 := l.l3.addAll moved, l3d := true
      codes := if l.tol then raiseUnits s.l3Code moved l.codes else l.codes } l [l3Id (baseOf n)] 0 s.uses
  else if lineTier n = 3 then
    match l.own with
    | none => s
    | some c => s.modLine n fun l => Line.touch { l with
        own := none, l2 := l.l2.addAll (moved.map (4 * s.dieOf c + ·)), l2d := some (s.dieOf c) } l
        [l2Id (s.dieOf c)] 0 s.uses
  else (s.writeBackBytes n moved).modLine n fun l => { l with l2d := none, own := none }

/-- A dirty line is written back to memory (06 R122, R127): its count is cleared and its copies are clean;
where its memory is out of reach it is held in L3 (18 R410). A compressed line is then whole in the level
that wrote it (08 R204). -/
def State.writeBack (s : State) (n : Nat) : State :=
  let s := s.toHome n
  if s.remapBad n then s.modLine n fun l => { l with cnt := 0 }
  else (s.writeBackBytes n allSecs).modLine n fun l =>
    { l with l2d := none, l3d := false, cnt := 0
             l3 := if keyCmp (n * 256) ≠ 0 && !l.l3.isEmpty then allSecs else l.l3 }

/-! ### Sizes and victims (01 R10, R11, R13; 06 R125) -/

/-- Lines that a group buffer and a team level hold, with those reserved by commits in progress
(11 R240). -/
def State.teamLines (s : State) (t : Team) (more : List Nat) : Nat :=
  let res := s.pending.flatMap fun p => match p.op with
    | .commit _ .grp _ m false _ _ => if t.groups.any (· == p.gid) then m.map (·.1) else []
    | _ => []
  (linesOf (t.lvl.map (·.1) ++ res ++ more)).length

/-- Lines held in a level (11 R227). -/
def heldLines (m : AMap Held) : Nat := (linesOf (m.map (·.1))).length

/-- Group-buffer and team-level lines of all teams of a core (11 R227). -/
def State.coreLines (s : State) (core : Nat) : Nat :=
  (s.core core).teams.foldl (fun n k => match s.team? k with
    | none => n
    | some t => t.groups.foldl (fun n q => n + ((s.group? q).map fun g => heldLines g.mem.buf).getD 0)
        (n + s.teamLines t [])) 0

/-- Limits in lines: a team level, and all levels of a core (11 R227; 01 R11). -/
def Core.teamCap (c : Core) : Nat := c.cl1 * 64
def Core.levelCap (c : Core) : Nat := c.cl1 * 192
/-- Lines of a core's L1, of an L2 slice (96 of them in 96 MiB) and of the L3 of a base die. -/
def Core.l1Cap (c : Core) : Nat := c.cl1 * 256
def l2Cap : Nat := 4096
def l3Cap : Nat := 2 ^ 21

/-- STREAM before NORMAL before KEEP. -/
def classRank (c : Nat) : Nat := if c = 1 then 0 else if c = 0 then 1 else 2

/-- A line of a cache would be a victim before another. -/
def State.sooner (s : State) (id a b : Nat) : Bool :=
  let key (n : Nat) : Nat × Nat := (classRank (AMap.get 0 (s.line n).cls id), AMap.get 0 (s.line n).used id)
  (key a).1 < (key b).1 || ((key a).1 == (key b).1 && (key a).2 ≤ (key b).2)

/-- Of the lines of one set, the least recently used of the lowest class. -/
def State.leastOf (s : State) (id : Nat) : List Nat → Option Nat
  | [] => none
  | a :: as => match s.leastOf id as with
    | none => some a
    | some b => if s.sooner id a b then some a else some b

/-- The victim that makes room for a line in a full cache (06 R125): from the line's set, or, where that holds
no other, from a free one, since what a set holds is not stated (log 72). -/
def State.victim (s : State) (id lvl : Nat) (cand : List Nat) (n : Nat) : Option Nat × State :=
  let of (m : Nat) : List Nat := cand.filter fun v => Config.setOf lvl v == Config.setOf lvl m
  if (of n).isEmpty then
    let f := s.freeIn 0 (cand.length - 1)
    (f.2.leastOf id (of (cand.getD f.1 n)), f.2)
  else (s.leastOf id (of n), s)

/-- The line is held pinned in the L2 of a die (15 R344; 16 R365). -/
def State.pinnedIn (s : State) (die n : Nat) : Bool :=
  s.cores.any fun e => s.dieOf e.1 == die && e.2.cmds.any fun c => c.pins.has n || c.hpins.any (·.2 == n)

/-- A line leaves L3, after write-back of what only L3 holds dirty of it. -/
def State.dropL3 (s : State) (n : Nat) : State :=
  let l := s.line n
  if l.l3d && s.remapBad n then s else
    let s := if l.l3d then s.writeBackBytes n (l.l3.filter fun q => !l.secsD.has q && !l.secsOwn.has q) else s
    (s.modLine n fun l => { l with l3 := [], l3d := false, cnt := 0 }).tidyLine n

/-- L3 holds no more than its size, after a line entered it. -/
def State.fit3 (s : State) (n : Nat) : State :=
  if s.lines.length ≤ l3Cap then s else
    let held := (List.filter (fun e : Nat × Line => !e.2.l3.isEmpty && baseOf e.1 == baseOf n) s.lines).map (·.1)
    if held.length ≤ l3Cap then s else
      let v := s.victim (l3Id (baseOf n)) 3 (held.filter fun m => m != n && !((s.line m).l3d && s.remapBad m)) n
      match v.1 with
      | none => v.2
      | some m => v.2.dropL3 m

/-- A line leaves the L2 of a die; what is dirty there goes to its home. -/
def State.dropL2 (s : State) (die n : Nat) : State :=
  let s := if (s.line n).l2d = some die then (if s.hasL3 n then (s.toHome n).fit3 n else s.writeBack n) else s
  (s.modLine n fun l => { l with l2 := l.l2.filter fun e => e / 4 != die }).tidyLine n

/-- The L2 of a die holds no more of a slice than its size, the lines of cluster levels among them, after a
line entered it. -/
def State.fit2 (s : State) (die n : Nat) : State :=
  let clu := s.clusters.flatMap fun e => if e.2.die = die then linesOf (e.2.lvl.map (·.1)) else []
  if s.lines.length + clu.length ≤ l2Cap then s else
    let held := (List.filter (fun e : Nat × Line => e.2.inCache (l2Id die) && sliceOf e.1 == sliceOf n) s.lines).map (·.1)
    if held.length + (clu.filter fun m => sliceOf m == sliceOf n).length ≤ l2Cap then s else
      let v := s.victim (l2Id die) 2 (held.filter fun m => m != n && !s.pinnedIn die m) n
      match v.1 with
      | none => v.2.dropL2 die n
      | some m => v.2.dropL2 die m

/-- A line leaves a core's L1; what its near unit owns goes to the home first. -/
def State.dropL1 (s : State) (core n : Nat) : State :=
  let s := if (s.line n).own = some core then (s.toHome n).fit3 n else s
  (s.modLine n fun l => { l with l1 := l.l1.filter fun e => e / 4 != core }).tidyLine n

/-- A core's L1 holds no more than its carve, group buffers and team levels among it, after a line
entered it. -/
def State.fit1 (s : State) (core n : Nat) : State :=
  let cap := (s.core core).l1Cap
  let lv := s.coreLines core
  if s.lines.length + lv ≤ cap then s else
    let held := (List.filter (fun e : Nat × Line => e.2.inCache (l1Id core)) s.lines).map (·.1)
    if held.length + lv ≤ cap then s else
      let v := s.victim (l1Id core) 1 (held.filter (· != n)) n
      match v.1 with
      | none => v.2.dropL1 core n
      | some m => v.2.dropL1 core m

/-- A line leaves every cache, after write-back if it is dirty; where its memory is out of reach it stays in L3
(18 R410). -/
def State.evict (s : State) (n : Nat) : State :=
  let l := s.line n
  let dirty := l.l2d.isSome || l.l3d || l.own.isSome
  let s := if dirty then s.writeBack n else s
  if dirty && s.remapBad n then s else
    (s.modLine n fun l => { l with l1 := [], l2 := [], l3 := [] }).tidyLine n

/-- Clean copies of some sectors are made in a core's L1, its die's L2 and L3 as the cache class and the
policy class allow (06 R122, R124, R125); class 0 NORMAL, 1 STREAM, 2 KEEP. -/
def State.allocate (s : State) (n : Nat) (secs : List Nat) (core cc cls : Nat) (tol tew : Bool) : State :=
  let die := s.dieOf core
  let l := s.line n
  let counted := l.cnt != 0 && cls == 1
  let in1 := cc == 0 && !counted
  let in2 := cc ≤ 1 && !counted
  let in3 := s.hasL3 n
  let ids := (if in1 then [l1Id core] else []) ++ (if in2 then [l2Id die] else [])
    ++ (if in3 then [l3Id (baseOf n)] else [])
  let code := max (if in1 then s.codeInForce core else 0)
    (max (if in2 then s.l2Code else 0) (if in3 then s.l3Code else 0))
  let s := { (s.modLine n fun l => Line.touch { l with
      l1 := if in1 then l.l1.addAll (secs.map (4 * core + ·)) else l.l1
      l2 := if in2 then l.l2.addAll (secs.map (4 * die + ·)) else l.l2
      l3 := if in3 then l.l3.addAll secs else l.l3
      tol := if l.cached && l.typed then l.tol else tol
      typed := true, tew := tew, codes := if tol then raiseUnits code secs l.codes else [] } l ids cls s.uses) with
    uses := s.uses + 1 }
  let s := if in3 then s.fit3 n else s
  let s := if in2 then s.fit2 die n else s
  if in1 then s.fit1 core n else s

/-- A read request for a line reaches the home L3 (06 R127): a counted line loses one, and at 0 it
is dropped without write-back, so memory keeps what it held. The rule says nothing of clean copies that L1s and
L2s hold then: they go with it (log 36). -/
def State.l3Request (s : State) (n : Nat) (tenant : Option Nat) : State :=
  let l := s.line n
  if l.cnt = 0 then s
  else if l.cnt = 1 then
    let dirty := (s.dirty.filter fun e => lineOf e.1 == n).map (·.1)
    let s := { s with
      dirty := s.dirty.filter fun e => lineOf e.1 != n
      kept := s.kept.filter fun e => lineOf e.1 != n
      pois := s.pois.delAll dirty }
    let s := (s.modLine n fun l => { l with
      l1 := [], l2 := [], l3 := [], l2d := none, l3d := false, own := none, cnt := 0 }).tidyLine n
    let s := (NSet.addAll [] (l.l1.map (· / 4))).foldl (fun s c => s.station (s.dieOf c) 0 c 0 n tenant) s
    let s := (NSet.addAll [] (l.l2.map (· / 4))).foldl (fun s d => s.station d 1 (sliceOf n) 1 n tenant) s
    s.station (baseOf n) 2 (chanOf n) 0 n tenant
  else s.modLine n fun l => { l with cnt := l.cnt - 1 }

/-! ## Device-order events -/

/-- Where written bytes come to lie. -/
inductive Dest where
  /-- Dirty in the L2 of a die (a commit at cluster or device scope). -/
  | l2 (die : Nat)
  /-- Owned dirty in a core's L1 (a near atomic, 12 R266). -/
  | l1 (core : Nat)
  /-- Dirty in the home L3 (far atomics, engine, host and peer writes). -/
  | l3
  /-- Written through to backing memory (system scope). -/
  | mem
deriving DecidableEq, Repr

/-- Record at an order that unit `u` wrote the words of these keys at a position (11 R235). -/
def stampAll (st : AMap (AMap Nat)) (u p : Nat) (ks : List Nat) : AMap (AMap Nat) :=
  (ks.foldl (fun a k => NSet.add a (k / 4)) ([] : NSet)).foldl
    (fun st w => AMap.set st w (AMap.set (AMap.get [] st w) u p)) st

/-- No completion that R243 bounds. -/
def noBound : Nat := 2 ^ 100

/-- The store serialised last among the bytes that reach a line (06 R126). -/
def lastStored : List (Nat × Held) → Option Held
  | [] => none
  | e :: es => match lastStored es with
    | none => some e.2
    | some h => if h.ser ≤ e.2.ser then some e.2 else some h

/-- The bytes an event writes of one line come to lie where they go; every other copy is gone (06 R123, R126;
12 R266). -/
def State.land (s : State) (n : Nat) (mine : List (Nat × Held)) (dst : Dest) : State :=
  let near : Option Nat := match dst with | .l1 core => some core | _ => none
  let s := if (s.line n).own.isSome && (s.line n).own != near then (s.toHome n).fit3 n else s
  let whole := 256 ≤ mine.length
  let ax := mine.any fun e => e.2.ax
  let secs : NSet := mine.foldl (fun a e => NSet.add a (e.1 / 64 % 4)) []
  let cnt := if s.hasL3 n then ((lastStored mine).map (·.cnt)).getD 0 else 0
  let old := s.line n
  -- the sectors that now lie where the bytes do: those written, and those that were dirty in an L2 or an L1
  let moved := (NSet.addAll secs old.secsD).addAll old.secsOwn
  let rest := old.l3.delAll moved
  let l : Line := { old with
    l1 := [], l2 := [], l2d := none, own := none, cnt := 0
    tol := ax || (old.tol && !whole)
    -- stores and atomics have gone through a page
    typed := ax || old.typed || (match dst with | .l2 _ | .l1 _ => true | _ => false)
    tew := if ax then mine.any (fun e => e.2.tew) else old.tew
    bad := if whole then [] else old.bad
    codes := mine.foldl (fun (m : AMap Nat) (e : Nat × Held) => AMap.put 0 m (e.1 % 256) e.2.code) old.codes }
  let inL2 (die : Nat) : Line :=
    { l with l2 := NSet.addAll [] ((moved.addAll (old.secs2 die)).map (4 * die + ·)), l2d := some die
             l3 := rest, l3d := old.l3d && !rest.isEmpty }
  let inL3 : Line :=
    { l with l3 := old.l3.addAll moved, l3d := true, cnt := cnt
             codes := if l.tol then raiseUnits s.l3Code moved l.codes else l.codes }
  let set (l : Line) (ids : List Nat) : State :=
    { (s.modLine n fun _ => Line.touch l old ids 0 s.uses) with uses := s.uses + 1 }
  let id3 := l3Id (baseOf n)
  match dst with
  | .l2 die =>
    if cnt = 0 then (set (inL2 die) [l2Id die]).fit2 die n else (set { inL3 with cnt := cnt } [id3]).fit3 n
  | .l1 core =>
    (set { l with l1 := NSet.addAll [] ((moved.addAll (old.secs1 core)).map (4 * core + ·)), own := some core
                  l3 := rest, l3d := old.l3d && !rest.isEmpty } [l1Id core]).fit1 core n
  | .l3 =>
    if s.hasL3 n then (set { inL3 with cnt := 0 } [id3]).fit3 n
    else if lineTier n = 3 then
      (let d := old.l2d.getD 0
       (set (inL2 d) [l2Id d]).fit2 d n)
    else ((set { l with l3 := [] } []).writeBackBytes n moved).tidyLine n
  | .mem =>
    if s.remapBad n then (set { inL3 with cnt := 0 } [id3]).fit3 n
    else if s.hasL3 n then
      (((set { inL3 with cnt := 0, l3d := old.l3d && !rest.isEmpty } [id3]).writeBackBytes n moved).fit3 n).tidyLine n
    else ((set { l with l3 := [] } []).writeBackBytes n moved).tidyLine n

/-- The next event of the device order (11 R230): bytes change together. `u`: 0, or 1 + cluster;
`done`: the clock from which R243 counts its 4 µs. -/
def State.devEvent (s : State) (u : Nat) (bs : List (Nat × Held)) (dst : Dest) (numbered : Bool)
    (done : Nat) : State :=
  let p := s.dev.pos + 1
  let undo : AMap (Option Byte) := bs.foldl (fun a e => AMap.set a e.1 (some (s.devByte e.1))) []
  let of (n : Nat) : List (Nat × Held) := bs.filter fun e => lineOf e.1 == n
  let stays (k : Nat) : Bool := (s.line (lineOf k)).bad.has (k / 64 % 4) && (of (lineOf k)).length < 256
  let s := { s with
    dirty := bs.foldl (fun d e => AMap.set d e.1 e.2.b) s.dirty
    kept := bs.foldl (fun d e => AMap.del d e.1) s.kept
    pois := bs.foldl (fun n e => if e.2.pois || stays e.1 then NSet.add n e.1 else NSet.del n e.1) s.pois
    dev := { s.dev with
      pos := p
      seq := if numbered then s.dev.seq + 1 else s.dev.seq
      evs := (p, done, undo) :: s.dev.evs
      stamps := stampAll s.dev.stamps u p (bs.map (·.1)) } }
  (linesOf (bs.map (·.1))).foldl (fun s n => s.land n (of n) dst) s

/-- The end of the positions whose events completed more than 4 µs ago (11 R243). -/
def boundAt {α : Type} (evs : List (Nat × Nat × AMap α)) (clk : Nat) : Nat :=
  evs.foldl (fun m e => if e.2.1 + nsClocks 4000 < clk then max m e.1 else m) 0

/-! ## Team and cluster levels -/

/-- What a level holds of a byte at a position of its order (11 R229). -/
def heldAt (lvl : AMap Held) (o : Order (Option Held)) (p k : Nat) : Option Held :=
  undoAt o.evs p k (lvl.at? k)

/-- The next event of a team or cluster order: keys take a new holding, or lose it. -/
def levelEvent (lvl : AMap Held) (o : Order (Option Held)) (clk u : Nat) (bs : List (Nat × Option Held))
    (stamp numbered : Bool) : AMap Held × Order (Option Held) :=
  let p := o.pos + 1
  let undo : AMap (Option Held) := bs.foldl (fun a e => AMap.set a e.1 (lvl.at? e.1)) []
  (bs.foldl (fun m e => match e.2 with | none => AMap.del m e.1 | some h => AMap.set m e.1 h) lvl,
   { o with
     pos := p
     seq := if numbered then o.seq + 1 else o.seq
     evs := (p, clk, undo) :: o.evs
     stamps := if stamp then stampAll o.stamps u p (bs.map (·.1)) else o.stamps })

/-- Was a word of these keys written by a sibling of unit `u` after the reference point (11 R235)? -/
def overlaps (st : AMap (AMap Nat)) (u ref : Nat) (ks : List Nat) : Bool :=
  ks.any fun k => (AMap.get [] st (k / 4)).any fun e => e.1 != u && ref < e.2

/-- Overlap at the device level (11 R236): true overlap, or a free answer for a word of a line whose
stamps were lost after the reference point. -/
def State.devOverlap (s : State) (u ref : Nat) (ks : List Nat) : Bool × State :=
  if overlaps s.dev.stamps u ref ks then (true, s)
  else if (linesOf ks).any (fun n => ref < (s.line n).lost) then
    let r := s.free 2
    (r.1 == 1, r.2)
  else (false, s)

/-! ## Codes that change (08 R185, R187, R199) -/

/-- Raise the code of everything a core's rail supplies. -/
def State.raiseCore (s : State) (core : Nat) : State :=
  let c := s.codeInForce core
  let up (h : Held) : Held := if h.ax then { h with code := max h.code c } else h
  let upBlock (b : AMap Nat) : AMap Nat :=
    if c = 0 then b else (List.range 64).foldl (fun m i => AMap.put 0 m i (max c (AMap.get 0 m i))) b
  { s with
    lines := s.lines.mapVals fun _ l =>
      if l.tol then { l with codes := raiseUnits c (l.secs1 core) l.codes } else l
    groups := s.groups.mapVals fun _ g =>
      if g.core = core && ((s.team? g.team).map (·.resident)).getD false then
        { g with mem := { g.mem with buf := g.mem.buf.mapVals fun _ => up } } else g
    teams := s.teams.mapVals fun _ t => if t.core = core && t.resident then
      { t with
        lvl := t.lvl.mapVals fun _ => up
        windows := t.windows.mapVals fun _ w => { w with entries := w.entries.mapVals fun _ e =>
          (if bitAt e.e.toNat 5 then { e with codes := raiseUnits c allSecs e.codes } else e) }
        sp := { t.sp with ax := t.sp.ax.mapVals fun _ => upBlock } } else t }

/-- Raise the code of approximate lines in L2 and L3. -/
def State.raiseShared (s : State) : State :=
  let up (h : Held) : Held := if h.ax then { h with code := max h.code s.l2Code } else h
  let codes (l : Line) := raiseUnits s.l3Code l.l3
    (raiseUnits s.l2Code (NSet.addAll [] (l.l2.map (· % 4))) l.codes)
  { s with
    lines := s.lines.mapVals fun _ l => if l.tol then { l with codes := codes l } else l
    clusters := s.clusters.mapVals fun _ c => { c with lvl := c.lvl.mapVals fun _ => up } }

end Sys2Proof.Machine
end

