-- ==== Sys2Proof/Machine/Translate.lean ====
section
/-!
DEFINITION. Translation (06 R112 to R115): the four-level walk, the TLBs, which are not coherent with
stores to tables, and the fault queue (06 R117 to R121).
-/
namespace Sys2Proof.Machine

/-- 02 R22. -/
def canonical (a : Nat) : Bool := bitsAt a 56 8 == 0 || bitsAt a 56 8 == 255

/-! ## Entries (06 Table 6-2) -/

def entV (e : Nat) : Bool := bitAt e 0
def entLeaf (e : Nat) : Bool := bitAt e 1
def entRd (e : Nat) : Bool := bitAt e 2
def entW (e : Nat) : Bool := bitAt e 3
def entX (e : Nat) : Bool := bitAt e 4
def entTol (e : Nat) : Bool := bitAt e 5
def entTew (e : Nat) : Bool := bitAt e 6
def entCmp (e : Nat) : Nat := bitsAt e 7 2
def entCc (e : Nat) : Nat := bitsAt e 9 2
/-- PA in bytes. -/
def entPa (e : Nat) : Nat := bitsAt e 12 40 * 4096
def entG64 (e : Nat) : Bool := bitAt e 52
def entTier (e : Nat) : Nat := bitsAt e 53 2

/-- Installed bytes of a tier, of which the CXL tiers have 6 TiB at most (00 R1; 01 Table 1-3); tier 3 is host
memory and has no size here (06 R113, 23 R481). -/
def State.tierSize (s : State) (tier : Nat) : Nat :=
  let cxl := 6 * 2 ^ 40
  let one := min s.installed.2.1 cxl
  if s.boot.stage = 3 then
    match tier with
    | 0 => s.installed.1 | 1 => one | 2 => min s.installed.2.2 (cxl - one) | _ => 2 ^ 52
  else
    match tier with
    | 0 => 2 ^ 29 | 3 => 2 ^ 52 | _ => 0

/-- A valid entry of a level is malformed (06 R113). -/
def State.malformed (s : State) (lvl e : Nat) : Bool :=
  let leaf := lvl = 0 || entLeaf e
  bitsAt e 55 9 != 0 || bitAt e 11 || entCc e == 3 || entCmp e == 3
    || (lvl == 0 && !entLeaf e) || (lvl == 3 && entLeaf e)
    || (entW e && !entRd e) || (entX e && entTol e) || ((entTew e || entCmp e != 0) && !entTol e)
    || (entCmp e != 0 && entTew e)
    || (leaf && lvl != 3 && entPa e % pageSize lvl != 0)
    || (leaf && lvl != 3 && s.tierSize (entTier e) < entPa e + pageSize lvl)
    || (entG64 e && lvl != 0)

/-- Bits of the virtual address that index a level (06 R112). -/
def levelIndex (lvl va : Nat) : Nat :=
  if lvl = 3 then bitsAt va 39 18 else bitsAt va (12 + 9 * lvl) 9

/-- What an entry answers at level 0 for the page with index j of its 64 KiB page, taken from the entry
with index i (06 R113): its PA, moved by the distance of the pages, is held to the same rules. -/
def State.leaf0 (s : State) (e i j : Nat) : WalkRes :=
  let pa := (bitsAt e 12 40 + j + (2 ^ 40 - i)) % 2 ^ 40
  let e' := e - bitsAt e 12 40 * 4096 + pa * 4096
  if !entV e then .absent 0
  else if s.malformed 0 e then .malformed ⟨BitVec.ofNat 64 e, 0⟩
  else if s.malformed 0 e' then .malformed ⟨BitVec.ofNat 64 e', 0⟩
  else .leaf ⟨BitVec.ofNat 64 e', 0⟩

/-- Sectors of a line are read from HBM (18 R410; 21 Table 21-5): from a segment of the remap table that is bad in
both copies they come poisoned; a row that has been remapped is reported. -/
def State.memEvents (s : State) (n : Nat) (secs : List Nat) (tenant : Option Nat) : State :=
  let row := (Config.rowOf (tierLine n)).toNat
  if (secs.all fun q => (s.line n).holds q) || lineTier n != 0 || s.boot.stage != 3 then s
  else if s.remapBad n then
    (s.station (baseOf n) 3 (chanOf n) 3 row tenant).station (baseOf n) 2 (chanOf n) 1 n tenant
  else if bitsAt (AMap.get 0 s.plat.hbmst (chanOf n / 64)).toNat 16 16 != 0 && Config.rowRemapped (tierLine n) then
    s.station (baseOf n) 3 (chanOf n) 2 row tenant
  else s

/-- A walker's read of a table entry at the home L3 (06 R114): what a near unit owns is recalled first
(12 R266); an entry that comes poisoned has a free value (18 R410; log 75). -/
def State.tableWord (s : State) (tenant off : Nat) : Nat × State :=
  let k := physKey 0 0 0 off
  let n := lineOf k
  let s := if (s.line n).own.isSome then (s.toHome n).fit3 n else s
  let poisoned := !(s.line n).holds (k / 64 % 4) && s.remapBad n
  let s := s.memEvents n [k / 64 % 4] (some tenant)
  if poisoned then s.free (2 ^ 64) else (s.devNat k 8, s)

/-- The walk from a level down (06 R112, R113). Tables are read as device-visible memory at tier-0
offsets. -/
def State.walkFrom (s : State) (tenant va : Nat) : Nat → Nat → WalkRes × State
  | 0, tab =>
    let base := tab + 8 * (levelIndex 0 va / 16 * 16)
    let j := levelIndex 0 va % 16
    let r := (List.range 16).foldl (fun (r : List Nat × State) i =>
      let w := r.2.tableWord tenant (base + 8 * i)
      (r.1 ++ [w.1], w.2)) ([], s)
    let es := r.1
    let e := es.getD j 0
    if es.any (fun x => entV x && entG64 x) then
      let e0 := es.getD 0 0
      let agree := entPa e0 % 65536 == 0 &&
        (List.range 16).all fun i => es.getD i 0 == e0 + i * 4096
      if agree then (r.2.leaf0 e j j, r.2)
      else (.mixed (es.map (BitVec.ofNat 64)) j, r.2)
    else (r.2.leaf0 e j j, r.2)
  | lvl + 1, tab =>
    let r := s.tableWord tenant (tab + 8 * levelIndex (lvl + 1) va)
    let e := r.1
    let s := r.2
    if !entV e then (.absent (lvl + 1), s)
    else if s.malformed (lvl + 1) e then (.malformed ⟨BitVec.ofNat 64 e, lvl + 1⟩, s)
    else if entLeaf e then (.leaf ⟨BitVec.ofNat 64 e, lvl + 1⟩, s)
    else s.walkFrom tenant va lvl (entPa e)

/-- A tier-3 leaf is translated once more by the host, whose answer is free (06 R115). -/
def State.hostLeaf (s : State) (r : WalkRes) : WalkRes × State :=
  match r with
  | .leaf l =>
    if entTier l.e.toNat = 3 then
      let f := s.free 2
      (if f.1 = 0 then .leaf l else .ats l, f.2)
    else (r, s)
  | _ => (r, s)

/-- A whole walk for a tenant. -/
def State.walkRaw (s : State) (tenant va : Nat) : WalkRes × State :=
  let r := s.walkFrom tenant va 3 (bitsAt (s.tenant tenant).root.toNat 12 45 * 4096)
  r.2.hostLeaf r.1

/-- What one access meets: of sixteen entries that do not agree, any one (06 R113). -/
def State.resolve (s : State) (r : WalkRes) : WalkRes × State :=
  match r with
  | .mixed es j =>
    let f := s.free 16
    f.2.hostLeaf (f.2.leaf0 (es.getD f.1 0).toNat f.1 j)
  | _ => (r, s)

/-- A walk for one access. -/
def State.walk (s : State) (tenant va : Nat) : WalkRes × State :=
  let r := s.walkRaw tenant va
  r.2.resolve r.1

/-! ## TLBs -/

def tlbKey (va lvl : Nat) : Nat := va % 2 ^ 64 / 4096 / 512 ^ lvl * 4 + lvl
def tlbFind (t : AMap Leaf) (va : Nat) : Option Leaf :=
  ((t.at? (tlbKey va 0)).orElse fun _ => t.at? (tlbKey va 1)).orElse fun _ => t.at? (tlbKey va 2)
/-- L2 TLB keys carry the tenant. -/
def l2Key (tenant va lvl : Nat) : Nat := tenant * 2 ^ 60 + tlbKey va lvl
def l2Find (t : AMap Leaf) (tenant va : Nat) : Option Leaf :=
  ((t.at? (l2Key tenant va 0)).orElse fun _ => t.at? (l2Key tenant va 1)).orElse
    fun _ => t.at? (l2Key tenant va 2)

/-- A translation held for a core (06 R114). -/
def State.tlbLookup (s : State) (core tenant va : Nat) : Option Leaf :=
  (tlbFind (s.core core).tlb va).orElse fun _ =>
    l2Find (AMap.get [] s.l2tlb (s.dieOf core)) tenant va

/-- Fill the L1 TLB (06 R114: 256 entries, fully associative): where it is full, a free entry leaves it
(log 72). -/
def State.tlbFill1 (s : State) (core va : Nat) (l : Leaf) : State :=
  let a := s.displace 256 (fun _ => 0) (s.core core).tlb (tlbKey va l.lvl)
  a.2.modCore core fun c => { c with tlb := AMap.set a.1 (tlbKey va l.lvl) l }

/-- Fill both TLBs (06 R114); the L2 TLB has 32,768 entries. -/
def State.tlbFill (s : State) (core tenant va : Nat) (l : Leaf) : State :=
  let s := s.tlbFill1 core va l
  let d := s.dieOf core
  let b := s.displace 32768 (fun _ => 0) (AMap.get [] s.l2tlb d) (l2Key tenant va l.lvl)
  { b.2 with l2tlb := AMap.set b.2.l2tlb d (AMap.set b.1 (l2Key tenant va l.lvl) l) }

/-- The physical key of an address under a leaf. -/
def Leaf.key (l : Leaf) (va : Nat) : Nat :=
  let e := l.e.toNat
  physKey (entCmp e) l.lvl (entTier e) (entPa e + va % pageSize l.lvl)

/-- One of the 64 walkers of the base die under a core's die reports (06 R114; 21 Table 21-5). -/
def State.walkEvent (s : State) (core tenant : Nat) (r : WalkRes) : State :=
  if !s.traces tenant ctlSTN then s else
    let b := s.dieOf core / 2
    let f := s.free 64
    let tell (ev arg : Nat) : State := f.2.station (4 + b) 4 (64 * b + f.1) ev arg (some tenant)
    match r with
    | .leaf l | .ats l | .malformed l => tell 0 (4 - l.lvl)
    | .mixed .. => tell 0 4
    | .absent lvl => tell 1 lvl

/-- A translation made at once, for agents that walk as part of their own step (the Treadle, engines,
the trace fabric, instruction fills): the TLB, or a walk that fills it. -/
def State.translate (s : State) (core tenant va : Nat) : WalkRes × State :=
  match s.tlbLookup core tenant va with
  | some l => (.leaf l, s)
  | none =>
    let r := s.walkRaw tenant va
    let s := r.2.walkEvent core tenant r.1
    match r.1 with
    | .leaf l => (r.1, s.tlbFill core tenant va l)
    | _ => s.resolve r.1

/-- Reads of a tenant's memory at the end of the device order by an agent without a core: walks
directly. None where an address is not canonical or its page has no leaf with Rd. -/
def State.readVirt (s : State) (tenant va : Nat) : Nat → Option (List Byte) × State
  | 0 => (some [], s)
  | n + 1 =>
    if canonical va = false then (none, s) else
    let r := s.walk tenant va
    match r.1 with
    | .leaf l =>
      if entRd l.e.toNat then
        let k := l.key va
        let b := r.2.devByte k
        let s := if (r.2.line (lineOf k)).own.isSome then (r.2.toHome (lineOf k)).fit3 (lineOf k) else r.2
        let t := s.readVirt tenant ((va + 1) % 2 ^ 64) n
        (t.1.map (b :: ·), t.2)
      else (none, r.2)
    | _ => (none, r.2)

/-- The keys of a virtual range for a write by such an agent; none where an address is not canonical or its
page has no leaf with W. -/
def State.keysVirt (s : State) (tenant va : Nat) : Nat → Option (List Nat) × State
  | 0 => (some [], s)
  | n + 1 =>
    if canonical va = false then (none, s) else
    let r := s.walk tenant va
    match r.1 with
    | .leaf l =>
      if entW l.e.toNat then
        let t := r.2.keysVirt tenant ((va + 1) % 2 ^ 64) n
        (t.1.map (l.key va :: ·), t.2)
      else (none, r.2)
    | _ => (none, r.2)

/-- A byte written by hardware: precise, no reader count. -/
def hwByte (va : Nat) (b : Byte) : Held := { b := b, va := va, ax := false, cnt := 0, pois := false, code := 0 }

/-- A byte of an entry is dirty while the team level holds it (06 R140). -/
def Team.dirtyAt (t : Team) (e : StashEntry) (off : Nat) : Option Held :=
  (AMap.at? e.dirty off).bind fun k => AMap.at? t.lvl k

/-- Outside commits of these bytes at device scope (06 R141): the clean bytes of other teams' entries
must go. -/
def State.touchStash (s : State) (team : Option Nat) (ks : List Nat) : State :=
  let ns := linesOf ks
  { s with teams := s.teams.mapVals fun id t =>
      if some id == team || t.windows.isEmpty then t else
        { t with windows := t.windows.mapVals fun _ w => { w with entries := w.entries.mapVals fun _ e =>
            (if e.valid && ns.has (lineOf e.key) && e.inv.isNone &&
                ks.any (fun k => lineOf k == lineOf e.key && (t.dirtyAt e (k % 256)).isNone)
              then { e with inv := some s.clk } else e) } } }

/-- One event of the device order that writes bytes at a virtual address; where a page has no leaf
with W nothing is written (log 12). -/
def State.writeVirt (s : State) (tenant va : Nat) (bs : List Byte) (dst : Dest) : State :=
  let r := s.keysVirt tenant va bs.length
  match r.1 with
  | none => r.2
  | some ks =>
    (r.2.devEvent 0 ((ks.zip bs).map fun e => (e.1, hwByte va e.2)) dst false s.clk).touchStash none ks

/-! ## The fault queue -/

/-- Kinds of 06 Table 6-3. -/
def fkLoad : Nat := 0
def fkStore : Nat := 1
def fkAtomic : Nat := 2
def fkFetch : Nat := 3
def fkSpill : Nat := 4
def fkStash : Nat := 5
def fkEngine : Nat := 6

/-- log2 of the entry count, when MM_FQBASE is usable (06 R118). -/
def Tenant.fqLog (t : Tenant) : Option Nat :=
  let l := bitsAt t.fqbase.toNat 0 5
  if 6 ≤ l ∧ l ≤ 16 then some l else none
def Tenant.fqFull (t : Tenant) : Bool :=
  match t.fqLog with
  | none => true
  | some l => 2 ^ l ≤ (t.fqtail - t.fqhead).toNat

/-- Signal the host, or the management cores when the tenant's SYS_SVC bit is 1 (23 R477). -/
def State.signal (s : State) (vector : Nat) (tenant : Option Nat) : State :=
  match tenant with
  | some t =>
    if s.plat.svc.toNat.testBit t then { s with plat := { s.plat with mgmt := vector :: s.plat.mgmt } }
    else { s with plat := { s.plat with msix := vector :: s.plat.msix } }
  | none => { s with plat := { s.plat with msix := vector :: s.plat.msix } }

/-- One faulting page of an instruction: the page, the address and lanes to report, and the lanes that
faulted with their addresses. -/
structure FaultAt where
  page : Nat
  va : Nat
  lanes : Mask
  lvl : Nat
  pri : Bool
  accs : List (Nat × Nat)
deriving DecidableEq, Repr

/-- Register waiters on one fault page, none for an engine (06 R118; 15 R339): its name where the page is open
or an entry could be written. The queue lies in the tenant's address space (13 R288 gives its base as such
an address). -/
def State.faultOne (s : State) (g : Group) (tenant kind : Nat) (pc : Word64) (wr more : Bool)
    (ws : List (Nat × Nat)) (f : FaultAt) : Option Nat × State :=
  match s.faults.find? (fun p => p.tenant == tenant && p.page == f.page && p.ans.isNone) with
  | some p =>
    (some p.id, { s with faults := s.faults.map fun q =>
      if q.id == p.id then { q with waiters := q.waiters ++ ws } else q })
  | none =>
    let t := s.tenant tenant
    match t.fqLog with
    | none => (none, s)
    | some lg =>
      if t.fqFull || 4096 ≤ (s.faults.filter (·.ans.isNone)).length then (none, s)
      else
        let team := ((s.teamOf g).map (·.num)).getD 0
        let ent := leBytes 8 t.fqseq ++ leBytes 8 f.va ++ leBytes 8 pc.toNat ++ leBytes 4 f.lanes.toNat
          ++ leBytes 2 g.core ++ leBytes 2 g.slot ++ leBytes 1 team ++ leBytes 1 kind
          ++ leBytes 1 (if f.pri then 255 else f.lvl) ++ leBytes 1 tenant
          ++ leBytes 2 (bit f.pri + 2 * bit wr + 4 * bit more) ++ List.replicate 26 0
        let base := bitsAt t.fqbase.toNat 12 52 * 4096 + 64 * (t.fqseq % 2 ^ lg)
        let s := s.writeVirt tenant base ent .mem
        let n := s.fresh
        let s := n.2.modTenant tenant fun t => { t with fqtail := t.fqtail + 1, fqseq := t.fqseq + 1 }
        let s := { s with faults := s.faults ++ [FaultPage.mk n.1 t.fqseq tenant f.page ws none 0] }
        (some n.1, s.signal (tenant + 1) (some tenant))

/-- Park a group on the fault pages of its instruction, in ascending order (06 R117, R118). Where the table or
the queue had room for some pages and none for others, which the rule leaves open, the group waits for the
answers of those that were opened (log 19). -/
def State.faultPark (s : State) (gid kind : Nat) (pc : Word64) (wr : Bool) (fs : List FaultAt) : State :=
  match s.group? gid with
  | none => s
  | some g =>
    let tenant := s.tenantOf g
    let r := fs.foldl (fun (r : AMap (List (Nat × Nat)) × Bool × State) f =>
      let o := r.2.2.faultOne g tenant kind pc wr (1 < fs.length) [(gid, s.clk)] f
      match o.1 with
      | some id => (AMap.set r.1 id f.accs, r.2.1, o.2)
      | none => (r.1, true, o.2)) (([] : AMap (List (Nat × Nat))), false, s)
    let why := if r.1.isEmpty then Park.noQueue tenant else Park.fault r.1
    r.2.2.modGroup gid fun g =>
      { g with park := some why, cnt := { g.cnt with fault := g.cnt.fault + 1 } }

/-! ## Read requests -/

/-- Sectors of a line are read by way of the caches: those that come poisoned from memory stay so there until
the line is overwritten whole (18 R410). -/
def State.memRead (s : State) (n : Nat) (secs : List Nat) (tenant : Option Nat) : State :=
  let s := s.memEvents n secs tenant
  let new := secs.filter fun q => !(s.line n).holds q
  if new.isEmpty || !s.remapBad n then s else
    let s := { s with pois := s.pois.addAll (new.flatMap fun q => (List.range 64).map (n * 256 + 64 * q + ·)) }
    s.modLine n fun l => { l with bad := l.bad.addAll new }

/-- A read request for sectors of a line by a core: what another core's near unit owns is recalled
(12 R266), and clean copies are made on its way (06 R124, R125). -/
def State.fetchLine (s : State) (n : Nat) (secs : List Nat) (core cc cls : Nat) (e : Word64) (tenant : Nat) :
    State :=
  let own := (s.line n).own
  let s := if own.isSome && own != some core then (s.toHome n).fit3 n else s
  (s.memRead n secs (some tenant)).allocate n secs core cc cls (entTol e.toNat) (entTew e.toNat)

/-- The request reaches the home L3 (06 R127), after the data has been taken. -/
def State.countRead (s : State) (far : List Nat) (tenant : Nat) : State :=
  far.foldl (fun s n => s.l3Request n (some tenant)) s

end Sys2Proof.Machine
end

