-- ==== Sys2Proof/Machine/Operands.lean ====
section
/-!
DEFINITION. Register operands (01 R15; 02 R27 to R30; 05 R88): reading and writing one lane of a v- or
x-register, pair or quad, an s-register, a predicate; full/empty and poison marks; which lanes an
instruction acts on; and the view positions a value depends on.
-/
namespace Sys2Proof.Machine

/-- The register i places after a named one. -/
def opPlus (o : Opd) (i : Nat) : Opd :=
  match o with
  | .v n => .v (n + i) | .x n => .x (n + i) | .s n => .s (n + i) | .p n => .p n | .acc n => .acc n

/-- The cell of a register in a lane; scalars have one cell, whatever the lane. -/
def cellOf (o : Opd) (l : Nat) : Nat :=
  match o with
  | .v n => 32 * n + l
  | .x n => 6144 + 32 * n + l
  | .s n => 8192 + n
  | .p n => 8256 + 32 * n + l
  | .acc n => 8512 + n

/-- pt reads as 1 (02 R26, R28). -/
def Group.predAt (g : Group) (n l : Nat) : Bool :=
  7 ≤ n || (AMap.get 0 g.regs.p n).toNat.testBit l

/-- One 32-bit register of a lane. -/
def Group.rd32 (g : Group) (o : Opd) (l : Nat) : Nat :=
  match o with
  | .v n => (AMap.get 0 g.regs.v (32 * n + l)).toNat
  | .x n => (AMap.get 0 g.regs.x (32 * n + l)).toNat
  | .s n => (AMap.get 0 g.regs.s n).toNat
  | .p n => bit (g.predAt n l)
  | .acc _ => 0

/-- k registers of a lane, the lowest first (02 R29; 06 R144). -/
def Group.rdN (g : Group) (o : Opd) : Nat → Nat → Nat
  | 0, _ => 0
  | k + 1, l => g.rdN o k l + 2 ^ (32 * k) * g.rd32 (opPlus o k) l

/-- An s-register. -/
def Group.rdS (g : Group) (o : Opd) : Word64 :=
  match o with
  | .s n => AMap.get 0 g.regs.s n
  | _ => 0

/-- The value of a source at an operand's width: 64 bits from a pair, or from a whole scalar. -/
def Group.rd (g : Group) (o : Opd) (k l : Nat) : Nat :=
  match o with
  | .s n => (AMap.get 0 g.regs.s n).toNat
  | _ => g.rdN o k l

/-- Write a register cell: its value stands, it is full, and it is not poisoned (02 R27, 18 R409). -/
def Regs.put (r : Regs) (o : Opd) (l w : Nat) : Regs :=
  let c := cellOf o l
  let r := { r with empt := r.empt.del c, pois := r.pois.del c }
  match o with
  | .v n => { r with v := AMap.put 0 r.v (32 * n + l) (BitVec.ofNat 32 w) }
  | .x n => { r with x := AMap.put 0 r.x (32 * n + l) (BitVec.ofNat 32 w) }
  | .s n => { r with s := AMap.put 0 r.s n (BitVec.ofNat 64 w) }
  | .p n => if 7 ≤ n then r else
    let m : Mask := AMap.get 0 r.p n
    let m := if w % 2 = 1 then m ||| (1#32 <<< l) else m &&& ~~~(1#32 <<< l)
    { r with p := AMap.put 0 r.p n m }
  | .acc _ => r

/-- Write k registers of a lane from the low bits up. -/
def Regs.putN (r : Regs) (o : Opd) : Nat → Nat → Nat → Regs
  | 0, _, _ => r
  | k + 1, l, w => (r.putN o k l w).put (opPlus o k) l (w / 2 ^ (32 * k))

/-- Write a value to every lane of a mask, computed per lane. -/
def Group.putLanes (g : Group) (o : Opd) (k : Nat) (m : Mask) (f : Nat → Nat) : Group :=
  { g with regs := (lanesOf m).foldl (fun r l => r.putN o k l (f l)) g.regs }

/-- Write values to k registers of some lanes. -/
def Group.putList (g : Group) (o : Opd) (k : Nat) (vs : List (Nat × Nat)) : Group :=
  { g with regs := vs.foldl (fun r e => r.putN o k e.1 e.2) g.regs }

/-- Write an s-register once. -/
def Group.putS (g : Group) (o : Opd) (w : Word64) : Group := { g with regs := g.regs.put o 0 w.toNat }

/-- A use of registers: how many, and the empty action of a source (02 R27). -/
structure Use where
  o : Opd
  len : Nat
  bang : Bool
deriving DecidableEq, Repr

/-- A scalar source. -/
def scalUse (a : Src) : Use := ⟨a.o, 1, a.bang⟩

/-- The cells a use covers in some lanes. Predicates have no full/empty state (04 R78). -/
def Use.cells (u : Use) (ls : List Nat) : List Nat :=
  match u.o with
  | .p _ | .acc _ => []
  | .s n => if ls.isEmpty then [] else (List.range u.len).map fun i => 8192 + n + i
  | _ => (List.range u.len).flatMap fun i => ls.map fun l => cellOf (opPlus u.o i) l

/-- The values of a use in some lanes, in lane order; a scalar has one per register. -/
def Group.useVals (g : Group) (u : Use) (ls : List Nat) : List Nat :=
  match u.o with
  | .s n => if ls.isEmpty then [] else (List.range u.len).map fun i => g.rd32 (.s (n + i)) 0
  | o => ls.map fun l => g.rdN o u.len l

/-- Write values to a use, in the order of `useVals`. -/
def Group.setVals (g : Group) (u : Use) (ls vs : List Nat) : Group :=
  match u.o with
  | .s n =>
    let put (r : Regs) (i : Nat) : Regs := r.put (.s (n + i)) 0 (vs.getD i 0)
    { g with regs := (List.range (min u.len vs.length)).foldl put g.regs }
  | o => { g with regs := (ls.zip vs).foldl (fun r e => r.putN o u.len e.1 e.2) g.regs }

/-- The cells a use covers, predicates included (shadow poison, dependences). -/
def Use.cellsP (u : Use) (ls : List Nat) : List Nat :=
  match u.o with
  | .p n => if 7 ≤ n then [] else ls.map fun l => cellOf (.p n) l
  | _ => u.cells ls

/-- The lanes that are active and guarded on (02 R26). -/
def Group.onLanes (g : Group) (c : Ctl) : Mask :=
  maskOf ((lanesOf g.ctl.act).filter fun l => g.predAt c.pg l != c.neg)

/-- Mark cells empty. -/
def Group.markEmpty (g : Group) (cs : List Nat) : Group :=
  { g with regs := { g.regs with empt := g.regs.empt.addAll cs } }

/-! ## Dependences (04 R67, 11 R242) -/

def VPos.join (a b : VPos) : VPos := ⟨max a.c b.c, max a.d b.d⟩
/-- The part of a position that a scope binds: team binds neither, cluster the first, device both. -/
def VPos.within (a : VPos) (sc : Scope) : VPos :=
  match sc with
  | .grp | .team => {}
  | .clu => ⟨a.c, 0⟩
  | .dev | .sys => a

def Group.depOf (g : Group) (cells : List Nat) : VPos :=
  cells.foldl (fun p c => p.join (AMap.get {} g.regs.dep c)) {}
def Group.ctlDepOf (g : Group) (ls : List Nat) : VPos :=
  ls.foldl (fun p l => p.join (AMap.get {} g.mem.ctlDep l)) {}
def Group.setDep (g : Group) (cells : List Nat) (p : VPos) : Group :=
  { g with regs := { g.regs with dep := cells.foldl (fun m c => AMap.put {} m c p) g.regs.dep } }
/-- What an instruction's effect in some lanes depends on: sources, guard, control. -/
def Group.depIn (g : Group) (c : Ctl) (srcs : List Use) (ls : List Nat) : VPos :=
  ((g.depOf (srcs.flatMap fun u => u.cellsP ls)).join
    (g.depOf ((⟨.p c.pg, 1, false⟩ : Use).cellsP ls))).join (g.ctlDepOf ls)

end Sys2Proof.Machine
end

