-- ==== Sys2Proof/Machine/Flags.lean ====
section
/-!
DEFINITION. SYS_FPSR (07 R163, Table 7-3): the five sticky flags of a group, and which of them the
kernel header makes trap (07 R164).
-/
namespace Sys2Proof.Machine

/-- Flags an operation raises. -/
structure Fl where
  nv : Bool := false
  dz : Bool := false
  of : Bool := false
  uf : Bool := false
  nx : Bool := false
deriving DecidableEq, Repr

def Fl.or (a b : Fl) : Fl := ⟨a.nv || b.nv, a.dz || b.dz, a.of || b.of, a.uf || b.uf, a.nx || b.nx⟩

/-- The bits of Table 7-3. -/
def Fl.bits (f : Fl) : Nat := bit f.nv + 2 * bit f.dz + 4 * bit f.of + 8 * bit f.uf + 16 * bit f.nx

/-- The union over lanes. -/
def Fl.all (fs : List Fl) : Fl := fs.foldl Fl.or {}

/-- The group's flags with others raised. -/
def Group.raise (g : Group) (f : Fl) : Group :=
  { g with sys := { g.sys with fpsr := g.sys.fpsr ||| BitVec.ofNat 5 f.bits } }

/-- The trap-enable mask of the group's kernel (03 Table 3-4). -/
def State.arithMask (s : State) (g : Group) : Nat := ((s.teamOf g).map (·.hdr.arith)).getD 0

/-- Does a raised flag trap? -/
def Fl.trips (f : Fl) (mask : Nat) : Bool := (f.bits &&& mask) != 0

end Sys2Proof.Machine
end

