-- ==== Sys2Proof/Machine/Ops.lean ====
section
/-!
DEFINITION. What every instruction shares: the issue rule around a meaning (02 R26, R27; 18 R409;
21 R457), taking a trap and halting its team (18 R393 to R398), releasing a halt, shadow mode
(04 R68, R69), replay intervals (21 R449 to R452), and lossless holding (21 R443).
-/
namespace Sys2Proof.Machine

/-! ## Words of an instruction -/

/-- Bytes of an instruction (02 R21). -/
def instrSize (i : Instr) : Nat :=
  match view i with
  | some v => if v.w1.isSome then 16 else 8
  | none => 8

/-- The raw words the lane-detail entry records. -/
def instrRaw (i : Instr) : Nat × Option Nat := (Instr.encode i).getD (0, none)

def State.hdrFlag (s : State) (g : Group) (n : Nat) : Bool :=
  match s.teamOf g with
  | none => false
  | some t => bitAt t.hdr.flags n

/-- Header flag bit 5 (18 R398). -/
def State.queueMode (s : State) (g : Group) : Bool := s.hdrFlag g 5

/-! ## Shadow mode: leaving it (04 R69) -/

/-- Shadow state is discarded: control stands as it did when the group parked. -/
def State.leaveShadow (s : State) (gid : Nat) : State :=
  match s.group? gid with
  | none => s
  | some g =>
    match g.shadow with
    | none => s
    | some sh =>
      let s := s.setGroup gid { g with ctl := sh.saved, shadow := none, want := none }
      s.emitPC gid ctlRA tyRA sh.saved.pc (leBytes 1 1 ++ leBytes 2 sh.count) none

/-! ## Identity (05 R102, R103) -/

/-- The value of a selector; in a replay, all but the lane are the snapshot's (21 R449, R452). -/
def State.identOf (s : State) (g : Group) (sel : IdSel) (l : Nat) : Nat :=
  let t := s.teamOf g
  let cl := s.clusterOf g
  let gr := s.gridOf g
  let idx := (cl.map (·.index)).getD 0
  let gx := (gr.map (·.rcd.gx)).getD 1
  let gy := (gr.map (·.rcd.gy)).getD 1
  let as (i now : Nat) : Nat := (g.trc.ids.map fun xs => xs.getD i 0).getD now
  match sel with
  | .lane => l
  | .group => as 0 g.gidx
  | .team => as 1 ((t.map (·.index)).getD 0)
  | .clux => as 2 (idx % gx)
  | .cluy => as 3 (idx / gx % gy)
  | .cluz => as 4 (idx / gx / gy)
  | .cluster => as 5 idx
  | .ngroup => as 6 ((t.map (·.groups.length)).getD 0)
  | .nteam => as 7 ((cl.map (·.teams.length)).getD 0)
  | .core => as 8 g.core
  | .die => as 9 (s.dieOf g.core)
  | .slot => as 10 g.slot
  | .tenant => as 11 (s.tenantOf g)

/-- What every selector but the lane returns, in order. -/
def State.idents (s : State) (g : Group) : List Nat :=
  [IdSel.group, .team, .clux, .cluy, .cluz, .cluster, .ngroup, .nteam, .core, .die, .slot, .tenant].map
    fun sel => s.identOf g sel 0

/-! ## Replay intervals (21 R449 to R451) -/

/-- SV_RPL: log2 of the region size, when logging is on and the region has not filled. -/
def Stream.logSize (r : Stream) : Option Nat :=
  let l := bitsAt r.rpl.toNat 1 5
  if bitAt r.rpl.toNat 0 && 16 ≤ l && !r.rplov then some l else none

/-- Write an interval's head (21 Table 21-6). -/
def State.writeHead (s : State) (t : Nat) (r : RplRec) (handle : Nat) (complete : Bool) : State :=
  let base := bitsAt (s.stream t).rpl.toNat 12 52 * 4096 + r.off
  s.writeVirt t base (leBytes 4 r.len ++ leBytes 4 r.int ++ r.gid ++
    [BitVec.ofNat 8 (bit complete + 2 * bit r.apx + 4 * bit r.byMark)] ++ leBytes 4 0 ++
    leBytes 8 handle ++ List.replicate 40 0) .mem

/-- The open interval of a group ends. -/
def State.endInterval (s : State) (gid : Nat) : State :=
  match s.group? gid with
  | none => s
  | some g =>
    match g.trc.rec? with
    | none => s
    | some h =>
      let t := s.tenantOf g
      let s := s.setGroup gid { g with trc := { g.trc with rec? := none } }
      match (s.stream t).rplLog.at? h with
      | none => s
      | some r =>
        let r := { r with count := g.trc.inInterval }
        let s := s.modStream t fun st => { st with rplLog := st.rplLog.set h r }
        s.writeHead t r h true

/-- A new interval begins with a snapshot (21 R449). How many bytes its records take is the device's
own (R451): a free value. Where they do not fit, RPLOV is set. -/
def State.beginInterval (s : State) (gid : Nat) : State :=
  match s.group? gid with
  | none => s
  | some g =>
    let t := s.tenantOf g
    match (s.stream t).logSize, s.teamOf g, s.gridOf g with
    | some lg, some tm, some gr =>
      if g.trc.rec?.isSome || g.trc.replay.isSome then s else
        let f := s.free 1024
        let off := (f.2.stream t).rplOff
        let len := 128 + 64 * f.1
        let num := g.trc.interval
        let rc : RplRec :=
          { off := off, len := len, int := num, snap := g, hdr := tm.hdr, rcd := gr.rcd
            ids := f.2.idents g, byMark := g.trc.byMark, gid := f.2.gidBytes g }
        if off + len ≤ 2 ^ lg then
          let n := f.2.fresh
          let s := n.2.modStream t fun st =>
            { st with rplLog := st.rplLog.set n.1 rc, rplOff := off + len }
          let s := s.setGroup gid { g with trc := { g.trc with
            interval := (num + 1) % 2 ^ 32, inInterval := 0, rec? := some n.1
            byMark := false } }
          s.emitPC gid ctlMARK tyRMARK g.ctl.pc (leBytes 4 num ++ leBytes 4 off) none
        else
          let s := f.2.modStream t fun st => { st with rplov := true }
          if off + 64 ≤ 2 ^ lg then s.writeHead t { rc with len := 64 } 0 false else s
    | _, _, _ => s

/-- Change the record of a group's open interval. -/
def State.modRec (s : State) (gid : Nat) (f : RplRec → RplRec) : State :=
  match s.group? gid with
  | none => s
  | some g =>
    match g.trc.rec? with
    | none => s
    | some h => s.modStream (s.tenantOf g) fun st =>
        match st.rplLog.at? h with
        | none => st
        | some r => { st with rplLog := st.rplLog.set h (f r) }

/-- Values delivered later fill the entry that their operation opened. -/
def State.logFill (s : State) (gid tag : Nat) (vals : List Nat) : State :=
  match s.group? gid with
  | none => s
  | some g => s.modStream (s.tenantOf g) fun st =>
      if st.rplLog.isEmpty then st else
      { st with rplLog := st.rplLog.mapVals fun _ r => { r with vals := r.vals.map fun v =>
          if v.tag = tag ∧ v.filled = false then
            { v with vals := vals, filled := true, apx := AMap.get [] r.apxOf tag } else v } }

/-- The open interval holds an approximate result or load (21 R450). -/
def State.logApx (s : State) (gid : Nat) : State := s.modRec gid fun r => { r with apx := true }

/-- A load reads approximate elements in some lanes: their bytes are not logged (21 R450). -/
def State.logApxLoad (s : State) (gid id : Nat) (lanes : List Nat) : State :=
  if lanes.isEmpty then s else
    s.modRec gid fun r => { r with apx := true, apxOf := AMap.set r.apxOf id (NSet.addAll [] lanes) }

/-! ## Traps (18 R393 to R398) -/

/-- A trap condition: class and cause of Table 18-7, the lanes that met it, effective addresses of the
lowest and highest of them, INFO. -/
structure TrapInfo where
  cls : Nat
  cause : Nat := 0
  lanes : Mask
  alo : Nat := 0
  ahi : Nat := 0
  info : Nat := 0
deriving DecidableEq, Repr

/-- A trap of lanes with effective addresses, in ascending lane order. -/
def trapAt (cls cause : Nat) (ls : List (Nat × Nat)) (info : Nat := 0) : TrapInfo where
  cls := cls
  cause := cause
  lanes := maskOf (ls.map (·.1))
  alo := (ls.head?.map (·.2)).getD 0
  ahi := (ls.getLast?.map (·.2)).getD 0
  info := info

/-- A trap of lanes, with no address. -/
def trapOf (cls cause : Nat) (ls : List Nat) (info : Nat := 0) : TrapInfo :=
  ⟨cls, cause, maskOf ls, 0, 0, info⟩

/-- The lane-detail entry (18 Table 18-4). -/
def ldEntry (t : TrapInfo) (raw : Nat × Option Nat) (pc : Word64) (high : Bool) : AMap Word64 :=
  let put (m : AMap Word64) (i n : Nat) : AMap Word64 := AMap.put 0 m i (BitVec.ofNat 64 n)
  let w0 := t.lanes.toNat + t.cls * 2 ^ 32 + t.cause * 2 ^ 40 + bit raw.2.isSome * 2 ^ 48
    + bit high * 2 ^ 49
  put (put (put (put (put (put (put [] 0 w0) 1 raw.1) 2 (raw.2.getD 0)) 3 t.alo) 4 t.ahi) 5 pc.toNat)
    6 t.info

/-- The command that holds a group at issue leaves its queue (15 R353, R354). -/
def State.unqueue (s : State) (gid : Nat) : State :=
  match s.group? gid with
  | none => s
  | some g =>
    match g.held with
    | none => s
    | some id => (s.setGroup gid { g with held := none }).modCore g.core fun k =>
        { k with cmds := k.cmds.filter (·.id != id) }

/-- A group stops for its team's halt (18 R393, R394). -/
def State.stopGroup (s : State) (gid : Nat) (gst : Nat) : State :=
  let s := s.unqueue gid
  match s.group? gid with
  | none => s
  | some g =>
    let s := s.setGroup gid { g with sys := { g.sys with
      stopped := true, skid := none, gpc := g.ctl.pc, gst := BitVec.ofNat 8 gst } }
    s.emitPC gid ctlGRP tySTOP g.ctl.pc [0, 0, 1] none

/-- A sibling whose skid ends stops; SKID counts what it issued after the halt arrived. -/
def State.stopSibling (s : State) (gid : Nat) : State :=
  match s.group? gid with
  | none => s
  | some g =>
    match g.sys.skid with
    | none => s
    | some n => s.stopGroup gid (8 - n)

/-- The halt reaches the siblings of a trapping group: a parked group counts as stopped, any other
may issue up to 8 more instructions. -/
def State.haltTeam (s : State) (tid gid : Nat) (agent : Bool) : State :=
  match s.team? tid with
  | none => s
  | some t =>
    let s := s.setTeam tid { t with halted := true, trapper := some gid, agent := agent }
    t.groups.foldl (fun s k =>
      if k = gid then s else
        let s := s.leaveShadow k
        match s.group? k with
        | none => s
        | some g =>
          if g.ended || g.sys.stopped || g.sys.skid.isSome then s
          else if g.park.isSome || g.want.isSome || g.stopReq.isSome || g.frozen then
            s.stopGroup k (if g.park.isSome then 0x20 else 0)
          else s.setGroup k { g with sys := { g.sys with skid := some 8, gst := 0 } }) s

/-- DEBUG traps go to the agent while SV_DBG.ATTACH is 1 (21 R460). -/
def State.toAgent (s : State) (g : Group) (cls : Nat) : Bool :=
  ((s.teamOf g).map (fun t => t.tbase == 0)).getD true
    || (cls == 9 && (s.stream (s.tenantOf g)).attach)

/-- Where a trapping group stopped (18 R393, R394): at a `trap` or `brkp` itself, which has not issued,
though TRAP_EPC lies behind it. -/
def stopPc (ld : AMap Word64) (epc : Word64) : Word64 :=
  let w := (AMap.get 0 ld 0).toNat
  if bitsAt w 32 8 = 10 ∨ bitsAt w 32 16 = 9 then AMap.get 0 ld 5 else epc

/-- An address as the PC holds it: its bits [2:0] are always zero (02 R22). -/
def pcOf (w : Word64) : Word64 := w &&& ~~~7#64

/-- Delivery to a group that stopped at U, or at H (18 R396, R398): the handler is entered, or the
team stays halted and the service agent is signalled. -/
def State.enterTrap (s : State) (gid : Nat) (ld : AMap Word64) (cls : Nat) (epc pc : Word64) : State :=
  match s.group? gid with
  | none => s
  | some g =>
    let t := s.tenantOf g
    if g.sys.high then
      let s := s.setGroup gid { g with sys := { g.sys with
        ld := ld, gpc := pc, gst := 0x10, stepping := false } }
      (s.haltTeam g.team gid true).signal (65 + t) (some t)
    else if s.toAgent g cls then
      let s := s.setGroup gid { g with sys := { g.sys with
        ld := ld, epc := epc, gpc := stopPc ld epc, gst := 0x10, stepping := false } }
      (s.haltTeam g.team gid true).signal (65 + t) (some t)
    else
      let base := ((s.teamOf g).map (·.tbase)).getD 0
      let off : Nat := if s.queueMode g then 0 else 64 * cls
      let s := s.endInterval gid
      let s := s.modGroup gid fun g => { g with
        ctl := { g.ctl with pc := pcOf (base + BitVec.ofNat 64 off) }
        park := none
        sys := { g.sys with
          ld := ld, epc := epc, gpc := stopPc ld epc, gst := 0x10, stepping := false, high := true
          stopped := false, skid := none } }
      s.haltTeam g.team gid false

/-- A trap while its team is being saved halts the team; its delivery is pending until the restore
(18 R405). -/
def State.trapInSave (s : State) (gid : Nat) (ld : AMap Word64) (epc : Word64) : State :=
  let s := s.modGroup gid fun g => { g with sys := { g.sys with
    pendTrap := some (ld, epc, s.clk), gpc := stopPc ld epc, gst := 0x10, stepping := false, stopped := true } }
  match s.group? gid with
  | none => s
  | some g => s.haltTeam g.team gid false

/-- TRAP_EPC of a trap (18 R396; R398 for ARITH in queue mode; 21 R460 for a step, whose PC has
already moved on). -/
def trapNext (cls cause : Nat) (qm : Bool) : Bool :=
  cls == 10 || (cls == 9 && cause == 0) || (cls == 11 && qm)

/-- The group is a sibling of a halted team. -/
def State.isSibling (s : State) (gid : Nat) (g : Group) : Bool :=
  match s.teamOf g with
  | none => false
  | some tm => tm.halted && tm.trapper != some gid

/-- Taking a trap (18 R393 to R398). `pc` is the address of the trapping instruction, `raw` its words.
A sibling of a halted team stops instead; in queue mode its trap is recorded as pending. -/
def State.takeTrap (s : State) (gid : Nat) (raw : Nat × Option Nat) (pc : Word64) (t : TrapInfo) :
    State :=
  match s.group? gid with
  | none => s
  | some g =>
    let qm := s.queueMode g
    let saving := ((s.teamOf g).map fun t => t.treat == .save).getD false
    let size : Nat := if raw.2.isSome then 16 else 8
    let epc := if t.cls == 9 && t.cause == 4 then g.ctl.pc
      else if trapNext t.cls t.cause qm then pc + BitVec.ofNat 64 size else pc
    if s.isSibling gid g then
      let n := match g.sys.skid with | none => 8 | some n => n
      if qm then
        let s := s.setGroup gid { g with sys := { g.sys with
          pendTrap := some (ldEntry t raw pc false, epc, s.clk) } }
        s.stopGroup gid (0x80 + (8 - n))
      else s.stopGroup gid (8 - n)
    else
      let s := s.emitPC gid ctlGRP tySTOP pc [BitVec.ofNat 8 t.cls, BitVec.ofNat 8 t.cause, 0] none
      if saving && !g.sys.high then s.trapInSave gid (ldEntry t raw pc false) epc else
      s.enterTrap gid (ldEntry t raw pc g.sys.high) t.cls epc pc

/-- The pending trap of a team that is delivered first (18 R398). -/
def State.nextPending (s : State) (tid : Nat) : Option Nat :=
  let gs := (((s.team? tid).map (·.groups)).getD []).filterMap fun k =>
    (s.group? k).bind fun g => g.sys.pendTrap.map fun p => (p.2.2, g.slot, k)
  (gs.foldl (fun (m : Option (Nat × Nat × Nat)) e => match m with
    | none => some e
    | some b => if e.1 < b.1 || (e.1 == b.1 && e.2.1 < b.2.1) then some e else some b) none).map (·.2.2)

/-- A pending trap is delivered: its group enters the handler. -/
def State.deliverPending (s : State) (gid : Nat) : State :=
  match (s.group? gid).bind fun g => g.sys.pendTrap.map fun p => (g, p) with
  | none => s
  | some (g, ld, epc, _) =>
    (s.setGroup gid { g with sys := { g.sys with pendTrap := none } }).enterTrap gid ld
      (bitsAt (AMap.get 0 ld 0).toNat 32 8) epc epc

/-- The halt of a team is released: each sibling resumes at its TRAP_GPC (18 R394, R413). -/
def State.releaseHalt (s : State) (tid : Nat) : State :=
  match s.team? tid with
  | none => s
  | some t =>
    let s := s.setTeam tid { t with halted := false, trapper := none, agent := false }
    t.groups.foldl (fun s k => s.modGroup k fun g =>
      { g with sys := { g.sys with stopped := false, skid := none } }) s

/-! ## Lossless holding (21 R443) -/

/-- Does some core's FIFO drop, in `t`, a packet of a stream in lossless mode that it had not dropped
in `s`? Then the step that wrote it is held. -/
def State.holds (s t : State) : Bool :=
  t.cores.any fun e =>
    AMap.get 0 (s.core e.1).cnt 0x28 != AMap.get 0 (t.core e.1).cnt 0x28 &&
      t.streams.any fun r => r.1 < 64 && r.2.ctl.toNat.testBit ctlLL && r.2.ctl.toNat.testBit ctlEN
        && (t.stream r.1).lostCnt != (s.stream r.1).lostCnt

/-! ## Issue -/

/-- What a meaning answers. -/
inductive Eff where
  /-- Complete; the PC advances past the instruction. -/
  | next (s : State)
  /-- Complete; the meaning has set PC and masks itself. -/
  | jump (s : State)
  /-- A trap, in the state given. -/
  | trap (t : TrapInfo) (s : State)
  /-- Not issued: parked, or stalled; the instruction is executed again later. -/
  | wait (s : State)

/-- What an instruction does in shadow mode (04 R68). -/
inductive InShadow where
  /-- Its destinations are poisoned; nothing else happens. -/
  | poison
  /-- A branch, on the shadow copy of PC, Act and the stack. -/
  | control
  /-- A prefetch, where the registers that form its address are not poisoned. -/
  | fetch (addr : List Use) (f : Group → List Nat → State → State)

/-- What the issue rule needs to know of an instruction: its registers, in field order, whether its
result in a lane is computed from other lanes too, and the cause of MACHINE where only its first source is
poisoned (18 R409), what it does in shadow mode and in a replay. -/
structure Meta where
  i : Instr
  c : Ctl
  srcs : List Use := []
  /-- A source that a lane reads in another lane (05 R104): the use, and the lane read. -/
  far : Option (Use × (Group → Nat → Nat)) := none
  /-- Its scalar sources are read for the group, even where no lane is on (04 R71). -/
  grp : Bool := false
  dsts : List Use := []
  cross : Bool := false
  /-- The lanes, of those on, in which vector sources are read. -/
  rd : List Nat → List Nat := id
  /-- What the result in a lane depends on, where it is not the sources in that lane. -/
  deps : Option (Group → Nat → VPos) := none
  machine : Nat := 0
  /-- The effective address of a lane, for MACHINE traps (18 Table 18-4); with none, what `addrs` gives. -/
  ea : Option (Group → Nat → Nat) := none
  sh : InShadow := .poison
  /-- Its effect reaches outside the group, or its destinations are logged (21 R450, R452). -/
  ext : Bool := false
  /-- The addresses it reads, for the replay log; those of the scratchpad and of rings are set apart from
  global ones. -/
  addrs : Group → List Nat → List Nat := fun _ _ => []
  /-- A load: its width, sign extension and A bit. -/
  load : Option (Wd × Bool × Bool) := none
  /-- The bytes it stores in a lane, for a replay. -/
  puts : Group → Nat → List (Nat × Byte) := fun _ _ => []

/-- The cells of a use that are empty in some lanes. -/
def Group.emptyCells (g : Group) (u : Use) (ls : List Nat) : List Nat :=
  (u.cells ls).filter fun c => g.regs.empt.has c

/-- Lanes in which a use has a cell of a set; a scalar counts in every lane. -/
def lanesIn (set : NSet) (u : Use) (ls : List Nat) : List Nat :=
  ls.filter fun l => (u.cellsP [l]).any fun c => set.has c

/-- The loads whose arrival fills one of these cells after missing the die's L2 (04 R68). -/
def State.missers (s : State) (gid : Nat) (cells : List Nat) : List Nat :=
  (s.pending.filter fun p => p.gid == gid &&
    (match p.op with
     | .load d w _ _ acc _ _ _ miss =>
       miss && ((⟨d, w.regs, false⟩ : Use).cells (acc.map (·.lane))).any fun c => cells.any (· == c)
     | _ => false)).map (·.id)

/-- Park on empty registers, sources or destinations; the group may enter shadow mode there (04 R68;
05 R89). -/
def State.parkEmpty (s : State) (gid : Nat) (g : Group) (cells : List Nat) : State :=
  let ids := s.missers gid cells
  if s.hdrFlag g 4 && g.runAhead && !ids.isEmpty then
    let s := s.setGroup gid { g with
      park := some (.empty (NSet.addAll [] cells))
      shadow := some ⟨g.ctl, NSet.addAll [] cells, 0, true⟩
      cnt := { g.cnt with raep := g.cnt.raep + 1 } }
    s.emitPC gid ctlRA tyRA g.ctl.pc (leBytes 1 0 ++ leBytes 2 0) none
  else s.setGroup gid { g with park := some (.empty (NSet.addAll [] cells)) }

/-- The first source, in field order, that stops the issue: empty cells with its empty action. -/
def Group.firstEmpty (g : Group) (ls : List Nat) : List Use → Option (Use × List Nat)
  | [] => none
  | u :: us =>
    let e := g.emptyCells u ls
    if e.isEmpty then g.firstEmpty ls us else some (u, e)

/-- The lanes whose source in another lane has a cell of a set. -/
def Meta.farIn (m : Meta) (g : Group) (set : NSet) (ls : List Nat) : List Nat :=
  match m.far with
  | none => []
  | some (u, f) => ls.filter fun l => !(lanesIn set u [f g l]).isEmpty

/-- The lanes in which sources are read. -/
def Meta.reads (m : Meta) (g : Group) (ls : List Nat) : List Nat :=
  if m.grp && ls.isEmpty then lanesOf g.ctl.act else m.rd ls

/-- Dependences of the destinations (04 R67). -/
def Group.setDeps (g : Group) (m : Meta) (ls : List Nat) (old : Group) : Group :=
  let whole := (old.depIn m.c m.srcs (m.rd ls)).join (old.depIn m.c [] ls)
  m.dsts.foldl (fun g u =>
    match u.o with
    | .s _ => g.setDep (u.cellsP ls) whole
    | _ => ls.foldl (fun g l =>
        g.setDep (u.cellsP [l]) (if m.cross then whole else match m.deps with
          | some f => f old l
          | none => old.depIn m.c m.srcs [l])) g) g

/-- The group has issued in this clock (14 R315). -/
def Group.issuedIn (g : Group) (clk : Nat) : Group :=
  { g with readySince := clk + 1, issuedAt := clk + 1, stall := 0 }
/-- Its scheduler's choice in this clock, counted under a number (21 Table 21-9). -/
def State.chosen (s : State) (gid : Nat) (g : Group) (cnt : Nat) : State :=
  s.modCore g.core fun c =>
    { c.count cnt 1 with lastIssue := AMap.put 0 c.lastIssue (g.slot % 4) (gid + 1) }

/-- An instruction has issued: counters, the run of the team, the interval, the dependences. -/
def State.counted (s : State) (gid : Nat) (m : Meta) (ls : List Nat) (old : Group) : State :=
  let s := s.modGroup gid fun g =>
    let g := g.setDeps m ls old
    { g.issuedIn s.clk with
      cnt := { g.cnt with issue := g.cnt.issue + 1, lanes := g.cnt.lanes + BitVec.ofNat 64 ls.length }
      trc := { g.trc with inInterval := g.trc.inInterval + 1 } }
  let s := s.modTeam old.team fun t => { t with issued := t.issued + 1 }
  s.chosen gid old 0x11

/-- Log the destinations of an instruction (21 R450): now, or when its operation delivers them. -/
def State.logDests (s : State) (gid : Nat) (m : Meta) (ls : List Nat) (old : Group) : State :=
  if m.ext = false || m.dsts.isEmpty || ls.isEmpty || old.trc.rec?.isNone then s else
  match s.group? gid with
  | none => s
  | some g =>
    let late := m.dsts.any fun u => !(g.emptyCells u ls).isEmpty
    let vals := m.dsts.flatMap fun u => g.useVals u ls
    let tag := ((s.pending.filter fun p => p.gid == gid).getLast?.map (·.id)).getD 0
    s.modRec gid fun r => { r with vals := r.vals ++
      [⟨tag, m.addrs old ls, if late then [] else vals, !late, (m.load.map (·.1.bytes)).getD 0, []⟩] }

/-- A stepped instruction has been issued (21 R460): DEBUG cause 4, once Resume has found the next one;
where the group has ended, its team runs on. -/
def State.stepDone (s : State) (gid : Nat) (raw : Nat × Option Nat) (pc : Word64) (act : Mask) : State :=
  match s.group? gid with
  | none => s
  | some g =>
    if g.ended then
      (if (s.teamOf g).map (·.trapper) = some (some gid) then s.releaseHalt g.team else s)
    else if g.ctl.act = 0 then s
    else s.takeTrap gid raw pc (trapOf 9 4 (lanesOf act))

/-- What follows an issued instruction: the end of a full interval (21 R449), a sibling's skid
(18 R393), a step's trap (21 R460). -/
def State.afterIssue (s : State) (gid : Nat) (m : Meta) (old : Group) : State :=
  match s.group? gid with
  | none => s
  | some g =>
    let ends := 2 ^ 16 ≤ g.trc.inInterval || (g.trc.byMark && g.trc.rec?.isSome) || (old.sys.high && !g.sys.high)
    let s := if ends then s.endInterval gid else s
    let s := match old.sys.skid with
      | some (n + 1) =>
        let s := s.modGroup gid fun g =>
          if g.sys.stopped then g else { g with sys := { g.sys with skid := some n } }
        if n = 0 then s.stopSibling gid else s
      | _ => s
    if old.sys.stepping && !g.sys.high then s.stepDone gid (instrRaw m.i) old.ctl.pc old.ctl.act else s

/-- One instruction in shadow mode (04 R68). -/
def State.shadowStep (m : Meta) (body : Group → List Nat → State → Eff) (gid : Nat) (g : Group)
    (sh : Shadow) (s : State) : State :=
  let stop := s.setGroup gid { g with shadow := some { sh with issuing := false } }
  if 256 ≤ sh.count then stop else
    let act := lanesOf g.ctl.act
    let guardBad := !(lanesIn sh.pois ⟨.p m.c.pg, 1, false⟩ act).isEmpty
    let ls := lanesOf (g.onLanes m.c)
    let rl := m.reads g ls
    let badIn (us : List Use) : Bool :=
      us.any fun u => !(lanesIn sh.pois u rl).isEmpty || !(g.emptyCells u rl).isEmpty
    let next : Ctrl := { g.ctl with pc := g.ctl.pc + BitVec.ofNat 64 (instrSize m.i) }
    let sh1 : Shadow := { sh with count := sh.count + 1 }
    let cnt := { g.cnt with shadow := g.cnt.shadow + 1 }
    let counted (s : State) : State :=
      (s.modGroup gid fun g => g.issuedIn s.clk).chosen gid g 0x1F
    match m.sh with
    | .control =>
      if guardBad || badIn m.srcs then stop else
        match body g ls s with
        | .next _ => counted (s.setGroup gid { g with ctl := next, shadow := some sh1, cnt := cnt })
        | .jump t =>
          match t.group? gid with
          | none => stop
          | some h => if h.ended || h.ctl.act = 0 then stop else
            counted (s.setGroup gid { g with ctl := h.ctl, shadow := some sh1, cnt := cnt })
        | .trap _ _ => stop
        | .wait t => match (t.group? gid).bind (·.want) with
          -- the word is fetched, and the instruction then issues
          | some va => { s with freeCount := t.freeCount }.setGroup gid { g with want := some va }
          | none => stop
    | .poison | .fetch _ _ =>
      let ds := if guardBad then act else ls
      let pois := m.dsts.foldl (fun p u => NSet.addAll p (u.cellsP ds)) sh.pois
      let s := counted (s.setGroup gid
        { g with ctl := next, shadow := some { sh1 with pois := pois }, cnt := cnt })
      match m.sh with
      | .fetch addr f => if guardBad || badIn addr then s else f g ls s
      | _ => s

/-- Extend32 (06 R144). -/
def loadValue (w : Wd) (sx : Bool) (bs : List Byte) : Nat :=
  let v := leNat bs
  match w with
  | .b8 => if sx then ((BitVec.ofNat 8 v).signExtend 32).toNat else v
  | .b16 => if sx then ((BitVec.ofNat 16 v).signExtend 32).toNat else v
  | _ => v

/-- The bytes that the log holds of a load, over those known before. -/
def RVal.into (v : RVal) (lanes : List Nat) (m : AMap Byte) : AMap Byte :=
  ((lanes.zip v.addrs).zip v.vals).foldl (fun m e =>
    if v.apx.has e.1.1 then m else
      ((List.range v.width).zip (leBytes v.width e.2)).foldl (fun m b => AMap.set m (e.1.2 + b.1) b.2) m) m

/-- A load of a replayed interval: every byte comes from what the log and the group's own stores have given.
Approximate elements, which the log does not hold, are free. None where a byte is not held. -/
def replayLoad (w : Wd) (sx ax : Bool) (mem : AMap Byte) (as : List Nat) (s : State) : Option (List Nat) × State :=
  as.foldl (fun (r : Option (List Nat) × State) a =>
    let bs := (List.range w.bytes).map fun i => AMap.at? mem (a + i)
    let r' : State := r.2
    let f := if ax && bs.any (·.isNone) then r'.free (2 ^ (8 * w.bytes)) else (0, r')
    let val : Option Nat :=
      if bs.all (·.isSome) then some (loadValue w sx (bs.map (·.getD 0)))
      else if ax then some (loadValue w sx (leBytes w.bytes f.1)) else none
    (match r.1, val with | some xs, some v => some (xs ++ [v]) | _, _ => none, f.2)) (some [], s)

/-- An instruction of a replayed interval (21 R452) whose effect or value comes from outside: its
destinations take the log's values, a load's from the logged bytes merged with the group's own stores, and
nothing outside the group changes. A value the log does not hold stops the group with DEBUG cause 6. -/
def replayed (m : Meta) (g : Group) (ls : List Nat) (vals : List RVal) (gid : Nat) (s : State) : Eff :=
  let diverges (s : State) : Eff :=
    .trap (trapOf 9 6 ls) (s.modStream (s.tenantOf g) fun r => { r with rpldiv := true })
  let take (vs : List Nat) (rest : List RVal) (mem : AMap Byte) (s : State) : Eff :=
    .next (s.modGroup gid fun g =>
      let r := m.dsts.foldl (fun (r : Group × List Nat) u =>
        let n := (g.useVals u ls).length
        (r.1.setVals u ls (r.2.take n), r.2.drop n)) (g, vs)
      { r.1 with trc := { r.1.trc with replay := g.trc.replay.map fun e => (rest, e.2), repMem := mem } })
  if ls.isEmpty then .next s
  else if m.dsts.isEmpty then
    .next (s.modGroup gid fun h => { h with trc := { h.trc with
      repMem := ls.foldl (fun mem l => (m.puts g l).foldl (fun mem b => AMap.set mem b.1 b.2) mem) h.trc.repMem } })
  else match vals with
  | [] => diverges s
  | v :: rest =>
    match m.load with
    | some (w, sx, ax) =>
      if !v.filled || v.width != w.bytes then diverges s else
        let mem := v.into ls g.trc.repMem
        let r := replayLoad w sx ax mem (m.addrs g ls) s
        match r.1 with
        | some vs => take vs rest mem r.2
        | none => diverges r.2
    | none =>
      let len := (m.dsts.flatMap fun u => g.useVals u ls).length
      if v.filled && v.width == 0 && v.addrs == m.addrs g ls && v.vals.length == len then
        take v.vals rest g.trc.repMem s
      else diverges s

/-- The effect of an instruction: in a replay, what the log gives. -/
def Meta.act (m : Meta) (body : Group → List Nat → State → Eff) (gid : Nat) (g : Group) (ls : List Nat)
    (s : State) : Eff :=
  match g.trc.replay with
  | none => body g ls s
  | some (vals, n, int) =>
    if n ≤ g.trc.inInterval then
      .trap (trapOf 9 5 (lanesOf g.ctl.act) int)
        (s.modStream (s.tenantOf g) fun r => { r with rpldone := true })
    else if m.ext then replayed m g ls vals gid s
    else body g ls s

/-- The issue of an instruction by group `gid` (02 R26, R27; 18 R409): with every source and
destination full and unpoisoned, the meaning runs and the PC advances. -/
def State.issue (m : Meta) (body : Group → List Nat → State → Eff) (gid : Nat) (g : Group) (s : State) :
    State :=
  let ls := lanesOf (g.onLanes m.c)
  let rl := m.reads g ls
  match g.firstEmpty rl m.srcs with
  | some (u, e) =>
    if u.bang then
      s.takeTrap gid (instrRaw m.i) g.ctl.pc (trapOf 5 0 (rl.filter fun l => !(g.emptyCells u [l]).isEmpty))
    else s.parkEmpty gid g e
  | none =>
    let fe := m.farIn g g.regs.empt ls
    let de := m.dsts.flatMap fun u => g.emptyCells u ls
    if !fe.isEmpty && (m.far.map (·.1.bang)).getD false then
      s.takeTrap gid (instrRaw m.i) g.ctl.pc (trapOf 5 0 fe)
    else if !fe.isEmpty then s.parkEmpty gid g (match m.far with
      | none => []
      | some (u, f) => fe.flatMap fun l => g.emptyCells u [f g l])
    else if !de.isEmpty then s.parkEmpty gid g de
    else
      let far := m.farIn g g.regs.pois ls
      let bad := rl.filter fun l => far.any (· == l) ||
        m.srcs.any fun u => !(lanesIn g.regs.pois u [l]).isEmpty
      let addrBad := (m.srcs.drop 1).any fun u => !(lanesIn g.regs.pois u rl).isEmpty
      if !bad.isEmpty then s.takeTrap gid (instrRaw m.i) g.ctl.pc
        (trapAt 15 (if addrBad then 0 else m.machine) (bad.map fun l => (l, (m.ea.map fun f => f g l).getD ((m.addrs g [l]).headD 0))))
      else
        let adv (s : State) : State := s.modGroup gid fun h =>
          { h with ctl := { h.ctl with pc := g.ctl.pc + BitVec.ofNat 64 (instrSize m.i) } }
        match m.act body gid g ls s with
        | .next t => (((adv t).counted gid m ls g).logDests gid m ls g).afterIssue gid m g
        | .jump t => ((t.counted gid m ls g).logDests gid m ls g).afterIssue gid m g
        | .wait t => t
        | .trap ti t =>
          -- a sibling in its skid stops before the instruction (18 R393)
          let t := if trapNext ti.cls ti.cause (s.queueMode g) && !(s.isSibling gid g && !s.queueMode g) then
            (adv t).counted gid m ls g else t
          t.takeTrap gid (instrRaw m.i) g.ctl.pc ti

/-- GSTART, which stands before all that a group's first issue writes (21 R440). -/
def State.gstart (s : State) (gid : Nat) : State :=
  match s.group? gid with
  | none => s
  | some g =>
    let s := s.setGroup gid { g with trc := { g.trc with
      started := true, hi := BitVec.ofNat 32 (g.ctl.pc.toNat / 2 ^ 32) } }
    s.emitG gid (g.slot % 4) ctlGRP tyGSTART (leBytes 8 g.ctl.pc.toNat ++ leBytes 4 g.ctl.act.toNat ++
      leBytes 4 (((s.gridOf g).map (·.lno)).getD 0))

/-- One attempt to issue, in shadow mode or not. -/
def State.attempt (s : State) (m : Meta) (body : Group → List Nat → State → Eff) (gid : Nat) (g : Group) :
    State :=
  match g.shadow with
  | some sh => if sh.issuing then State.shadowStep m body gid g sh s else s
  | none => s.issue m body gid g

/-- Has the group issued in this clock? -/
def State.issuedNow (s : State) (gid : Nat) : Bool :=
  match s.group? gid with
  | none => false
  | some g => g.issuedAt == s.clk + 1

/-- An instruction row: the group that `cur` names issues it; a step that a lossless trace holds has no
effect. -/
def run (m : Meta) (body : Group → List Nat → State → Eff) (s : State) :
    Host.Outcome State Fault Refusal :=
  match s.group? s.cur with
  | none => .refused .noGroup
  | some g =>
    let t := s.attempt m body s.cur g
    let t := if g.trc.started || !t.issuedNow s.cur then t else
      let s := s.gstart s.cur
      match s.group? s.cur with
      | none => t
      | some g => s.attempt m body s.cur g
    .next (if s.holds t then s.modGroup s.cur fun g => { g with stall := 1 } else t)

/-- An event row: what happens in a step no group issues; one that a lossless trace holds changes
nothing. -/
def event (t : State) (s : State) : Host.Outcome State Fault Refusal :=
  .next (if s.holds t then s else t)

/-- An instruction stalls at issue for a full structure (2) or a fence (3) (21 R458). -/
def stallFor (why : Nat) (s : State) : Eff := .wait (s.modGroup s.cur fun g => { g with stall := why })

/-- A group operation acts once, when some lane is active and guarded on. -/
def ifAny (ls : List Nat) (s : State) (k : Eff) : Eff := if ls.isEmpty then .next s else k

/-! ## Operations that finish after issue -/

/-- The blocking value of a group in shadow mode has arrived: its shadow state is discarded (04 R69). -/
def State.settle (s : State) (gid : Nat) : State :=
  match s.group? gid with
  | none => s
  | some g =>
    match g.shadow, g.park with
    | some _, some (.empty cells) =>
      if cells.any fun c => g.regs.empt.has c then s else s.leaveShadow gid
    | _, _ => s

/-- Write a scalar destination now. -/
def State.putS (s : State) (gid : Nat) (d : Opd) (w : Nat) : State :=
  s.modGroup gid fun g => g.putS d (BitVec.ofNat 64 w)

/-- Mark destinations empty and list the operation that will fill them. -/
def State.await (s : State) (gid : Nat) (g : Group) (cells : List Nat) (op : PendOp)
    (after : List (Nat × Scope) := []) (lo : VPos := {}) (sampled : Option Nat := none) : State :=
  let n := s.fresh
  let s := n.2.modGroup gid fun g => g.markEmpty cells
  s.addPend ⟨n.1, gid, op, after, lo, s.clk, g.ctl.pc, sampled, {}, (0, false)⟩

/-- An operation delivers its scalar destination and is done. -/
def State.deliverS (s : State) (p : Pend) (d : Opd) (w : Nat) : State :=
  let s := (s.dropPend p.id).putS p.gid d w
  (s.logFill p.gid p.id [w]).settle p.gid

end Sys2Proof.Machine
end

