-- ==== Sys2Proof/Machine/Fetch.lean ====
section
/-!
DEFINITION. Fetching instructions (04 R57 to R59; 02 R21 to R23), decoding them for a group
(02 R35 to R38), breakpoints (21 R459), and the end of a group (04 R64, 11 R251).
-/
namespace Sys2Proof.Machine

/-! ## Instruction lines -/

/-- The address of an instruction line. -/
def lineVa (line : Nat) : Nat := line % 2 ^ 56 * 256

/-- A held line as a fetch uses it through the TLBs: they translate its page, with X, to where the line was
filled from (04 R57). -/
def State.hitLine (s : State) (core tenant line : Nat) (e : Option (Nat × Nat)) : Option (Nat × Nat) :=
  match e, s.tlbLookup core tenant (lineVa line) with
  | some (base, pos), some l =>
    if entX l.e.toNat && l.key (lineVa line) == base then some (base, pos) else none
  | _, _ => none

/-- A held line as a fetch may use it. Where no TLB holds a translation of its page, the line may still be
used until an `iinv` of it is done (03 R56): a free value says whether it is. -/
def State.useLine (s : State) (core tenant line : Nat) (e : Option (Nat × Nat)) :
    Option (Nat × Nat) × State :=
  if e.isSome && (s.tlbLookup core tenant (lineVa line)).isNone then
    let f := s.free 2
    (if f.1 = 0 then e else none, f.2)
  else (s.hitLine core tenant line e, s)

/-- A line that the core's L1i holds, and translates. -/
def State.heldLine (s : State) (core tenant line : Nat) : Option (Nat × Nat) :=
  s.hitLine core tenant line ((s.core core).l1i.at? line)

/-- A line in the L0i of a scheduler. -/
def l0Key (sched line : Nat) : Nat := 2 ^ 58 * sched + line
def State.l0Line (s : State) (g : Group) (line : Nat) : Option (Nat × Nat) :=
  (s.core g.core).l0i.at? (l0Key (g.slot % 4) line)

/-- The 8 bytes at an address of a held line, which keeps what it was filled with, whatever is stored later
(04 R59). -/
def State.lineWord (s : State) (e : Nat × Nat) (va : Nat) : Nat :=
  leNat ((List.range 8).map fun i => s.devByteAt e.2 (e.1 + (va % 256 + i) % 256))

/-- The word at an address that a group reads at once: from its fetch buffer, or from its L0i. -/
def State.wordAt (s : State) (g : Group) (va : Word64) : Option Nat :=
  (g.fbuf.at? va.toNat).orElse fun _ =>
    (s.hitLine g.core (s.tenantOf g) (va.toNat / 256) (s.l0Line g (va.toNat / 256))).map fun e =>
      s.lineWord e va.toNat

/-- The words of the instruction at a group's PC, as far as the group or its caches hold them. -/
def State.rawAt (s : State) (g : Group) : Nat × Option Nat :=
  let word (va : Word64) : Option Nat := (g.fbuf.at? va.toNat).orElse fun _ =>
    (s.l0Line g (va.toNat / 256)).map fun e => s.lineWord e va.toNat
  let w := (word g.ctl.pc).getD 0
  (w, if bitAt w 0 then word (g.ctl.pc + 8) else none)

/-- A group asks for an instruction word and waits for its fill (04 R57, R58). -/
def State.ask (s : State) (gid : Nat) (va : Word64) : State :=
  s.modGroup gid fun g => { g with want := some va.toNat }

/-- A word read through the instruction path (04 R57, R62), or the state in which the group waits for it. -/
def State.insWord (s : State) (gid : Nat) (g : Group) (va : Word64) : Except State (Nat × State) :=
  match s.wordAt g va with
  | some w => .ok (w, s)
  | none =>
    let r := s.useLine g.core (s.tenantOf g) (va.toNat / 256) (s.l0Line g (va.toNat / 256))
    match r.1 with
    | some e => .ok (r.2.lineWord e va.toNat, r.2)
    | none => .error (r.2.ask gid va)

/-- Four words enter a group's fetch buffer: those from an address on in its line. The word at the PC stays
where its second word is fetched (04 R57; 02 R23). -/
def Group.buffer (g : Group) (s : State) (e : Nat × Nat) (va : Nat) : Group :=
  let first : AMap Nat := if va = g.ctl.pc.toNat + 8 then g.fbuf.filter fun x => x.1 == g.ctl.pc.toNat else []
  let more := (List.range (min (4 - first.length) ((256 - va % 256) / 8))).map fun i =>
    (va + 8 * i, s.lineWord e (va + 8 * i))
  { g with fbuf := first ++ more }

/-- The word at an address for execution: the fetch buffer holds it, or it follows what the buffer holds and
comes from L0i; after a transfer of control the fetch is waited for (04 R58, redirect). -/
def State.fetchWord (s : State) (gid : Nat) (va : Word64) : Except State (Nat × State) :=
  match s.group? gid with
  | none => .error s
  | some g =>
    match g.fbuf.at? va.toNat with
    | some w => .ok (w, s)
    | none =>
      if (g.fbuf.at? (va - 8).toNat).isNone then .error (s.ask gid va) else
        let r := s.useLine g.core (s.tenantOf g) (va.toNat / 256) (s.l0Line g (va.toNat / 256))
        match r.1 with
        | some e => .ok (r.2.lineWord e va.toNat, r.2.setGroup gid (g.buffer r.2 e va.toNat))
        | none => .error (r.2.ask gid va)

/-- What decoding reads of the kernel header and the role (02 R35, R36). -/
def State.decCtx (s : State) (g : Group) : DecCtx :=
  match s.teamOf g with
  | none => { DecCtx.max with role := g.role }
  | some t => ⟨t.hdr.vcnt, t.hdr.xcnt, t.hdr.scnt, t.hdr.acc, t.hdr.bins, g.role⟩

/-! ## The end of a group -/

/-- A commit of the group is in progress. -/
def State.committing (s : State) (gid : Nat) : Bool :=
  s.pending.any fun p => p.gid == gid &&
    (match p.op with
     | .commit .. => true
     | _ => false)

/-- The group ends: its buffer is discarded and its slot released (04 R64; 11 R251). A replayed group stops
at the end of its interval instead, with DEBUG cause 5 (21 R452). -/
def State.endGroup (s : State) (gid : Nat) : State :=
  let s := s.endInterval gid
  match s.group? gid with
  | none => s
  | some g =>
    match g.trc.replay with
    | some (_, _, int) =>
      (s.modStream (s.tenantOf g) fun r => { r with rpldone := true }).takeTrap gid (0, none) g.ctl.pc
        (trapOf 9 5 [] int)
    | none =>
    let s := s.emitG gid 4 ctlCMT tyDISC ([0] ++ leBytes 4 g.mem.buf.length)
    let s := s.emitG gid (g.slot % 4) ctlGRP tyGEND []
    s.modGroup gid fun g => { g with
      ended := true, park := none, want := none, fbuf := [], shadow := none, mem := {}
      ctl := { g.ctl with act := 0, stack := [], deep := 0 } }

/-! ## Breakpoints (21 R459) -/

/-- EN, KIND, ADDR of a breakpoint register. -/
def brkHit (w : Word64) (kind : Nat) (addr : Nat) : Bool :=
  bitAt w.toNat 0 && bitsAt w.toNat 1 2 == kind && w.toNat / 8 == addr / 8

/-- The instruction breakpoint that stands at an address, if any. -/
def State.brkAt (s : State) (t : Nat) (pc : Word64) : Option Nat :=
  (List.range 8).find? fun i => brkHit (AMap.get 0 (s.stream t).brk i) 0 pc.toNat

/-- The data breakpoint that accesses of lanes touch, and those lanes: bit 0 of `kinds` for loads,
bit 1 for stores. -/
def State.dataBrk (s : State) (t kinds width : Nat) (ls : List (Nat × Nat)) : Option (Nat × List (Nat × Nat)) :=
  (List.range 8).findSome? fun i =>
    let w := (AMap.get 0 (s.stream t).brk i).toNat
    if bitAt w 0 && (bitsAt w 1 2 &&& kinds) != 0 then
      let hit := ls.filter fun e => e.2 / 8 ≤ w / 8 && w / 8 ≤ (e.2 + width - 1) / 8
      if hit.isEmpty then none else some (i, hit)
    else none

/-! ## Fetch and decode -/

/-- A group stops for a save, keeping the registers of its live masks (18 R402). -/
def State.freeze (s : State) (gid : Nat) (live : Option (Nat × Nat × Nat)) : State :=
  let s := ((s.leaveShadow gid).unqueue gid).endInterval gid
  match s.group? gid with
  | none => s
  | some g =>
    let s := s.setGroup gid { g with frozen := true, stopReq := none, want := none, fbuf := [], live := live }
    s.emitPC gid ctlGRP tySTOP g.ctl.pc [0, 0, 2] none

/-- The record of a safe point in a sorted table (03 Table 3-7), between two indices: its three masks. -/
def State.findSafe (s : State) (tenant tab off : Nat) : Nat → Nat → Nat → Option (Nat × Nat × Nat)
  | 0, _, _ => none
  | n + 1, lo, hi =>
    if hi ≤ lo then none else
      let i := (lo + hi) / 2
      match (s.readVirt tenant ((tab + 48 * i) % 2 ^ 64) 48).1 with
      | none => none
      | some bs =>
        let o := leNat (bs.take 4)
        if o = off then
          some (leNat ((bs.drop 8).take 24), leNat ((bs.drop 32).take 8), leNat ((bs.drop 40).take 8))
        else if o < off then s.findSafe tenant tab off n (i + 1) hi
        else s.findSafe tenant tab off n lo i

/-- The masks of the safe point at a group's PC, where its launch uses side tables (03 R55). -/
def State.safePoint (s : State) (g : Group) : Option (Nat × Nat × Nat) :=
  match s.teamOf g, s.gridOf g with
  | some t, some gr =>
    if !gr.rcd.side || t.hdr.side = 0 || g.ctl.pc.toNat < t.entry then none else
      let head := (t.entry + 2 ^ 64 - 64 + t.hdr.side) % 2 ^ 64
      match (s.readVirt (s.tenantOf g) head 4).1 with
      | none => none
      | some bs => s.findSafe (s.tenantOf g) (head + 32) (g.ctl.pc.toNat - t.entry) 33 0 (leNat bs)
  | _, _ => none

/-- A group that a save has asked to stop does so at a safe point. -/
def State.safeStop (s : State) (gid : Nat) : Option State :=
  match s.group? gid with
  | none => none
  | some g => if g.stopReq.isSome then (s.safePoint g).map fun m => s.freeze gid (some m) else none

/-- What a group's turn comes to before its instruction executes. -/
inductive Fetched where
  | ok (i : Instr) (s : State)
  | done (s : State)

/-- A decode trap: the lanes are the active mask, whatever the guards (02 R37). In shadow mode the
group issues nothing further instead (02 R38). -/
def State.decodeTrap (s : State) (gid : Nat) (raw : Nat × Option Nat) (cls : Nat) : State :=
  match s.group? gid with
  | none => s
  | some g =>
    match g.shadow with
    | some sh => s.setGroup gid { g with shadow := some { sh with issuing := false } }
    | none => s.takeTrap gid raw g.ctl.pc (trapOf cls 0 (lanesOf g.ctl.act))

/-- A sibling whose next instruction would trap in its skid stops before it (18 R393): a step's
instruction would (21 R460). -/
def stepsInSkid (g : Group) (qm : Bool) : Bool := g.sys.stepping && g.sys.skid.isSome && !qm

/-- Fetch and decode for a group at its PC. Where a replay interval is to begin, its snapshot waits for
the producers outstanding for the group and stands before the instruction (21 R449). -/
def State.fetch (s : State) (gid : Nat) : Fetched :=
  match s.group? gid with
  | none => .done s
  | some g0 =>
    match s.safeStop gid with
    | some t => .done t
    | none =>
    let due := g0.trc.rec?.isNone && g0.trc.replay.isNone && g0.shadow.isNone
      && (s.stream (s.tenantOf g0)).logSize.isSome
    if due && s.pending.any (fun p => p.gid == gid) then
      .done (s.modGroup gid fun g => { g with stall := 1 }) else
    let s := if due then s.beginInterval gid else s
    match s.group? gid with
    | none => .done s
    | some g =>
      let pc := g.ctl.pc
      if !g.mem.failed.isEmpty then
        .done ((s.setGroup gid { g with mem := { g.mem with failed := [] } }).takeTrap gid (s.rawAt g) pc
          (trapAt 2 4 g.mem.failed))
      else if stepsInSkid g (s.queueMode g) then .done (s.stopSibling gid)
      else
        let outside (va : Word64) : Fetched := match g.shadow with
          | some sh => .done (s.setGroup gid { g with shadow := some { sh with issuing := false } })
          | none => .done (s.takeTrap gid (s.rawAt g) pc
              { trapOf 2 0 (lanesOf g.ctl.act) with alo := va.toNat, ahi := va.toNat })
        if canonical pc.toNat = false then outside pc else
        match s.fetchWord gid pc with
        | .error t => .done t
        | .ok (w, s) =>
          if bitAt w 0 && canonical (pc + 8).toNat = false then outside (pc + 8) else
          match if bitAt w 0 then s.fetchWord gid (pc + 8) else .ok (0, s) with
          | .error t => .done t
          | .ok (w1, s) =>
            let raw := (w, if bitAt w 0 then some w1 else none)
            match if g.shadow.isNone then s.brkAt (s.tenantOf g) pc else none with
            | some n => .done (s.takeTrap gid raw pc (trapOf 9 1 (lanesOf g.ctl.act) n))
            | none =>
              match decode (s.decCtx g) w w1 with
              | .ok i => .ok i { s with cur := gid }
              | .illegal => .done (s.decodeTrap gid raw 0)
              | .type => .done (s.decodeTrap gid raw 1)
              | .role => .done (s.decodeTrap gid raw 14)

/-! ## FETCH_FILL -/

/-- The groups of a core that wait for an instruction line. -/
def State.wanting (s : State) (core line : Nat) : List Nat :=
  (s.groups.filter fun e => e.2.core == core && e.2.want.map (· / 256) == some line && !e.2.ended).map (·.1)

/-- The lanes of a fetch: the active ones, or those that Resume is about to run (04 R62, R64). -/
def fetchLanes (g : Group) : Mask :=
  if g.ctl.act ≠ 0 then g.ctl.act else match g.ctl.stack with
    | e :: _ => e.pend &&& ~~~g.ctl.ex
    | [] => 0

/-- A fill that fails: shadow issue ends; any other group answers as `f` says (04 R57, R62, R68). -/
def State.failFetch (s : State) (gids : List Nat) (f : Nat → Group → Nat → State → State) : State :=
  gids.foldl (fun s k =>
    match s.group? k with
    | none => s
    | some g =>
      let s := s.setGroup k { g with want := none }
      match g.shadow with
      | some sh => s.modGroup k fun g => { g with shadow := some { sh with issuing := false } }
      | none => f k g (g.want.getD 0) s) s

/-- A line that L1i requests is filled from L2 or beyond, where it is an ordinary clean line (04 R57). -/
def State.fillL1i (s : State) (core tenant line : Nat) (l : Leaf) : State :=
  let n := lineOf (l.key (lineVa line))
  let far := if allSecs.any fun q => 2 ≤ s.supplier (4 * n + q) core then [n] else []
  let s := (s.fetchLine n allSecs core (max 1 (entCc l.e.toNat)) 0 l.e tenant).countRead far tenant
  let r := s.displace 8 (Config.setOf 4) (s.core core).l1i line
  r.2.modCore core fun c => { c with l1i := AMap.set r.1 line (l.key (lineVa line), s.dev.pos) }

/-- A line enters the L0i of a scheduler. -/
def State.fillL0i (s : State) (core sched line : Nat) (e : Nat × Nat) : State :=
  let own := (s.core core).l0i.filter fun x => x.1 / 2 ^ 58 == sched
  let r := s.displace 4 (fun k => Config.setOf 5 (k % 2 ^ 58)) own (l0Key sched line)
  r.2.modCore core fun c =>
    let rest := c.l0i.filter fun x => x.1 / 2 ^ 58 != sched || (r.1.at? x.1).isSome
    { c with l0i := AMap.set rest (l0Key sched line) e }

/-- Request instruction lines in order: the first whose translation faults or lacks X, and all after
it, are dropped (04 R57, R80). -/
def State.requestLines (s : State) (core tenant : Nat) : List Nat → State
  | [] => s
  | n :: ns =>
    if (s.heldLine core tenant n).isSome then s.requestLines core tenant ns
    else if canonical (lineVa n) = false then s
    else
      let r := s.translate core tenant (lineVa n)
      match r.1 with
      | .leaf l => if entX l.e.toNat then (r.2.fillL1i core tenant n l).requestLines core tenant ns else r.2
      | _ => r.2

/-- A waiting group receives its line: from L0i into its fetch buffer, where it waits for the instruction at
its PC. -/
def State.arrive (s : State) (gid : Nat) (e : Nat × Nat) : State :=
  s.modGroup gid fun g =>
    let g' : Group := { g with want := none }
    match g.want with
    | none => g
    | some va => if va = g.ctl.pc.toNat ∨ va = g.ctl.pc.toNat + 8 then g'.buffer s e va else g'

/-- FETCH_FILL: of the groups that wait for a line, those whose L0i holds it read it there; the others are
filled from L1i, or from L2 or beyond, with a translation made then, or they fault or trap (04 R57; 06 R117,
R118). On a miss L1i requests the next two lines also. The trap record speaks of the effective addresses of lanes,
which a fetch has none of: both its address words take the fetched address (log 27). -/
def State.fetchFill (s : State) (core line : Nat) : State :=
  let all := s.wanting core line
  let va := lineVa line
  let tenant := match all.head?.bind s.group? with
    | some g => some (s.tenantOf g)
    | none => (s.core core).teams.head?.bind s.team? |>.map s.teamTenant
  match tenant with
  | none => s
  | some t =>
    let r := all.foldl (fun (r : List Nat × State) k =>
      match r.2.group? k with
      | none => r
      | some g =>
        let u := r.2.useLine core t line (r.2.l0Line g line)
        match u.1 with
        | some e => (r.1, u.2.arrive k e)
        | none => (r.1 ++ [k], u.2)) ([], s)
    let gids := r.1
    let s := r.2
    if gids.isEmpty && !all.isEmpty then s else
    let arriveAll (s : State) (e : Nat × Nat) : State := gids.foldl (fun s k =>
      match s.group? k with
      | none => s
      | some g => (s.fillL0i core (g.slot % 4) line e).arrive k e) s
    let u := if gids.isEmpty then (none, s) else s.useLine core t line ((s.core core).l1i.at? line)
    match u.1 with
    | some e => arriveAll u.2 e
    | none =>
      let s := u.2
      let miss := (s.tlbLookup core t va).isNone
      let r := s.translate core t va
      let s := if miss then r.2.modCore core fun c => (c.count 0x23 1).count 0x24 1 else r.2
      let trap (cause : Nat) : State := s.failFetch gids fun k g va s =>
        s.takeTrap k (s.rawAt g) g.ctl.pc
          { trapOf 2 cause (lanesOf (fetchLanes g)) with alo := va, ahi := va }
      let fault (lvl : Nat) (pri : Bool) : State := s.failFetch gids fun k g va s =>
        s.faultPark k fkFetch g.ctl.pc false
          [⟨va / 65536, va, fetchLanes g, lvl, pri, (lanesOf (fetchLanes g)).map fun l => (l, va)⟩]
      match r.1 with
      | .leaf l =>
        if entX l.e.toNat then
          let s := s.fillL1i core t line l
          let s := arriveAll s (l.key va, ((s.core core).l1i.at? line).elim s.dev.pos (·.2))
          s.requestLines core t [(line + 1) % 2 ^ 56, (line + 2) % 2 ^ 56]
        else trap 2
      | .malformed _ => trap 3
      | .absent lvl => fault lvl false
      | .ats _ => fault 0 true
      | .mixed .. => s

end Sys2Proof.Machine
end

