-- ==== Sys2Proof/Machine/Stack.lean ====
section
/-!
DEFINITION. The reconvergence stack (04 R60 to R65): pushes with their spills, transfers, partitions,
`join`, Resume, and the branch-and-mask packets (21 R440).
-/
namespace Sys2Proof.Machine

/-! ## Entries (04 R60) -/

/-- The field KIND of an entry (04 Table 4-2). -/
def EKind.code : EKind → Nat
  | .div => 1 | .brx => 2 | .call => 3 | .callx => 4
/-- The kind of a code; the codes that are not used name none, and are read as DIV (log 54). -/
def EKind.ofCode (n : Nat) : EKind :=
  if n = 2 then .brx else if n = 3 then .call else if n = 4 then .callx else .div

/-- The 32 bytes of an entry (04 Table 4-2). -/
def Entry.bytes (e : Entry) : List Byte :=
  leBytes 8 e.pc.toNat ++ leBytes 8 (e.restore.toNat + 2 ^ 32 * e.pend.toNat) ++ leBytes 8 e.origin.toNat
    ++ leBytes 8 (e.kind.code + 8 * e.wait.toNat)

/-- The entry that 32 bytes hold. -/
def Entry.ofBytes (bs : List Byte) : Entry :=
  let word (i : Nat) : Nat := leNat ((bs.drop (8 * i)).take 8)
  { pc := BitVec.ofNat 64 (word 0), pend := BitVec.ofNat 32 (word 1 / 2 ^ 32), restore := BitVec.ofNat 32 (word 1)
    origin := BitVec.ofNat 64 (word 2), wait := BitVec.ofNat 61 (word 3 / 8), kind := EKind.ofCode (word 3 % 8) }

/-- Why a stack step cannot be made now. -/
inductive Stop where
  /-- The state has been changed: parked or waiting for a line. -/
  | wait (s : State)
  | trap (t : TrapInfo)

/-- Set the control state of a group. -/
def State.setCtl (s : State) (gid : Nat) (c : Ctrl) : State := s.modGroup gid fun g => { g with ctl := c }

/-! ## Spill and fill (04 R65) -/

/-- The address of the entry at a depth of a group's stack. -/
def State.spillVa (s : State) (g : Group) (d : Nat) : Nat :=
  (((s.gridOf g).map (·.rcd.spill)).getD 0 + 131072 * g.spill + 32 * d) % 2 ^ 64

/-- The physical key of the entry at a depth, or the level of the walk that failed and whether the host
translates it. Every failure of a spill-area access is a recoverable fault (04 Table 4-5; log 54). -/
def State.spillKey (s : State) (g : Group) (d : Nat) (wr : Bool) : Except (Nat × Bool) Nat × State :=
  let va := s.spillVa g d
  if canonical va = false then (.error (3, false), s) else
  let r := s.translate g.core (s.tenantOf g) va
  (match r.1 with
    | .leaf l => if (if wr then entW l.e.toNat else entRd l.e.toNat) then .ok (l.key va) else .error (l.lvl, false)
    | .malformed l => .error (l.lvl, false)
    | .absent lvl => .error (lvl, false)
    | .ats _ => .error (0, true)
    | .mixed .. => .error (0, false), r.2)

/-- The lanes that a spill or fill fault reports: the active ones, or those that Resume is about to run
(log 54). -/
def spillLanes (g : Group) : Mask := if g.ctl.act ≠ 0 then g.ctl.act else ~~~g.ctl.ex

/-- The keys of the entries at some depths, ascending, or the group parked on the fault pages among them. -/
def State.spillKeys (s : State) (gid : Nat) (g : Group) (wr : Bool) (ds : List Nat) : Except Stop (List Nat × State) :=
  let r := ds.foldl (fun (r : List Nat × AMap FaultAt × State) d =>
    let k := r.2.2.spillKey g d wr
    match k.1 with
    | .ok key => (r.1 ++ [key], r.2.1, k.2)
    | .error (lvl, pri) =>
      let va := s.spillVa g d
      let f : FaultAt := ⟨va / 65536, va, spillLanes g, lvl, pri, (lanesOf (spillLanes g)).map fun l => (l, va)⟩
      (r.1, if (r.2.1.at? f.page).isSome then r.2.1 else r.2.1.set f.page f, k.2)) (([] : List Nat), [], s)
  if r.2.1.isEmpty then .ok (r.1, r.2.2)
  else .error (.wait (r.2.2.faultPark gid fkSpill g.ctl.pc wr (r.2.1.map (·.2))))

/-- An entry is written to the spill area, past the commit hierarchy. -/
def State.spillOut (s : State) (k : Nat) (e : Entry) : State :=
  { s with spills := ((List.range 32).zip e.bytes).foldl (fun m b => AMap.put 0 m (k + b.1) b.2) s.spills }
/-- The entry that lies at a key of the spill area. -/
def State.spillIn (s : State) (k : Nat) : Entry :=
  Entry.ofBytes ((List.range 32).map fun i => AMap.get 0 s.spills (k + i))

/-- Up to 16 entries come back from the spill area before the top is needed (04 R65). Shadow mode makes no
fill, so it goes no further there (04 R68). -/
def State.fillTop (s : State) (gid : Nat) (g : Group) (c : Ctrl) : Except Stop (Ctrl × State) :=
  if !c.stack.isEmpty || c.deep = 0 then .ok (c, s)
  else if g.shadow.isSome then .error (.wait s)
  else
    let n := min 16 c.deep
    match s.spillKeys gid g false ((List.range n).map (c.deep - n + ·)) with
    | .error e => .error e
    | .ok (ks, s) => .ok ({ c with stack := (ks.map s.spillIn).reverse, deep := c.deep - n }, s)

/-- Push (04 R65, R84): depth 4096 traps; the 33rd entry on chip spills the bottom one first. -/
def State.push32 (s : State) (gid : Nat) (g : Group) (c : Ctrl) (e : Entry) : Except Stop (Ctrl × State) :=
  if 4096 ≤ c.stack.length + c.deep then .error (.trap (trapOf 2 5 (lanesOf g.ctl.act)))
  else if c.stack.length < 32 || g.shadow.isSome then .ok ({ c with stack := e :: c.stack }, s)
  else match s.spillKeys gid g true [c.deep], c.stack.getLast? with
    | .error x, _ => .error x
    | .ok (ks, s), some low =>
      .ok ({ c with stack := e :: c.stack.dropLast, deep := c.deep + 1 }, s.spillOut (ks.headD 0) low)
    | .ok (_, s), none => .ok ({ c with stack := e :: c.stack }, s)

def Ctrl.pop (c : Ctrl) : Ctrl := { c with stack := c.stack.drop 1 }
def Ctrl.setTop (c : Ctrl) (e : Entry) : Ctrl := { c with stack := e :: c.stack.drop 1 }

/-- CheckTarget (02 R22), over lanes with their targets. Where lanes fail in different ways, ALIGN of those that
are misaligned is taken first (log 19). -/
def checkTarget (ts : List (Nat × Nat)) : Option TrapInfo :=
  let al := ts.filter fun t => t.2 % 8 != 0
  let ca := ts.filter fun t => canonical t.2 == false
  if !al.isEmpty then some (trapAt 3 0 al)
  else if !ca.isEmpty then some (trapAt 2 0 ca)
  else none

/-- Transfer (04 R61). `next` is NextPC. -/
def State.transfer (s : State) (gid : Nat) (g : Group) (tset : Mask) (target next : Word64) :
    Except Stop State :=
  let c := g.ctl
  let f := c.act &&& ~~~tset
  if tset = 0 then .ok (s.setCtl gid { c with pc := next })
  else if f = 0 then
    let s := s.setCtl gid { c with pc := target }
    .ok (if target = next then s else s.emitPC gid ctlBM tyBR c.pc [] none)
  else
    match s.fillTop gid g c with
    | .error e => .error e
    | .ok (c, s) =>
      let merged : Option Ctrl := match c.stack with
        | e :: _ => if e.kind = .div ∧ e.pc = next then
            some (c.setTop { e with pend := e.pend ||| f, restore := e.restore ||| c.act }) else none
        | [] => none
      let r := match merged with
        | some c => Except.ok (c, s)
        | none => s.push32 gid g c ⟨next, f, c.act, 0, 0, .div⟩
      match r with
      | .error e => .error e
      | .ok (c, s) =>
        .ok ((s.setCtl gid { c with act := tset, pc := target }).emitPC gid ctlBM tyDIV g.ctl.pc
          (leBytes 4 tset.toNat) (some target))

/-- TargetOf (04 R62): the word at ORIGIN decides, read now through the instruction path. -/
def targetOf (g : Group) (w : Nat) (origin : Word64) (l : Nat) : Word64 :=
  if g.predAt (fCtl w).pg l == (fCtl w).neg then origin + 8
  else BitVec.ofNat 64 (g.rdN (vecSpec (fSa w)) 2 l)

/-- NextPartition (04 R62): the set of lanes that run next and their target, or a line to wait for. -/
def State.nextPartition (s : State) (gid : Nat) (g : Group) (e : Entry) (p : Mask) :
    Except Stop (Mask × Word64 × State) :=
  match s.insWord gid g e.origin with
  | .error t => .error (.wait t)
  | .ok (w, s) =>
    match lanesOf p with
    | [] => .ok (0, e.origin, s)
    | l0 :: ls =>
      let t := targetOf g w e.origin l0
      .ok (maskOf (l0 :: ls.filter fun l => targetOf g w e.origin l == t), t, s)

/-- The dependences that control had before the lanes in a mask were restored (04 R67 rule 3). -/
def State.joinCtl (s : State) (gid : Nat) (m : Mask) : State :=
  s.modGroup gid fun g =>
    let p := g.ctlDepOf (lanesOf m)
    { g with mem := { g.mem with ctlDep := (lanesOf m).foldl (fun d l => AMap.put {} d l p) g.mem.ctlDep } }

/-- Control of lanes now depends on what a branch read (04 R67 rule 2). -/
def State.ctlOn (s : State) (gid : Nat) (m : Mask) (p : VPos) : State :=
  s.modGroup gid fun g => { g with mem := { g.mem with
    ctlDep := (lanesOf m).foldl (fun d l => AMap.put {} d l (p.join (AMap.get {} d l))) g.mem.ctlDep } }

/-- RCV (21 R440): Act was changed by switching or popping an entry. -/
def State.rcv (s : State) (gid : Nat) (pc : Word64) (m : Mask) (t : Word64) : State :=
  s.emitPC gid ctlBM tyRCV pc (leBytes 4 m.toNat) (some t)

/-- The loop of JoinAt over a BRX entry's partitions (04 R63): at most one pass per lane. -/
def State.joinLoop (gid : Nat) (j : Word64) : Nat → Ctrl → Entry → State → Except Stop State
  | 0, _, _, s => .ok s
  | n + 1, c, e, s =>
    if e.kind = .brx ∧ e.pend ≠ 0 then
      match s.group? gid with
      | none => .ok s
      | some g =>
        match s.nextPartition gid { g with ctl := c } e e.pend with
        | .error (.wait t) => .error (.wait (t.setCtl gid c))
        | .error x => .error x
        | .ok (m, t, s) =>
          let e := { e with pend := e.pend &&& ~~~m }
          if t ≠ j then
            let s := s.setCtl gid { c.setTop { e with wait := BitVec.ofNat 61 (j.toNat / 8) } with
              act := m, pc := t }
            .ok (s.rcv gid j m t)
          else State.joinLoop gid j n (c.setTop e) e s
    else
      let act := e.restore &&& ~~~c.ex
      let s' := s.setCtl gid { c.pop with act := act, pc := j + 8 }
      let s' := s'.joinCtl gid act
      .ok (if act = c.act then s' else s'.rcv gid j act (j + 8))

/-- JoinAt (04 R63). -/
def State.joinAt (s : State) (gid : Nat) (g : Group) : Except Stop State :=
  let j := g.ctl.pc
  match s.fillTop gid g g.ctl with
  | .error e => .error e
  | .ok (c, s) =>
    match c.stack with
    | [] => .ok (s.setCtl gid { c with pc := j + 8 })
    | e :: _ =>
      if e.kind = .call ∨ e.kind = .callx then .ok (s.setCtl gid { c with pc := j + 8 })
      else
        let e := { e with pend := e.pend &&& ~~~c.ex }
        if e.kind = .div ∧ e.pend ≠ 0 ∧ e.pc ≠ j then
          let s := s.setCtl gid { c.setTop { e with wait := BitVec.ofNat 61 (j.toNat / 8), pend := 0 } with
            act := e.pend, pc := e.pc }
          .ok (s.rcv gid j e.pend e.pc)
        else
          let e := if e.kind = .div then { e with pend := 0 } else e
          State.joinLoop gid j 34 (c.setTop e) e s

/-- Resume's way down to the entry it continues at (04 R64): entries whose lanes have all exited are popped, and
the spill area is read where the top is needed. A fault on the way leaves the instruction that needed Resume
without any effect (04 R65). -/
def State.unwind (s : State) (gid : Nat) (g : Group) : Nat → Ctrl → Except Stop (Ctrl × State)
  | 0, c => .ok (c, s)
  | n + 1, c =>
    match s.fillTop gid g c with
    | .error e => .error e
    | .ok (c, s) =>
      match c.stack with
      | [] => .ok (c, s)
      | e :: _ =>
        if (e.pend &&& ~~~c.ex ≠ 0 ∧ e.kind ≠ .call) ∨ e.restore &&& ~~~c.ex ≠ 0 then .ok (c, s)
        else State.unwind s gid g n c.pop

/-- The rest of Resume (04 R64). The group ends once its commits have completed (11 R251). -/
def State.resumeAt (s : State) (gid : Nat) (c : Ctrl) : Except Stop State :=
  let c := { c with act := 0 }
  match s.group? gid with
  | none => .ok s
  | some g =>
    match c.stack with
    | [] => if s.committing gid then .ok (s.setCtl gid c) else .ok ((s.setCtl gid c).endGroup gid)
    | e :: _ =>
      let p := e.pend &&& ~~~c.ex
      if p ≠ 0 ∧ e.kind = .div then
        let s := s.setCtl gid { c.setTop { e with pend := 0 } with act := p, pc := e.pc }
        .ok (s.rcv gid g.ctl.pc p e.pc)
      else if p ≠ 0 ∧ (e.kind = .brx ∨ e.kind = .callx) then
        match s.nextPartition gid g e p with
        | .error (.wait t) => .error (.wait (t.setCtl gid c))
        | .error x => .error x
        | .ok (m, t, s) =>
          let pc := if e.kind = .callx then t + 8 else t
          let s := s.setCtl gid { c.setTop { e with pend := p &&& ~~~m } with act := m, pc := pc }
          .ok (s.rcv gid g.ctl.pc m pc)
      else
        let rm := e.restore &&& ~~~c.ex
        let pc := if e.kind = .div ∨ e.kind = .brx then BitVec.ofNat 64 (e.wait.toNat * 8 + 8) else e.pc
        let s := s.setCtl gid { c.pop with act := rm, pc := pc }
        let s := if e.kind = .call then s else s.joinCtl gid rm
        .ok (s.rcv gid g.ctl.pc rm pc)

/-- A group whose Act is zero runs Resume before it issues anything (04 R64). After a trap that Resume takes, with
a handler, Act is still zero, so Resume runs again, at the handler's PC, before the handler's first instruction
(log 19). -/
def State.resumeStep (s : State) (gid : Nat) : State :=
  match s.group? gid with
  | none => s
  | some g =>
    match s.unwind gid g 4097 g.ctl with
    | .error (.wait t) => t
    | .error (.trap t) => s.takeTrap gid (s.rawAt g) g.ctl.pc t
    | .ok (c, s) =>
      match s.resumeAt gid c with
      | .ok t => if g.sys.stepping && !g.sys.high then
          t.stepDone gid (s.rawAt g) g.ctl.pc (((t.group? gid).map (·.ctl.act)).getD 0) else t
      | .error (.wait t) => t
      | .error (.trap t) => s.takeTrap gid (s.rawAt g) g.ctl.pc t

/-- An instruction has left no lane active, and its group goes on through Resume. `log` writes what the
instruction itself traces. Where NextPartition cannot finish now, Act stays zero (04 R62). -/
def State.resumeAfter (s : State) (gid : Nat) (g : Group) (c : Ctrl) (log : State → State) : Eff :=
  match s.unwind gid g 4097 { c with act := 0 } with
  | .error (.wait t) => .wait t
  | .error (.trap t) => .trap t s
  | .ok (c, s) =>
    match (log s).resumeAt gid c with
    | .ok t | .error (.wait t) => .jump t
    | .error (.trap t) => .trap t s

/-- Exit (04 R77). -/
def State.exitLanes (s : State) (gid : Nat) (g : Group) (e : Mask) (next : Word64) : Eff :=
  let c := g.ctl
  if e = 0 then .jump (s.setCtl gid { c with pc := next })
  else
    let act := c.act &&& ~~~e
    let log (s : State) : State := s.emitPC gid ctlBM tyEXIT c.pc (leBytes 4 e.toNat ++ leBytes 4 act.toNat) none
    let c := { c with ex := c.ex ||| e, act := act }
    if act ≠ 0 then .jump ((log s).setCtl gid { c with pc := next })
    else s.resumeAfter gid g c log

/-- The outcome of a stack step as the effect of an instruction. -/
def stackEff (s : State) : Except Stop State → Eff
  | .ok t => .jump t
  | .error (.wait t) => .wait t
  | .error (.trap t) => .trap t s

end Sys2Proof.Machine
end

