-- ==== Sys2Proof/Machine/Access.lean ====
section
/-!
DEFINITION. Memory operands (02 R25), the checks of every global access in their order (06 R116), range
locks (06 R130), and the page walks an access waits for (06 R114).
-/
namespace Sys2Proof.Machine

/-! ## Operands -/

/-- The index part of an address: SignExtend(V[IDX]) << SCL. -/
def idxPart (g : Group) (i : IdxOp) (l : Nat) : Word64 :=
  (BitVec.ofNat 32 (g.rd32 i.i l)).signExtend 64 <<< i.scl

/-- EA of a lane (02 R25); `long` is the second word. -/
def effAddr (g : Group) (m : MemOp) (long : Option Word64) (l : Nat) : Nat :=
  let base : Word64 := if m.bs then g.rdS m.base.o else BitVec.ofNat 64 (g.rdN m.base.o 2 l)
  let index : Word64 := match m.idx with | none => 0 | some i => idxPart g i l
  let off : Word64 := match long, m.idx with
    | some w, _ => w
    | none, none => m.off.signExtend 64
    | none, some _ => 0
  (base + index + off).toNat

def idxUses : Option IdxOp → List Use
  | none => []
  | some i => ⟨i.i, 1, i.fi⟩ :: (match i.pol with | none => [] | some p => [⟨p, 1, i.fi⟩])

/-- The registers a memory operand reads, in field order. -/
def memUses (m : MemOp) : List Use := ⟨m.base.o, if m.bs then 1 else 2, m.base.bang⟩ :: idxUses m.idx

/-- The policy operand (06 R125). -/
def polOf (g : Group) (m : MemOp) : Option (BitVec 32) :=
  (m.idx.bind (·.pol)).map fun p => BitVec.ofNat 32 (g.rdS p).toNat

/-- T1, T2 and the reader count of a policy operand. -/
def polCount (p : Option (BitVec 32)) : Nat := match p with | none => 0 | some p => bitsAt p.toNat 24 8

/-- PolicyClass (06 R125): 0 NORMAL, 1 STREAM, 2 KEEP. -/
def policyClass (va : Nat) : Option (BitVec 32) → Nat
  | none => 0
  | some p =>
    let h := bitsAt va 8 12 ^^^ bitsAt va 20 12 ^^^ bitsAt va 32 12 ^^^ bitsAt va 44 12
    let t1 := bitsAt p.toNat 0 12
    let t2 := max (bitsAt p.toNat 12 12) t1
    if h < t1 then 1 else if h < t2 then 0 else 2

/-! ## Checks -/

/-- Lanes with their effective addresses. -/
abbrev Lanes := List (Nat × Nat)

/-- A trap of the lanes that fail a test, if any. -/
def failing (cls cause : Nat) (bad : Lanes) (info : Nat := 0) : Except TrapInfo Unit :=
  if bad.isEmpty then .ok () else .error (trapAt cls cause bad info)

/-- Byte ranges [a, a + w) and [base, base + len) meet, addresses modulo 2^64. -/
def meets (base len a w : Nat) : Bool :=
  len != 0 && w != 0 &&
    ((a + 2 ^ 64 - base % 2 ^ 64) % 2 ^ 64 < len || (base + 2 ^ 64 - a % 2 ^ 64) % 2 ^ 64 < w)

/-- The range-lock entry that bytes meet, among destination entries and, where `src`, source entries
(06 R130). -/
def State.lockMet (s : State) (g : Group) (sp dst src : Bool) (a w : Nat) : Option Lock :=
  (s.core g.core).locks.find? fun k => k.sp == sp && (!sp || k.team == g.team)
    && (if k.src then src else dst) && meets k.base k.len a w

/-- The RANGE check: cause and INFO are those of the lowest lane's entry. -/
def State.rangeCheck (s : State) (g : Group) (sp dst src : Bool) (ls : Lanes) (w : Nat) :
    Except TrapInfo Unit :=
  let hits := ls.filter fun e => (s.lockMet g sp dst src e.2 w).isSome
  match hits.head?.bind fun e => s.lockMet g sp dst src e.2 w with
  | none => .ok ()
  | some k => .error (trapAt 4 (if k.src then 1 else 0) hits k.slot)

/-- A lane that translated: its leaf. -/
structure Acc where
  lane : Nat
  va : Nat
  leaf : Leaf
deriving DecidableEq, Repr

def Acc.key (a : Acc) : Nat := a.leaf.key a.va

/-- What lanes have translated to, by lane and address. -/
abbrev Transl := List ((Nat × Nat) × WalkRes)

/-- Translate the addresses of lanes (06 R114). Where a page is in neither TLB nor among the walks
just made for the group, the group parks until it has been walked. Each lane meets its own of sixteen
entries that do not agree (06 R113). -/
def State.translateAll (s : State) (gid : Nat) (g : Group) (ls : Lanes) : Except State (Transl × State) :=
  let t := s.tenantOf g
  let pages := ls.foldl (fun a v => NSet.add a (v.2 / 4096)) ([] : NSet)
  let fresh := pages.filter fun p => (AMap.at? g.mem.walked p).isNone
  let l1miss := fresh.filter fun p => (tlbFind (s.core g.core).tlb (p * 4096)).isNone
  let misses := l1miss.filter fun p => (s.tlbLookup g.core t (p * 4096)).isNone
  let s := s.modCore g.core fun c => (c.count 0x23 l1miss.length).count 0x24 misses.length
  if misses.isEmpty then
    let r := pages.foldl (fun (r : List (Nat × WalkRes) × State) p =>
      match AMap.at? g.mem.walked p with
      | some w => (r.1 ++ [(p, w)], r.2)
      | none =>
        let t := r.2.translate g.core t (p * 4096)
        (r.1 ++ [(p, t.1)], match t.1 with
          | .leaf l => t.2.tlbFill1 g.core (p * 4096) l
          | _ => t.2)) ([], s)
    let q := ls.foldl (fun (q : Transl × State) e =>
      let w := q.2.resolve ((AMap.at? r.1 (e.2 / 4096)).getD (.malformed ⟨0, 0⟩))
      (q.1 ++ [(e, w.1)], w.2)) ([], r.2)
    .ok (q.1, q.2.modGroup gid fun g => { g with mem := { g.mem with walked := [] } })
  else
    let n := s.fresh
    let s := n.2.addPend ⟨n.1, gid, .walk misses, [], {}, s.clk, g.ctl.pc, none, {}, (0, false)⟩
    .error (s.modGroup gid fun g => { g with park := some (.walk n.1) })

def resOf (ts : Transl) (e : Nat × Nat) : WalkRes :=
  ((List.find? (fun x : (Nat × Nat) × WalkRes => x.1 == e) ts).map (·.2)).getD (.malformed ⟨0, 0⟩)

/-- A leaf gives the permissions an access needs (06 R116 step 5). -/
def Leaf.permits (l : Leaf) (rd wr : Bool) : Bool := (!rd || entRd l.e.toNat) && (!wr || entW l.e.toNat)

/-- Step 5 over lanes: malformed entries (cause 3) and missing permissions (cause 2); the cause is the
lowest lane's. -/
def permCheck (ts : Transl) (rd wr : Bool) (ls : Lanes) : Except TrapInfo Unit :=
  let bad := ls.filter fun e => match resOf ts e with
    | .malformed _ => true
    | .leaf l | .ats l => !l.permits rd wr
    | _ => false
  match bad with
  | [] => .ok ()
  | e :: _ => .error (trapAt 2 (match resOf ts e with | .malformed _ => 3 | _ => 2) bad)

/-- The lanes that translated, in order; with `all`, those that only the host does not translate too. -/
def leavesOf (ts : Transl) (all : Bool) (ls : Lanes) : List Acc :=
  ls.filterMap fun e => match resOf ts e with
    | .leaf l => some ⟨e.1, e.2, l⟩
    | .ats l => if all then some ⟨e.1, e.2, l⟩ else none
    | _ => none

/-- The type of the line an access touches: its page's TOL, unless a cached copy still carries another;
then either (08 R198). -/
def State.lineTol (s : State) (a : Acc) : Bool × State :=
  let n := lineOf a.key
  let t := entTol a.leaf.e.toNat
  let ln := s.line n
  if ln.cached && ln.typed && ln.tol != t then
    let r := s.free 2
    if r.1 = 0 then (ln.tol, r.2) else (t, r.2.modLine n fun l => { l with tol := t })
  else (t, s)

/-- Step 6 (08 Table 8-5): `ok tol` says whether a line of a type may be touched. -/
def State.typeCheck (s : State) (ok : Bool → Bool) (accs : List Acc) : Except TrapInfo Unit × State :=
  let r := accs.foldl (fun (r : Lanes × State) a =>
    let t := r.2.lineTol a
    (if ok t.1 then r.1 else r.1 ++ [(a.lane, a.va)], t.2)) (([] : Lanes), s)
  (match failing 1 1 r.1 with
   | .ok u => .ok u
   | .error t => .error { t with alo := 0, ahi := 0 }, r.2)

/-- The fault pages of lanes whose walk met V=0 or whose ATS translation failed, ascending (06 R118). -/
def faultsOf (ts : Transl) (ls : Lanes) : List FaultAt :=
  let bad := ls.filter fun e => match resOf ts e with
    | .absent _ | .ats _ => true
    | _ => false
  let pages := bad.foldl (fun a e => NSet.add a (e.2 / 65536)) ([] : NSet)
  pages.filterMap fun p =>
    let mine := bad.filter fun e => e.2 / 65536 == p
    mine.head?.map fun e => ⟨p, e.2, maskOf ((ls.filter fun x => x.2 / 65536 == p).map (·.1)),
      match resOf ts e with | .absent n => n | _ => 0,
      match resOf ts e with | .ats _ => true | _ => false, mine⟩

/-- Data breakpoints act after the checks that trap and before anything parks (21 R459). -/
def State.brkCheck (s : State) (g : Group) (ld st : Bool) (w : Nat) (ls : Lanes) : Except TrapInfo Unit :=
  match s.dataBrk (s.tenantOf g) (bit ld + 2 * bit st) w ls with
  | none => .ok ()
  | some (i, hit) =>
    let kind := bitsAt (AMap.get 0 (s.stream (s.tenantOf g)).brk i).toNat 1 2
    .error (trapOf 9 (if ld && bitAt kind 0 then 2 else 3) (hit.map (·.1)) i)

/-- The first group that reads the destinations of an engine command whose operand was poisoned takes
MACHINE (18 R409). -/
def State.badCheck (s : State) (sp : Bool) (owner w : Nat) (ls : Lanes) : Except Eff Unit :=
  match s.badDst.find? (fun b => b.sp == sp && b.owner == owner && ls.any fun e => meets b.base b.len e.2 w) with
  | none => .ok ()
  | some b => .error (.trap (trapAt 15 2 (ls.filter fun e => meets b.base b.len e.2 w))
      { s with badDst := s.badDst.filter (· != b) })

/-- What a global access is. -/
structure GKind where
  rd : Bool
  wr : Bool
  /-- The types of lines it may touch. -/
  tol : Bool → Bool

def GKind.fault (k : GKind) : Nat := if k.rd && k.wr then fkAtomic else if k.wr then fkStore else fkLoad

/-- Lift a check into the answer of an instruction. -/
def orTrap {α : Type} (s : State) : Except TrapInfo α → Except Eff α
  | .ok a => .ok a
  | .error t => .error (.trap t s)

/-- AccessCheck of a global access of width w, aligned to `al` (06 R116). `own` are an instruction's own
checks, between steps 6 and 7. -/
def State.checkGlobal (s : State) (gid : Nat) (g : Group) (k : GKind) (al w : Nat) (ls : Lanes)
    (own : List Acc → State → Except Eff State := fun _ s => .ok s) : Except Eff (List Acc × State) := do
  orTrap s (failing 3 0 (ls.filter fun e => e.2 % al != 0))
  orTrap s (failing 2 0 (ls.filter fun e => canonical e.2 == false))
  orTrap s (s.rangeCheck g false true k.wr ls w)
  match s.translateAll gid g ls with
  | .error t => .error (.wait t)
  | .ok (ts, s) =>
    orTrap s (permCheck ts k.rd k.wr ls)
    let accs := leavesOf ts false ls
    let r := s.typeCheck k.tol (leavesOf ts true ls)
    orTrap r.2 r.1
    let s ← own (leavesOf ts true ls) r.2
    orTrap s (s.brkCheck g k.rd k.wr w ls)
    if k.rd then s.badCheck false (s.tenantOf g) w ls else .ok ()
    match faultsOf ts ls with
    | [] => .ok (accs, s)
    | fs => .error (.wait (s.faultPark gid k.fault g.ctl.pc k.wr fs))

/-! ## WALK_DONE -/

/-- A walk the group waits for is complete (06 R114): its leaves fill the TLBs, and the group's access
runs again with what the walks found. -/
def State.walkDone (s : State) (id : Nat) : State :=
  match s.pend? id with
  | some p =>
    match p.op, s.group? p.gid with
    | .walk pages, some g =>
      let t := s.tenantOf g
      let s := pages.foldl (fun s n =>
        let r := s.walkRaw t (n * 4096)
        let s := r.2.walkEvent g.core t r.1
        let s := match r.1 with
          | .leaf l => s.tlbFill g.core t (n * 4096) l
          | _ => s
        s.modGroup p.gid fun g => { g with mem := { g.mem with walked := g.mem.walked.set n r.1 } })
        (s.dropPend id)
      s.modGroup p.gid fun g => if g.park = some (.walk id) then { g with park := none } else g
    | .walk _, none => s.dropPend id
    | _, _ => s
  | none => s

end Sys2Proof.Machine
end

