-- ==== Sys2Proof/Machine/Race.lean ====
section
/-!
DEFINITION. The race detector (21 R453 to R456) and memory sampling (21 R447, R448, R464). The shadow
entries and the clocks of the sync table lie in the tenant's memory; a clock is 64 little-endian 32-bit
entries (log 13).
-/
namespace Sys2Proof.Machine

/-! ## Clocks -/

/-- The window of a stream's detector, when it is on: base and log2 of the size. -/
def Stream.window (r : Stream) : Option (Nat × Nat) :=
  let l := bitsAt r.race.toNat 1 5
  if bitAt r.race.toNat 0 && 16 ≤ l && l ≤ 36 then some (r.race.toNat / 2 ^ l * 2 ^ l, l) else none

def Stream.sbase (r : Stream) : Nat := bitsAt r.racew.toNat 12 52 * 4096

def joinVC (a b : AMap Nat) : AMap Nat := b.foldl (fun m e => AMap.put 0 m e.1 (max e.2 (AMap.get 0 m e.1))) a

/-- Where the clock of the sync entry of an address lies (21 R454). -/
def Stream.syncAt (r : Stream) (l a : Nat) : Nat :=
  r.sbase + 2 ^ l / 2 + 256 * (bitsAt a 6 12 ^^^ bitsAt a 18 12 ^^^ bitsAt a 30 12 ^^^ bitsAt a 42 12)

/-- The clock at an address of a tenant. -/
def State.readClock (s : State) (t a : Nat) : AMap Nat × State :=
  let r := s.readVirt t a 256
  let bs := r.1.getD []
  ((List.range 64).foldl (fun m i => AMap.put 0 m i (leNat ((bs.drop (4 * i)).take 4))) [], r.2)

def State.writeClock (s : State) (t a : Nat) (vc : AMap Nat) : State :=
  s.writeVirt t a ((List.range 64).flatMap fun i => leBytes 4 (AMap.get 0 vc i)) .l3

/-- The index of a tracked team while its tenant's detector is on. -/
def State.tracked (s : State) (team : Nat) : Option (Nat × Nat × Team) :=
  match s.team? team with
  | none => none
  | some tm =>
    let t := s.teamTenant tm
    match (s.stream t).window, tm.track with
    | some _, some k => if tm.lapsed then none else some (t, k, tm)
    | _, _ => none

/-- The team's own entry advances; past 0xFFFF_FFFF the team is no longer tracked (21 R453). -/
def State.bumpClock (s : State) (team : Nat) : State :=
  match s.tracked team with
  | none => s
  | some (t, k, tm) =>
    let n := AMap.get 0 tm.vc k + 1
    if 2 ^ 32 ≤ n then
      (s.setTeam team { tm with lapsed := true }).modStream t fun r => { r with raceov := true }
    else s.setTeam team { tm with vc := AMap.put 0 tm.vc k n }

/-- A release on the sync entries of some addresses: each clock rises to the team's, which then
advances (21 R454). -/
def State.release (s : State) (team : Nat) (addrs : List Nat) : State :=
  match s.tracked team with
  | none => s
  | some (t, _, tm) =>
    let l := ((s.stream t).window.map (·.2)).getD 0
    let cells := addrs.foldl (fun a v => NSet.add a ((s.stream t).syncAt l v)) ([] : NSet)
    let s := cells.foldl (fun s a =>
      let r := s.readClock t a
      r.2.writeClock t a (joinVC r.1 tm.vc)) s
    s.bumpClock team

/-- An acquire on the sync entries of some addresses. -/
def State.acquire (s : State) (team : Nat) (addrs : List Nat) : State :=
  match s.tracked team with
  | none => s
  | some (t, _, _) =>
    let l := ((s.stream t).window.map (·.2)).getD 0
    addrs.foldl (fun s v =>
      let r := s.readClock t ((s.stream t).syncAt l v)
      r.2.modTeam team fun tm => { tm with vc := joinVC tm.vc r.1 }) s

/-! ## Checks of accesses (21 R455) -/

/-- A race found by the detector of a core: counted, and written as a RACE packet, which is always lossy
(21 R444). -/
def State.reportRace (s : State) (core t a b kind pca pcb va : Nat) : State :=
  let s := s.modStream t fun r =>
    { r with races := if r.races.toNat = 65535 then r.races else r.races + 1 }
  if s.traces t ctlRACE then
    s.enqueue ⟨t, s.dieTime (s.dieOf core), s.dieOf core, 8 * core + 7, tyRACE,
      leBytes 1 a ++ leBytes 1 b ++ leBytes 1 kind ++ leBytes 8 pca ++ leBytes 8 pcb ++ leBytes 8 va⟩
  else s

/-- One access of a team, at a PC, to bytes of one sector. -/
def State.raceAccess (s : State) (team : Nat) (rd wr : Bool) (pc va : Nat) : State :=
  match s.tracked team with
  | none => s
  | some (t, k, tm) =>
    match (s.stream t).window with
    | none => s
    | some (base, l) =>
      if va < base || base + 2 ^ l ≤ va then s else
        let at_ := (s.stream t).sbase + (va - base) / 64 * 32
        let r := s.readVirt t at_ 32
        let bs := (r.1.getD []) ++ List.replicate 32 0
        let f (o n : Nat) : Nat := leNat ((bs.drop o).take n)
        let race (who ep : Nat) : Bool := who != 0 && who - 1 != k && AMap.get 0 tm.vc (who - 1) < ep
        let (wt, rt, we, re, wpc, rpc) := (f 0 1, f 1 1, f 8 4, f 12 4, f 16 8, f 24 8)
        let own := AMap.get 0 tm.vc k
        let rep (s : State) (c : Bool) (who kind p : Nat) : State :=
          if c then s.reportRace tm.core t (who - 1) k kind p pc va else s
        let s := if rd then rep r.2 (race wt we) wt 1 wpc else r.2
        let (rt, re, rpc) := if rd then (k + 1, own, pc) else (rt, re, rpc)
        let s := if wr then rep s (race wt we) wt 3 wpc else s
        let s := if wr then rep s (race rt re) rt 2 rpc else s
        let (wt, we, wpc) := if wr then (k + 1, own, pc) else (wt, we, wpc)
        s.writeVirt t at_ (leBytes 1 wt ++ leBytes 1 rt ++ List.replicate 6 0 ++ leBytes 4 we
          ++ leBytes 4 re ++ leBytes 8 wpc ++ leBytes 8 rpc) .l3

/-- The accesses of an instruction's lanes. -/
def State.raceLanes (s : State) (team : Nat) (rd wr : Bool) (pc : Nat) (vas : List Nat) : State :=
  if (s.tracked team).isNone then s else vas.foldl (fun s v => s.raceAccess team rd wr pc v) s

/-! ## Samples -/

/-- The memory pipe accepts an instruction of the kinds of 21 R447: it is counted, and sampled or not.
`va` is the address of its lowest lane. -/
def State.accept (s : State) (gid : Nat) (g : Group) (va : Nat) : Option Nat × State :=
  let t := s.tenantOf g
  let n := (s.core g.core).mcount + 1
  let m := (s.stream t).msmp.toNat
  let logn := bitsAt m 4 4
  let per := bitAt m 0 && 6 ≤ logn && n % 2 ^ logn == 0
  let s := s.modCore g.core fun c => { c with mcount := n }
  let s := s.modGroup gid fun g => { g with trc := { g.trc with msmp := false } }
  (if (per || g.trc.msmp) && s.traces t ctlMEM then some va else none, s)

/-- Where the data of a sector comes from for a core (21 R448 LVL), and whether on its way it crosses from one
base die to the other. -/
def State.levelOf (s : State) (sec core : Nat) : Nat × Bool :=
  let lvl := s.supplier sec core
  let base (die : Nat) : Nat := 4 + die / 2
  let mine := base (s.dieOf core)
  let owner := match (s.line (sec / 4)).l2d with | some d => base d | none => mine
  (lvl, s.boot.stage == 3 && 2 ≤ lvl &&
    ((lvl != 6 && baseOf (sec / 4) != mine) || (lvl == 2 && owner != mine)))

/-- Does a request pass the station of a Q field on its way to a level (21 R448)? Where port 0 joins the base
dies is not stated, so a host request may cross or not (log 69). -/
def passes (lvl : Nat × Bool) (i : Nat) : Bool :=
  match lvl.1 with
  | 0 => i == 0
  | 1 => i ≤ 2
  | 2 => i ≤ 3 || (i == 4 && lvl.2)
  | 4 => i != 4 || lvl.2
  | 6 => i ≤ 4
  | _ => i ≤ 3 || i == 5 || (i == 4 && lvl.2)

/-- The MSAMP of a sampled request whose data arrived now from a level; how long it waited in each
queue is free, within the total. -/
def State.sample (s : State) (p : Pend) (lvl : Nat × Bool) : State :=
  match p.sampled with
  | none => s
  | some va =>
    let tot := s.clk - p.clk
    let r := (List.range 8).foldl (fun (r : List Byte × Nat × State) i =>
      if passes lvl i = false then (r.1 ++ leBytes 2 0, r.2.1, r.2.2) else
        let q := r.2.2.freeIn 0 r.2.1
        (r.1 ++ leBytes 2 (min q.1 65535), r.2.1 - q.1, q.2)) ([], tot, s)
    r.2.2.emitPC p.gid ctlMEM tyMSAMP p.pc (leBytes 8 va ++ leBytes 1 lvl.1 ++
      leBytes 4 (min tot (2 ^ 32 - 1)) ++ r.1) none

end Sys2Proof.Machine
end

