-- ==== Sys2Proof/Machine/Loads.lean ====
section
/-!
DEFINITION. Global loads (06 R144; 11 R229, R241 to R246, R260): what they take at issue, and their
performance, when the remaining bytes are read at view positions and the destination is written.
-/
namespace Sys2Proof.Machine

/-! ## Which operations are accesses (11 R492) -/

def PendOp.isAccess : PendOp → Bool
  | .load .. | .atom .. | .xadd .. => true
  | _ => false
def PendOp.isCommit : PendOp → Bool
  | .commit .. => true
  | _ => false

/-- The pending operations of a group that a test selects. -/
def State.pendOf (s : State) (gid : Nat) (f : PendOp → Bool) : List Nat :=
  (s.pending.filter fun p => p.gid == gid && f p.op).map (·.id)

/-- An access or commit of a group is performed at a view position: later operations that follow it are
bound by it and wait for it no longer (11 R233, R242, R259). -/
def State.performed (s : State) (p : Pend) (pos : VPos) : State :=
  let s := s.modGroup p.gid fun g =>
    let scs := g.mem.fenIds.filter fun e => e.1 == p.id
    { g with mem := { g.mem with
      allp := g.mem.allp.join pos
      fen := scs.foldl (fun f e => f.join (pos.within e.2)) g.mem.fen
      fenIds := g.mem.fenIds.filter fun e => e.1 != p.id
      hold := g.mem.hold.del p.id } }
  { s with pending := s.pending.map fun q =>
      if q.gid != p.gid then q else
        { q with
          lo := (q.after.filter fun e => e.1 == p.id).foldl (fun f e => f.join (pos.within e.2)) q.lo
          after := q.after.filter fun e => e.1 != p.id } }

/-! ## Bounds -/

/-- What binds every access a group issues now (11 R241, R242 for `lda` and fences, R243). -/
def State.viewLo (s : State) (g : Group) : VPos :=
  let c := match s.clusterOf g with | none => 0 | some c => boundAt c.ord.evs s.clk
  (g.mem.seen.join g.mem.fen).join ⟨c, boundAt s.dev.evs s.clk⟩

/-- The positions of earlier accesses that share a byte. -/
def Group.byteLo (g : Group) (keys : List Nat) : VPos :=
  keys.foldl (fun p k => p.join (AMap.get {} g.mem.byteSeen k)) {}

/-- The keys of the bytes of an access. -/
def Acc.keys (a : Acc) (w : Nat) : List Nat := (List.range w).map (a.key + ·)

/-- The earlier accesses of a group, not yet performed, that a later one of these bytes follows. -/
def State.sharing (s : State) (gid : Nat) (keys : List Nat) : List (Nat × Scope) :=
  (s.pending.filter fun p => p.gid == gid && (match p.op with
    | .load _ _ _ _ acc _ _ _ _ => acc.any fun a => a.keys.any fun k => keys.any (· == k)
    | .atom _ _ _ ty _ words _ => words.any fun w => keys.any fun k => w.key ≤ k && k < w.key + ty.width / 8
    | .xadd _ _ words _ => words.any fun w => keys.any fun k => w.key ≤ k && k < w.key + 40
    | _ => false)).map fun p => (p.id, Scope.team)

/-- The end of the cluster order of a group. -/
def State.clusterEnd (s : State) (g : Group) : Nat :=
  match s.clusterOf g with | none => 0 | some c => c.ord.pos

/-- The positions of an order, from a bound on, at which what it holds of some bytes changes: the bound
itself, and every later event that wrote one of them. Between two of these a read is the same, and the
earlier position binds later accesses least. -/
def changesAt {α : Type} (evs : List (Nat × Nat × AMap α)) (lo : Nat) (keys : List Nat) : List Nat :=
  lo :: evs.filterMap fun e => if lo < e.1 && keys.any (fun k => (AMap.at? e.2.2 k).isSome) then some e.1 else none

/-- One of some positions, freely; nothing is drawn when there is only one. -/
def State.drawFrom (s : State) (lo : Nat) (ps : List Nat) : Nat × State :=
  let r := s.freeIn 0 (ps.length - 1)
  (ps.getD r.1 lo, r.2)

/-- View positions of one lane access of some bytes: at the end within the scope of an `lda`, else chosen
freely between the bound and the end. -/
def State.drawPos (s : State) (g : Group) (lo : VPos) (keys : List Nat) (lda : Option Scope) : VPos × State :=
  let ce := s.clusterEnd g
  let de := s.dev.pos
  let atC := match lda with | some .clu | some .dev | some .sys => true | _ => false
  let atD := match lda with | some .dev | some .sys => true | _ => false
  let evs := ((s.clusterOf g).map fun c => c.ord.evs).getD []
  let c := if atC then (ce, s) else s.drawFrom lo.c (changesAt evs lo.c keys)
  let d := if atD then (de, c.2) else c.2.drawFrom lo.d (changesAt s.dev.evs lo.d keys)
  (⟨max lo.c c.1, max lo.d d.1⟩, d.2)

/-! ## Reading -/

/-- A held byte as a read returns it: an approximate one drifts. -/
def State.heldByte (s : State) (k : Nat) (h : Held) : Byte × State :=
  if h.ax then s.driftByte h.tew h.code k h.b else (h.b, s)

/-- One byte at the cluster level and above at view positions (11 R229), and whether it is poisoned. -/
def State.upperByte (s : State) (clu : Option Cluster) (pos : VPos) (tol : Bool) (k : Nat) :
    Byte × Bool × State :=
  match clu.bind fun c => heldAt c.lvl c.ord pos.c k with
  | some h => let b := s.heldByte k h; (b.1, h.pois, b.2)
  | none =>
    let b := s.devByteAt pos.d k
    let r := if tol then s.lineByte k b else (b, s)
    (r.1, s.pois.has k, r.2)

/-! ## Issue -/

/-- The values a lane access takes at once: the group's own bytes, and the team's at the position
current now (11 R228, R241). An `lda` takes the team's when it is performed (R244). -/
def takeNow (g : Group) (t : Option Team) (lda : Option Scope) (k : Nat) : Option Held :=
  (AMap.at? g.mem.buf k).orElse fun _ => match lda, t with
    | none, some t => AMap.at? t.lvl k
    | _, _ => none

/-- Exactly one aligned half-line by all lanes (11 R246). -/
def halfLine (ls : Lanes) (w : Nat) : Bool :=
  w == 4 && ls.length == 32 && (ls.all fun e => e.2 / 128 == ((ls.head?.map (·.2)).getD 0) / 128) &&
    (ls.foldl (fun a e => NSet.add a e.2) ([] : NSet)).length == 32

/-- Granules that hit in L1, and sectors fetched into it (21 Table 21-9). -/
def State.countL1 (s : State) (g : Group) (acc : List LaneAcc) : State :=
  let ks := acc.flatMap fun a => (a.keys.zip a.got).filterMap fun e => if e.2.isSome then none else some e.1
  let all := acc.flatMap (·.keys)
  let gran (ks : List Nat) : NSet := ks.foldl (fun a k => NSet.add a (k / 32)) []
  let miss := (gran ks).filter fun r => s.supplier (r / 2) g.core != 0
  let secs := miss.foldl (fun a r => NSet.add a (r / 2)) ([] : NSet)
  let cc := (acc.head?.map fun a => entCc a.e.toNat).getD 0
  s.modCore g.core fun c =>
    (c.count 0x21 ((gran all).length - miss.length)).count 0x22 (if cc = 0 then secs.length else 0)

/-- A load issues: its destination is empty until every lane's bytes have arrived. -/
def State.startLoad (s : State) (gid : Nat) (g : Group) (c : Ctl) (srcs : List Use) (d : Opd) (w : Wd)
    (sx ax : Bool) (lda : Option Scope) (pol : Option (BitVec 32)) (accs : List Acc) : State :=
  let t := s.teamOf g
  let lo := s.viewLo g
  let acc := accs.map fun a =>
    let ks := a.keys w.bytes
    ({ lane := a.lane, va := a.va, e := a.leaf.e
       lo := (lo.join (g.byteLo ks)).join (g.depIn c srcs [a.lane])
       keys := ks, got := ks.map (takeNow g t lda) } : LaneAcc)
  let keys := acc.flatMap (·.keys)
  let need := acc.flatMap fun a => (a.keys.zip a.got).filterMap fun e => if e.2.isSome then none else some e.1
  let miss := need.any fun k => 2 ≤ s.supplier (k / 64) g.core
  let vas := accs.map (·.va)
  let smp := s.accept gid g (vas.headD 0)
  let s := smp.2.countL1 g acc
  let s := s.logApxLoad gid s.nextId
    (if ax then (accs.filter fun a => entTol a.leaf.e.toNat).map (·.lane) else [])
  let after := g.mem.fenIds ++ s.sharing gid keys
  let id := s.nextId
  let s := s.await gid g ((⟨d, w.regs, false⟩ : Use).cells (accs.map (·.lane)))
    (.load d w sx ax acc lda (halfLine (accs.map fun a => (a.lane, a.va)) w.bytes) pol miss)
    after {} smp.1
  match lda with
  | none => s
  | some sc => s.modGroup gid fun g => { g with mem := { g.mem with fenIds := g.mem.fenIds ++ [(id, sc)] } }

/-! ## LOAD_DATA_ARRIVAL -/

/-- The bytes of one lane access at its positions, lowest first, with the poison of any. -/
def State.laneBytes (s : State) (g : Group) (lda : Option Scope) (pos : VPos) (a : LaneAcc) :
    List Byte × Bool × State :=
  let clu := s.clusterOf g
  let team := s.teamOf g
  (a.keys.zip a.got).foldl (fun (r : List Byte × Bool × State) e =>
    let held := e.2.orElse fun _ => if lda.isSome then team.bind fun t => AMap.at? t.lvl e.1 else none
    match held with
    | some h =>
      let b := r.2.2.heldByte e.1 h
      (r.1 ++ [b.1], r.2.1 || h.pois, b.2)
    | none =>
      let b := r.2.2.upperByte clu pos (entTol a.e.toNat) e.1
      (r.1 ++ [b.1], r.2.1 || b.2.1, b.2.2)) ([], false, s)

/-- Write what arrived: values, poison marks and dependences (02 R27; 18 R409; 04 R67). -/
def Group.receive (g : Group) (d : Opd) (n : Nat) (rs : List Got) : Group :=
  let g := g.putList d n (rs.map fun r => (r.lane, r.val))
  let cells (r : Got) : List Nat := (⟨d, n, false⟩ : Use).cells [r.lane]
  let g := { g with regs := { g.regs with
    pois := g.regs.pois.addAll ((rs.filter (·.pois)).flatMap cells) } }
  rs.foldl (fun g r => g.setDep (cells r) r.pos) g

/-- Every lane's bytes have arrived. -/
def State.loadArrive (s : State) (p : Pend) (d : Opd) (w : Wd) (sx : Bool) (acc : List LaneAcc)
    (lda : Option Scope) (half : Bool) (pol : Option (BitVec 32)) : State :=
  match s.group? p.gid with
  | none => s.dropPend p.id
  | some g =>
    let t := s.tenantOf g
    let need : List (Nat × LaneAcc) := acc.flatMap fun a => (a.keys.zip a.got).filterMap fun e =>
      if e.2.isSome then none else some (e.1 / 64, a)
    -- by line: the first lane access of it, and the sectors needed
    let lines := need.foldl (fun (a : AMap (LaneAcc × NSet)) (e : Nat × LaneAcc) =>
      let n := e.1 / 4
      match AMap.at? a n with
      | some x => AMap.set a n (x.1, NSet.add x.2 (e.1 % 4))
      | none => AMap.set a n (e.2, [e.1 % 4])) ([] : AMap (LaneAcc × NSet))
    let far := (List.filter (fun e : Nat × (LaneAcc × NSet) =>
      e.2.2.any fun q => 2 ≤ s.supplier (4 * e.1 + q) g.core) lines).map (·.1)
    let lvl : Nat × Bool := match acc.head? with
      | none => (0, false)
      | some a => if a.got.all (·.isSome) then (0, false) else s.levelOf ((a.keys.headD 0) / 64) g.core
    -- an `lda` takes the value from the point of coherence of its scope (11 R244; 12 R266)
    let s := match lda with
      | some .dev | some .sys => List.foldl (fun (s : State) (e : Nat × (LaneAcc × NSet)) =>
          if (s.line e.1).own.isSome then (s.toHome e.1).fit3 e.1 else s) s lines
      | _ => s
    let s := List.foldl (fun (s : State) (e : Nat × (LaneAcc × NSet)) =>
      s.fetchLine e.1 e.2.2 g.core (entCc e.2.1.e.toNat) (policyClass e.2.1.va pol) e.2.1.e t) s lines
    let bound := acc.foldl (fun b a => b.join a.lo) p.lo
    let whole : Option VPos × State :=
      if half then
        let ks := acc.flatMap (·.keys)
        let r := s.drawPos g (bound.join (g.byteLo ks)) ks lda
        (some r.1, r.2)
      else (none, s)
    let r := acc.foldl (fun (r : List Got × State) a =>
      let lo := ((p.lo.join a.lo).join (g.byteLo a.keys))
      let ps := match whole.1 with | some q => (q, r.2) | none => r.2.drawPos g lo a.keys lda
      let b := ps.2.laneBytes g lda ps.1 a
      (r.1 ++ [⟨a.lane, loadValue w sx b.1, b.2.1, ps.1⟩], b.2.2)) (([] : List Got), whole.2)
    let s := (r.2.countRead far t).dropPend p.id
    let s := s.modGroup p.gid fun g =>
      let g := g.receive d w.regs r.1
      { g with mem := { g.mem with byteSeen := (acc.zip r.1).foldl (fun m e =>
          e.1.keys.foldl (fun m k => AMap.put {} m k (e.2.pos.join (AMap.get {} m k))) m) g.mem.byteSeen } }
    let s := s.performed p (r.1.foldl (fun q e => q.join e.pos) {})
    let s := match lda with
      | some .clu | some .dev | some .sys => s.acquire g.team (acc.map fun (a : LaneAcc) => a.va)
      | _ => s
    let s := s.raceLanes g.team true false p.pc.toNat (acc.map fun (a : LaneAcc) => a.va)
    ((s.sample p lvl).logFill p.gid p.id (r.1.map fun (e : Got) => e.val)).settle p.gid

/-- A value computed at issue is written. -/
def State.longArrive (s : State) (p : Pend) (d : Opd) (n : Nat) (vals : List (Nat × Nat))
    (pois : List Nat) : State :=
  let s := (s.dropPend p.id).modGroup p.gid fun g =>
    let g := g.putList d n vals
    { g with regs := { g.regs with
      pois := g.regs.pois.addAll ((⟨d, n, false⟩ : Use).cells pois) } }
  (s.logFill p.gid p.id (vals.map (·.2))).settle p.gid

end Sys2Proof.Machine
end

