-- ==== Sys2Proof/Machine/Scratch.lean ====
section
/-!
DEFINITION. The scratchpad (06 R128 to R133), shed rings (06 R134 to R137) and stash windows
(06 R138 to R141): checks, fills, and reads and writes of bytes.
-/
namespace Sys2Proof.Machine

/-! ## Stash windows -/

/-- The window a scratchpad address lies in: its number, the window, the entry's index. -/
def Team.windowAt (t : Team) (a : Nat) : Option (Nat × Window × Nat) :=
  (List.find? (fun e : Nat × Window => e.2.sp ≤ a && a < e.2.sp + e.2.len) t.windows).map
    fun e => (e.1, e.2, (a - e.2.sp) / 256)

def Window.entry (w : Window) (i : Nat) : StashEntry := AMap.get {} w.entries i

def Team.setEntry (t : Team) (n i : Nat) (f : StashEntry → StashEntry) : Team :=
  match AMap.at? t.windows n with
  | none => t
  | some w => { t with windows := t.windows.set n { w with entries := AMap.put {} w.entries i (f (w.entry i)) } }

/-- An entry may be used as it stands: valid, and no outside commit older than 4 µs waits to invalidate
it (06 R141). -/
def State.usable (s : State) (e : StashEntry) : Bool :=
  e.valid && (match e.inv with | none => true | some c => s.clk ≤ c + nsClocks 4000)

/-- STASH_INVALIDATE: the clean bytes go, dirty ones stay. -/
def State.stashInvalidate (s : State) (team n i : Nat) : State :=
  s.modTeam team fun t => match AMap.at? t.windows n with
    | none => t
    | some w => if (w.entry i).inv.isSome then
        t.setEntry n i fun e => { e with valid := false, inv := none } else t

/-- Keys leave the team level: entries that held them dirty become clean there; where the bytes were
discarded, the entry is refilled at its next touch (06 R140). -/
def Team.cleanStash (t : Team) (ks : NSet) (discarded : Bool) : Team :=
  { t with windows := t.windows.mapVals fun _ w => { w with entries := w.entries.mapVals fun _ e =>
      (if e.dirty.any fun x => ks.has x.2 then
        { e with dirty := e.dirty.filter fun x => !ks.has x.2, valid := e.valid && !discarded }
      else e) } }

/-- Bytes that `cmt.grp` moved and that lie in a bound window are written into the entry (06 R140). -/
def Team.intoStash (t : Team) (bs : AMap Held) : Team :=
  t.windows.foldl (fun t w =>
    bs.foldl (fun t b =>
      let off := (b.2.va + 2 ^ 64 - w.2.va) % 2 ^ 64
      if off < w.2.len then
        t.setEntry w.1 (off / 256) fun e => { e with
          bytes := if e.valid then e.bytes.set (off % 256) b.2.b else e.bytes
          dirty := e.dirty.set (off % 256) b.1
          codes := AMap.put 0 e.codes (off % 256) b.2.code
          pois := if b.2.pois then e.pois.add (off % 256) else e.pois.del (off % 256) }
      else t) t) t

/-- The bits a byte was stored with, at view positions, the least accurate code that has held it since, and
whether it is poisoned (08 R199; 11 R229). -/
def State.rawByte (s : State) (t : Team) (e : StashEntry) (clu : Option Cluster) (pos : VPos) (key off : Nat) :
    Byte × Nat × Bool :=
  let k := key + off
  match (t.dirtyAt e off).orElse fun _ => clu.bind fun c => heldAt c.lvl c.ord pos.c k with
  | some h => (h.b, h.code, h.pois)
  | none => (s.devByteAt pos.d k, AMap.get 0 (s.line (lineOf k)).codes (k % 256), s.pois.has k)

/-- The clock from which the 4 µs of 06 R141 run for bytes read at a device position: the first completion of
an event placed after it, or now where none is complete. -/
def State.staleSince (s : State) (pos : Nat) (keys : List Nat) : Option Nat :=
  s.dev.evs.foldl (fun (m : Option Nat) e =>
    if pos < e.1 && keys.any (fun k => (AMap.at? e.2.2 k).isSome) then
      let c := if noBound < e.2.1 then s.clk else e.2.1
      some (min c (m.getD c))
    else m) none

/-- An invalid entry is filled (06 R139): one read of its 256 bytes at the cluster-level view, at one
position of each level; its dirty bytes stand. Its elements keep the codes they have been held at, and are now
held at the core's (08 R199). -/
def State.stashFill (s : State) (gid : Nat) (g : Group) (n i : Nat) (l : Leaf) : State :=
  match s.team? g.team with
  | none => s
  | some t =>
    match AMap.at? t.windows n with
    | none => s
    | some w =>
      let va := (w.va + 256 * i) % 2 ^ 64
      let key := l.key va
      let far := allSecs.any fun q => 2 ≤ s.supplier (4 * lineOf key + q) g.core
      let s := s.fetchLine (lineOf key) allSecs g.core (max 1 (entCc l.e.toNat)) 0 l.e (s.tenantOf g)
      let keys := (List.range 256).map (key + ·)
      let ps := s.drawPos g ((s.viewLo g).join (g.byteLo keys)) keys none
      let s := ps.2
      let e := w.entry i
      let bs := (List.range 256).map fun off => (off, s.rawByte t e (s.clusterOf g) ps.1 key off)
      let code := s.codeInForce g.core
      let new : StashEntry := { e with
        valid := true, key := key, e := l.e, bytes := bs.map (·.2.1), inv := s.staleSince ps.1.d keys
        pois := (bs.filter (·.2.2.2)).map (·.1)
        codes := if entTol l.e.toNat then bs.foldl (fun (m : AMap Nat) b =>
          if b.1 % 2 = 0 then AMap.put 0 m b.1 (max code b.2.2.1) else m) [] else [] }
      let s := s.countRead (if far then [lineOf key] else []) (s.tenantOf g)
      let s := s.modTeam g.team fun t => t.setEntry n i fun _ => new
      s.modGroup gid fun g => { g with mem := { g.mem with allp := g.mem.allp.join ps.1 } }

/-! ## Types and bytes of the scratchpad -/

def Team.blockAx (t : Team) (a : Nat) : Bool := (AMap.at? t.sp.ax (a / 256)).isSome

/-- The type at an address: of its block, or of the page of the stash entry there. -/
def Team.axAt (t : Team) (a : Nat) : Bool :=
  match t.windowAt a with
  | some (_, w, i) => entTol (w.entry i).e.toNat
  | none => t.blockAx a

/-- One byte at a scratchpad address, and whether it is poisoned; a stash entry there is valid. -/
def State.spByte (s : State) (team a : Nat) : Byte × Bool × State :=
  match s.team? team with
  | none => (0, false, s)
  | some t =>
    match t.windowAt a with
    | some (_, w, i) =>
      let e := w.entry i
      let off := (a - w.sp) % 256
      let b := e.bytes.getD off 0
      let r := if entTol e.e.toNat then
          s.driftByte (entTew e.e.toNat) (AMap.get 0 e.codes off) off b else (b, s)
      (r.1, e.pois.has off, r.2)
    | none =>
      let b := AMap.get 0 t.sp.bytes a
      let r := match AMap.at? t.sp.ax (a / 256) with
        | none => (b, s)
        | some cs => s.driftByte false (AMap.get 0 cs (a % 256 / 4)) a b
      (r.1, t.sp.pois.has a, r.2)

def State.spBytes (s : State) (team a : Nat) : Nat → List Byte × Bool × State
  | 0 => ([], false, s)
  | n + 1 =>
    let r := s.spByte team a
    let q := r.2.2.spBytes team (a + 1) n
    (r.1 :: q.1, r.2.1 || q.2.1, q.2.2)

/-- Write a byte at an ordinary scratchpad address. -/
def Team.spPut (t : Team) (code a : Nat) (b : Byte) : Team :=
  { t with sp := { t.sp with
      bytes := AMap.put 0 t.sp.bytes a b
      pois := t.sp.pois.del a
      ax := match AMap.at? t.sp.ax (a / 256) with
        | none => t.sp.ax
        | some cs => if a % 4 = 0 then t.sp.ax.set (a / 256) (AMap.put 0 cs (a % 256 / 4) code) else t.sp.ax } }

/-- Write bytes at a scratchpad address: into the stash entry there, as team-level data (06 R140), or into
the scratchpad. -/
def State.spWrite (s : State) (team a : Nat) (bs : List Byte) : State :=
  match s.team? team with
  | none => s
  | some t =>
    let code := s.codeInForce t.core
    match t.windowAt a with
    | some (n, w, i) =>
      let e := w.entry i
      let tol := entTol e.e.toNat
      let new := (List.range bs.length).map fun j =>
        let off := (a - w.sp) % 256 + j
        (off, (⟨bs.getD j 0, (w.va + 256 * i + off) % 2 ^ 64, tol, 0, false, if tol then code else 0,
          entTew e.e.toNat, 0, 0⟩ : Held))
      let lv := levelEvent t.lvl t.ord s.clk 0 (new.map fun x => (e.key + x.1, some x.2)) false false
      s.setTeam team (({ t with lvl := lv.1, ord := lv.2 } : Team).setEntry n i fun e =>
        new.foldl (fun (e : StashEntry) x => { e with
          bytes := e.bytes.set x.1 x.2.b
          dirty := AMap.set e.dirty x.1 (e.key + x.1)
          codes := AMap.put 0 e.codes x.1 x.2.code
          pois := e.pois.del x.1 }) e)
    | none =>
      s.setTeam team ((List.range bs.length).foldl (fun t j => t.spPut code (a + j) (bs.getD j 0)) t)

/-- Set or clear full bits of granules (06 R131). -/
def Team.mark (t : Team) (full : Bool) (grans : List Nat) : Team :=
  { t with sp := { t.sp with full := if full then t.sp.full.addAll grans else t.sp.full.delAll grans } }

/-! ## Shed rings -/

/-- A ring of a team: its descriptor and counters. -/
def Team.ring? (t : Team) (n : Nat) : Option (RingDesc × Ring) :=
  match t.hdr.rings[n]?, t.rings[n]? with
  | some d, some r => some (d, r)
  | _, _ => none

/-- P - C = D (06 R136, R137). -/
def ringFull (d : RingDesc) (r : Ring) : Bool := (r.p - r.c).toNat == d.depth

/-- RingAddr (06 R135), with the offset modulo 2^64. -/
def ringAddr (d : RingDesc) (r : Ring) (cons : Bool) (off : Word64) : Nat :=
  let stage := if cons then r.c.toNat % d.depth else r.p.toNat % d.depth
  (BitVec.ofNat 64 (d.base + stage * d.stage) + off).toNat

/-! ## Checks (06 R116) -/

/-- 08 Table 8-5: may an access with this A bit touch a line or block of a type? -/
def tolOk (ax wr tol : Bool) : Bool := if ax then !wr || tol else !tol

/-- What a scratchpad access is. -/
structure SKind where
  wr : Bool
  ax : Bool
  fw : Bool
  /-- Producer view of this ring. -/
  prod : Option Nat := none

/-- Lanes in stash windows: lane, scratchpad address, window, entry, global address. -/
structure SLane where
  lane : Nat
  a : Nat
  n : Nat
  i : Nat
  va : Nat
  usable : Bool
  e : Word64
deriving DecidableEq, Repr

def State.stashLanes (s : State) (t : Team) (ls : Lanes) : List SLane :=
  ls.filterMap fun x => (t.windowAt x.2).map fun w =>
    let e := w.2.1.entry w.2.2
    ⟨x.1, x.2, w.1, w.2.2, (w.2.1.va + (x.2 - w.2.1.sp)) % 2 ^ 64, s.usable e, e.e⟩

/-- What the page of a stash lane answers. -/
def SLane.res (x : SLane) (ts : Transl) : WalkRes :=
  if x.usable then .leaf ⟨x.e, 0⟩ else resOf ts (x.lane, x.va)

/-- Steps 2 to 8 for scratchpad addresses, and the fills of stash entries the access touches. -/
def State.checkScratch (s : State) (gid : Nat) (g : Group) (t : Team) (k : SKind) (w : Nat) (ls : Lanes) :
    Except Eff State := do
  orTrap s (failing 3 0 (ls.filter fun e => e.2 % w != 0))
  orTrap s (failing 2 0 (ls.filter fun e => 2 ^ 32 ≤ e.2 || t.hdr.scratch < e.2 + w))
  orTrap s (s.rangeCheck g true (!(k.fw && !k.wr)) k.wr ls w)
  let sl := s.stashLanes t ls
  let need := sl.filter fun x => !x.usable
  match s.translateAll gid g (need.map fun x => (x.lane, x.va)) with
  | .error t => .error (.wait t)
  | .ok (ts, s) =>
    let bad := sl.filter fun x => match x.res ts with
      | .malformed _ => true
      | .leaf l | .ats l => !l.permits true k.wr
      | _ => false
    match bad with
    | x :: _ => .error (.trap (trapAt 2 (match x.res ts with | .malformed _ => 3 | _ => 2)
        (bad.map fun x => (x.lane, x.a))) s)
    | [] =>
      let wrong := ls.filter fun e => match List.find? (fun x : SLane => x.lane == e.1) sl with
        | some x => (match x.res ts with | .leaf l => !tolOk k.ax k.wr (entTol l.e.toNat) | _ => false)
        | none => !tolOk k.ax k.wr (t.blockAx e.2)
      if !wrong.isEmpty then .error (.trap (trapOf 1 1 (wrong.map (·.1))) s)
      else do
        if k.wr then .ok () else s.badCheck true g.team w ls
        match faultsOf ts (need.map fun x => (x.lane, x.va)) with
        | f :: fs => .error (.wait (s.faultPark gid fkStash g.ctl.pc k.wr (f :: fs)))
        | [] =>
          let empt := if k.fw then (ls.map fun e => e.2 / 16).filter fun q => !t.sp.full.has q else []
          let full := match k.prod with
            | none => false
            | some n => match t.ring? n with | some (d, r) => ringFull d r | none => false
          if full then
            .error (.wait (s.modGroup gid fun g => { g with park := some (.ring (k.prod.getD 0)) }))
          else if !empt.isEmpty then
            .error (.wait (s.modGroup gid fun g => { g with park := some (.fw (NSet.addAll [] empt)) }))
          else
            .ok (need.foldl (fun s x => match x.res ts with
              | .leaf l =>
                match (s.team? g.team).bind fun t => AMap.at? t.windows x.n with
                | some w => if s.usable (w.entry x.i) then s else s.stashFill gid g x.n x.i l
                | none => s
              | _ => s) s)

/-! ## Accesses -/

/-- A scratchpad load, checked: its values are read now, in memory-pipe order (06 R128), and its
destination is written on arrival. -/
def State.spLoad (s : State) (gid : Nat) (g : Group) (d : Opd) (w : Wd) (sx ax clr : Bool) (ls : Lanes) :
    State :=
  let s := s.logApxLoad gid s.nextId
    (if ax then (ls.filter fun e => ((s.teamOf g).map (·.axAt e.2)).getD false).map (·.1) else [])
  let r := ls.foldl (fun (r : List (Nat × Nat) × List Nat × State) e =>
    let b := r.2.2.spBytes g.team e.2 w.bytes
    (r.1 ++ [(e.1, loadValue w sx b.1)], if b.2.1 then r.2.1 ++ [e.1] else r.2.1, b.2.2)) ([], [], s)
  let s := if clr then r.2.2.modTeam g.team fun t => t.mark false (ls.map fun e => e.2 / 16) else r.2.2
  s.await gid g ((⟨d, w.regs, false⟩ : Use).cells (ls.map (·.1))) (.long 0 d w.regs r.1 r.2.1)

/-- A scratchpad store, checked: the highest lane's byte stands. -/
def State.spStore (s : State) (g : Group) (a : Opd) (w : Wd) (set : Bool) (ls : Lanes) : State :=
  let s := ls.foldl (fun s e => s.spWrite g.team e.2 (leBytes w.bytes (g.rdN a w.regs e.1))) s
  if set then s.modTeam g.team fun t => t.mark true (ls.map fun e => e.2 / 16) else s

/-- Lane addresses of a ring operand, with its checks (06 R116 step 3, R146). -/
def ringLanes (g : Group) (t : Team) (r : RingOp) (w : Nat) (lanes : List Nat) : Except TrapInfo Lanes :=
  match t.ring? r.ring with
  | none => .error (trapOf 13 0 lanes)
  | some (d, q) =>
    let off (l : Nat) : Word64 := match r.idx with | none => r.off.signExtend 64 | some i => idxPart g i l
    let ls := lanes.map fun l => (l, ringAddr d q r.cons (off l))
    match failing 3 0 (ls.filter fun e => e.2 % w != 0) with
    | .error t => .error t
    | .ok _ =>
      let bad := lanes.filter fun l => (off l).msb || d.stage < (off l).toNat + w
      if bad.isEmpty then .ok ls else .error (trapOf 13 1 bad)

end Sys2Proof.Machine
end

