-- ==== Sys2Proof/Machine/Wake.lean ====
section
/-!
DEFINITION. GROUP_WAKE: a parked group becomes ready once what it waits for has come about (06 R118,
R120, R132, R137; 12 R280, R281; 14 R316; 18 R415).
-/
namespace Sys2Proof.Machine

/-- (a - b) mod 2^32 lies in [1, 2^31] (12 R280). -/
def phasePast (a b : BitVec 32) : Bool := 1 ≤ (a - b).toNat && (a - b).toNat ≤ 2 ^ 31

/-- (SERV - t) mod 2^32 < 2^31 (12 R281). -/
def served (serv t : BitVec 32) : Bool := (serv - t).toNat < 2 ^ 31

def State.phaseOf (s : State) (g : Group) (bar : Nat) : BitVec 32 :=
  ((s.teamOf g).map fun t => (AMap.get ⟨0, 0, 0, false, 0⟩ t.bars bar).phase).getD 0

def State.servOf (s : State) (g : Group) (n : Nat) : BitVec 32 :=
  ((s.clusterOf g).map fun c => (AMap.get ⟨0, 0, []⟩ c.tickets n).serv).getD 0

/-- Has a group's fault page been answered, or is it gone? -/
def State.answered (s : State) (id : Nat) : Bool := !s.faults.any fun p => p.id == id && p.ans.isNone

/-- The page of a group's fault whose answer came last; it is released in its place there (06 R120). -/
def State.lastAnswer (s : State) (ids : List Nat) : Option FaultPage :=
  (s.faults.filter fun p => ids.any (· == p.id)).foldl (fun (m : Option FaultPage) p =>
    match m, p.ans with
    | some q, some (_, c) => if ((q.ans.map (·.2)).getD 0) ≤ c then some p else m
    | none, _ => some p
    | _, none => m) none

/-- The waiter `a` goes before `b`: earlier first fault, then core, then slot. -/
def State.waitsBefore (s : State) (a b : Nat × Nat) : Bool :=
  let at_ (e : Nat × Nat) : Nat × Nat := ((s.group? e.1).map fun g => (g.core, g.slot)).getD (0, 0)
  a.2 < b.2 || (a.2 == b.2 && ((at_ a).1 < (at_ b).1 || ((at_ a).1 == (at_ b).1 && (at_ a).2 < (at_ b).2)))

/-- A waiter may be released: all its pages are answered and this is the last answered. -/
def State.releasable (s : State) (gid pageId : Nat) : Bool :=
  match (s.group? gid).bind (·.park) with
  | some (.fault ps) => (((s.group? gid).map fun g => !g.frozen && !g.sys.stopped).getD false) &&
      (ps.all fun e => s.answered e.1) &&
      ((s.lastAnswer (ps.map (·.1))).map (·.id)) == some pageId
  | _ => false

/-- A group's turn on its answered page: one waiter per clock, in order (06 R120). -/
def State.faultTurn (s : State) (gid : Nat) (ids : List Nat) : Bool :=
  match s.lastAnswer ids with
  | none => true
  | some p =>
    match p.waiters.find? (fun e => e.1 == gid) with
    | none => true
    | some me => p.last != s.clk + 1 &&
        p.waiters.all fun e => e.1 == gid || !s.waitsBefore e me || !s.releasable e.1 p.id

/-- Has what a group waits for come about? -/
def State.mayWake (s : State) (gid : Nat) (g : Group) : Bool :=
  match g.park with
  | none => false
  | some (.empty cells) => !cells.any fun c => g.regs.empt.has c
  | some (.walk id) => (s.pend? id).isNone
  | some (.fault ps) => (ps.all fun e => s.answered e.1) && s.faultTurn gid (ps.map (·.1))
  | some (.noQueue t) => !(s.tenant t).fqFull && (s.faults.filter (·.ans.isNone)).length < 4096
  | some (.fw grans) => ((s.teamOf g).map fun t => grans.all t.sp.full.has).getD true
  | some (.ring n) => ((s.teamOf g).map fun t => match t.ring? n with
      | some (d, r) => !ringFull d r
      | none => true).getD true
  | some (.barw bar ph) => phasePast (s.phaseOf g bar) (BitVec.ofNat 32 ph)
  | some (.tktw n t) => served (s.servOf g n) (BitVec.ofNat 32 t)
  | some .park => false
  | some (.sleep n) => n == 0
  | some (.commit id) => (s.pend? id).isNone
  | some .woken => true

/-- The group leaves its fault pages; a page that has released its last waiter is closed. -/
def State.leaveFaults (s : State) (gid : Nat) : State :=
  { s with faults := (s.faults.map fun p =>
      if p.waiters.any (fun e => e.1 == gid) && p.ans.isSome then
        { p with waiters := p.waiters.filter (fun e => e.1 != gid), last := s.clk + 1 } else p).filter fun p =>
      p.ans.isNone || !p.waiters.isEmpty }

/-- The lanes whose fault page was answered `fail`. -/
def State.failsOf (s : State) (ps : AMap (List (Nat × Nat))) : List (Nat × Nat) :=
  let bad := List.filter (fun e : Nat × List (Nat × Nat) =>
    s.faults.any fun p => p.id == e.1 && ((p.ans.map (·.1)).getD false)) ps
  (List.range 32).filterMap fun l =>
    ((bad.flatMap (·.2)).find? fun x => x.1 == l)

def State.wakeGroup (s : State) (gid : Nat) : State :=
  match s.group? gid with
  | none => s
  | some g =>
    let runs := ((s.teamOf g).map (·.resident)).getD false && !g.frozen && !g.sys.stopped
    if g.ended || !runs || !s.mayWake gid g then s else
      let fails := match g.park with | some (.fault ps) => s.failsOf ps | _ => []
      let s := (s.leaveShadow gid).leaveFaults gid
      s.modGroup gid fun g => { g with
        park := none, readySince := s.clk, mem := { g.mem with failed := fails } }

end Sys2Proof.Machine
end

