-- ==== Sys2Proof/Machine/Memory.lean ====
section
/-!
DEFINITION. The memory access instructions (06 R144 to R152) and the steps that finish them.
-/
namespace Sys2Proof.Machine

/-- The answer of an instruction whose checks passed, or what stopped it. -/
def onOk {α : Type} (r : Except Eff α) (k : α → Eff) : Eff :=
  match r with
  | .ok a => k a
  | .error e => e

/-- Addresses of lanes. -/
def lanesEA (g : Group) (m : MemOp) (long : Option Word64) (ls : List Nat) : Lanes :=
  ls.map fun l => (l, effAddr g m long l)

/-! ## Prefetch (06 R147; 04 R68) -/

/-- Request the lines of some addresses, one request a line (06 R127), into a level and those below it, or,
where none is named, as the page's cache class gives; addresses without a readable translation are
dropped. -/
def State.prefetch (s : State) (g : Group) (lvl : Option Nat) (pol : Option (BitVec 32)) (vas : List Nat) : State :=
  let t := s.tenantOf g
  let r := vas.foldl (fun (r : AMap (Nat × Leaf × NSet) × State) va =>
    if canonical va = false then r else
      let w := r.2.translate g.core t va
      match w.1 with
      | .leaf l =>
        if entRd l.e.toNat then
          let k := l.key va
          let q := k / 64 % 4
          (match AMap.at? r.1 (lineOf k) with
           | some (v, e, qs) => AMap.set r.1 (lineOf k) (v, e, NSet.add qs q)
           | none => AMap.set r.1 (lineOf k) (va, l, [q]), w.2)
        else (r.1, w.2)
      | _ => (r.1, w.2)) (([] : AMap (Nat × Leaf × NSet)), s)
  List.foldl (fun (s : State) (e : Nat × (Nat × Leaf × NSet)) =>
    let (n, va, l, qs) := e
    let far := if qs.any fun q => 2 ≤ s.supplier (4 * n + q) g.core then [n] else []
    (s.fetchLine n qs g.core (lvl.getD (entCc l.e.toNat)) (policyClass va pol) l.e t).countRead far t) r.2 r.1

/-- A load in shadow mode: a prefetch, when every address is in a TLB (04 R68). -/
def shadowLoad (m : MemOp) (long : Option Word64) (g : Group) (ls : List Nat) (s : State) : State :=
  let vas := ls.map (effAddr g m long)
  let hit := vas.all fun va => (s.tlbLookup g.core (s.tenantOf g) va).isSome
  if hit && !vas.isEmpty then
    (s.modCore g.core fun c => c.count 0x20 1).prefetch g none (polOf g m) vas
  else s

/-- The registers an address is made of (04 R68). -/
def addrUses (m : MemOp) : List Use :=
  ⟨m.base.o, if m.bs then 1 else 2, m.base.bang⟩ :: (match m.idx with | none => [] | some i => [⟨i.i, 1, i.fi⟩])

/-- `pf` has the first checks of every access (06 R116): ALIGN to 32 bytes, and MEMORY where an address is not
canonical (06 R147 drops a lane only for its translation). -/
def prefetchRow (i : Instr) (c : Ctl) (lvl : Nat) (m : MemOp) (long : Option Word64) (s : State) :
    Host.Outcome State Fault Refusal :=
  run { i := i, c := c, srcs := memUses m, ext := true, ea := some fun g l => effAddr g m long l
        sh := .fetch (addrUses m) fun g ls s =>
          s.prefetch g (some lvl) (polOf g m) (ls.map (effAddr g m long)) } (fun g ls s =>
    let eas := lanesEA g m long ls
    match failing 3 0 (eas.filter fun e => e.2 % 32 != 0) with
    | .error t => .trap t s
    | .ok _ => match failing 2 0 (eas.filter fun e => canonical e.2 == false) with
      | .error t => .trap t s
      | .ok _ => .next (s.prefetch g (some lvl) (polOf g m) (eas.map (·.2)))) s

def execPf (c : Ctl) (lvl : Nat) (m : MemOp) (s : State) : Host.Outcome State Fault Refusal :=
  prefetchRow (.pf c lvl m) c lvl m none s
def execPfLong (c : Ctl) (lvl : Nat) (m : MemOp) (off : Word64) (s : State) :
    Host.Outcome State Fault Refusal :=
  prefetchRow (.pfLong c lvl m off) c lvl m (some off) s

/-! ## Global loads and stores (06 R144) -/

def globalLoad (i : Instr) (c : Ctl) (ax : Bool) (w : Wd) (sx : Bool) (d : Opd) (m : MemOp)
    (long : Option Word64) (lda : Option Scope) (s : State) : Host.Outcome State Fault Refusal :=
  let srcs := memUses m
  run { i := i, c := c, srcs := srcs, dsts := [⟨d, w.regs, false⟩], ext := true
        addrs := fun g ls => ls.map (effAddr g m long), load := some (w, sx, ax)
        sh := .fetch (addrUses m) (shadowLoad m long) } (fun g ls s =>
    if ls.isEmpty then .next s else
      onOk (s.checkGlobal s.cur g ⟨true, false, tolOk ax false⟩ w.bytes w.bytes (lanesEA g m long ls))
        fun r => .next (r.2.startLoad s.cur g c srcs d w sx ax lda (polOf g m) r.1)) s

def execLd (c : Ctl) (ax : Bool) (w : Wd) (sx : Bool) (d : Opd) (m : MemOp) (s : State) :
    Host.Outcome State Fault Refusal :=
  globalLoad (.ld c ax w sx d m) c ax w sx d m none none s
def execLdLong (c : Ctl) (ax : Bool) (w : Wd) (sx : Bool) (d : Opd) (m : MemOp) (off : Word64)
    (s : State) : Host.Outcome State Fault Refusal :=
  globalLoad (.ldLong c ax w sx d m off) c ax w sx d m (some off) none s

/-- A fill of some lines displaces a line of a core's L1, its die's L2 or L3 where it shares their set and is the
one that 06 R125 chooses there; whether it does is free, since what a set holds is not stated (log 72). -/
def State.displaceFor (s : State) (core : Nat) (ns : List Nat) (n : Nat) : State :=
  let die := s.dieOf core
  let one (s : State) (id lvl : Nat) (same : Nat → Bool) (drop : State → State) : State :=
    let inSet (m : Nat) : Bool := same m && Config.setOf lvl m == Config.setOf lvl n
    let held := (List.filter (fun e : Nat × Line => e.2.inCache id && inSet e.1 && !ns.contains e.1) s.lines).map (·.1)
    if (s.line n).inCache id && ns.any (fun x => x != n && inSet x) && s.leastOf id held == some n then
      let f := s.free 2
      if f.1 = 1 then drop f.2 else f.2
    else s
  let s := one s (l1Id core) 1 (fun _ => true) fun s => s.dropL1 core n
  let s := if s.pinnedIn die n then s else
    one s (l2Id die) 2 (fun m => sliceOf m == sliceOf n) fun s => s.dropL2 die n
  one s (l3Id (baseOf n)) 3 (fun m => baseOf m == baseOf n) fun s => s.dropL3 n

/-- LOAD_DATA_ARRIVAL: nothing that the load must follow is outstanding. A line that the fills displace
may be named; a displaced dirty line is written back (06 R122, R125). -/
def execLoadDataArrival (id : Nat) (evict : Option Nat) (s : State) : Host.Outcome State Fault Refusal :=
  event (match s.pend? id with
    | some p =>
      if !p.after.isEmpty then s else
        match p.op with
        | .load d w sx _ acc lda half pol _ =>
          let core := ((s.group? p.gid).map (·.core)).getD 0
          let s := s.loadArrive p d w sx acc lda half pol
          match evict with
          | some n => s.displaceFor core (linesOf (acc.flatMap fun (a : LaneAcc) => a.keys)) n
          | none => s
        | .long 0 d n vals pois => s.longArrive p d n vals pois
        | _ => s
    | none => s) s

/-- The bytes of a store, in lane order: the highest lane wins a shared byte (06 R122). -/
def storeBytes (s : State) (g : Group) (a : Opd) (w : Wd) (pol : Option (BitVec 32)) (accs : List Acc)
    (buf : AMap Held) : AMap Held :=
  accs.foldl (fun b x =>
    let tol := entTol x.leaf.e.toNat
    let bs := leBytes w.bytes (g.rdN a w.regs x.lane)
    (List.range w.bytes).foldl (fun b j => AMap.set b (x.key + j)
      ⟨bs.getD j 0, (x.va + j) % 2 ^ 64, tol, polCount pol, false, if tol then s.codeInForce g.core else 0,
        entTew x.leaf.e.toNat, g.mem.cmts, s.uses⟩) b) buf

/-- The bytes a lane stores, by address, for a replay. -/
def laneStores (at_ : Group → Nat → Nat) (w : Wd) (a : Opd) (g : Group) (l : Nat) : List (Nat × Byte) :=
  ((List.range w.bytes).zip (leBytes w.bytes (g.rdN a w.regs l))).map fun b => (at_ g l + b.1, b.2)

/-- The log's names of scratchpad and ring addresses. -/
def spLog (a : Nat) : Nat := 2 ^ 64 + a
def ringLog (r : RingOp) (off : Word64) : Nat := 2 ^ 65 + 2 ^ 42 * r.ring + 2 ^ 41 * bit r.cons + off.toNat % 2 ^ 41

def globalStore (i : Instr) (c : Ctl) (ax : Bool) (w : Wd) (a : Src) (m : MemOp) (long : Option Word64)
    (s : State) : Host.Outcome State Fault Refusal :=
  run { i := i, c := c, srcs := ⟨a.o, w.regs, a.bang⟩ :: memUses m, machine := 1, ext := true
        ea := some fun g l => effAddr g m long l
        puts := laneStores (fun g l => effAddr g m long l) w a.o } (fun g ls s =>
    if ls.isEmpty then .next s else
      let eas := lanesEA g m long ls
      onOk (s.checkGlobal s.cur g ⟨false, true, tolOk ax true⟩ w.bytes w.bytes eas) fun r =>
        let s := r.2
        let buf := storeBytes s g a.o w (polOf g m) r.1 g.mem.buf
        let more := heldLines buf - heldLines g.mem.buf
        if 64 < heldLines buf then .trap (trapAt 6 0 eas) s
        else if more != 0 && (s.core g.core).levelCap < s.coreLines g.core + more then
          .trap (trapAt 6 3 eas) s
        else
          let s := s.raceLanes g.team false true g.ctl.pc.toNat (eas.map (·.2))
          let s := { (s.modGroup s.cur fun g => { g with mem := { g.mem with buf := buf } }) with uses := s.uses + 1 }
          .next ((linesOf (r.1.map Acc.key)).foldl (fun s n => s.fit1 g.core n) s)) s

def execSt (c : Ctl) (ax : Bool) (w : Wd) (a : Src) (m : MemOp) (s : State) :
    Host.Outcome State Fault Refusal :=
  globalStore (.st c ax w a m) c ax w a m none s
def execStLong (c : Ctl) (ax : Bool) (w : Wd) (a : Src) (m : MemOp) (off : Word64) (s : State) :
    Host.Outcome State Fault Refusal :=
  globalStore (.stLong c ax w a m off) c ax w a m (some off) s

/-! ## Scratchpad and rings (06 R145, R146) -/

def execLds (c : Ctl) (ax : Bool) (w : Wd) (sx fw clr : Bool) (d : Opd) (m : MemOp) (s : State) :
    Host.Outcome State Fault Refusal :=
  run { i := .lds c ax w sx fw clr d m, c := c, srcs := memUses m, dsts := [⟨d, w.regs, false⟩], ext := true
        ea := some fun g l => effAddr g m none l
        addrs := fun g ls => ls.map fun l => spLog (effAddr g m none l), load := some (w, sx, ax) } (fun g ls s =>
    match s.teamOf g with
    | none => .next s
    | some t =>
      if ls.isEmpty then .next s else
        let eas := lanesEA g m none ls
        onOk (s.checkScratch s.cur g t ⟨false, ax, fw, none⟩ w.bytes eas) fun s =>
          .next (s.spLoad s.cur g d w sx ax clr eas)) s

def execSts (c : Ctl) (ax : Bool) (w : Wd) (set : Bool) (a : Src) (m : MemOp) (s : State) :
    Host.Outcome State Fault Refusal :=
  run { i := .sts c ax w set a m, c := c, srcs := ⟨a.o, w.regs, a.bang⟩ :: memUses m, ext := true
        ea := some fun g l => effAddr g m none l
        puts := laneStores (fun g l => spLog (effAddr g m none l)) w a.o }
    (fun g ls s =>
      match s.teamOf g with
      | none => .next s
      | some t =>
        let eas := lanesEA g m none ls
        onOk (s.checkScratch s.cur g t ⟨true, ax, false, none⟩ w.bytes eas) fun s =>
          .next (s.spStore g a.o w set eas)) s

/-- What a ring operand reads. -/
def ringUses (r : RingOp) : List Use := idxUses r.idx

/-- The offset of a lane of a ring operand; and its address, as its team's ring stands. -/
def ringOff (r : RingOp) (g : Group) (l : Nat) : Word64 :=
  match r.idx with | none => r.off.signExtend 64 | some i => idxPart g i l
def State.ringEA (s : State) (r : RingOp) (g : Group) (l : Nat) : Nat :=
  match (s.teamOf g).bind fun t => t.ring? r.ring with
  | some (d, q) => ringAddr d q r.cons (ringOff r g l)
  | none => 0

def execLdr (c : Ctl) (ax : Bool) (w : Wd) (sx fw clr : Bool) (d : Opd) (r : RingOp) (s : State) :
    Host.Outcome State Fault Refusal :=
  run { i := .ldr c ax w sx fw clr d r, c := c, srcs := ringUses r, dsts := [⟨d, w.regs, false⟩], ext := true
        ea := some (s.ringEA r)
        addrs := fun g ls => ls.map fun l => ringLog r (ringOff r g l), load := some (w, sx, ax) } (fun g ls s =>
    match s.teamOf g with
    | none => .next s
    | some t =>
      if ls.isEmpty then .next s else
        match ringLanes g t r w.bytes ls with
        | .error ti => .trap ti s
        | .ok eas =>
          onOk (s.checkScratch s.cur g t ⟨false, ax, fw, if r.cons then none else some r.ring⟩ w.bytes eas)
            fun s => .next (s.spLoad s.cur g d w sx ax clr eas)) s

def execStr (c : Ctl) (ax : Bool) (w : Wd) (set : Bool) (a : Src) (r : RingOp) (s : State) :
    Host.Outcome State Fault Refusal :=
  run { i := .str c ax w set a r, c := c, srcs := ⟨a.o, w.regs, a.bang⟩ :: ringUses r, ext := true
        ea := some (s.ringEA r), puts := laneStores (fun g l => ringLog r (ringOff r g l)) w a.o }
    (fun g ls s =>
      match s.teamOf g with
      | none => .next s
      | some t =>
        if ls.isEmpty then .next s else
          match ringLanes g t r w.bytes ls with
          | .error ti => .trap ti s
          | .ok eas =>
            onOk (s.checkScratch s.cur g t ⟨true, ax, false, if r.cons then none else some r.ring⟩ w.bytes eas)
              fun s => .next (s.spStore g a.o w set eas)) s

/-! ## Windows, marks (06 R148, R149) -/

/-- A trap of a group operation about an address. -/
def trapOn (cls cause : Nat) (ls : List Nat) (a : Nat) (info : Nat := 0) : TrapInfo :=
  { trapOf cls cause ls info with alo := a, ahi := a }

/-- The window is unbound: its dirty bytes stand in team-level lines; the range reads zero and precise. -/
def Team.unbind (t : Team) (n : Nat) : Team :=
  match AMap.at? t.windows n with
  | none => t
  | some w =>
    { t with
      windows := AMap.del t.windows n
      sp := { t.sp with
        bytes := t.sp.bytes.filter fun e => !(w.sp ≤ e.1 && e.1 < w.sp + w.len)
        pois := t.sp.pois.filter fun a => !(w.sp ≤ a && a < w.sp + w.len)
        ax := t.sp.ax.filter fun e => !(w.sp ≤ e.1 * 256 && e.1 * 256 < w.sp + w.len) } }

/-- Half-open ranges of numbers overlap. -/
def overlap (a n b m : Nat) : Bool := a < b + m && b < a + n

/-- Does a scratchpad range overlap a ring, or a window other than `n`? -/
def Team.windowClash (t : Team) (n sp len : Nat) : Bool :=
  (t.hdr.rings.any fun d => overlap sp len d.base (d.stage * d.depth))
    || t.windows.any fun w => w.1 != n && overlap sp len w.2.sp w.2.len

def execStmap (c : Ctl) (w : Nat) (a b e : Src) (s : State) : Host.Outcome State Fault Refusal :=
  run { i := .stmap c w a b e, c := c, srcs := [scalUse a, scalUse b, scalUse e], ext := true } (fun g ls s =>
    match s.teamOf g with
    | none => .next s
    | some t =>
      if ls.isEmpty then .next s else
        let sp := (g.rdS a.o).toNat
        let va := (g.rdS b.o).toNat
        let len := (g.rdS e.o).toNat
        if sp % 256 != 0 || va % 256 != 0 || len % 256 != 0 then .trap (trapOn 3 0 ls sp) s
        else if len < 256 || 2 ^ 22 < len then .trap (trapOn 2 6 ls sp) s
        else if t.hdr.scratch < sp + len || t.windowClash w sp len then .trap (trapOn 2 0 ls sp) s
        else if canonical va == false || canonical ((va + len - 1) % 2 ^ 64) == false
            || 2 ^ 64 < va + len then .trap (trapOn 2 0 ls va) s
        else match s.lockMet g true true true sp len with
          | some k => .trap (trapOn 4 (if k.src then 1 else 0) ls sp k.slot) s
          | none => .next (s.modTeam g.team fun t =>
              let t := t.unbind w
              { t with windows := AMap.set t.windows w ⟨sp, va, len, []⟩ })) s

def execStunmap (c : Ctl) (w : Nat) (s : State) : Host.Outcome State Fault Refusal :=
  run { i := .stunmap c w, c := c, ext := true } (fun g ls s =>
    ifAny ls s (.next (s.modTeam g.team fun t => t.unbind w))) s

/-- A marking of a scratchpad range (06 R149). The rule gives a length of 0 no effect, and ALIGN for a misaligned
address, and says not which stands first: with a length of 0 nothing is checked (log 26). -/
def femRow (i : Instr) (c : Ctl) (al : Nat) (a b : Src) (mark : Nat → Nat → State → Nat → State)
    (s : State) : Host.Outcome State Fault Refusal :=
  run { i := i, c := c, srcs := [scalUse a, scalUse b], ext := true } (fun g ls s =>
    match s.teamOf g with
    | none => .next s
    | some t =>
      let sp := (g.rdS a.o).toNat
      let len := (g.rdS b.o).toNat
      if ls.isEmpty || len == 0 then .next s
      else if sp % al != 0 || len % al != 0 then .trap (trapOn 3 0 ls sp) s
      else if t.hdr.scratch < sp + len then .trap (trapOn 2 0 ls sp) s
      else match s.lockMet g true true true sp len with
        | some k => .trap (trapOn 4 (if k.src then 1 else 0) ls sp k.slot) s
        | none => .next (mark sp len s g.team)) s

/-- The units of a range. -/
def unitsOf (al sp len : Nat) : List Nat := (List.range (len / al)).map fun i => sp / al + i

def femMark (full : Bool) (sp len : Nat) (s : State) (team : Nat) : State :=
  s.modTeam team fun t => t.mark full (unitsOf 16 sp len)

/-- `fem.ax` keeps the bits a block holds; they are its elements' from now on (06 R133). -/
def femToAx (sp len : Nat) (s : State) (team : Nat) : State :=
  let core := ((s.team? team).map (·.core)).getD 0
  let code := s.codeInForce core
  (unitsOf 256 sp len).foldl (fun s b =>
    let s := match (s.team? team).bind fun t => AMap.at? t.sp.ax b with
      | none => s
      | some cs => List.foldl (fun (s : State) (e : Nat × Nat) =>
          let a := b * 256 + 4 * e.1
          let x := s.driftByte false e.2 a (((s.team? team).map fun (t : Team) => AMap.get 0 t.sp.bytes a).getD 0)
          x.2.modTeam team fun t => { t with sp := { t.sp with bytes := AMap.put 0 t.sp.bytes a x.1 } }) s cs
    let cs : AMap Nat := (List.range 64).foldl (fun m i => AMap.put 0 m i code) []
    s.modTeam team fun t => { t with sp := { t.sp with ax := AMap.set t.sp.ax b cs } }) s

/-- `fem.pr` makes blocks precise and zero. -/
def femToPr (sp len : Nat) (s : State) (team : Nat) : State :=
  s.modTeam team fun t => { t with sp := { t.sp with
    bytes := t.sp.bytes.filter fun e => !(sp ≤ e.1 && e.1 < sp + len)
    pois := t.sp.pois.filter fun a => !(sp ≤ a && a < sp + len)
    ax := t.sp.ax.filter fun e => !(sp ≤ e.1 * 256 && e.1 * 256 < sp + len) } }

def execFemEmpty (c : Ctl) (a b : Src) (s : State) : Host.Outcome State Fault Refusal :=
  femRow (.femEmpty c a b) c 16 a b (femMark false) s
def execFemFull (c : Ctl) (a b : Src) (s : State) : Host.Outcome State Fault Refusal :=
  femRow (.femFull c a b) c 16 a b (femMark true) s
def execFemAx (c : Ctl) (a b : Src) (s : State) : Host.Outcome State Fault Refusal :=
  femRow (.femAx c a b) c 256 a b femToAx s
def execFemPr (c : Ctl) (a b : Src) (s : State) : Host.Outcome State Fault Refusal :=
  femRow (.femPr c a b) c 256 a b femToPr s

/-- `ringq` (06 R150). -/
def ringWord (d : RingDesc) (r : Ring) : Nat :=
  r.lap % 2 ^ d.depth % 65536 * 2 ^ 48 + r.c.toNat % 2 ^ 24 * 2 ^ 24 + r.p.toNat % 2 ^ 24

def execRingq (c : Ctl) (ring : Nat) (d : Opd) (s : State) : Host.Outcome State Fault Refusal :=
  run { i := .ringq c ring d, c := c, dsts := [⟨d, 1, false⟩], ext := true } (fun g ls s =>
    ifAny ls s (match (s.teamOf g).bind fun t => t.ring? ring with
      | none => .trap (trapOf 13 0 ls) s
      | some (x, r) => .next (s.putS s.cur d (ringWord x r)))) s

/-! ## Cache operations (06 R151) -/

/-- One line under an operation: 0 `cwb.l3`, 1 `cwb.mem`, 2 `cinv.core`, 3 `cinv.die`, 4 `cinv.dev`; and
whether the status counts it. A counted line that `cwb` covers is written back (06 R127). What a near unit owns
counts as dirty in an L2, and a dirty line of tier 3, which has no home L3, goes to host memory: the rule names
neither (log 26). -/
def State.cacheLine (s : State) (kind core n : Nat) : Bool × State :=
  let l := s.line n
  let die := s.dieOf core
  let inL2 := l.l2d.isSome || l.own.isSome
  let keep (copies : Line → Line) : Bool × State :=
    let l' := copies l
    (l'.l1 != l.l1 || l'.l2 != l.l2 || l'.l3 != l.l3, (s.modLine n copies).tidyLine n)
  let owned (e : Nat) : Bool := l.own == some (e / 4)
  match kind with
  | 0 =>
    if l.cnt != 0 || (lineTier n == 3 && inL2) then (inL2, s.writeBack n)
    else if inL2 then (true, (s.toHome n).fit3 n)
    else (false, s)
  | 1 => if inL2 || l.l3d then (true, (s.writeBack n).persist n) else (false, s.persist n)
  | 2 => keep fun l => { l with l1 := l.l1.filter fun e => e / 4 != core || owned e }
  | 3 => keep fun l => { l with
      l1 := l.l1.filter fun e => s.dieOf (e / 4) != die || owned e
      l2 := l.l2.filter fun e => e / 4 != die || l.l2d == some die }
  | _ => keep fun l => { l with
      l1 := l.l1.filter owned, l2 := l.l2.filter fun e => l.l2d == some (e / 4), l3 := if l.l3d then l.l3 else [] }

/-- The 4 KiB pages of [base, base + len), modulo 2^64. -/
def pagesIn (base len : Nat) : List Nat :=
  if len = 0 then [] else
    (List.range ((base % 4096 + len - 1) / 4096 + 1)).map fun i => (base / 4096 + i) % 2 ^ 52

/-- A cache operation over a range: the lines it counts, whether a page was passed over, and whether a
write-back is held because memory is out of reach (18 R410). -/
def State.cacheRange (s : State) (kind core tenant base len : Nat) : Nat × Bool × Bool × State :=
  (pagesIn base len).foldl (fun (r : Nat × Bool × Bool × State) pg =>
    let s := r.2.2.2
    let t := if canonical (pg * 4096) then s.translate core tenant (pg * 4096) else (.absent 3, s)
    match t.1 with
    | .leaf l =>
      (List.range 16).foldl (fun (r : Nat × Bool × Bool × State) j =>
        let va := pg * 4096 + 256 * j
        if meets base len va 256 then
          let n := lineOf (l.key va)
          let x := r.2.2.2.cacheLine kind core n
          (r.1 + bit x.1, r.2.1, r.2.2.1 || (kind == 1 && (x.2.line n).l3d), x.2)
        else r) (r.1, r.2.1, r.2.2.1, t.2)
    | _ => (r.1, true, r.2.2.1, t.2)) (0, false, false, s)

def cacheRow (i : Instr) (c : Ctl) (kind : Nat) (d : Opd) (a b : Src) (s : State) :
    Host.Outcome State Fault Refusal :=
  run { i := i, c := c, srcs := [scalUse a, scalUse b], dsts := [⟨d, 1, false⟩], ext := true } (fun g ls s =>
    ifAny ls s (.next (s.await s.cur g ((⟨d, 1, false⟩ : Use).cells ls)
      (.cache d kind (g.rdS a.o).toNat (g.rdS b.o).toNat)))) s

def execCwbL3 (c : Ctl) (d : Opd) (a b : Src) (s : State) : Host.Outcome State Fault Refusal :=
  cacheRow (.cwbL3 c d a b) c 0 d a b s
def execCwbMem (c : Ctl) (d : Opd) (a b : Src) (s : State) : Host.Outcome State Fault Refusal :=
  cacheRow (.cwbMem c d a b) c 1 d a b s
def execCinvCore (c : Ctl) (d : Opd) (a b : Src) (s : State) : Host.Outcome State Fault Refusal :=
  cacheRow (.cinvCore c d a b) c 2 d a b s
def execCinvDie (c : Ctl) (d : Opd) (a b : Src) (s : State) : Host.Outcome State Fault Refusal :=
  cacheRow (.cinvDie c d a b) c 3 d a b s
def execCinvDev (c : Ctl) (d : Opd) (a b : Src) (s : State) : Host.Outcome State Fault Refusal :=
  cacheRow (.cinvDev c d a b) c 4 d a b s

/-- CACHE_OP_DONE: `cwb.mem` is not done while a write-back of its range is held (18 R410). -/
def execCacheOpDone (id : Nat) (s : State) : Host.Outcome State Fault Refusal :=
  event (match s.pend? id with
    | some p =>
      match p.op, s.group? p.gid with
      | .cache d kind base len, some g =>
        let r := s.cacheRange kind g.core (s.tenantOf g) base len
        if r.2.2.1 then s else r.2.2.2.deliverS p d (bit r.2.1 * 2 ^ 63 + r.1 % 2 ^ 40)
      | .cache .., none => s.dropPend id
      | _, _ => s
    | none => s) s

/-! ## Translation queries (06 R152; 08 R211) -/

/-- SIZE of a leaf. -/
def leafSize (l : Leaf) : Nat := if l.lvl = 0 then bit (entG64 l.e.toNat) else l.lvl + 1

/-- Bits [54:0] of a query's result, from a leaf. -/
def leafFields (l : Leaf) : Nat :=
  bitsAt l.e.toNat 12 43 * 4096 + bitsAt l.e.toNat 2 9 * 4 + leafSize l

/-- The result of `tlbq`; the fields of a malformed entry that is no leaf, or is marked one at level 3, where SIZE
has no value, are free (log 14). -/
def tlbqWord (kind va : Nat) (r : WalkRes) (s : State) : Nat × State :=
  let no (why fields : Nat) : Nat := why * 2 ^ 60 + fields
  if canonical va = false then (no 3 0, s) else
    match r with
    | .absent _ | .mixed .. => (no 0 0, s)
    | .malformed l =>
      if l.lvl = 0 || (entLeaf l.e.toNat && l.lvl != 3) then (no 2 (leafFields l), s) else
        let f := s.free (2 ^ 55)
        (no 2 f.1, f.2)
    | .ats l => (no 4 (leafFields l), s)
    | .leaf l =>
      let e := l.e.toNat
      let ok := match kind with | 0 => entRd e | 1 => entW e | _ => entX e
      (if ok then 2 ^ 63 + leafFields l else no 1 (leafFields l), s)

/-- The result of `tolq` (08 Table 8-9). -/
def tolqWord (core va : Nat) (r : WalkRes) (s : State) : Nat :=
  let leaf := match r with | .leaf l | .ats l => some l | _ => none
  match (if canonical va then leaf else none) with
  | none => 0
  | some l =>
    let e := l.e.toNat
    let eff := if s.railOff then 0 else (s.core core).reg.eff
    let kmax := if entTol e then kStore (entTew e) (max eff (max s.l2c s.l3c)) else 0
    2 ^ 63 + s.l3c * 2 ^ 20 + s.l2c * 2 ^ 16 + eff * 2 ^ 12 + kmax * 2 ^ 8 + entCmp e * 8
      + bit (entTew e) * 4 + bit (entTol e) * 2

/-- A translation query; kind 3 is `tolq`. -/
def queryRow (i : Instr) (c : Ctl) (kind : Nat) (d : Opd) (a : Src) (s : State) :
    Host.Outcome State Fault Refusal :=
  run { i := i, c := c, srcs := [scalUse a], dsts := [⟨d, 1, false⟩], ext := true } (fun g ls s =>
    ifAny ls s (.next (s.await s.cur g ((⟨d, 1, false⟩ : Use).cells ls) (.tlbq d kind (g.rdS a.o))))) s

def execTlbq (c : Ctl) (kind : Nat) (d : Opd) (a : Src) (s : State) : Host.Outcome State Fault Refusal :=
  queryRow (.tlbq c kind d a) c kind d a s

def execTranslationQueryDone (id : Nat) (s : State) : Host.Outcome State Fault Refusal :=
  event (match s.pend? id with
    | some p =>
      match p.op, s.group? p.gid with
      | .tlbq d kind va, some g =>
        let r := if canonical va.toNat then s.translate g.core (s.tenantOf g) va.toNat else (.absent 3, s)
        if kind = 3 then r.2.deliverS p d (tolqWord g.core va.toNat r.1 r.2)
        else
          let w := tlbqWord kind va.toNat r.1 r.2
          w.2.deliverS p d w.1
      | .tlbq .., none => s.dropPend id
      | _, _ => s
    | none => s) s

/-! ## Steps of the memory system -/

def execWalkDone (id : Nat) (s : State) : Host.Outcome State Fault Refusal := event (s.walkDone id) s

/-- STASH_INVALIDATE (06 R141). -/
def execStashInvalidate (team window entry : Nat) (s : State) : Host.Outcome State Fault Refusal :=
  event (s.stashInvalidate team window entry) s

def execGroupWake (core slot : Nat) (s : State) : Host.Outcome State Fault Refusal :=
  event (match s.groupAt core slot with
    | none => s
    | some gid => s.wakeGroup gid) s

end Sys2Proof.Machine
end

