-- ==== Sys2Proof/Machine/Approx.lean ====
section
/-!
DEFINITION. The low-rail regulator and the instructions that stand with it (08 R188 to R192, R207 to
R215).
-/
namespace Sys2Proof.Machine

/-! ## The regulator (08 R188 to R192) -/

/-- What follows from the regulator being settled: pending requests it meets become REQ, and teams held
for it may issue (08 R188, R189, R192). -/
def State.railSettled (s : State) (core : Nat) : State :=
  let r := (s.core core).reg
  if r.next.isSome then s else
    (s.core core).teams.foldl (fun s k => s.modTeam k fun t =>
      let t := match t.reqPend with
        | some p => if r.pos ≤ p then { t with req := some p, reqPend := none } else t
        | none => t
      { t with railHold := t.railHold && !(r.pos ≤ t.req.getD 7) }) s

/-- The regulator starts to move when it stands away from its target (08 R190). In reduced service it
does not move (R205). -/
def State.retarget (s : State) (core : Nat) : State :=
  let r := (s.core core).reg
  let tgt := s.railTarget core
  if s.railOff || r.next.isSome then s
  else if r.pos = tgt then s.railSettled core
  else
    let s := s.modCore core fun c => { c with reg := { r with
      next := some (if r.pos < tgt then r.pos + 1 else r.pos - 1) } }
    s.raiseCore core

/-- A `rail` of a team (08 R189, R191): towards a less accurate code at once, towards a more accurate
one by a pending request. -/
def State.applyRail (s : State) (team code : Nat) : State :=
  match s.team? team with
  | none => s
  | some t =>
    let s := s.setTeam team
      (if t.req.getD 7 ≤ code || s.railOff then { t with req := some code, reqPend := none }
       else { t with reqPend := some code })
    s.retarget t.core

/-- RailStatus (08 Table 8-8). -/
def State.railStatus (s : State) (g : Group) : Nat :=
  let r := (s.core g.core).reg
  match s.teamOf g with
  | none => 0
  | some t =>
    bit (t.req.isNone && t.reqPend.isNone) * 2 ^ 12 + bit s.railOff * 2 ^ 11 + s.railTarget g.core * 2 ^ 8
      + bit r.next.isSome * 2 ^ 7 + (if s.railOff then 0 else r.eff) * 2 ^ 4 + bit t.reqPend.isSome * 8
      + t.req.getD 7

/-- Has a later `rail` of the team replaced this one (08 R209)? -/
def State.railReplaced (s : State) (p : Pend) (team : Nat) : Bool :=
  s.pending.any fun q => p.id < q.id && (match q.op with
    | .rail .. => ((s.group? q.gid).map (·.team)) == some team
    | _ => false)

/-- The `rail` instructions of a core whose status may now be written (08 R209). -/
def State.railDone (s : State) (core : Nat) : List (Pend × Opd) :=
  if (s.core core).reg.next.isSome then [] else
    s.pending.filterMap fun p => match p.op, s.group? p.gid with
      | .rail d code, some g =>
        if g.core = core ∧ (((s.teamOf g).bind (·.req)) == some code || s.railReplaced p g.team) then some (p, d)
        else none
      | _, _ => none

/-- Write their status. -/
def State.railComplete (s : State) (core : Nat) : State :=
  (s.railDone core).foldl (fun s e => match s.group? e.1.gid with
    | none => s
    | some g => s.deliverS e.1 e.2 (s.railStatus g)) s

/-- REGULATOR_STEP (08 R190): the code it moved to is not yet its target. -/
def execRegulatorStep (core : Nat) (s : State) : Host.Outcome State Fault Refusal :=
  event (
    let r := (s.core core).reg
    let tgt := s.railTarget core
    match r.next with
    | none => s
    | some n =>
      if n = tgt then s else
        let s := s.modCore core fun c => { c with reg := { r with
          pos := n, next := some (if n < tgt then n + 1 else n - 1) } }
        s.raiseCore core) s

/-- REGULATOR_SETTLE (08 R189, R190, R209): it has reached its target, or stands there while a `rail`
waits for its status. -/
def execRegulatorSettle (core : Nat) (s : State) : Host.Outcome State Fault Refusal :=
  event (
    let r := (s.core core).reg
    match r.next with
    | none => s.railComplete core
    | some n =>
      if n != s.railTarget core then s else
        let s := s.modCore core fun c => { c with reg := { r with eff := n, pos := n, next := none } }
        (s.railSettled core).railComplete core) s

/-! ## The instructions -/

/-- `endorse` (08 R208). -/
def execEndorse (c : Ctl) (ty : Ty) (d : Opd) (a : Src) (s : State) : Host.Outcome State Fault Refusal :=
  let n := ty.regs
  run { i := .endorse c ty d a, c := c, srcs := [⟨a.o, n, a.bang⟩], dsts := [⟨d, n, false⟩] }
    (fun g ls s => .next (s.modGroup s.cur fun h => h.putLanes d n (maskOf ls) fun l => g.rdN a.o n l)) s

/-- `rail` (08 R209); in reduced service it completes at once (R205). -/
def execRail (c : Ctl) (d : Opd) (code : Option Nat) (a : Option Src) (s : State) :
    Host.Outcome State Fault Refusal :=
  run { i := .rail c d code a, c := c
        srcs := match a with | some a => [scalUse a] | none => [], dsts := [⟨d, 1, false⟩], ext := true }
    (fun g ls s => ifAny ls s (
      let n := match code, a with
        | some n, _ => n
        | none, some a => min (g.rdS a.o).toNat 7
        | none, none => 0
      if s.railOff then
        let s := s.applyRail g.team n
        .next (s.putS s.cur d (s.railStatus g))
      else
        .next ((s.await s.cur g ((⟨d, 1, false⟩ : Use).cells ls) (.rail d n)).applyRail g.team n))) s

/-- `railq` (08 R210). -/
def execRailq (c : Ctl) (d : Opd) (s : State) : Host.Outcome State Fault Refusal :=
  run { i := .railq c d, c := c, dsts := [⟨d, 1, false⟩], ext := true }
    (fun g ls s => ifAny ls s (.next (s.putS s.cur d (s.railStatus g)))) s

/-- `tolq` (08 R211). -/
def execTolq (c : Ctl) (d : Opd) (a : Src) (s : State) : Host.Outcome State Fault Refusal :=
  queryRow (.tolq c d a) c 3 d a s

end Sys2Proof.Machine
end

