-- ==== Sys2Proof/Machine/FpCore.lean ====
section
/-!
DEFINITION. Floating-point values and rounding (07 R156 to R162), correctly rounded quotients and roots
with their paths (R177, R178), the seeds (R175), the intervals of `fex2` and `flg2` (R179), and X320
(R158, R159). All arithmetic is exact on integers scaled by powers of two.
-/
namespace Sys2Proof.Machine

/-! ## Formats (07 Table 7-1) -/

/-- Fraction bits, exponent bits. -/
structure Fmt where
  fb : Nat
  eb : Nat
deriving DecidableEq, Repr

def fmt16 : Fmt := ⟨10, 5⟩
def fmtBf : Fmt := ⟨7, 8⟩
def fmt32 : Fmt := ⟨23, 8⟩
def fmt64 : Fmt := ⟨52, 11⟩

/-- The format of a type's elements. -/
def Fmt.of : Ty → Fmt
  | .f16 | .f16x2 => fmt16
  | .bf16 | .bf16x2 => fmtBf
  | .f64 => fmt64
  | _ => fmt32

def Fmt.bias (f : Fmt) : Nat := 2 ^ (f.eb - 1) - 1
def Fmt.width (f : Fmt) : Nat := 1 + f.eb + f.fb
/-- Encoding of +Inf. -/
def Fmt.inf (f : Fmt) : Nat := (2 ^ f.eb - 1) * 2 ^ f.fb
/-- Encoding of the sign bit. -/
def Fmt.signBit (f : Fmt) : Nat := 2 ^ (f.eb + f.fb)
/-- Canon. -/
def Fmt.canon (f : Fmt) : Nat := f.inf + 2 ^ (f.fb - 1)
def Fmt.maxFin (f : Fmt) : Nat := f.inf - 1
/-- Exponent of the lowest bit of a subnormal. -/
def Fmt.qmin (f : Fmt) : Int := 1 - (f.bias : Int) - f.fb

/-- The value of an encoding: a NaN (signalling or not), an infinity, or (-1)^neg x m x 2^e. -/
inductive FV where
  | nan (sig : Bool)
  | inf (neg : Bool)
  | fin (neg : Bool) (m : Nat) (e : Int)
deriving DecidableEq, Repr

/-- Read an encoding (07 R156). -/
def Fmt.read (f : Fmt) (x : Nat) : FV :=
  let fr := x % 2 ^ f.fb
  let ex := x / 2 ^ f.fb % 2 ^ f.eb
  let neg := x / 2 ^ (f.fb + f.eb) % 2 == 1
  if ex = 2 ^ f.eb - 1 then (if fr = 0 then .inf neg else .nan (fr < 2 ^ (f.fb - 1)))
  else if ex = 0 then .fin neg fr f.qmin
  else .fin neg (fr + 2 ^ f.fb) (f.qmin + (ex - 1 : Nat))

def FV.isNan : FV → Bool | .nan _ => true | _ => false
def FV.isSig : FV → Bool | .nan s => s | _ => false
def FV.neg : FV → Bool | .nan _ => false | .inf n => n | .fin n _ _ => n
def FV.isZero : FV → Bool | .fin _ 0 _ => true | _ => false

/-- Bits of a number: 0 for 0. -/
def bitLen (n : Nat) : Nat := if n = 0 then 0 else Nat.log2 n + 1

/-! ## RoundToFormat (07 R161) -/

/-- Does rounding go up in magnitude? `rem` of `2^sh` is cut off, and `st` says that something more is. -/
def roundsUp (md : Rm) (neg : Bool) (odd : Bool) (rem half : Nat) (st : Bool) : Bool :=
  match md with
  | .ne => half < rem || (rem == half && (st || odd))
  | .rz => false
  | .rp => (rem != 0 || st) && !neg
  | .rm => (rem != 0 || st) && neg

/-- Round (-1)^neg x (m + t) x 2^e, where t is 0, or strictly between 0 and 1 when `st`; then m has more
bits than the format. -/
def Fmt.round (f : Fmt) (md : Rm) (neg : Bool) (m : Nat) (e : Int) (st : Bool := false) : Nat × Fl :=
  let sgn := if neg then f.signBit else 0
  if m = 0 && !st then (sgn, {}) else
    let len := bitLen m
    let q : Int := max (e + (len : Int) - 1 - f.fb) f.qmin
    let r : Nat × Bool :=
      if q ≤ e then (m * 2 ^ (e - q).toNat, st)
      else
        let sh := (q - e).toNat
        if len + 1 < sh then
          ((if md == .rp && !neg || md == .rm && neg then 1 else 0), true)
        else
          let sig := m / 2 ^ sh
          let rem := m % 2 ^ sh
          (sig + bit (roundsUp md neg (sig % 2 == 1) rem (2 ^ (sh - 1)) st), rem != 0 || st)
    let enc := (q - f.qmin).toNat * 2 ^ f.fb + r.1
    if f.inf ≤ enc then
      let y := match md with
        | .rz => f.maxFin
        | .rp => if neg then f.maxFin else f.inf
        | .rm => if neg then f.inf else f.maxFin
        | .ne => f.inf
      (sgn + y, { of := true, nx := true })
    else (sgn + enc, { nx := r.2, uf := r.2 && enc < 2 ^ f.fb })

/-- Round a value; a NaN is Canon. -/
def Fmt.roundV (f : Fmt) (md : Rm) : FV → Nat × Fl
  | .nan _ => (f.canon, {})
  | .inf n => ((if n then f.signBit else 0) + f.inf, {})
  | .fin n m e => f.round md n m e

/-! ## Sums and products (07 R167) -/

/-- A product, and whether it is 0 x infinity. -/
def FV.mul (a b : FV) : FV × Bool :=
  match a, b with
  | .nan _, _ | _, .nan _ => (.nan false, false)
  | .inf n, .inf k => (.inf (n != k), false)
  | .inf n, .fin k m _ => if m = 0 then (.nan false, true) else (.inf (n != k), false)
  | .fin n m _, .inf k => if m = 0 then (.nan false, true) else (.inf (n != k), false)
  | .fin n m e, .fin k l d => (.fin (n != k) (m * l) (e + d), false)

/-- The signed integer of a finite term at an exponent no greater than its own. -/
def FV.atExp (q : Int) : FV → Int
  | .fin n m e => (if n then -1 else 1) * ((m * 2 ^ (e - q).toNat : Nat) : Int)
  | _ => 0

def FV.exp : FV → Int
  | .fin _ _ e => e
  | _ => 0

/-- The exact sum of terms, rounded once. `inv`: some term was an invalid product; `sig`: some operand
was signalling. -/
def Fmt.sum (f : Fmt) (md : Rm) (ts : List FV) (inv sig : Bool) : Nat × Fl :=
  let posInf := ts.any fun t => t == .inf false
  let negInf := ts.any fun t => t == .inf true
  let bad := inv || (posInf && negInf)
  if bad || sig then (f.canon, { nv := true })
  else if ts.any FV.isNan then (f.canon, {})
  else if posInf then (f.inf, {})
  else if negInf then (f.signBit + f.inf, {})
  else
    let q := ts.foldl (fun q t => min q t.exp) ((ts.head?.map FV.exp).getD 0)
    let v := ts.foldl (fun (v : Int) t => v + t.atExp q) 0
    if v = 0 then
      let neg := if ts.all FV.neg then true else if ts.any FV.neg then md == .rm else false
      ((if neg then f.signBit else 0), {})
    else f.round md (v < 0) v.natAbs q

def FV.negate : FV → FV
  | .nan s => .nan s
  | .inf n => .inf (!n)
  | .fin n m e => .fin (!n) m e

def fAdd (f : Fmt) (md : Rm) (x y : Nat) : Nat × Fl :=
  let a := f.read x
  let b := f.read y
  f.sum md [a, b] false (a.isSig || b.isSig)
def fSub (f : Fmt) (md : Rm) (x y : Nat) : Nat × Fl :=
  let a := f.read x
  let b := f.read y
  f.sum md [a, b.negate] false (a.isSig || b.isSig)
def fMul (f : Fmt) (md : Rm) (x y : Nat) : Nat × Fl :=
  let a := f.read x
  let b := f.read y
  let p := a.mul b
  f.sum md [p.1] p.2 (a.isSig || b.isSig)
def fFma (f : Fmt) (md : Rm) (x y z : Nat) : Nat × Fl :=
  let a := f.read x
  let b := f.read y
  let d := f.read z
  let p := a.mul b
  f.sum md [p.1, d] p.2 (a.isSig || b.isSig || d.isSig)

/-- `fdot2`: elements in `f`, the addend and the result in FP32. -/
def fDot2 (f : Fmt) (md : Rm) (x y z : Nat) : Nat × Fl :=
  let a0 := f.read (x % 65536)
  let a1 := f.read (x / 65536)
  let b0 := f.read (y % 65536)
  let b1 := f.read (y / 65536)
  let d := fmt32.read z
  let p := a0.mul b0
  let q := a1.mul b1
  fmt32.sum md [p.1, q.1, d] (p.2 || q.2) (a0.isSig || a1.isSig || b0.isSig || b1.isSig || d.isSig)

/-- `fscale`: A x 2^n. -/
def fScale (f : Fmt) (md : Rm) (x n : Nat) : Nat × Fl :=
  match f.read x with
  | .nan s => (f.canon, { nv := s })
  | .inf _ => (x, {})
  | .fin neg m e => if m = 0 then (x, {}) else f.round md neg m (e + (BitVec.ofNat 32 n).toInt)

/-! ## Comparisons, minimum and maximum (07 R168, R170) -/

/-- The order of two values that are not NaN, -0 below +0 when `zeros`. -/
def FV.lt (zeros : Bool) (a b : FV) : Bool :=
  match a, b with
  | .inf n, .inf k => n && !k
  | .inf n, .fin .. => n
  | .fin .., .inf k => !k
  | .fin n m e, .fin k l d =>
    let q := min e d
    let x := (FV.fin n m e).atExp q
    let y := (FV.fin k l d).atExp q
    x < y || (zeros && m == 0 && l == 0 && n && !k)
  | _, _ => false

def fMinMax (f : Fmt) (mx : Bool) (x y : Nat) : Nat × Fl :=
  let a := f.read x
  let b := f.read y
  let fl : Fl := { nv := a.isSig || b.isSig }
  if a.isNan && b.isNan then (f.canon, fl)
  else if a.isNan then (y, fl)
  else if b.isNan then (x, fl)
  else if mx then (if a.lt true b then y else x, fl) else (if b.lt true a then y else x, fl)

def fCmp (f : Fmt) (cc : FCc) (x y : Nat) : Bool × Fl :=
  let a := f.read x
  let b := f.read y
  let un := a.isNan || b.isNan
  let lt := a.lt false b
  let gt := b.lt false a
  let r := match cc with
    | .eq => !un && !lt && !gt
    | .ne => un || lt || gt
    | .lt => !un && lt
    | .le => !un && !gt
    | .gt => !un && gt
    | .ge => !un && !lt
    | .un => un
    | .or => !un
  (r, { nv := a.isSig || b.isSig })

/-- `fmov`: bits, with the sign cleared and then inverted. -/
def fMov (f : Fmt) (ab ng : Bool) (x : Nat) : Nat :=
  let s := x / f.signBit % 2
  let s := if ab then 0 else s
  let s := if ng then 1 - s else s
  x % f.signBit + s * f.signBit

/-! ## Conversions (07 R171, R172) -/

/-- A finite value rounded to an integer: magnitude, and whether it changed. -/
def roundInt (md : Rm) (neg : Bool) (m : Nat) (e : Int) : Nat × Bool :=
  if 0 ≤ e then (m * 2 ^ e.toNat, false) else
    let sh := (-e).toNat
    let sig := m / 2 ^ sh
    let rem := m % 2 ^ sh
    (sig + bit (roundsUp md neg (sig % 2 == 1) rem (2 ^ (sh - 1)) false), rem != 0)

/-- FloatToInt, to a signed or unsigned integer of w bits. -/
def floatToInt (f : Fmt) (md : Rm) (w : Nat) (signed : Bool) (x : Nat) : Int × Fl :=
  let mx : Int := if signed then (2 ^ (w - 1) : Nat) - 1 else (2 ^ w : Nat) - 1
  let mn : Int := if signed then -((2 ^ (w - 1) : Nat) : Int) else 0
  match f.read x with
  | .nan _ => (0, { nv := true })
  | .inf n => (if n then mn else mx, { nv := true })
  | .fin n m e =>
    let r := roundInt md n m e
    let v : Int := if n then -(r.1 : Int) else r.1
    if mx < v then (mx, { nv := true })
    else if v < mn then (mn, { nv := true })
    else (v, { nx := r.2 })

def intToFloat (f : Fmt) (md : Rm) (v : Int) : Nat × Fl := f.round md (v < 0) v.natAbs 0

/-- Float to float; a signalling NaN raises NV. -/
def floatToFloat (src dst : Fmt) (md : Rm) (x : Nat) : Nat × Fl :=
  let a := src.read x
  let r := dst.roundV md a
  (r.1, r.2.or { nv := a.isSig })

/-- `frnd`: integral in the same format; no flag but NV. -/
def fRnd (f : Fmt) (md : Rm) (x : Nat) : Nat × Fl :=
  match f.read x with
  | .nan s => (f.canon, { nv := s })
  | .inf _ => (x, {})
  | .fin n m e =>
    let r := roundInt md n m e
    ((f.round .ne n r.1 0).1, {})

/-! ## Classes and parts (07 R173, R174) -/

def fClass (f : Fmt) (x : Nat) : Nat :=
  match f.read x with
  | .nan s => if s then 1 else 2
  | .inf n => if n then 4 else 512
  | .fin n m _ =>
    if m = 0 then (if n then 32 else 64)
    else if m < 2 ^ f.fb then (if n then 16 else 128)
    else if n then 8 else 256

def fExp (f : Fmt) (x : Nat) : Nat × Fl :=
  match f.read x with
  | .nan _ => (0x80000001, { nv := true })
  | .inf _ => (0x7FFFFFFF, { nv := true })
  | .fin _ m e => if m = 0 then (0x80000000, { nv := true })
    else ((BitVec.ofInt 32 (e + (bitLen m : Int) - 1)).toNat, {})

def fMan (f : Fmt) (x : Nat) : Nat × Fl :=
  match f.read x with
  | .nan s => (f.canon, { nv := s })
  | .inf _ => (x, {})
  | .fin n m _ => if m = 0 then (x, {}) else f.round .ne n m (1 - (bitLen m : Int))

/-! ## Division and square root (07 R177, R178) -/

/-- Integer square root, bit by bit. -/
def isqrt (n : Nat) : Nat :=
  ((List.range (bitLen n / 2 + 1)).reverse).foldl (fun r i =>
    if (r + 2 ^ i) * (r + 2 ^ i) ≤ n then r + 2 ^ i else r) 0

/-- Does a quotient or root (m + t) 2^e take the exact path (07 R178)? It has at least four bits more
than the format. -/
def Fmt.exactPath (f : Fmt) (md : Rm) (m : Nat) (e : Int) (st : Bool) : Bool :=
  let top := e + (bitLen m : Int) - 1
  let q : Int := max (top - f.fb) f.qmin
  let sh := (q - e).toNat
  let rem := m % 2 ^ sh
  let quart := 2 ^ sh / 4
  match md with
  | .ne => (quart ≤ rem && (rem < 3 * quart || (rem == 3 * quart && !st)))
      || (m == 2 ^ (bitLen m - 1) && !st && f.qmin + f.fb < top)
  | _ => rem < quart || (rem == quart && !st) || 3 * quart ≤ rem

/-- A rounded result with its flags, and whether the lane took the exact path. -/
structure Slow where
  bits : Nat
  fl : Fl
  exact : Bool

def Fmt.slow (f : Fmt) (md : Rm) (neg : Bool) (m : Nat) (e : Int) (st : Bool) : Slow :=
  let r := f.round md neg m e st
  ⟨r.1, r.2, !r.2.of && f.exactPath md m e st⟩

def fDiv (f : Fmt) (md : Rm) (x y : Nat) : Slow :=
  let a := f.read x
  let b := f.read y
  let sgn := if a.neg != b.neg then f.signBit else 0
  match a, b with
  | .nan s, .nan t => ⟨f.canon, { nv := s || t }, false⟩
  | .nan s, _ | _, .nan s => ⟨f.canon, { nv := s }, false⟩
  | .inf _, .inf _ => ⟨f.canon, { nv := true }, false⟩
  | .inf _, .fin .. => ⟨sgn + f.inf, {}, false⟩
  | .fin .., .inf _ => ⟨sgn, {}, false⟩
  | .fin n m e, .fin k l d =>
    if l = 0 then
      if m = 0 then ⟨f.canon, { nv := true }, false⟩ else ⟨sgn + f.inf, { dz := true }, false⟩
    else if m = 0 then ⟨sgn, {}, false⟩
    else
      let sh := f.fb + 5 + bitLen l
      let num := m * 2 ^ sh
      f.slow md (n != k) (num / l) (e - d - sh) (num % l != 0)

def fSqrt (f : Fmt) (md : Rm) (x : Nat) : Slow :=
  match f.read x with
  | .nan s => ⟨f.canon, { nv := s }, false⟩
  | .inf n => if n then ⟨f.canon, { nv := true }, false⟩ else ⟨x, {}, false⟩
  | .fin n m e =>
    if m = 0 then ⟨x, {}, false⟩
    else if n then ⟨f.canon, { nv := true }, false⟩
    else
      let odd := e % 2 != 0
      let m' := (if odd then 2 * m else m) * 2 ^ (2 * (f.fb + 5))
      let e' := (if odd then e - 1 else e) / 2 - (f.fb + 5)
      let r := isqrt m'
      f.slow md false r e' (r * r != m')

/-! ## Seeds (07 R175), in FP32 -/

/-- TruncSig of (m + t) 2^e, m at least 15 bits long. -/
def truncSig (neg : Bool) (m : Nat) (e : Int) : Nat :=
  let sgn := if neg then fmt32.signBit else 0
  let cut := max ((bitLen m : Int) - 15) (fmt32.qmin - e)
  let c := cut.toNat
  sgn + (fmt32.round .rz false (m / 2 ^ c) (e + c)).1

def fRcps (x : Nat) : Nat × Fl :=
  match fmt32.read x with
  | .nan s => (fmt32.canon, { nv := s })
  | .inf n => ((if n then fmt32.signBit else 0), {})
  | .fin n m e =>
    let sgn := if n then fmt32.signBit else 0
    if m = 0 then (sgn + fmt32.inf, { dz := true })
    else if (m * 2 ^ (e + 149).toNat) ≤ 2 ^ 21 then (sgn + fmt32.inf, {})
    else (truncSig n (2 ^ 64 / m) (-64 - e), {})

def fRsqs (x : Nat) : Nat × Fl :=
  match fmt32.read x with
  | .nan s => (fmt32.canon, { nv := s })
  | .inf n => if n then (fmt32.canon, { nv := true }) else (0, {})
  | .fin n m e =>
    if m = 0 then ((if n then fmt32.signBit else 0) + fmt32.inf, { dz := true })
    else if n then (fmt32.canon, { nv := true })
    else
      let odd := e % 2 != 0
      let m' := if odd then 2 * m else m
      let e' := (if odd then e - 1 else e) / 2
      (truncSig false (isqrt (2 ^ 128 / m')) (-64 - e'), {})

/-! ## fex2 and flg2 (07 R179)

Bounds of the exact result are computed as integers scaled by 2^-scale; the results allowed are the FP32
values within 2 ulp of it, and Config picks one. -/

def fxScale : Nat := 256

/-- The FP32 encodings within 2 ulp of a positive real between lo and hi (times 2^-fxScale), negated if
`neg`. Half units of the binade of the real are counted, and only FP32 values are kept. -/
def near2ulp (neg : Bool) (lo hi : Nat) : List Nat :=
  let top : Int := (bitLen lo : Int) - 1 - fxScale
  let q : Int := max (top - 23) (-149) - 1
  let sh : Int := q + fxScale
  let flo := lo / 2 ^ sh.toNat
  let fhi := hi / 2 ^ sh.toNat
  let ceil := if lo % 2 ^ sh.toNat = 0 then flo else flo + 1
  (List.range (fhi + 9 - ceil)).filterMap fun (i : Nat) =>
    let h : Int := (ceil : Int) - 4 + (i : Int)
    let r := fmt32.round .ne ((h < 0) != neg) h.natAbs q
    if r.2.nx || r.2.of then none else some r.1

/-- 2^(2^-i) for i from 1: lower bounds times 2^fxScale, by repeated square roots. -/
def rootChain : Nat → Nat → List Nat
  | 0, _ => []
  | n + 1, x => let r := isqrt (x * 2 ^ fxScale); r :: rootChain n r

/-- Bounds of 2^f for f = num / 2^den, 0 ≤ f < 1, times 2^fxScale. -/
def exp2Frac (num den : Nat) : Nat × Nat :=
  let cs := rootChain den (2 ^ (fxScale + 1))
  let r := (List.zip (List.range den) cs).foldl (fun (r : Nat × Nat) ic =>
    if bitAt num (den - 1 - ic.1) then
      (r.1 * ic.2 / 2 ^ fxScale, r.2 * (ic.2 + 2) / 2 ^ fxScale + 1) else r)
    (2 ^ fxScale, 2 ^ fxScale)
  r

def fEx2 (x : Nat) : Nat × Fl :=
  match fmt32.read x with
  | .nan s => (fmt32.canon, { nv := s })
  | .inf n => (if n then 0 else fmt32.inf, {})
  | .fin n m e =>
    -- A as a multiple of 2^-149, cut where it is far out of range
    let a : Int := (if n then -1 else 1) * ((m * 2 ^ (e + 149).toNat : Nat) : Int)
    let unit : Int := 2 ^ 149
    if 128 * unit ≤ a then (fmt32.inf, { of := true })
    else if a ≤ -152 * unit then (0, {})
    else if a % unit = 0 ∧ -149 * unit ≤ a then ((fmt32.round .ne false 1 (a / unit)).1, {})
    else
      let k := a / unit
      let fr := (a % unit).toNat
      let b := exp2Frac fr 149
      -- scaled by 2^k
      let sc (v : Nat) (up : Bool) : Nat :=
        if 0 ≤ k then v * 2 ^ k.toNat
        else v / 2 ^ (-k).toNat + bit (up && v % 2 ^ (-k).toNat != 0)
      let cs := (near2ulp false (sc b.1 false) (sc b.2 true)).filter fun c =>
        c ≤ fmt32.maxFin || fmt32.signBit ≤ c
      (cs.getD (Config.fex2Pick (BitVec.ofNat 32 x) % cs.length) 0, {})

/-- Bits of log2 of a number between lo and hi, 1 ≤ lo ≤ hi < 2, both times 2^fxScale: lower and upper
bounds times 2^n, by repeated squaring. -/
def log2Bits : Nat → Nat → Nat → Nat × Nat
  | 0, _, _ => (0, 1)
  | n + 1, lo, hi =>
    let l := lo * lo / 2 ^ fxScale
    let h := hi * hi / 2 ^ fxScale + 1
    let two := 2 ^ (fxScale + 1)
    if two ≤ l then
      let r := log2Bits n (l / 2) (h / 2 + 1)
      (2 ^ n + r.1, 2 ^ n + r.2)
    else if h < two then log2Bits n l h
    else (0, 2 ^ (n + 1))

def fLg2 (x : Nat) : Nat × Fl :=
  match fmt32.read x with
  | .nan s => (fmt32.canon, { nv := s })
  | .inf n => if n then (fmt32.canon, { nv := true }) else (fmt32.inf, {})
  | .fin n m e =>
    if m = 0 then (fmt32.signBit + fmt32.inf, { dz := true })
    else if n then (fmt32.canon, { nv := true })
    else
      let k : Int := e + (bitLen m : Int) - 1
      let fr := m * 2 ^ (fxScale + 1 - bitLen m)
      if fr = 2 ^ fxScale then ((intToFloat fmt32 .ne k).1, {})
      else
        -- 100 bits of the fraction, so that a result near 0 keeps its own
        let b := log2Bits 100 fr fr
        let lo : Int := k * 2 ^ 100 + b.1
        let hi : Int := k * 2 ^ 100 + b.2
        let up := 2 ^ (fxScale - 100)
        let cs := if 0 ≤ lo then near2ulp false (lo.toNat * up) (hi.toNat * up)
          else near2ulp true ((-hi).toNat * up) ((-lo).toNat * up)
        (cs.getD (Config.flg2Pick (BitVec.ofNat 32 x) % cs.length) 0, {})

/-! ## X320 (07 R158, R159) -/

/-- XVal: a NaN, an infinity, or a multiple of 2^-149. -/
inductive XV where
  | nan
  | inf (neg : Bool)
  | fin (n : Int)
deriving DecidableEq, Repr

/-- XMAX in units of 2^-149. -/
def xMax : Int := 2 ^ 319 - 2 ^ 295

def xNan : Nat := 2 ^ 319
def xPinf : Nat := 2 ^ 319 - 1
def xNinf : Nat := 2 ^ 319 + 1

def xVal (b : Nat) : XV :=
  let v := sextInt 320 b
  if -xMax ≤ v ∧ v ≤ xMax then .fin v
  else if b = xPinf then .inf false
  else if b = xNinf then .inf true
  else .nan

def XV.enc : XV → Nat
  | .nan => xNan
  | .inf n => if n then xNinf else xPinf
  | .fin v => (v % (2 ^ 320 : Nat)).toNat

def xAdd (a : XV) (x : FV) : XV × Fl :=
  match a, x with
  | _, .nan s => (.nan, { nv := s })
  | .nan, _ => (.nan, {})
  | .inf n, .inf k => if n = k then (.inf n, {}) else (.nan, { nv := true })
  | .inf n, .fin .. => (.inf n, {})
  | .fin _, .inf k => (.inf k, {})
  | .fin v, .fin n m e =>
    let s := v + (FV.fin n m e).atExp (-149)
    if xMax < s then (.inf false, { of := true })
    else if s < -xMax then (.inf true, { of := true })
    else (.fin s, {})

def xRound (md : Rm) : XV → Nat × Fl
  | .nan => (fmt32.canon, {})
  | .inf n => ((if n then fmt32.signBit else 0) + fmt32.inf, {})
  | .fin v => if v = 0 then (0, {}) else fmt32.round md (v < 0) v.natAbs (-149)

end Sys2Proof.Machine
end

