-- ==== Sys2Proof/Machine/Integer.lean ====
section
/-!
DEFINITION. The integer and address instructions (05 R87 to R107).
-/
namespace Sys2Proof.Machine

/-! ## Operands (05 R88) -/

/-- A source of an integer instruction: a register, or the immediate of format I. -/
inductive Arg where
  | r (a : Src)
  | k (imm : BitVec 19)

/-- The registers an argument reads. -/
def Arg.use (scal : Bool) (n : Nat) : Arg → List Use
  | .r a => [⟨a.o, if scal then 1 else n, a.bang⟩]
  | .k _ => []

/-- IntSrc (05 R88). -/
def Arg.val (scal : Bool) (t : Ty) (g : Group) (l : Nat) : Arg → Nat
  | .r a => (if scal then (g.rdS a.o).toNat else g.rdN a.o t.regs l) % 2 ^ t.width
  | .k imm => (imm.signExtend t.width).toNat

/-- A result extended as IntPut gives: to 64 bits in a scalar form, to 32 for a 16-bit type. -/
def intExt (t : Ty) (scal : Bool) (r : Nat) : Nat :=
  let n := if scal then 64 else if t.width = 64 then 64 else 32
  if t.isI then (BitVec.ofInt n (sextInt t.width r)).toNat else r % 2 ^ t.width

/-- Num (05 R88). -/
def num (t : Ty) (x : Nat) : Int := if t.isI then sextInt t.width x else (x % 2 ^ t.width : Nat)

/-- Wrap (05 R88). -/
def wrap (t : Ty) (v : Int) : Nat := (v % (2 ^ t.width : Nat)).toNat

/-- k of an integer type's results (08 R193; 05 R107). -/
def kInt (t : Ty) (code : Nat) : Nat := if t.width = 16 then k16 code else k32 code

/-- Permissible, lane by lane (08 R193). -/
def State.permLanes (s : State) (k : Nat) (perm : State → Nat → Nat → Nat × State) :
    List (Nat × Nat) → List (Nat × Nat) × State
  | [] => ([], s)
  | (l, r) :: rs =>
    let p := perm s k r
    let q := State.permLanes p.2 k perm rs
    ((l, p.1) :: q.1, q.2)

/-- An integer operation (05 R87, R88, R107): in each lane on, or once for a scalar form. -/
def intOp (i : Instr) (c : Ctl) (f : IForm) (d : Opd) (args : List Arg) (compute : Bool)
    (op : List Nat → Nat) (s : State) : Host.Outcome State Fault Refusal :=
  let n := f.ty.regs
  run { i := i, c := c, srcs := args.flatMap (Arg.use f.scal n), dsts := [⟨d, if f.scal then 1 else n, false⟩] }
    (fun g ls s =>
      if f.scal then
        if ls.isEmpty then .next s
        else .next (s.putS s.cur d (intExt f.ty true (op (args.map (Arg.val true f.ty g 0)))))
      else
        let rs := ls.map fun l => (l, op (args.map (Arg.val false f.ty g l)))
        if f.ax && compute then
          let p := s.permLanes (kInt f.ty (s.codeOf g.team)) State.permInt rs
          let s := if ls.isEmpty then p.2 else p.2.logApx s.cur
          .next (s.modGroup s.cur fun h =>
            h.putList d n (p.1.map fun e => (e.1, intExt f.ty false e.2)))
        else .next (s.modGroup s.cur fun h =>
          h.putList d n (rs.map fun e => (e.1, intExt f.ty false e.2)))) s

/-- Two-operand and three-operand functions on the values of the sources. -/
def op1 (f : Nat → Nat) (xs : List Nat) : Nat := f (xs.getD 0 0)
def op2 (f : Nat → Nat → Nat) (xs : List Nat) : Nat := f (xs.getD 0 0) (xs.getD 1 0)
def op3 (f : Nat → Nat → Nat → Nat) (xs : List Nat) : Nat := f (xs.getD 0 0) (xs.getD 1 0) (xs.getD 2 0)

/-! ## Functions of one lane (05 R91 to R97) -/

def addF (t : Ty) (a b : Nat) : Nat := wrap t ((a : Int) + b)
def subF (t : Ty) (a b : Nat) : Nat := wrap t ((a : Int) - b)
def mulF (t : Ty) (a b : Nat) : Nat := wrap t (num t a * num t b)
def mulhF (t : Ty) (a b : Nat) : Nat := wrap t (num t a * num t b / (2 ^ t.width : Nat))
def madF (t : Ty) (a b e : Nat) : Nat := wrap t (num t a * num t b + num t e)
def absF (t : Ty) (a : Nat) : Nat := wrap t (sextInt t.width a).natAbs
def minF (t : Ty) (a b : Nat) : Nat := if num t a ≤ num t b then a else b
def maxF (t : Ty) (a b : Nat) : Nat := if num t a ≤ num t b then b else a

/-- `lop` (05 R92): bit i of the result is bit (4 a + 2 b + c) of tt. -/
def lopF (w : Nat) (tt : BitVec 8) (a b e : Nat) : Nat :=
  (List.range w).foldl (fun r i =>
    r + bit (bitAt tt.toNat (4 * bit (bitAt a i) + 2 * bit (bitAt b i) + bit (bitAt e i))) * 2 ^ i) 0

/-- Shifts (05 R93): a count of the width or more has its own result. -/
def shlF (w a n : Nat) : Nat := if n < w then a * 2 ^ n % 2 ^ w else 0
def shrF (w a n : Nat) : Nat := if n < w then a / 2 ^ n else 0
def sarF (t : Ty) (a n : Nat) : Nat := wrap t (sextInt t.width a / (2 ^ min n (t.width - 1) : Nat))

/-- `shf` (05 R94). -/
def shfLF (a b e : Nat) : Nat := (a * 2 ^ 32 + b) * 2 ^ min e 32 / 2 ^ 32 % 2 ^ 32
def shfRF (a b e : Nat) : Nat := (a * 2 ^ 32 + b) / 2 ^ min e 32 % 2 ^ 32

/-- Counts and reversal (05 R95). -/
def popcF (w a : Nat) : Nat := ((List.range w).filter fun i => bitAt a i).length
def clzF (w a : Nat) : Nat := (((List.range w).reverse).takeWhile fun i => !bitAt a i).length
def brevF (w a : Nat) : Nat := (List.range w).foldl (fun r i => r + bit (bitAt a i) * 2 ^ (w - 1 - i)) 0

/-- pos and len of a control word (05 R96). -/
def fieldOf (w k : Nat) : Nat × Nat :=
  let pos := min (k % 256) w
  (pos, min (k / 256 % 256) (w - pos))
def bfeF (t : Ty) (a k : Nat) : Nat :=
  let p := fieldOf t.width k
  if p.2 = 0 then 0 else
    let x := a / 2 ^ p.1 % 2 ^ p.2
    if t.isI then wrap t (sextInt p.2 x) else x
def bfiF (w a b k : Nat) : Nat :=
  let p := fieldOf w k
  let m := (2 ^ p.2 - 1) * 2 ^ p.1
  (b - (b &&& m)) ||| (a * 2 ^ p.1 &&& m)

/-- `prmt` (05 R97). -/
def prmtF (a b e : Nat) : Nat :=
  (List.range 4).foldl (fun r i =>
    let sel := bitsAt e (4 * i) 4
    let x := bitsAt (a + b * 2 ^ 32) (8 * (sel % 8)) 8
    r + (if sel < 8 then x else if x < 128 then 0 else 255) * 2 ^ (8 * i)) 0

/-- Conditions of `icmp` (05 R98). -/
def icc (cc : ICc) (a b : Int) : Bool :=
  match cc with
  | .eq => a == b | .ne => a != b | .lt => a < b | .le => a ≤ b | .gt => b < a | .ge => b ≤ a

/-! ## Arithmetic -/

def execIadd (c : Ctl) (f : IForm) (d : Opd) (a b : Src) (s : State) : Host.Outcome State Fault Refusal :=
  intOp (.iadd c f d a b) c f d [.r a, .r b] true (op2 (addF f.ty)) s
def execIaddImm (c : Ctl) (f : IForm) (d : Opd) (a : Src) (imm : BitVec 19) (s : State) :
    Host.Outcome State Fault Refusal :=
  intOp (.iaddImm c f d a imm) c f d [.r a, .k imm] true (op2 (addF f.ty)) s
def execIsub (c : Ctl) (f : IForm) (d : Opd) (a b : Src) (s : State) : Host.Outcome State Fault Refusal :=
  intOp (.isub c f d a b) c f d [.r a, .r b] true (op2 (subF f.ty)) s
def execIsubImm (c : Ctl) (f : IForm) (d : Opd) (a : Src) (imm : BitVec 19) (s : State) :
    Host.Outcome State Fault Refusal :=
  intOp (.isubImm c f d a imm) c f d [.r a, .k imm] true (op2 (subF f.ty)) s
def execImul (c : Ctl) (f : IForm) (d : Opd) (a b : Src) (s : State) : Host.Outcome State Fault Refusal :=
  intOp (.imul c f d a b) c f d [.r a, .r b] true (op2 (mulF f.ty)) s
def execImulImm (c : Ctl) (f : IForm) (d : Opd) (a : Src) (imm : BitVec 19) (s : State) :
    Host.Outcome State Fault Refusal :=
  intOp (.imulImm c f d a imm) c f d [.r a, .k imm] true (op2 (mulF f.ty)) s
def execImulh (c : Ctl) (f : IForm) (d : Opd) (a b : Src) (s : State) : Host.Outcome State Fault Refusal :=
  intOp (.imulh c f d a b) c f d [.r a, .r b] true (op2 (mulhF f.ty)) s
def execImad (c : Ctl) (f : IForm) (d : Opd) (a b e : Src) (s : State) :
    Host.Outcome State Fault Refusal :=
  intOp (.imad c f d a b e) c f d [.r a, .r b, .r e] true (op3 (madF f.ty)) s
def execIabs (c : Ctl) (f : IForm) (d : Opd) (a : Src) (s : State) : Host.Outcome State Fault Refusal :=
  intOp (.iabs c f d a) c f d [.r a] true (op1 (absF f.ty)) s
def execImin (c : Ctl) (f : IForm) (d : Opd) (a b : Src) (s : State) : Host.Outcome State Fault Refusal :=
  intOp (.imin c f d a b) c f d [.r a, .r b] true (op2 (minF f.ty)) s
def execIminImm (c : Ctl) (f : IForm) (d : Opd) (a : Src) (imm : BitVec 19) (s : State) :
    Host.Outcome State Fault Refusal :=
  intOp (.iminImm c f d a imm) c f d [.r a, .k imm] true (op2 (minF f.ty)) s
def execImax (c : Ctl) (f : IForm) (d : Opd) (a b : Src) (s : State) : Host.Outcome State Fault Refusal :=
  intOp (.imax c f d a b) c f d [.r a, .r b] true (op2 (maxF f.ty)) s
def execImaxImm (c : Ctl) (f : IForm) (d : Opd) (a : Src) (imm : BitVec 19) (s : State) :
    Host.Outcome State Fault Refusal :=
  intOp (.imaxImm c f d a imm) c f d [.r a, .k imm] true (op2 (maxF f.ty)) s

/-! ## Logic, shifts, fields -/

/-- The vector-only form bits. -/
def vform (ax : Bool) (t : Ty) : IForm := ⟨ax, false, t⟩

def execLop (c : Ctl) (ax : Bool) (ty : Ty) (d : Opd) (a b e : Src) (tt : BitVec 8) (s : State) :
    Host.Outcome State Fault Refusal :=
  intOp (.lop c ax ty d a b e tt) c (vform ax ty) d [.r a, .r b, .r e] true (op3 (lopF ty.width tt)) s
def execShl (c : Ctl) (f : IForm) (d : Opd) (a b : Src) (s : State) : Host.Outcome State Fault Refusal :=
  intOp (.shl c f d a b) c f d [.r a, .r b] true (op2 (shlF f.ty.width)) s
def execShlImm (c : Ctl) (f : IForm) (d : Opd) (a : Src) (imm : BitVec 19) (s : State) :
    Host.Outcome State Fault Refusal :=
  intOp (.shlImm c f d a imm) c f d [.r a, .k imm] true (op2 (shlF f.ty.width)) s
def execShr (c : Ctl) (f : IForm) (d : Opd) (a b : Src) (s : State) : Host.Outcome State Fault Refusal :=
  intOp (.shr c f d a b) c f d [.r a, .r b] true (op2 (shrF f.ty.width)) s
def execShrImm (c : Ctl) (f : IForm) (d : Opd) (a : Src) (imm : BitVec 19) (s : State) :
    Host.Outcome State Fault Refusal :=
  intOp (.shrImm c f d a imm) c f d [.r a, .k imm] true (op2 (shrF f.ty.width)) s
def execSar (c : Ctl) (f : IForm) (d : Opd) (a b : Src) (s : State) : Host.Outcome State Fault Refusal :=
  intOp (.sar c f d a b) c f d [.r a, .r b] true (op2 (sarF f.ty)) s
def execSarImm (c : Ctl) (f : IForm) (d : Opd) (a : Src) (imm : BitVec 19) (s : State) :
    Host.Outcome State Fault Refusal :=
  intOp (.sarImm c f d a imm) c f d [.r a, .k imm] true (op2 (sarF f.ty)) s
def execShfL (c : Ctl) (ax : Bool) (d : Opd) (a b e : Src) (s : State) :
    Host.Outcome State Fault Refusal :=
  intOp (.shfL c ax d a b e) c (vform ax .b32) d [.r a, .r b, .r e] true (op3 shfLF) s
def execShfR (c : Ctl) (ax : Bool) (d : Opd) (a b e : Src) (s : State) :
    Host.Outcome State Fault Refusal :=
  intOp (.shfR c ax d a b e) c (vform ax .b32) d [.r a, .r b, .r e] true (op3 shfRF) s
def execPopc (c : Ctl) (f : IForm) (d : Opd) (a : Src) (s : State) : Host.Outcome State Fault Refusal :=
  intOp (.popc c f d a) c f d [.r a] false (op1 (popcF f.ty.width)) s
def execClz (c : Ctl) (f : IForm) (d : Opd) (a : Src) (s : State) : Host.Outcome State Fault Refusal :=
  intOp (.clz c f d a) c f d [.r a] false (op1 (clzF f.ty.width)) s
def execBrev (c : Ctl) (ty : Ty) (d : Opd) (a : Src) (s : State) : Host.Outcome State Fault Refusal :=
  intOp (.brev c ty d a) c (vform false ty) d [.r a] false (op1 (brevF ty.width)) s
def execBfe (c : Ctl) (f : IForm) (d : Opd) (a b : Src) (s : State) : Host.Outcome State Fault Refusal :=
  intOp (.bfe c f d a b) c f d [.r a, .r b] false (op2 (bfeF f.ty)) s
def execBfi (c : Ctl) (f : IForm) (d : Opd) (a b e : Src) (s : State) :
    Host.Outcome State Fault Refusal :=
  intOp (.bfi c f d a b e) c f d [.r a, .r b, .r e] false (op3 (bfiF f.ty.width)) s
def execPrmt (c : Ctl) (d : Opd) (a b e : Src) (s : State) : Host.Outcome State Fault Refusal :=
  intOp (.prmt c d a b e) c (vform false .b32) d [.r a, .r b, .r e] false (op3 prmtF) s

/-! ## Compare and select -/

/-- `icmp` (05 R98). -/
def icmpOp (i : Instr) (c : Ctl) (f : IForm) (cc : ICc) (d : Opd) (args : List Arg) (s : State) :
    Host.Outcome State Fault Refusal :=
  run { i := i, c := c, srcs := args.flatMap (Arg.use f.scal f.ty.regs), dsts := [⟨d, 1, false⟩] }
    (fun g ls s =>
      let res (l : Nat) : Nat :=
        let xs := args.map (Arg.val f.scal f.ty g l)
        bit (icc cc (num f.ty (xs.getD 0 0)) (num f.ty (xs.getD 1 0)))
      .next (s.modGroup s.cur fun h => h.putLanes d 1 (maskOf ls) res)) s
def execIcmp (c : Ctl) (f : IForm) (cc : ICc) (d : Opd) (a b : Src) (s : State) :
    Host.Outcome State Fault Refusal :=
  icmpOp (.icmp c f cc d a b) c f cc d [.r a, .r b] s
def execIcmpImm (c : Ctl) (f : IForm) (cc : ICc) (d : Opd) (a : Src) (imm : BitVec 19) (s : State) :
    Host.Outcome State Fault Refusal :=
  icmpOp (.icmpImm c f cc d a imm) c f cc d [.r a, .k imm] s

/-- `isel` (05 R99). -/
def execIsel (c : Ctl) (ax : Bool) (ty : Ty) (d : Opd) (a b : Src) (q : Opd) (s : State) :
    Host.Outcome State Fault Refusal :=
  let n := ty.regs
  run { i := .isel c ax ty d a b q, c := c
        srcs := [⟨a.o, n, a.bang⟩, ⟨b.o, n, b.bang⟩, ⟨q, 1, false⟩], dsts := [⟨d, n, false⟩] }
    (fun g ls s =>
      let sel (l : Nat) : Opd := match q with
        | .p k => if g.predAt k l then a.o else b.o
        | _ => a.o
      .next (s.modGroup s.cur fun h => h.putLanes d n (maskOf ls) fun l => g.rdN (sel l) n l)) s

/-! ## Moves and constants -/

/-- `mov` (05 R100). -/
def execMov (c : Ctl) (f : IForm) (fromScal : Bool) (d : Opd) (a : Src) (s : State) :
    Host.Outcome State Fault Refusal :=
  let n := f.ty.regs
  run { i := .mov c f fromScal d a, c := c
        srcs := [⟨a.o, if fromScal then 1 else n, a.bang⟩], dsts := [⟨d, if f.scal then 1 else n, false⟩]
        rd := fun ls => if f.scal && !fromScal then ls.take 1 else ls }
    (fun g ls s =>
      let val (l : Nat) : Nat :=
        (if fromScal then (g.rdS a.o).toNat else g.rdN a.o n l) % 2 ^ f.ty.width
      match f.scal, ls with
      | true, [] => .next s
      | true, l0 :: _ => .next (s.putS s.cur d (val l0))
      | false, _ => .next (s.modGroup s.cur fun h => h.putLanes d n (maskOf ls) val)) s

/-- `movi` (05 R101; 02 R33). -/
def moviOp (i : Instr) (c : Ctl) (f : IForm) (d : Opd) (imm : Word64) (s : State) :
    Host.Outcome State Fault Refusal :=
  let n := f.ty.regs
  run { i := i, c := c, dsts := [⟨d, if f.scal then 1 else n, false⟩] }
    (fun _ ls s =>
      let v := imm.toNat % 2 ^ f.ty.width
      if f.scal then (if ls.isEmpty then .next s else .next (s.putS s.cur d v))
      else .next (s.modGroup s.cur fun h => h.putLanes d n (maskOf ls) fun _ => v)) s
def execMovi (c : Ctl) (f : IForm) (d : Opd) (imm : BitVec 19) (s : State) :
    Host.Outcome State Fault Refusal :=
  moviOp (.movi c f d imm) c f d (imm.signExtend 64) s
def execMoviLong (c : Ctl) (f : IForm) (d : Opd) (imm : Word64) (s : State) :
    Host.Outcome State Fault Refusal :=
  moviOp (.moviLong c f d imm) c f d imm s

/-! ## Identity (05 R102, R103) -/

def execIdent (c : Ctl) (scal : Bool) (sel : IdSel) (d : Opd) (s : State) :
    Host.Outcome State Fault Refusal :=
  run { i := .ident c scal sel d, c := c, dsts := [⟨d, 1, false⟩] }
    (fun g ls s =>
      if scal then (if ls.isEmpty then .next s else .next (s.putS s.cur d (s.identOf g sel 0)))
      else .next (s.modGroup s.cur fun h => h.putLanes d 1 (maskOf ls) fun l => s.identOf g sel l)) s

/-! ## Lane exchange (05 R104) -/

/-- The lane whose A lane l takes. -/
def xlaneFrom (mode : XMode) (act : Mask) (l n : Nat) : Nat :=
  let j : Option Nat := match mode with
    | .idx => some n
    | .xor => some (l ^^^ n)
    | .up => if n ≤ l then some (l - n) else none
    | .down => some (l + n)
  match j with
  | some j => if j ≤ 31 && act.toNat.testBit j then j else l
  | none => l

def xlaneArg (g : Group) (b : XArg) (l : Nat) : Nat :=
  match b with
  | .reg b => g.rd32 b.o l
  | .imm n => n

def execXlane (c : Ctl) (ax : Bool) (mode : XMode) (ty : Ty) (d : Opd) (a : Src) (b : XArg)
    (s : State) : Host.Outcome State Fault Refusal :=
  let n := ty.regs
  let bs : List Use := match b with | .reg b => [⟨b.o, 1, b.bang⟩] | .imm _ => []
  let frm (g : Group) (l : Nat) : Nat := xlaneFrom mode g.ctl.act l (xlaneArg g b l)
  let au : Use := ⟨a.o, n, a.bang⟩
  run { i := .xlane c ax mode ty d a b, c := c, srcs := bs, far := some (au, frm), dsts := [⟨d, n, false⟩]
        deps := some fun g l => (g.depIn c bs [l]).join (g.depOf (au.cells [frm g l])) }
    (fun g ls s =>
      .next (s.modGroup s.cur fun h => h.putLanes d n (maskOf ls) fun l => g.rdN a.o n (frm g l))) s

/-! ## Addresses and width changes -/

/-- `lea` (05 R105). -/
def execLea (c : Ctl) (f : IForm) (d : Opd) (a b : Src) (sh : Nat) (s : State) :
    Host.Outcome State Fault Refusal :=
  let n := if f.scal then 1 else 2
  run { i := .lea c f d a b sh, c := c, srcs := [⟨a.o, n, a.bang⟩, ⟨b.o, 1, b.bang⟩]
        dsts := [⟨d, n, false⟩] }
    (fun g ls s =>
      let res (l : Nat) : Nat :=
        let x := g.rd a.o 2 l
        let ix := num f.ty (g.rd32 b.o l)
        (((x : Int) + ix * 2 ^ sh) % 2 ^ 64).toNat
      if f.scal then (if ls.isEmpty then .next s else .next (s.putS s.cur d (res 0)))
      else .next (s.modGroup s.cur fun h => h.putLanes d 2 (maskOf ls) res)) s

/-- Least and greatest values of a type; `.b` as `.n` (05 R106). -/
def tyMin (t : Ty) : Int := if t.isI then -(2 ^ (t.width - 1) : Nat) else 0
def tyMax (t : Ty) : Int := if t.isI then (2 ^ (t.width - 1) : Nat) - 1 else (2 ^ t.width : Nat) - 1

/-- `cvti` (05 R106). -/
def cvtiF (t sty : Ty) (sat : Bool) (a : Nat) : Nat :=
  let v := num sty a
  wrap t (if sat then max (tyMin t) (min v (tyMax t)) else v)

def execCvti (c : Ctl) (f : IForm) (sty : Ty) (sat : Bool) (d : Opd) (a : Src) (s : State) :
    Host.Outcome State Fault Refusal :=
  run { i := .cvti c f sty sat d a, c := c, srcs := [⟨a.o, if f.scal then 1 else sty.regs, a.bang⟩]
        dsts := [⟨d, if f.scal then 1 else f.ty.regs, false⟩] }
    (fun g ls s =>
      let res (l : Nat) : Nat := cvtiF f.ty sty sat (Arg.val f.scal sty g l (.r a))
      if f.scal then
        if ls.isEmpty then .next s else .next (s.putS s.cur d (intExt f.ty true (res 0)))
      else .next (s.modGroup s.cur fun h =>
        h.putLanes d f.ty.regs (maskOf ls) fun l => intExt f.ty false (res l))) s

end Sys2Proof.Machine
end

