-- ==== Sys2Proof/Machine/Float.lean ====
section
/-!
DEFINITION. The floating-point instructions (07 R163 to R184): element access, flags and the ARITH
trap, the approximate forms, and the long-latency instructions.
-/
namespace Sys2Proof.Machine

/-! ## Operands (07 R157; 02 R33) -/

/-- Two elements in a register. -/
def Ty.packed : Ty → Bool
  | .f16x2 | .bf16x2 => true
  | _ => false

/-- The value of a format-I immediate (02 R33). -/
def fpImm (t : Ty) (imm : BitVec 19) : Nat :=
  match t with
  | .f32 => imm.toNat * 2 ^ 13
  | .f16x2 | .bf16x2 => imm.toNat % 65536 * 65537
  | _ => imm.toNat % 65536

def Arg.fval (t : Ty) (g : Group) (l : Nat) : Arg → Nat
  | .r a => if t = .f16 ∨ t = .bf16 then g.rdN a.o 1 l % 65536 else g.rdN a.o (if t = .f64 then 2 else 1) l
  | .k imm => fpImm t imm

/-- Registers of an operand. -/
def fpRegs (t : Ty) : Nat := if t = .f64 then 2 else 1

/-- A function of elements, on each element of the operands (07 R157). -/
def elementwise (t : Ty) (f : List Nat → Nat × Fl) (xs : List Nat) : Nat × Fl :=
  if Ty.packed t then
    let a := f (xs.map (· % 65536))
    let b := f (xs.map (· / 65536))
    (a.1 + b.1 * 65536, a.2.or b.2)
  else f xs

/-! ## Approximate results (07 R182) -/

/-- k of a result type. -/
def kFp (t : Ty) (code : Nat) : Nat :=
  match t with
  | .f16 | .f16x2 => k16 code
  | .bf16 | .bf16x2 => kbf code
  | _ => k32 code

/-- Permissible, per element of a result (08 R193). -/
def State.permTy (t : Ty) (s : State) (k c : Nat) : Nat × State :=
  let f := Fmt.of t
  if Ty.packed t then
    let a := s.permFp f.fb f.eb k (c % 65536)
    let b := a.2.permFp f.fb f.eb k (c / 65536)
    (a.1 + b.1 * 65536, b.2)
  else s.permFp f.fb f.eb k c

/-! ## The rows -/

/-- Results of the lanes on: lane, value, flags. -/
abbrev FRes := List (Nat × Nat × Fl)

/-- Flags are raised, or the instruction traps ARITH (07 R163, R164); in queue mode its destinations are
written all the same (18 R398). `write` writes them. -/
def fpFinish (gid : Nat) (g : Group) (rs : FRes) (write : State → State) (s : State) : Eff :=
  let fl := Fl.all (rs.map fun r => r.2.2)
  let mask := s.arithMask g
  let s := s.modGroup gid fun g => g.raise fl
  if fl.trips mask then
    .trap (trapOf 11 0 ((rs.filter fun r => r.2.2.trips mask).map (·.1)) fl.bits)
      (if s.queueMode g then write s else s)
  else .next (write s)

/-- An instruction of fixed latency. `ax`: its results are drawn from their permissible sets. -/
def fpOp (i : Instr) (c : Ctl) (srcs : List Use) (d : Opd) (n : Nat) (ax : Option Ty)
    (f : Group → Nat → Nat × Fl) (s : State) : Host.Outcome State Fault Refusal :=
  run { i := i, c := c, srcs := srcs, dsts := [⟨d, n, false⟩] }
    (fun g ls s =>
      let rs : FRes := ls.map fun l => (l, f g l)
      let vs := rs.map fun r => (r.1, r.2.1)
      let write (s : State) : State :=
        match ax with
        | none => s.modGroup s.cur fun h => h.putList d n vs
        | some t =>
          let p := s.permLanes (kFp t (s.codeOf g.team)) (State.permTy t) vs
          let s := if ls.isEmpty then p.2 else p.2.logApx s.cur
          s.modGroup s.cur fun h => h.putList d n p.1
      fpFinish s.cur g rs write s) s

/-- The form most rows have: arguments and result of one type. -/
def fpRow (i : Instr) (c : Ctl) (t : Ty) (ax : Bool) (d : Opd) (args : List Arg)
    (f : List Nat → Nat × Fl) (s : State) : Host.Outcome State Fault Refusal :=
  fpOp i c (args.flatMap (Arg.use false (fpRegs t))) d (fpRegs t) (if ax then some t else none)
    (fun g l => elementwise t f (args.map (Arg.fval t g l))) s

def fp1 {α : Type} (f : Nat → α) (xs : List Nat) : α := f (xs.getD 0 0)
def fp2 {α : Type} (f : Nat → Nat → α) (xs : List Nat) : α := f (xs.getD 0 0) (xs.getD 1 0)
def fp3 {α : Type} (f : Nat → Nat → Nat → α) (xs : List Nat) : α := f (xs.getD 0 0) (xs.getD 1 0) (xs.getD 2 0)

/-! ## Arithmetic (07 R167) -/

def execFadd (c : Ctl) (f : FForm) (d : Opd) (a b : Src) (s : State) : Host.Outcome State Fault Refusal :=
  fpRow (.fadd c f d a b) c f.ty f.ax d [.r a, .r b] (fp2 (fAdd (Fmt.of f.ty) f.rm)) s
def execFaddImm (c : Ctl) (f : FForm) (d : Opd) (a : Src) (imm : BitVec 19) (s : State) :
    Host.Outcome State Fault Refusal :=
  fpRow (.faddImm c f d a imm) c f.ty f.ax d [.r a, .k imm] (fp2 (fAdd (Fmt.of f.ty) f.rm)) s
def execFsub (c : Ctl) (f : FForm) (d : Opd) (a b : Src) (s : State) : Host.Outcome State Fault Refusal :=
  fpRow (.fsub c f d a b) c f.ty f.ax d [.r a, .r b] (fp2 (fSub (Fmt.of f.ty) f.rm)) s
def execFmul (c : Ctl) (f : FForm) (d : Opd) (a b : Src) (s : State) : Host.Outcome State Fault Refusal :=
  fpRow (.fmul c f d a b) c f.ty f.ax d [.r a, .r b] (fp2 (fMul (Fmt.of f.ty) f.rm)) s
def execFmulImm (c : Ctl) (f : FForm) (d : Opd) (a : Src) (imm : BitVec 19) (s : State) :
    Host.Outcome State Fault Refusal :=
  fpRow (.fmulImm c f d a imm) c f.ty f.ax d [.r a, .k imm] (fp2 (fMul (Fmt.of f.ty) f.rm)) s
def execFma (c : Ctl) (f : FForm) (d : Opd) (a b e : Src) (s : State) :
    Host.Outcome State Fault Refusal :=
  fpRow (.fma c f d a b e) c f.ty f.ax d [.r a, .r b, .r e] (fp3 (fFma (Fmt.of f.ty) f.rm)) s

/-- `fdot2` (07 R167): packed elements, FP32 addend and result. -/
def execFdot2 (c : Ctl) (f : FForm) (d : Opd) (a b e : Src) (s : State) :
    Host.Outcome State Fault Refusal :=
  fpOp (.fdot2 c f d a b e) c [⟨a.o, 1, a.bang⟩, ⟨b.o, 1, b.bang⟩, ⟨e.o, 1, e.bang⟩] d 1
    (if f.ax then some .f32 else none)
    (fun g l => fDot2 (Fmt.of f.ty) f.rm (g.rd32 a.o l) (g.rd32 b.o l) (g.rd32 e.o l)) s

/-- `fscale` (07 R167): B is one signed 32-bit register. -/
def execFscale (c : Ctl) (f : FForm) (d : Opd) (a b : Src) (s : State) :
    Host.Outcome State Fault Refusal :=
  fpOp (.fscale c f d a b) c [⟨a.o, fpRegs f.ty, a.bang⟩, ⟨b.o, 1, b.bang⟩] d (fpRegs f.ty)
    (if f.ax then some f.ty else none)
    (fun g l => fScale (Fmt.of f.ty) f.rm (Arg.fval f.ty g l (.r a)) (g.rd32 b.o l)) s

/-! ## Minimum, maximum, moves (07 R168, R169) -/

def execFmin (c : Ctl) (ax : Bool) (ty : Ty) (d : Opd) (a b : Src) (s : State) :
    Host.Outcome State Fault Refusal :=
  fpRow (.fmin c ax ty d a b) c ty false d [.r a, .r b] (fp2 (fMinMax (Fmt.of ty) false)) s
def execFminImm (c : Ctl) (ax : Bool) (ty : Ty) (d : Opd) (a : Src) (imm : BitVec 19) (s : State) :
    Host.Outcome State Fault Refusal :=
  fpRow (.fminImm c ax ty d a imm) c ty false d [.r a, .k imm] (fp2 (fMinMax (Fmt.of ty) false)) s
def execFmax (c : Ctl) (ax : Bool) (ty : Ty) (d : Opd) (a b : Src) (s : State) :
    Host.Outcome State Fault Refusal :=
  fpRow (.fmax c ax ty d a b) c ty false d [.r a, .r b] (fp2 (fMinMax (Fmt.of ty) true)) s
def execFmaxImm (c : Ctl) (ax : Bool) (ty : Ty) (d : Opd) (a : Src) (imm : BitVec 19) (s : State) :
    Host.Outcome State Fault Refusal :=
  fpRow (.fmaxImm c ax ty d a imm) c ty false d [.r a, .k imm] (fp2 (fMinMax (Fmt.of ty) true)) s
def execFmov (c : Ctl) (ax : Bool) (ty : Ty) (abs neg : Bool) (d : Opd) (a : Src) (s : State) :
    Host.Outcome State Fault Refusal :=
  fpRow (.fmov c ax ty abs neg d a) c ty false d [.r a] (fp1 fun x => (fMov (Fmt.of ty) abs neg x, {})) s

/-! ## Comparison (07 R170) -/

def fcmpOp (i : Instr) (c : Ctl) (t : Ty) (cc : FCc) (d : Opd) (args : List Arg) (s : State) :
    Host.Outcome State Fault Refusal :=
  fpOp i c (args.flatMap (Arg.use false (fpRegs t))) d 1 none
    (fun g l =>
      let r := fp2 (fCmp (Fmt.of t) cc) (args.map (Arg.fval t g l))
      (bit r.1, r.2)) s
def execFcmp (c : Ctl) (ty : Ty) (cc : FCc) (d : Opd) (a b : Src) (s : State) :
    Host.Outcome State Fault Refusal :=
  fcmpOp (.fcmp c ty cc d a b) c ty cc d [.r a, .r b] s
def execFcmpImm (c : Ctl) (ty : Ty) (cc : FCc) (d : Opd) (a : Src) (imm : BitVec 19) (s : State) :
    Host.Outcome State Fault Refusal :=
  fcmpOp (.fcmpImm c ty cc d a imm) c ty cc d [.r a, .k imm] s

/-! ## Conversions (07 R171, R172) -/

def Ty.isInt : Ty → Bool
  | .i16 | .n16 | .i32 | .n32 | .i64 | .n64 => true
  | _ => false

/-- One lane of `fcvt`. -/
def cvtLane (md : Rm) (ty sty : Ty) (hi : Bool) (x y : Nat) : Nat × Fl :=
  if sty.isInt then intToFloat (Fmt.of ty) md (num sty x)
  else if ty.isInt then
    let r := floatToInt (Fmt.of sty) md ty.width ty.isI x
    (intExt ty false (wrap ty r.1), r.2)
  else if Ty.packed sty then
    floatToFloat (Fmt.of sty) (Fmt.of ty) md (if hi then x / 65536 else x % 65536)
  else if Ty.packed ty then
    let a := floatToFloat (Fmt.of sty) (Fmt.of ty) md x
    let b := floatToFloat (Fmt.of sty) (Fmt.of ty) md y
    (a.1 + b.1 * 65536, a.2.or b.2)
  else floatToFloat (Fmt.of sty) (Fmt.of ty) md x

def execFcvt (c : Ctl) (f : FForm) (sty : Ty) (hi : Bool) (d : Opd) (a : Src) (b : Option Src)
    (s : State) : Host.Outcome State Fault Refusal :=
  let src (g : Group) (l : Nat) (a : Src) : Nat :=
    if sty.isInt then Arg.val false sty g l (.r a) else Arg.fval sty g l (.r a)
  fpOp (.fcvt c f sty hi d a b) c
    (⟨a.o, sty.regs, a.bang⟩ :: (match b with | none => [] | some b => [⟨b.o, 1, b.bang⟩])) d f.ty.regs
    (if f.ax then some f.ty else none)
    (fun g l => cvtLane f.rm f.ty sty hi (src g l a) (match b with | none => 0 | some b => src g l b)) s

def execFrnd (c : Ctl) (md : Rm) (ty : Ty) (d : Opd) (a : Src) (s : State) :
    Host.Outcome State Fault Refusal :=
  fpRow (.frnd c md ty d a) c ty false d [.r a] (fp1 (fRnd (Fmt.of ty) md)) s

/-! ## Classes and parts (07 R173, R174) -/

def execFclass (c : Ctl) (ty : Ty) (d : Opd) (a : Src) (s : State) : Host.Outcome State Fault Refusal :=
  fpOp (.fclass c ty d a) c [⟨a.o, fpRegs ty, a.bang⟩] d 1 none
    (fun g l => (fClass (Fmt.of ty) (Arg.fval ty g l (.r a)), {})) s
def execFxtrExp (c : Ctl) (ty : Ty) (d : Opd) (a : Src) (s : State) : Host.Outcome State Fault Refusal :=
  fpOp (.fxtrExp c ty d a) c [⟨a.o, fpRegs ty, a.bang⟩] d 1 none
    (fun g l => fExp (Fmt.of ty) (Arg.fval ty g l (.r a))) s
def execFxtrMan (c : Ctl) (ty : Ty) (d : Opd) (a : Src) (s : State) : Host.Outcome State Fault Refusal :=
  fpRow (.fxtrMan c ty d a) c ty false d [.r a] (fp1 (fMan (Fmt.of ty))) s

/-! ## Long-latency instructions (07 R164, R166, R175 to R179, R183) -/

/-- Operations of one scheduler that hold the exact path of its divide-and-root unit. -/
def State.exactHeld (s : State) (g : Group) : Nat :=
  (s.pending.filter fun p => match p.op with
    | .long 2 _ _ _ _ => match s.group? p.gid with
      | none => false
      | some h => h.core == g.core && h.slot % 4 == g.slot % 4
    | _ => false).length

/-- Lanes took the exact path: the counters and the XPATH packet (07 R178; 21 R446). -/
def State.exactTaken (s : State) (gid : Nat) (g : Group) (xs : List Nat) : State :=
  if xs.isEmpty then s else
    let s := s.modGroup gid fun g => { g with cnt := { g.cnt with xpath := g.cnt.xpath + 1 } }
    let s := s.modCore g.core fun k => k.count 0x1E 1
    s.emitPC gid ctlXP tyXPATH g.ctl.pc (leBytes 4 (maskOf xs).toNat) none

/-- A long-latency instruction: its results are known at issue and written later, at once while an
enable bit of the header's trap mask is 1 (07 R164). -/
def fpLong (i : Instr) (c : Ctl) (t : Ty) (ax : Bool) (d : Opd) (args : List Arg)
    (f : List Nat → Slow) (s : State) : Host.Outcome State Fault Refusal :=
  let n := fpRegs t
  run { i := i, c := c, srcs := args.flatMap (Arg.use false n), dsts := [⟨d, n, false⟩] }
    (fun g ls s =>
      let res := ls.map fun l => (l, f (args.map (Arg.fval t g l)))
      let xs := (res.filter fun r => r.2.exact).map (·.1)
      if !xs.isEmpty && 4 ≤ s.exactHeld g then stallFor 2 s else
      let vs := res.map fun r => (r.1, r.2.bits)
      let draw (s : State) : List (Nat × Nat) × State :=
        if ax then
          let p := s.permLanes (kFp t (s.codeOf g.team)) (State.permTy t) vs
          (p.1, if ls.isEmpty then p.2 else p.2.logApx s.cur)
        else (vs, s)
      let write (s : State) : State :=
        let p := draw s
        if s.arithMask g != 0 then p.2.modGroup s.cur fun h => h.putList d n p.1
        else if ls.isEmpty then p.2
        else p.2.await s.cur g ((⟨d, n, false⟩ : Use).cells ls)
          (.long (if xs.isEmpty then 1 else 2) d n p.1 [])
      fpFinish s.cur g (res.map fun r => (r.1, r.2.bits, r.2.fl)) write (s.exactTaken s.cur g xs)) s

/-- A result with no exact path. -/
def plainSlow (r : Nat × Fl) : Slow := ⟨r.1, r.2, false⟩

def execFrcps (c : Ctl) (d : Opd) (a : Src) (s : State) : Host.Outcome State Fault Refusal :=
  fpLong (.frcps c d a) c .f32 false d [.r a] (fp1 fun x => plainSlow (fRcps x)) s
def execFrsqs (c : Ctl) (d : Opd) (a : Src) (s : State) : Host.Outcome State Fault Refusal :=
  fpLong (.frsqs c d a) c .f32 false d [.r a] (fp1 fun x => plainSlow (fRsqs x)) s
def execFsqrt (c : Ctl) (f : FForm) (d : Opd) (a : Src) (s : State) :
    Host.Outcome State Fault Refusal :=
  fpLong (.fsqrt c f d a) c f.ty f.ax d [.r a] (fp1 (fSqrt (Fmt.of f.ty) f.rm)) s
def execFdiv (c : Ctl) (f : FForm) (d : Opd) (a b : Src) (s : State) :
    Host.Outcome State Fault Refusal :=
  fpLong (.fdiv c f d a b) c f.ty f.ax d [.r a, .r b] (fp2 (fDiv (Fmt.of f.ty) f.rm)) s
def execFex2 (c : Ctl) (d : Opd) (a : Src) (s : State) : Host.Outcome State Fault Refusal :=
  fpLong (.fex2 c d a) c .f32 false d [.r a] (fp1 fun x => plainSlow (fEx2 x)) s
def execFlg2 (c : Ctl) (d : Opd) (a : Src) (s : State) : Host.Outcome State Fault Refusal :=
  fpLong (.flg2 c d a) c .f32 false d [.r a] (fp1 fun x => plainSlow (fLg2 x)) s

/-- The result of a long-latency instruction is written and its destination becomes full (07 R166). -/
def execLongLatencyResult (id : Nat) (s : State) : Host.Outcome State Fault Refusal :=
  event (match s.pend? id with
    | none => s
    | some p => match p.op with
      | .long k d n vals pois => if k = 0 then s else s.longArrive p d n vals pois
      | _ => s) s

/-! ## X320 (07 R180, R181) -/

/-- The accumulator in ten registers. -/
def Group.rdX (g : Group) (o : Opd) (l : Nat) : Nat := g.rdN o 10 l

/-- `xacc` (07 R180): one element, or element 0 then element 1. -/
def xaccLane (t : Ty) (acc x : Nat) : Nat × Fl :=
  let f := Fmt.of t
  let a := xAdd (xVal acc) (f.read (if Ty.packed t then x % 65536 else x))
  if Ty.packed t then
    let b := xAdd a.1 (f.read (x / 65536))
    (b.1.enc, a.2.or b.2)
  else (a.1.enc, a.2)

def execXacc (c : Ctl) (ty : Ty) (acc b : Src) (s : State) : Host.Outcome State Fault Refusal :=
  fpOp (.xacc c ty acc b) c [⟨acc.o, 10, acc.bang⟩, ⟨b.o, 1, b.bang⟩] acc.o 10 none
    (fun g l => xaccLane ty (g.rdX acc.o l) (Arg.fval ty g l (.r b))) s

/-- `xrnd` (07 R181): `.clr` zeroes the accumulator in the same step. -/
def execXrnd (c : Ctl) (md : Rm) (clr : Bool) (d : Opd) (acc : Src) (s : State) :
    Host.Outcome State Fault Refusal :=
  run { i := .xrnd c md clr d acc, c := c, srcs := [⟨acc.o, 10, acc.bang⟩]
        dsts := ⟨d, 1, false⟩ :: (if clr then [⟨acc.o, 10, false⟩] else []) }
    (fun g ls s =>
      let rs : FRes := ls.map fun l => (l, xRound md (xVal (g.rdX acc.o l)))
      let write (s : State) : State := s.modGroup s.cur fun h =>
        let h := h.putList d 1 (rs.map fun r => (r.1, r.2.1))
        if clr then h.putList acc.o 10 (ls.map fun l => (l, 0)) else h
      fpFinish s.cur g rs write s) s

end Sys2Proof.Machine
end

