-- ==== Sys2Proof/Machine/Visibility.lean ====
section
/-!
DEFINITION. Commits, aborts, fences and their queries (11 R230 to R240, R249, R256 to R262), and the
steps at which they take their places.
-/
namespace Sys2Proof.Machine

/-! ## Events of the team and cluster orders (11 R230) -/

/-- The next event of a team order. -/
def State.teamEvent (s : State) (tid u : Nat) (bs : List (Nat × Option Held)) (stamp numbered : Bool) :
    State :=
  s.modTeam tid fun t =>
    let r := levelEvent t.lvl t.ord s.clk u bs stamp numbered
    { t with lvl := r.1, ord := r.2 }

/-- The next event of a cluster order; `done` is the clock from which R243 counts. The lines that it puts into the
level make room for themselves in their die's L2. -/
def State.cluEvent (s : State) (cid u : Nat) (bs : List (Nat × Option Held)) (stamp numbered : Bool)
    (done : Nat) : State :=
  let s := s.modCluster cid fun c =>
    let r := levelEvent c.lvl c.ord done u bs stamp numbered
    { c with lvl := r.1, ord := r.2 }
  let die := ((s.cluster? cid).map (·.die)).getD 0
  (linesOf ((bs.filter (·.2.isSome)).map (·.1))).foldl (fun s n => s.fit2 die n) s

/-- The mark of the events of an operation that is not complete. -/
def openDone (id : Nat) : Nat := noBound + 1 + id

/-- A commit or atomic is complete: the clock of its events is known (11 R243). -/
def setDone {α : Type} (evs : List (Nat × Nat × AMap α)) (id clk : Nat) : List (Nat × Nat × AMap α) :=
  evs.map fun e => if e.2.1 = openDone id then (e.1, clk, e.2.2) else e

def State.completeOp (s : State) (cid id : Nat) : State :=
  let s := { s with dev := { s.dev with evs := setDone s.dev.evs id s.clk } }
  s.modCluster cid fun c => { c with ord := { c.ord with evs := setDone c.ord.evs id s.clk } }

/-- Bytes leave the group buffer of a group for good. -/
def Held.out (h : Held) : Held := { h with tag := 0 }

/-- The last number an order point gave (11 Table 11-4): 0xFF_FFFF before the first. -/
def lastSeq (n : Nat) : Nat := (n + 2 ^ 24 - 1) % 2 ^ 24

/-- The status word (11 Table 11-4). -/
def cmtStatus (ovl fail : Bool) (seq bytes : Nat) : Nat :=
  bit ovl * 2 ^ 63 + bit fail * 2 ^ 62 + seq % 2 ^ 24 * 2 ^ 32 + min bytes (2 ^ 32 - 1)

/-! ## The place of a commit (11 R231 to R237) -/

/-- The bytes a commit's snapshot took leave the buffer; bytes stored since it issued stay. -/
def Group.leaveBuf (g : Group) (m : AMap Held) : Group :=
  let stays (e : Nat × Held) : Bool := match AMap.at? m e.1 with
    | some h => h.tag < e.2.tag
    | none => true
  { g with mem := { g.mem with buf := List.filter stays g.mem.buf } }

/-- Over: the bytes of the lower level stand. -/
def overlay (low high : AMap Held) : AMap Held :=
  low.foldl (fun m e => AMap.set m e.1 e.2.out) high

/-- Bytes are written into their target: an approximate element's bits as they are read now, under the
code that its new place starts with (08 R199). -/
def State.moved (s : State) (code : Nat) : AMap Held → AMap Held × State
  | [] => ([], s)
  | (k, h) :: m =>
    if h.ax then
      let b := s.heldByte k h
      let r := State.moved b.2 code m
      ((k, { h with b := b.1, code := code }) :: r.1, r.2)
    else
      let r := State.moved s code m
      ((k, h) :: r.1, r.2)

/-- Bytes take a place after all that took one before, in the order they have among themselves (06 R126). -/
def State.reserial (s : State) (m : AMap Held) : AMap Held × State :=
  let sers := m.foldl (fun a e => NSet.add a e.2.ser) ([] : NSet)
  (m.mapVals fun _ h => { h with ser := s.uses + (sers.filter (· < h.ser)).length },
   { s with uses := s.uses + sers.length })

/-- What happened at a commit's place: status, positions, and the state. -/
structure Placed where
  st : Nat
  pos : VPos
  fail : Bool
  m : AMap Held
  s : State

/-- A commit takes its place in its target's order. -/
def State.placeCommit (s : State) (id gid : Nat) (g : Group) (t : Team) (cl : Cluster) (sc : Scope)
    (excl : Bool) (snap : AMap Held) : Placed :=
  let tid := g.team
  let cid := t.cluster
  match sc with
  | .grp =>
    let m := overlay snap []
    let ks := m.map (·.1)
    let ovl := overlaps t.ord.stamps (gid + 1) g.mem.ref ks
    if excl && ovl then ⟨cmtStatus true true (lastSeq t.ord.seq) 0, {}, true, [], s⟩ else
      let sr := s.reserial m
      let mv := sr.2.moved (s.codeInForce g.core) sr.1
      let m := mv.1
      let s := mv.2.teamEvent tid (gid + 1) (m.map fun e => (e.1, some e.2)) true true
      let s := s.modTeam tid fun t => t.intoStash m
      let s := s.modGroup gid fun g =>
        let g := g.leaveBuf snap
        { g with mem := { g.mem with ref := t.ord.pos + 1 } }
      ⟨cmtStatus ovl false t.ord.seq m.length, {}, false, m, s⟩
  | .team =>
    let m := t.lvl
    let ks := m.map (·.1)
    let ovl := overlaps cl.ord.stamps (tid + 1) t.ref ks
    if excl && ovl then ⟨cmtStatus true true (lastSeq cl.ord.seq) 0, ⟨cl.ord.pos, 0⟩, true, [], s⟩ else
      let sr := s.reserial m
      let mv := sr.2.moved s.l2Code sr.1
      let m := mv.1
      let s := mv.2
      let s := if m.isEmpty then s else
        (s.teamEvent tid 0 (ks.map fun k => (k, none)) false true).modTeam tid fun t => t.cleanStash ks false
      let s := s.cluEvent cid (tid + 1) (m.map fun e => (e.1, some e.2)) true true (openDone id)
      let s := s.modTeam tid fun t => { t with ref := cl.ord.pos + 1 }
      ⟨cmtStatus ovl false cl.ord.seq m.length, ⟨cl.ord.pos + 1, 0⟩, false, m, s⟩
  | _ =>
    let own : AMap Held := match sc with | .clu => [] | _ => snap
    let low : AMap Held := match sc with | .clu => [] | _ => t.lvl
    let lr := s.reserial low
    let sr := lr.2.reserial own
    let s := sr.2
    let m := overlay sr.1 (overlay lr.1 cl.lvl)
    let ks := m.map (·.1)
    let ov := s.devOverlap (cid + 1) cl.ref ks
    let s := ov.2
    if excl && ov.1 then
      ⟨cmtStatus true true (lastSeq s.dev.seq) 0, ⟨0, s.dev.pos⟩, true, [], s⟩ else
      let mv := s.moved s.l2Code m
      let m := mv.1
      let s := mv.2.modGroup gid fun g => g.leaveBuf own
      let tk := low.map (·.1)
      let s := if low.isEmpty then s else
        (s.teamEvent tid 0 (tk.map fun k => (k, none)) false true).modTeam tid fun t => t.cleanStash tk false
      let s := if cl.lvl.isEmpty then s else
        s.cluEvent cid 0 (cl.lvl.map fun e => (e.1, none)) false true (openDone id)
      let seq := s.dev.seq
      let s := s.devEvent (cid + 1) m (match sc with | .sys => .mem | _ => .l2 cl.die) true (openDone id)
      let s := s.touchStash (some tid) ks
      let s := s.modCluster cid fun c => { c with ref := s.dev.pos }
      let cpos := if cl.lvl.isEmpty then 0 else cl.ord.pos + 1
      ⟨cmtStatus ov.1 false seq m.length, ⟨cpos, s.dev.pos⟩, false, m, s⟩

/-- Scope code (11 R255). -/
def scopeCode : Scope → Nat
  | .grp => 0 | .team => 1 | .clu => 2 | .dev => 3 | .sys => 4

/-- The virtual sectors of bytes, for the race detector (21 R454). -/
def sectorsOf (m : AMap Held) : List Nat :=
  ((m.foldl (fun a e => NSet.add a (e.2.va / 64)) ([] : NSet))).map (64 * ·)

/-- A placed and acknowledged commit completes: its status register becomes full (11 R232). -/
def State.finishCommit (s : State) (p : Pend) : State :=
  match p.op, s.group? p.gid with
  | .commit d sc excl _ true true st, some g =>
    let cid := ((s.teamOf g).map (·.cluster)).getD 0
    let s := s.completeOp cid p.id
    let s := s.modGroup p.gid fun g => { g with mem := { g.mem with seen := g.mem.seen.join p.lo } }
    let s := match sc with
      | .sys => { s with sysDone := max s.sysDone p.lo.d }
      | _ => s
    let s := s.performed p p.lo
    let s := (s.deliverS p d st.toNat).modCore g.core fun k => k.count 0x25 1
    s.emitPC p.gid ctlCMT tyCMT p.pc
      (leBytes 1 (scopeCode sc + bit excl * 16) ++ leBytes 8 st.toNat) none
  | .commit .., none => s.dropPend p.id
  | _, _ => s

/-- A step that a lossless trace would hold is left undone (21 R443). -/
def unlessHeld (s t : State) : State := if s.holds t then s else t

/-- COMMIT_PLACEMENT: the place, and the completion unless homes must still acknowledge or the trace
holds it. -/
def execCommitPlacement (id : Nat) (s : State) : Host.Outcome State Fault Refusal :=
  event (match s.pend? id with
    | none => s
    | some p =>
      match p.op, s.group? p.gid with
      | .commit d sc excl snap false _ _, some g =>
        if !p.after.isEmpty then s else
        match s.teamOf g, s.clusterOf g with
        | some t, some cl =>
          let r := s.placeCommit id p.gid g t cl sc excl snap
          let acked := r.fail || (match sc with | .sys => false | _ => true)
          let q : Pend := { p with
            op := .commit d sc excl snap true acked (BitVec.ofNat 64 r.st), lo := r.pos }
          let s := r.s.setPend q
          -- the next commit of the group may take its place (11 R233)
          let s := { s with pending := s.pending.map fun x =>
            { x with after := x.after.filter fun e => !(e.1 == id && e.2 == Scope.grp) } }
          let s := match sc with
            | .grp => s
            | _ => if r.fail then s else s.release g.team (sectorsOf r.m)
          unlessHeld s (s.finishCommit q)
        | _, _ => s
      | .commit _ _ _ _ true _ _, _ => s.finishCommit p
      | .commit .., none => s.dropPend id
      | _, _ => s) s

/-- HOME_ACKNOWLEDGE (11 R231): every home of a `cmt.sys` has acknowledged. -/
def execHomeAcknowledge (id : Nat) (s : State) : Host.Outcome State Fault Refusal :=
  event (match s.pend? id with
    | none => s
    | some p =>
      match p.op with
      | .commit d sc excl m true false st =>
        let q : Pend := { p with op := .commit d sc excl m true true st }
        let s := s.setPend q
        unlessHeld s (s.finishCommit q)
      | _ => s) s

/-! ## cmt (11 R256) -/

/-- What a commit or atomic waits for besides its own rule: what a fence held for it (11 R259). -/
def State.heldAfter (s : State) (g : Group) : List (Nat × Scope) :=
  (g.mem.hold.filter fun i => (s.pend? i).isSome).map fun i => (i, Scope.team)

/-- The BUFFER cause of a commit that its target has no room for (11 R240). -/
def State.noRoom (s : State) (g : Group) (t : Team) (cl : Cluster) (sc : Scope) : Option Nat :=
  let core := s.core g.core
  match sc with
  | .grp =>
    let now := s.teamLines t []
    let want := s.teamLines t (g.mem.buf.map (·.1))
    if core.teamCap < want && now < want then some 1
    else if core.levelCap < s.coreLines g.core + (want - now) && now < want then some 3
    else none
  | .team =>
    let res := s.pending.flatMap fun p => match p.op with
      | .commit _ .team _ m false _ _ =>
        if ((s.group? p.gid).bind fun q => (s.teamOf q).map (·.cluster)) == some t.cluster then m.map (·.1) else []
      | _ => []
    if 16384 < (linesOf (cl.lvl.map (·.1) ++ res ++ t.lvl.map (·.1))).length then some 2 else none
  | _ => none

/-- `cmt` (11 R256): the snapshot of the buffer is fixed now; for `.team` the lines reserved are those
the level holds now. -/
def execCmt (c : Ctl) (sc : Scope) (excl : Bool) (d : Opd) (s : State) :
    Host.Outcome State Fault Refusal :=
  run { i := .cmt c sc excl d, c := c, dsts := [⟨d, 1, false⟩], ext := true } (fun g ls s =>
    ifAny ls s (
      match s.teamOf g, s.clusterOf g with
      | some t, some cl =>
        match s.noRoom g t cl sc with
        | some cause => .trap (trapOf 6 cause ls) s
        | none =>
          let m : AMap Held := match sc with | .team => t.lvl | .clu => [] | _ => g.mem.buf
          let takes := match sc with | .team | .clu => false | _ => true
          let earlier := (s.pendOf s.cur PendOp.isAccess ++ s.pendOf s.cur PendOp.isCommit).map
            fun i => (i, Scope.grp)
          let s := s.await s.cur g ((⟨d, 1, false⟩ : Use).cells ls) (.commit d sc excl m false false 0)
            (earlier ++ s.heldAfter g)
          let s := s.modGroup s.cur fun g => { g with mem := { g.mem with
            cmts := if takes then g.mem.cmts + 1 else g.mem.cmts } }
          .next (match sc with
            | .grp => s
            | _ => s.modTeam g.team fun t => { t with clean := false })
      | _, _ => .next s)) s

/-! ## abt (11 R238, R239, R258) -/

/-- Is a byte within the range of an abort? -/
def inRange (range : Option (Nat × Nat)) (h : Held) : Bool :=
  match range with
  | none => true
  | some (b, n) => b ≤ h.va && h.va < b + n

/-- A group's buffered bytes in a range are discarded, those of its commits in flight among them; the
keys discarded. -/
def State.abortGroup (s : State) (k : Nat) (range : Option (Nat × Nat)) : List Nat × State :=
  match s.group? k with
  | none => ([], s)
  | some g =>
    let gone := List.filter (fun e : Nat × Held => inRange range e.2) g.mem.buf
    let snaps := (s.pending.flatMap fun p => match p.op with
      | .commit _ sc _ m false _ _ => if p.gid = k ∧ sc ≠ .team then
          List.filter (fun e : Nat × Held => inRange range e.2) m else []
      | _ => [])
    let prune (p : Pend) : Pend := match p.op with
      | .commit d sc x m false a st => if p.gid = k ∧ sc ≠ .team then
          { p with op := .commit d sc x (List.filter (fun e : Nat × Held => !inRange range e.2) m) false a st }
        else p
      | _ => p
    let s := { s with pending := s.pending.map prune }
    let s := s.setGroup k { g with mem := { g.mem with
      buf := List.filter (fun e : Nat × Held => !inRange range e.2) g.mem.buf } }
    ((gone ++ snaps).map (·.1), s)

/-- Discard what a team and its groups hold; the keys. -/
def State.abortTeam (s : State) (tid : Nat) (range : Option (Nat × Nat)) (numbered : Bool) :
    List Nat × State :=
  match s.team? tid with
  | none => ([], s)
  | some t =>
    let mine := (List.filter (fun e : Nat × Held => inRange range e.2) t.lvl).map (·.1)
    let s := s.teamEvent tid 0 (mine.map fun k => (k, none)) false numbered
    let s := s.modTeam tid fun t => t.cleanStash mine true
    let r := t.groups.foldl (fun (r : List Nat × State) k =>
      let q := r.2.abortGroup k range
      let s := if q.1.isEmpty then q.2 else
        q.2.modGroup k fun g => { g with mem := { g.mem with ref := t.ord.pos + 1 } }
      (r.1 ++ q.1, s)) (mine, s)
    (r.1, if r.1.isEmpty then r.2 else
      let pos := ((r.2.cluster? t.cluster).map (·.ord.pos)).getD 0
      let s := r.2.modTeam tid fun t => { t with ref := pos }
      s.modCluster t.cluster fun c => { c with ref := s.dev.pos })

/-- An abort at its place: how many distinct bytes, the number it took, the state. -/
def State.placeAbort (s : State) (gid : Nat) (g : Group) (t : Team) (sc : Scope)
    (range : Option (Nat × Nat)) : Nat × Nat × State :=
  let size (ks : List Nat) : Nat := (ks.foldl NSet.add ([] : NSet)).length
  match sc with
  | .grp =>
    let s := s.teamEvent g.team 0 [] false true
    let r := s.abortGroup gid range
    let s := if r.1.isEmpty then r.2 else
      let s := r.2.modGroup gid fun g => { g with mem := { g.mem with ref := t.ord.pos + 1 } }
      let pos := ((s.cluster? t.cluster).map (·.ord.pos)).getD 0
      let s := s.modTeam g.team fun t => { t with ref := pos }
      s.modCluster t.cluster fun c => { c with ref := s.dev.pos }
    (size r.1, t.ord.seq, s)
  | .team =>
    let r := s.abortTeam g.team range true
    (size r.1, t.ord.seq, r.2)
  | _ =>
    match s.cluster? t.cluster with
    | none => (0, 0, s)
    | some cl =>
      let mine := (List.filter (fun e : Nat × Held => inRange range e.2) cl.lvl).map (·.1)
      let s := s.cluEvent t.cluster 0 (mine.map fun k => (k, none)) false true s.clk
      let r := cl.teams.foldl (fun (r : List Nat × State) k =>
        let q := r.2.abortTeam k range true
        (r.1 ++ q.1, q.2)) (mine, s)
      let s := if mine.isEmpty then r.2 else
        r.2.modCluster t.cluster fun c => { c with ref := s.dev.pos }
      (size r.1, cl.ord.seq, s)

/-- `abt` (11 R258). -/
def execAbt (c : Ctl) (sc : Scope) (d : Opd) (range : Option (Src × Src)) (s : State) :
    Host.Outcome State Fault Refusal :=
  run { i := .abt c sc d range, c := c
        srcs := match range with | none => [] | some (a, b) => [scalUse a, scalUse b]
        dsts := [⟨d, 1, false⟩], ext := true } (fun g ls s =>
    ifAny ls s (
      let r := range.map fun e => ((g.rdS e.1.o).toNat, (g.rdS e.2.o).toNat)
      .next (s.await s.cur g ((⟨d, 1, false⟩ : Use).cells ls) (.abort d sc r none)))) s

/-- A placed abort writes its status (11 R258). -/
def State.finishAbort (s : State) (p : Pend) (d : Opd) (sc : Scope) (range : Option (Nat × Nat)) (st core : Nat) :
    State :=
  ((s.deliverS p d st).modCore core fun k => k.count 0x26 1).emitPC p.gid ctlCMT tyCMT p.pc
    (leBytes 1 (scopeCode sc + 8 + bit range.isSome * 32) ++ leBytes 8 st) none

/-- ABORT_PLACEMENT: the place, and the status unless the trace holds it (21 R443). -/
def execAbortPlacement (id : Nat) (s : State) : Host.Outcome State Fault Refusal :=
  event (match s.pend? id with
    | none => s
    | some p =>
      match p.op, s.group? p.gid with
      | .abort d sc range none, some g =>
        match s.teamOf g with
        | none => s.dropPend id
        | some t =>
          let r := s.placeAbort p.gid g t sc range
          let st := cmtStatus false false r.2.1 r.1
          let s := r.2.2.setPend { p with op := .abort d sc range (some st) }
          unlessHeld s (s.finishAbort p d sc range st g.core)
      | .abort d sc range (some st), some g => s.finishAbort p d sc range st g.core
      | .abort .., none => s.dropPend id
      | _, _ => s) s

/-! ## fence, lda, bufq, rlq -/

/-- `fence` (11 R242, R259). -/
def execFence (c : Ctl) (sc : Scope) (s : State) : Host.Outcome State Fault Refusal :=
  run { i := .fence c sc, c := c } (fun g ls s =>
    ifAny ls s (
      let acc := s.pendOf s.cur PendOp.isAccess
      let cms := s.pendOf s.cur PendOp.isCommit
      .next (s.modGroup s.cur fun h => { h with mem := { h.mem with
        fen := h.mem.fen.join (g.mem.allp.within sc)
        fenIds := h.mem.fenIds ++ acc.map fun i => (i, sc)
        hold := h.mem.hold.addAll (acc ++ cms) } }))) s

/-- `lda` (11 R260). -/
def execLda (c : Ctl) (sc : Scope) (w : Wd) (sx : Bool) (d : Opd) (m : MemOp) (s : State) :
    Host.Outcome State Fault Refusal :=
  globalLoad (.lda c sc w sx d m) c false w sx d m none (some sc) s
def execLdaLong (c : Ctl) (sc : Scope) (w : Wd) (sx : Bool) (d : Opd) (m : MemOp) (off : Word64)
    (s : State) : Host.Outcome State Fault Refusal :=
  globalLoad (.ldaLong c sc w sx d m off) c false w sx d m (some off) (some sc) s

/-- `bufq` (11 Table 11-5). -/
def execBufq (c : Ctl) (d : Opd) (s : State) : Host.Outcome State Fault Refusal :=
  run { i := .bufq c d, c := c, dsts := [⟨d, 1, false⟩], ext := true } (fun g ls s =>
    ifAny ls s (
      let clu := ((s.clusterOf g).map fun k => heldLines k.lvl).getD 0
      let team := ((s.teamOf g).map fun t => heldLines t.lvl).getD 0
      .next (s.putS s.cur d (clu % 65536 * 2 ^ 48 + team % 65536 * 2 ^ 32 +
        (s.core g.core).teamCap * 2 ^ 16 + heldLines g.mem.buf * 2 ^ 8)))) s

/-- `rlq` (11 Table 11-6), a long-latency producer (11 R264); its answer is that of the query. -/
def execRlq (c : Ctl) (sp : Bool) (d : Opd) (a b : Src) (s : State) :
    Host.Outcome State Fault Refusal :=
  run { i := .rlq c sp d a b, c := c, srcs := [scalUse a, scalUse b], dsts := [⟨d, 1, false⟩]
        ext := true } (fun g ls s =>
    ifAny ls s (
      let locks := (s.core g.core).locks
      let hit := locks.filter fun k => k.sp == sp && (!sp || k.team == g.team) &&
        meets k.base k.len (g.rdS a.o).toNat (g.rdS b.o).toNat
      .next (s.await s.cur g ((⟨d, 1, false⟩ : Use).cells ls) (.long 3 d 1
        [(0, bit (hit.any fun k => !k.src) * 2 ^ 63 + bit (hit.any (·.src)) * 2 ^ 62 + locks.length)] [])))) s

end Sys2Proof.Machine
end

