-- ==== Sys2Proof/Machine/Atomics.lean ====
section
/-!
DEFINITION. Atomics (12 R265 to R276), barrier words (R277 to R280), Bobbin tickets (R281), park and wake
(R282, R283), and the steps that perform them.
-/
namespace Sys2Proof.Machine

/-! ## Checks (12 R268, R269) -/

/-- Cluster scope or wider. -/
def cluUp : Scope → Bool
  | .grp | .team => false
  | _ => true

/-- Does a level hold a byte of the 8-byte granules that bytes [key, key + w) touch? -/
def holdsGranule (m : AMap Held) (key w : Nat) : Bool :=
  m.any fun e => key / 8 ≤ e.1 / 8 && e.1 / 8 ≤ (key + w - 1) / 8

/-- A commit of the group in progress that carries bytes of a granule a lane touches (12 R269). -/
def State.carrying (s : State) (gid : Nat) (t : Team) (cl : Cluster) (accs : List Acc) (w : Nat) :
    Option Nat :=
  (s.pending.find? fun p => p.gid == gid && (match p.op with
    | .commit _ sc _ m _ _ _ =>
      let parts : List (AMap Held) := match sc with
        | .grp => [m]
        | .team => [t.lvl]
        | .clu => [cl.lvl]
        | _ => [m, t.lvl, cl.lvl]
      accs.any fun a => parts.any fun q => holdsGranule q a.key w
    | _ => false)).map (·.id)

/-- The levels below a scope (12 R269). -/
def lowerLevels (g : Group) (t : Team) (cl : Cluster) : Scope → List (AMap Held)
  | .grp => []
  | .team => [g.mem.buf]
  | .clu => [g.mem.buf, t.lvl]
  | _ => [g.mem.buf, t.lvl, cl.lvl]

/-- Where an atomic acts (12 R265): in a far unit of the home? -/
def actsFar (far : Bool) : Scope → Bool
  | .sys => true
  | .dev => far
  | _ => false

/-- The checks of an atomic between steps 6 and 7 of R116. -/
def atomOwn (gid : Nat) (g : Group) (sc : Scope) (far : Bool) (w : Nat) (accs : List Acc) (s : State) :
    Except Eff State := do
  let tier3 := accs.filter fun a => actsFar far sc && keyTier a.key == 3
  orTrap s (failing 2 0 (tier3.map fun a => (a.lane, a.va)))
  match s.teamOf g, s.clusterOf g with
  | some t, some cl =>
    match s.carrying gid t cl accs w with
    | some id => .error (.wait (s.modGroup gid fun h => { h with park := some (.commit id) }))
    | none =>
      let bad := accs.filter fun a => (lowerLevels g t cl sc).any fun m => holdsGranule m a.key w
      orTrap s (failing 7 0 (bad.map fun a => (a.lane, a.va)))
      .ok s
  | _, _ => .ok s

/-! ## Operations (12 R271, R276) -/

/-- Op(o, B, C). -/
def atomOp (op : AOp) (ty : Ty) (o b e : Nat) : Nat :=
  match op with
  | .add => addF ty o b
  | .sub => subF ty o b
  | .and => o &&& b
  | .or => o ||| b
  | .xor => o ^^^ b
  | .min => minF ty o b
  | .max => maxF ty o b
  | .exch => b
  | .cas => if o = b then e else o

/-- The lanes of one word, in ascending order (12 R270): what each receives, and the final value. -/
def atomFold (op : AOp) (ty : Ty) (old : Nat) (ls : List (Nat × Nat × Nat)) : List (Nat × Nat) × Nat :=
  ls.foldl (fun (r : List (Nat × Nat) × Nat) l =>
    (r.1 ++ [(l.1, r.2)], atomOp op ty r.2 l.2.1 l.2.2)) ([], old)

/-- The lanes of one X320 word (12 R276). -/
def xaddFold (ty : Ty) (old : Nat) (ls : List (Nat × Nat × Nat)) : Nat :=
  (ls.foldl (fun a l =>
    let f := Fmt.of ty
    if Ty.packed ty then (xAdd (xAdd a (f.read (l.2.1 % 65536))).1 (f.read (l.2.1 / 65536))).1
    else (xAdd a (f.read (l.2.1 % 2 ^ f.width))).1) (xVal old)).enc

/-! ## Issue -/

/-- Group lane accesses by word. -/
def wordsOf (accs : List (Acc × Nat × Nat × VPos)) : List AWord :=
  accs.foldl (fun ws a =>
    let k := a.1.key
    if ws.any fun w => w.key == k then
      ws.map fun w => if w.key == k then
        { w with lanes := w.lanes ++ [(a.1.lane, a.2.1, a.2.2.1)], lo := w.lo.join a.2.2.2 } else w
    else ws ++ [⟨k, a.1.va, [(a.1.lane, a.2.1, a.2.2.1)], a.2.2.2⟩]) []

/-- A team that does this is not clean (18 R400). -/
def State.soil (s : State) (team : Nat) : State := s.modTeam team fun t => { t with clean := false }

/-- A pending atomic: whether it acts in a far unit, and its words. -/
def PendOp.atomWords : PendOp → Option (Bool × List AWord)
  | .atom _ _ sc _ far ws _ => some (actsFar far sc, ws)
  | .xadd sc _ ws _ => some (actsFar true sc, ws)
  | _ => none

/-- Atomics in the queue of a core's near unit, and in that of the far unit of a base die. -/
def State.nearQueue (s : State) (core : Nat) : Nat :=
  (s.pending.filter fun p => (match p.op.atomWords with | some (false, _) => true | _ => false)
    && ((s.group? p.gid).map (·.core)) == some core).length
def State.farQueue (s : State) (base : Nat) : Nat :=
  (s.pending.filter fun p => match p.op.atomWords with
    | some (true, ws) => ws.any fun w => baseOf (lineOf w.key) == base
    | _ => false).length

/-- The queue an atomic would enter is full (12 Table 12-8). -/
def State.atomicFull (s : State) (g : Group) (far : Bool) (accs : List Acc) : Bool :=
  if far then accs.any fun a => Config.atomicRoom true < s.farQueue (baseOf (lineOf a.key))
  else Config.atomicRoom false < s.nearQueue g.core

/-- An atomic issues: checks, then the operation is listed with its words. -/
def atomRow (i : Instr) (c : Ctl) (sc : Scope) (far : Bool) (w al : Nat) (k : Nat) (d : Option Opd)
    (a b : Src) (e : Option Src) (op : List AWord → PendOp) (s : State) :
    Host.Outcome State Fault Refusal :=
  let srcs : List Use := ⟨a.o, 2, a.bang⟩ :: ⟨b.o, k, b.bang⟩ ::
    (match e with | none => [] | some e => [⟨e.o, k, e.bang⟩])
  let dsts : List Use := match d with | none => [] | some d => [⟨d, k, false⟩]
  run { i := i, c := c, srcs := srcs, dsts := dsts, ext := true
        addrs := fun g ls => ls.map (g.rdN a.o 2) } (fun g ls s =>
    if ls.isEmpty then .next s else
      let eas : Lanes := ls.map fun l => (l, g.rdN a.o 2 l)
      onOk (s.checkGlobal s.cur g ⟨true, true, tolOk false true⟩ al w eas (atomOwn s.cur g sc far w)) fun r =>
        if r.2.atomicFull g (actsFar far sc) r.1 then stallFor 2 r.2 else
        let s := r.2
        let lo := s.viewLo g
        let ws := wordsOf (r.1.map fun x =>
          (x, g.rdN b.o k x.lane, (match e with | none => 0 | some e => g.rdN e.o k x.lane),
            (lo.join (g.depIn c srcs [x.lane])).join (g.byteLo (x.keys w))))
        let keys := r.1.flatMap fun x => x.keys w
        let smp := s.accept s.cur g ((eas.map (·.2)).headD 0)
        let s := if cluUp sc then smp.2.soil g.team else smp.2
        .next (s.await s.cur g (dsts.flatMap fun (u : Use) => u.cells ls) (op ws)
          (g.mem.fenIds ++ s.sharing s.cur keys ++ s.heldAfter g) {} smp.1)) s

def execAtom (c : Ctl) (op : AOp) (sc : Scope) (ty : Ty) (d : Option Opd) (a b : Src) (e : Option Src)
    (s : State) : Host.Outcome State Fault Refusal :=
  atomRow (.atom c op sc ty d a b e) c sc false (ty.width / 8) (ty.width / 8) ty.regs d a b e
    (fun ws => .atom d op sc ty false ws []) s
def execAtomf (c : Ctl) (op : AOp) (sc : Scope) (ty : Ty) (d : Option Opd) (a b : Src) (e : Option Src)
    (s : State) : Host.Outcome State Fault Refusal :=
  atomRow (.atomf c op sc ty d a b e) c sc true (ty.width / 8) (ty.width / 8) ty.regs d a b e
    (fun ws => .atom d op sc ty true ws []) s
def execXadd (c : Ctl) (sc : Scope) (ty : Ty) (a b : Src) (s : State) :
    Host.Outcome State Fault Refusal :=
  atomRow (.xadd c sc ty a b) c sc true 40 64 1 none a b none (fun ws => .xadd sc ty ws {}) s

/-! ## Events of the orders -/

/-- One event of a scope's order that writes bytes as data of that level (12 R265, R267), and its
position. `cid`, `tid`: the cluster and team whose orders the scope names. -/
def State.scopeEvent (s : State) (id core tid cid : Nat) (sc : Scope) (far : Bool)
    (bs : List (Nat × Held)) : VPos × State :=
  match sc with
  | .grp | .team =>
    -- a window of the team that holds the bytes holds the new ones (06 R140; 11 R227)
    ({}, (s.teamEvent tid 0 (bs.map fun e => (e.1, some e.2)) true false).modTeam tid fun t =>
      t.intoStash (bs.foldl (fun m e => AMap.set m e.1 e.2) []))
  | .clu =>
    let s := s.cluEvent cid 0 (bs.map fun e => (e.1, some e.2)) true false (openDone id)
    (⟨((s.cluster? cid).map (·.ord.pos)).getD 0, 0⟩, s)
  | .dev | .sys =>
    let dst : Dest := match sc with | .sys => .mem | _ => if far then .l3 else .l1 core
    let s := (s.devEvent 0 bs dst false (openDone id)).touchStash (some tid) (bs.map (·.1))
    (⟨0, s.dev.pos⟩, s)

/-- The sector of a word is read by a near unit from above its level: what another core owns is recalled
(12 R266); and the line that is counted at L3, once its data has been taken, where it comes from that far
(06 R127). -/
def State.fetchWordLine (s : State) (g : Group) (key : Nat) : List Nat × State :=
  let n := lineOf key
  let q := key / 64 % 4
  let far := if 2 ≤ s.supplier (4 * n + q) g.core then [n] else []
  let own := (s.line n).own
  let s := if own.isSome && own != some g.core then (s.toHome n).fit3 n else s
  (far, (s.memRead n [q] (some (s.tenantOf g))).allocate n [q] g.core 1 0 false false)

/-- The value of a word at the end of its scope's order (12 R265), whether it is poisoned, and the
positions it was read at. -/
def State.readWord (s : State) (g : Group) (sc : Scope) (lo : VPos) (key w : Nat) :
    List Byte × Bool × VPos × State :=
  let ps := s.drawPos g lo ((List.range w).map (key + ·)) (some sc)
  let lvl : AMap Held := match sc with | .team => ((s.teamOf g).map (·.lvl)).getD [] | _ => []
  let clu := match sc with | .team | .clu => s.clusterOf g | _ => none
  let r := (List.range w).foldl (fun (r : List Byte × Bool × State) i =>
    match AMap.at? lvl (key + i) with
    | some h => (r.1 ++ [h.b], r.2.1 || h.pois, r.2.2)
    | none =>
      let b := r.2.2.upperByte clu ps.1 false (key + i)
      (r.1 ++ [b.1], r.2.1 || b.2.1, b.2.2)) ([], false, ps.2)
  (r.1, r.2.1, match sc with | .dev | .sys => ⟨0, ps.1.d⟩ | _ => ps.1, r.2.2)

/-- Bytes an atomic writes: precise, with no reader count. -/
def atomBytes (key va : Nat) (bs : List Byte) (pois : Bool) : List (Nat × Held) :=
  (List.range bs.length).map fun i => (key + i, ⟨bs.getD i 0, va + i, false, 0, pois, 0, false, 0, 0⟩)

/-- Positions at which bytes were read rise. -/
def AMap.raiseAll (m : AMap VPos) (ks : List Nat) (pos : VPos) : AMap VPos :=
  ks.foldl (fun m k => AMap.put {} m k (pos.join (AMap.get {} m k))) m

/-- The bytes of a word that no level up to the scope holds. -/
def State.beyond (s : State) (g : Group) (sc : Scope) (key w : Nat) : Bool :=
  let lvl : AMap Held := match sc with | .team => ((s.teamOf g).map (·.lvl)).getD [] | _ => []
  let clu : AMap Held := match sc with | .team | .clu => ((s.clusterOf g).map (·.lvl)).getD [] | _ => []
  (List.range w).any fun i => (AMap.at? lvl (key + i)).isNone && (AMap.at? clu (key + i)).isNone

/-- One word's event: reading, computing, writing, with the detector's acquire, checks and release; the
place it took. -/
def State.performWord (s : State) (p : Pend) (g : Group) (sc : Scope) (far : Bool) (x : AWord) (w : Nat)
    (f : Nat → List (Nat × Nat) × Nat) (keeps : Bool) : List Got × VPos × State :=
  let t := s.teamOf g
  let fw : List Nat × State := match sc with
    | .dev | .sys => ([], s.memRead (lineOf x.key) [x.key / 64 % 4] (some (s.tenantOf g)))
    | _ => if s.beyond g sc x.key w then s.fetchWordLine g x.key else ([], s)
  let s := fw.2
  let cid := (t.map (·.cluster)).getD 0
  let s := if cluUp sc then s.acquire g.team [x.va] else s
  let s := s.raceLanes g.team true true p.pc.toNat (x.lanes.map fun _ => x.va)
  let keys := (List.range w).map (x.key + ·)
  let r := s.readWord g sc ((p.lo.join x.lo).join (g.byteLo keys)) x.key w
  let v := f (leNat r.1)
  let ev := (r.2.2.2.countRead fw.1 (s.tenantOf g)).scopeEvent p.id g.core g.team cid sc (actsFar far sc)
    (atomBytes x.key x.va (leBytes w v.2) (r.2.1 && keeps))
  let pos := r.2.2.1.join ev.1
  let s := if cluUp sc then ev.2.release g.team [x.va] else ev.2
  let s := s.modGroup p.gid fun g => { g with mem := { g.mem with
      byteSeen := AMap.raiseAll g.mem.byteSeen keys pos } }
  (v.1.map fun e => ⟨e.1, e.2, r.2.1, pos⟩, ev.1, s)

/-- An atomic whose words have all been performed is done (11 R492): later accesses follow the places it took
(11 R241), and no more than its own bytes follow what it read (12 R273). -/
def State.finishAtom (s : State) (p : Pend) (cid : Nat) (d : Option Opd) (n : Nat) (done : List Got) :
    State :=
  let pos := done.foldl (fun q e => q.join e.pos) {}
  let s := (s.completeOp cid p.id).dropPend p.id
  let s := s.modGroup p.gid fun g =>
    let g := { g with mem := { g.mem with seen := g.mem.seen.join p.place } }
    match d with
    | none => g
    | some d => g.receive d n done
  let s := (s.performed p pos).sample p p.lvl
  let byLane := (List.range 32).filterMap fun l => (done.find? (·.lane == l)).map (·.val)
  (s.logFill p.gid p.id byLane).settle p.gid

/-! ## Barrier words (12 R277 to R280; 06 R136) -/

def Team.bar (t : Team) (n : Nat) : Bar := AMap.get ⟨t.groups.length, 0, 0, false, 0⟩ t.bars n
def Team.setBar (t : Team) (n : Nat) (b : Bar) : Team := { t with bars := AMap.set t.bars n b }

/-- The ring a barrier drives: its index, and whether as its producer. -/
def Team.ringOf (t : Team) (n : Nat) : Option (Nat × Bool) :=
  (List.range t.hdr.rings.length).findSome? fun i =>
    match t.ring? i with
    | some (d, _) => if d.pbar = n then some (i, true) else if d.cbar = n then some (i, false) else none
    | none => none

def Team.setRing (t : Team) (i : Nat) (f : Ring → Ring) : Team :=
  { t with rings := t.rings.mapIdx fun j r => if j = i then f r else r }

/-- Complete (12 R279): the phase completes, or its ring holds it; a phase the ring's other barrier holds
may then complete too. How many completed. -/
def Team.completeBar (t : Team) (n : Nat) : Nat → Nat × Team
  | 0 => (0, t)
  | fuel + 1 =>
    let b := t.bar n
    let done (t : Team) : Team := t.setBar n
      { b with phase := b.phase + 1, arr := b.arr2, arr2 := 0, held := false }
    let next (t : Team) (m : Nat) : Nat × Team :=
      if (t.bar m).held then
        let r := Team.completeBar t m fuel
        (r.1 + 1, r.2)
      else (1, t)
    match t.ringOf n with
    | none => (1, done t)
    | some (i, prod) =>
      match t.ring? i with
      | none => (1, done t)
      | some (d, r) =>
        if (if prod then ringFull d r else r.p == r.c) then (0, t.setBar n { b with held := true })
        else if prod then
          next ((done t).setRing i fun r => { r with
            p := r.p + 1, lap := r.lap ^^^ 2 ^ (r.p.toNat % d.depth) }) d.cbar
        else next ((done t).setRing i fun r => { r with c := r.c + 1 }) d.pbar

/-- A phase completes; each completion advances the team's clock (21 R454). -/
def State.completeBar (s : State) (tid n : Nat) : State :=
  match s.team? tid with
  | none => s
  | some t =>
    let r := t.completeBar n 3
    (List.range r.1).foldl (fun s _ => s.bumpClock tid) (s.setTeam tid r.2)

def execBari (c : Ctl) (bar : Nat) (a : Src) (s : State) : Host.Outcome State Fault Refusal :=
  run { i := .bari c bar a, c := c, srcs := [scalUse a], ext := true } (fun g ls s =>
    ifAny ls s (
      match s.teamOf g with
      | none => .next s
      | some t =>
        let n := (g.rdS a.o).toNat
        let b := { t.bar bar with count := if 1 ≤ n ∧ n ≤ 128 then n else t.groups.length }
        let s := s.setTeam g.team (t.setBar bar b)
        .next (if b.count ≤ b.arr && !b.held then s.completeBar g.team bar else s))) s

/-- What an operation that releases waits for: earlier accesses performed, commits complete. -/
def State.allEarlier (s : State) (gid : Nat) : List (Nat × Scope) :=
  (s.pendOf gid fun o => o.isAccess || o.isCommit).map fun i => (i, Scope.team)

def execBarv (c : Ctl) (bar : Nat) (d : Opd) (s : State) : Host.Outcome State Fault Refusal :=
  run { i := .barv c bar d, c := c, dsts := [⟨d, 1, false⟩], ext := true } (fun g ls s =>
    ifAny ls s (.next (s.await s.cur g ((⟨d, 1, false⟩ : Use).cells ls) (.barv d bar)
      (s.allEarlier s.cur)))) s

/-- May an arrival be counted (12 R279)? -/
def Team.mayArrive (t : Team) (n : Nat) : Bool :=
  let b := t.bar n
  !(b.held && b.arr2 + 1 == b.count)

/-- BARRIER_ARRIVAL_COUNTED (12 R279). -/
def execBarrierArrivalCounted (id : Nat) (s : State) : Host.Outcome State Fault Refusal :=
  event (match s.pend? id with
    | none => s
    | some p =>
      match p.op, s.group? p.gid with
      | .barv d bar, some g =>
        match s.teamOf g with
        | none => s.dropPend id
        | some t =>
          if !p.after.isEmpty || !t.mayArrive bar then s else
            let b := t.bar bar
            let token (ph : BitVec 32) : Nat := bar * 2 ^ 32 + ph.toNat
            if b.held then
              (s.setTeam g.team (t.setBar bar { b with arr2 := b.arr2 + 1 })).deliverS p d (token (b.phase + 1))
            else
              let s := s.setTeam g.team (t.setBar bar { b with arr := b.arr + 1 })
              let s := if b.arr + 1 = b.count then s.completeBar g.team bar else s
              s.deliverS p d (token b.phase)
      | .barv .., none => s.dropPend id
      | _, _ => s) s

def execBarw (c : Ctl) (a : Src) (s : State) : Host.Outcome State Fault Refusal :=
  run { i := .barw c a, c := c, srcs := [scalUse a], ext := true } (fun g ls s =>
    ifAny ls s (
      let w := (g.rdS a.o).toNat
      let bar := bitsAt w 32 5
      let ph := BitVec.ofNat 32 w
      if phasePast (s.phaseOf g bar) ph then .next s
      else .wait (s.modGroup s.cur fun h => { h with park := some (.barw bar ph.toNat) }))) s

/-! ## Bobbin tickets (12 R281) -/

def Cluster.ticket (c : Cluster) (n : Nat) : Ticket := AMap.get ⟨0, 0, []⟩ c.tickets n
def Cluster.setTicket (c : Cluster) (n : Nat) (t : Ticket) : Cluster := { c with tickets := AMap.set c.tickets n t }

def execTkt (c : Ctl) (n : Nat) (d : Opd) (s : State) : Host.Outcome State Fault Refusal :=
  run { i := .tkt c n d, c := c, dsts := [⟨d, 1, false⟩], ext := true } (fun g ls s =>
    ifAny ls s (.next ((s.soil g.team).await s.cur g ((⟨d, 1, false⟩ : Use).cells ls) (.tkt d n)))) s

/-- `tktw`: an acquire of the counter's clock (21 R454), and a bound on later reads. -/
def execTktw (c : Ctl) (a : Src) (s : State) : Host.Outcome State Fault Refusal :=
  run { i := .tktw c a, c := c, srcs := [scalUse a], ext := true } (fun g ls s =>
    ifAny ls s (
      let w := (g.rdS a.o).toNat
      let n := bitsAt w 32 6
      let t := BitVec.ofNat 32 w
      if served (s.servOf g n) t then
        let s := match s.tracked g.team, s.clusterOf g with
          | some _, some cl => s.modTeam g.team fun tm => { tm with vc := joinVC tm.vc (cl.ticket n).vc }
          | _, _ => s
        .next (s.modGroup s.cur fun h => { h with mem := { h.mem with
          fen := h.mem.fen.join ⟨s.clusterEnd g, 0⟩ } })
      else .wait (s.modGroup s.cur fun h => { h with park := some (.tktw n t.toNat) }))) s

def execTkts (c : Ctl) (n : Nat) (s : State) : Host.Outcome State Fault Refusal :=
  run { i := .tkts c n, c := c, ext := true } (fun g ls s =>
    ifAny ls s (.next ((s.soil g.team).await s.cur g [] (.tkts n) (s.allEarlier s.cur)))) s

/-- `tkts` at the Bobbin: a release on the counter's clock, then SERV advances. -/
def State.serve (s : State) (g : Group) (n : Nat) : State :=
  let cid := ((s.teamOf g).map (·.cluster)).getD 0
  let vc : AMap Nat := match s.tracked g.team with | none => [] | some (_, _, tm) => tm.vc
  let s := s.modCluster cid fun c =>
    let t := c.ticket n
    c.setTicket n { t with serv := t.serv + 1, vc := joinVC t.vc vc }
  s.bumpClock g.team

/-! ## park and wake (12 R282, R283) -/

/-- Entries of a core's park table that are in use, those of parks not yet registered among them. -/
def State.parksOf (s : State) (core : Nat) : Nat :=
  (s.core core).parks.length + (s.pending.filter fun p => match p.op with
    | .park .. => ((s.group? p.gid).map (·.core)) == some core
    | _ => false).length

def execPark (c : Ctl) (sc : Scope) (d : Opd) (a b e : Src) (s : State) :
    Host.Outcome State Fault Refusal :=
  run { i := .park c sc d a b e, c := c, srcs := [scalUse a, scalUse b, scalUse e], dsts := [⟨d, 1, false⟩]
        ext := true, addrs := fun g _ => [(g.rdS a.o).toNat] } (fun g ls s =>
    ifAny ls s (
      if 128 ≤ s.parksOf g.core then stallFor 2 s else
      let va := (g.rdS a.o).toNat
      onOk (s.checkGlobal s.cur g ⟨true, false, tolOk false false⟩ 8 8 (ls.map fun l => (l, va))) fun r =>
        match r.1 with
        | [] => .next r.2
        | x :: _ =>
          let s := if cluUp sc then r.2.soil g.team else r.2
          let keys := x.keys 8
          let srcs : List Use := [scalUse a, scalUse b, scalUse e]
          let s := s.await s.cur g ((⟨d, 1, false⟩ : Use).cells ls)
            (.park d sc x.key va (g.rdS b.o) (g.rdS e.o)) (g.mem.fenIds ++ s.sharing s.cur keys)
            (((s.viewLo g).join (g.depIn c srcs ls)).join (g.byteLo keys))
          .next (s.modGroup s.cur fun h => { h with park := some .park }))) s

/-- A park ends: its status is written, and the group may wake. -/
def State.endPark (s : State) (gid tag : Nat) (d : Opd) (code : Nat) : State :=
  let s := (s.putS gid d code).modGroup gid fun g =>
    if g.park = some .park then { g with park := some .woken } else g
  s.logFill gid tag [code]

/-- The read of a `park`: the word at the coherence point of its scope (12 R282). -/
def State.parkRead (s : State) (p : Pend) (g : Group) (d : Opd) (sc : Scope) (key va : Nat)
    (expect timeout : Word64) : State :=
  let ks := (List.range 8).map (key + ·)
  let acc : LaneAcc := ⟨0, va, 0, p.lo, ks, ks.map fun k => AMap.at? g.mem.buf k⟩
  let n := lineOf key
  let s := match sc with
    | .dev | .sys => if (s.line n).own.isSome then (s.toHome n).fit3 n else s
    | _ => s
  let ps := s.drawPos g p.lo ks (some sc)
  let r := ps.2.laneBytes g (some sc) ps.1 acc
  let s := r.2.2.dropPend p.id
  let s := s.modGroup p.gid fun g => { g with mem := { g.mem with
      byteSeen := AMap.raiseAll g.mem.byteSeen ks ps.1 } }
  if leNat r.1 = expect.toNat then
    let n := s.fresh
    n.2.modCore g.core fun k => { k with parks := k.parks ++
      [⟨p.gid, sc, va, if timeout = 0 then none else some (s.clk + timeout.toNat), n.1, d, p.id⟩] }
  else
    (s.endPark p.gid p.id d 1).acquire g.team [va]

/-- Put an entry of the park table before the later ones. -/
def placeOrd (e : ParkEnt) : List ParkEnt → List ParkEnt
  | [] => [e]
  | x :: xs => if e.ord ≤ x.ord then e :: x :: xs else x :: placeOrd e xs

/-- Parks of the waker's tenant with its key, within its team, cluster or device (12 R283), in the order
of their registration. -/
def State.parkedOn (s : State) (g : Group) (sc : Scope) (va : Nat) : List ParkEnt :=
  let all := s.cores.flatMap fun e => e.2.parks
  let hit := all.filter fun e => e.sc == sc && e.va == va && (match s.group? e.gid with
    | none => false
    | some h => s.tenantOf h == s.tenantOf g && (match sc with
      | .grp | .team => h.team == g.team
      | .clu => ((s.teamOf h).map (·.cluster)) == ((s.teamOf g).map (·.cluster))
      | _ => true))
  hit.foldr placeOrd []

/-- Leave the park table. -/
def State.unpark (s : State) (e : ParkEnt) : State :=
  { s with cores := s.cores.mapVals fun _ k => { k with parks := k.parks.filter fun x => x.ord != e.ord } }

/-- A registered park is woken: an acquire at its scope (12 R283). -/
def State.wakePark (s : State) (e : ParkEnt) : State :=
  match s.group? e.gid with
  | none => s.unpark e
  | some g =>
    let pos : VPos := (⟨s.clusterEnd g, s.dev.pos⟩ : VPos).within e.sc
    let s := (s.unpark e).endPark e.gid e.tag e.d 0
    let s := s.modGroup e.gid fun g => { g with mem := { g.mem with fen := g.mem.fen.join pos } }
    s.acquire g.team [e.va]

def execWake (c : Ctl) (sc : Scope) (d : Opd) (a b : Src) (s : State) :
    Host.Outcome State Fault Refusal :=
  run { i := .wake c sc d a b, c := c, srcs := [scalUse a, scalUse b], dsts := [⟨d, 1, false⟩]
        ext := true } (fun g ls s =>
    ifAny ls s (
      let s := if cluUp sc then s.soil g.team else s
      .next (s.await s.cur g ((⟨d, 1, false⟩ : Use).cells ls)
        (.wake d sc (g.rdS a.o).toNat (g.rdS b.o)) (s.allEarlier s.cur)))) s

/-- PARK_TIMEOUT: the clocks of a registered park have passed. -/
def execParkTimeout (core slot : Nat) (s : State) : Host.Outcome State Fault Refusal :=
  event (match s.groupAt core slot with
    | none => s
    | some gid =>
      match (s.core core).parks.find? fun e => e.gid == gid with
      | some e => (match e.deadline with
        | some c => if c ≤ s.clk then (s.unpark e).endPark gid e.tag e.d 2 else s
        | none => s)
      | none => s) s

/-! ## ATOMIC_PERFORM -/

/-- A word of an atomic is performed: the level its data came from, where it is the sampled lane's, and its
place. -/
def Pend.after1 (p : Pend) (x : AWord) (lvl : Nat × Bool) (place : VPos) : Pend :=
  { p with lvl := if p.sampled = some x.va then lvl else p.lvl, place := p.place.join place }

/-- One event of the operation: the word named among those an atomic has left; the one event of `tkt`,
`tkts`, `wake`, and of the read of a `park`. -/
def execAtomicPerform (id word : Nat) (s : State) : Host.Outcome State Fault Refusal :=
  event (match s.pend? id with
    | none => s
    | some p =>
      match s.group? p.gid with
      | none => s.dropPend id
      | some g =>
        if !p.after.isEmpty then s else
        let cid := ((s.teamOf g).map (·.cluster)).getD 0
        match p.op with
        | .atom d op sc ty far ws done =>
          match ws[word]? with
          | none => s
          | some x =>
            let lvl := s.levelOf (x.key / 64) g.core
            let r := s.performWord p g sc far x (ty.width / 8) (fun o => atomFold op ty o x.lanes)
              (match op with | .exch => false | _ => true)
            let ws := ws.eraseIdx word
            let done := done ++ r.1
            let q := p.after1 x lvl r.2.1
            if ws.isEmpty then r.2.2.finishAtom q cid d ty.regs done
            else r.2.2.setPend { q with op := .atom d op sc ty far ws done }
        | .xadd sc ty ws pos =>
          match ws[word]? with
          | none => s
          | some x =>
            let lvl := s.levelOf (x.key / 64) g.core
            let r := s.performWord p g sc true x 40
              (fun o => (x.lanes.map fun l => (l.1, 0), xaddFold ty o x.lanes)) true
            let ws := ws.eraseIdx word
            let pos := r.1.foldl (fun (q : VPos) e => q.join e.pos) pos
            let q := p.after1 x lvl r.2.1
            if ws.isEmpty then r.2.2.finishAtom q cid none 1 [⟨0, 0, false, pos⟩]
            else r.2.2.setPend { q with op := .xadd sc ty ws pos }
        | .tkt d n =>
          match s.cluster? cid with
          | none => s.dropPend id
          | some c =>
            let t := c.ticket n
            let s := s.modCluster cid fun c => c.setTicket n { t with next := t.next + 1 }
            s.deliverS p d (n * 2 ^ 32 + t.next.toNat)
        | .tkts n => (s.dropPend id).serve g n
        | .park d sc key va expect timeout => s.parkRead p g d sc key va expect timeout
        | .wake d sc va limit =>
          let es := s.parkedOn g sc va
          let es := if limit = 0 then es else es.take limit.toNat
          let s := es.foldl State.wakePark (s.release g.team [va])
          s.deliverS p d es.length
        | _ => s) s

end Sys2Proof.Machine
end

