-- ==== Sys2Proof/Machine/Control.lean ====
section
/-!
DEFINITION. The control-flow instructions (04 R71 to R83) and the steps of the fetch path.
-/
namespace Sys2Proof.Machine

/-- A step of the stack, with what control then depends on for some lanes (04 R67). -/
def State.ctlAfter (gid : Nat) (m : Mask) (p : VPos) : Except Stop State → Except Stop State
  | .ok t => .ok (t.ctlOn gid m p)
  | e => e

/-- A branch (04 R71): the target is checked and the condition read for the group, whatever the guards; then the
lanes on transfer. -/
def branch (i : Instr) (c : Ctl) (srcs : List Use) (taken : Group → Bool) (target : Word64 → Word64)
    (s : State) : Host.Outcome State Fault Refusal :=
  run { i := i, c := c, srcs := srcs, grp := true, sh := .control } (fun g ls s =>
    let pc := g.ctl.pc
    let t := target pc
    let act := lanesOf g.ctl.act
    match checkTarget ((if ls.isEmpty then act else ls).map fun l => (l, t.toNat)) with
    | some ti => .trap ti s
    | none =>
      let set := if taken g then maskOf ls else 0
      stackEff s (State.ctlAfter s.cur g.ctl.act (g.depIn c srcs act)
        (s.transfer s.cur g set t (pc + BitVec.ofNat 64 (instrSize i))))) s

/-- ShortTarget and LongTarget (02 R22). -/
def shortTarget (off : BitVec 24) (pc : Word64) : Word64 := pc + 8 * off.signExtend 64
def longTarget (off : Word64) (pc : Word64) : Word64 := pc + off

/-- Test (04 R71). -/
def brTest (cc : BrCc) (w : Word64) : Bool :=
  match cc with
  | .z => w == 0
  | .nz => w != 0
  | .neg => w.msb
  | .nneg => !w.msb

def execNop (c : Ctl) (s : State) : Host.Outcome State Fault Refusal :=
  run { i := .nop c, c := c } (fun _ _ s => .next s) s

def execBra (c : Ctl) (off : BitVec 24) (s : State) : Host.Outcome State Fault Refusal :=
  branch (.bra c off) c [] (fun _ => true) (shortTarget off) s

def execBraLong (c : Ctl) (off : Word64) (s : State) : Host.Outcome State Fault Refusal :=
  branch (.braLong c off) c [] (fun _ => true) (longTarget off) s

def execBru (c : Ctl) (cc : BrCc) (a : Src) (off : BitVec 24) (s : State) :
    Host.Outcome State Fault Refusal :=
  branch (.bru c cc a off) c [scalUse a] (fun g => brTest cc (g.rdS a.o)) (shortTarget off) s

def execBruLong (c : Ctl) (cc : BrCc) (a : Src) (off : Word64) (s : State) :
    Host.Outcome State Fault Refusal :=
  branch (.bruLong c cc a off) c [scalUse a] (fun g => brTest cc (g.rdS a.o)) (longTarget off) s

/-- `brx` (04 R72): the partition with the lowest active lane runs first. -/
def execBrx (c : Ctl) (a : Src) (s : State) : Host.Outcome State Fault Refusal :=
  let srcs : List Use := [⟨a.o, 2, a.bang⟩]
  run { i := .brx c a, c := c, srcs := srcs, sh := .control } (fun g ls s =>
    let pc := g.ctl.pc
    let on := maskOf ls
    let tgt (l : Nat) : Word64 := if on.toNat.testBit l then BitVec.ofNat 64 (g.rdN a.o 2 l) else pc + 8
    let act := lanesOf g.ctl.act
    match checkTarget (ls.map fun l => (l, (tgt l).toNat)) with
    | some ti => .trap ti s
    | none =>
      let p := g.depIn c srcs act
      match act with
      | [] => .jump (s.setCtl s.cur { g.ctl with pc := pc + 8 })
      | l0 :: rest =>
        if rest.all fun l => tgt l == tgt l0 then
          let s := (s.setCtl s.cur { g.ctl with pc := tgt l0 }).ctlOn s.cur g.ctl.act p
          .jump (if tgt l0 = pc + 8 then s else s.emitPC s.cur ctlBM tyIND pc [] (some (tgt l0)))
        else
          stackEff s (State.ctlAfter s.cur g.ctl.act p do
            let e : Entry := ⟨0, g.ctl.act, g.ctl.act, pc, 0, .brx⟩
            let (ct, s) ← s.push32 s.cur g g.ctl e
            let (m, t, s) ← s.nextPartition s.cur g e g.ctl.act
            let s := s.setCtl s.cur { ct.setTop { e with pend := g.ctl.act &&& ~~~m } with
              act := m, pc := t }
            .ok (s.emitPC s.cur ctlBM tyDIV pc (leBytes 4 m.toNat) (some t)))) s

/-! ## Calls (04 R73 to R75) -/

/-- A budget word fits (03 R54; 04 R73). -/
def State.budgetFits (s : State) (g : Group) (w : Nat) : Bool :=
  match s.teamOf g, s.gridOf g with
  | some t, some n => bitsAt w 0 8 ≤ t.hdr.vcnt && bitsAt w 8 8 ≤ t.hdr.xcnt
      && bitsAt w 16 8 ≤ t.hdr.scnt && bitsAt w 24 8 == 0 && bitsAt w 32 32 ≤ n.rcd.stack
  | _, _ => false

/-- FetchBudget of every target in turn: the words, or the state in which the group waits for one. -/
def State.budgets (s : State) (gid : Nat) (g : Group) : List Word64 → Except State (List (Word64 × Nat) × State)
  | [] => .ok ([], s)
  | u :: us =>
    match s.insWord gid g u with
    | .error t => .error t
    | .ok (w, s) =>
      match s.budgets gid g us with
      | .error e => .error e
      | .ok (r, s) => .ok ((u, w) :: r, s)

/-- `call` and `callx` (04 R74). `direct`: the one target of `call`. -/
def callBody (direct : Option (Word64 → Word64)) (c : Ctl) (a : Opd) (srcs : List Use) (size : Nat)
    (g : Group) (ls : List Nat) (s : State) : Eff :=
  let pc := g.ctl.pc
  if ls.isEmpty then .next s else
  let tgt (l : Nat) : Word64 := match direct with
    | some f => f pc
    | none => BitVec.ofNat 64 (g.rdN a 2 l)
  match checkTarget (ls.map fun l => (l, (tgt l).toNat)) with
  | some ti => .trap ti s
  | none =>
    match s.budgets s.cur g (ls.map tgt) with
    | .error t => .wait t
    | .ok (ws, s) =>
      let word (l : Nat) : Nat := ((ws.find? fun e => e.1 == tgt l).map (·.2)).getD 0
      let bad := ls.filter fun l => !s.budgetFits g (word l)
      if !bad.isEmpty then .trap (trapOf 8 0 bad) s
      else
        let on := maskOf ls
        let next := pc + BitVec.ofNat 64 size
        stackEff s (match direct with
          | some f => do
            let (ct, s) ← s.push32 s.cur g g.ctl ⟨next, 0, g.ctl.act, 0, 0, .call⟩
            let u := f pc
            let s := s.setCtl s.cur { ct with act := on, pc := u + 8 }
            .ok (if on = g.ctl.act then s.emitPC s.cur ctlBM tyBR pc [] none
              else s.emitPC s.cur ctlBM tyDIV pc (leBytes 4 on.toNat) (some (u + 8)))
          -- `callx` is among the instructions of 04 R67, `call` is not
          | none => State.ctlAfter s.cur g.ctl.act (g.depIn c srcs (lanesOf g.ctl.act)) do
            let e : Entry := ⟨next, on, g.ctl.act, pc, 0, .callx⟩
            let (ct, s) ← s.push32 s.cur g g.ctl e
            let (m, u, s) ← s.nextPartition s.cur g e on
            let s := s.setCtl s.cur { ct.setTop { e with pend := on &&& ~~~m } with
              act := m, pc := u + 8 }
            .ok (if m = g.ctl.act then s.emitPC s.cur ctlBM tyIND pc [] (some (u + 8))
              else s.emitPC s.cur ctlBM tyDIV pc (leBytes 4 m.toNat) (some (u + 8))))

def execCall (c : Ctl) (off : BitVec 24) (s : State) : Host.Outcome State Fault Refusal :=
  run { i := .call c off, c := c, sh := .control }
    (callBody (some (shortTarget off)) c (.v 0) [] 8) s

def execCallLong (c : Ctl) (off : Word64) (s : State) : Host.Outcome State Fault Refusal :=
  run { i := .callLong c off, c := c, sh := .control }
    (callBody (some (longTarget off)) c (.v 0) [] 16) s

def execCallx (c : Ctl) (a : Src) (s : State) : Host.Outcome State Fault Refusal :=
  run { i := .callx c a, c := c, srcs := [⟨a.o, 2, a.bang⟩], sh := .control }
    (callBody none c a.o [⟨a.o, 2, a.bang⟩] 8) s

/-- `ret` (04 R75). -/
def execRet (s : State) : Host.Outcome State Fault Refusal :=
  run { i := .ret, c := .always, sh := .control } (fun g _ s =>
    let pc := g.ctl.pc
    match s.fillTop s.cur g g.ctl with
    | .error (.wait t) => .wait t
    | .error (.trap t) => .trap t s
    | .ok (ct, s) =>
      match ct.stack with
      | [] => s.exitLanes s.cur { g with ctl := ct } ct.act (pc + 8)
      | e :: _ =>
        if e.kind = .div ∨ e.kind = .brx then .trap (trapOf 0 1 (lanesOf g.ctl.act)) s
        else
          let p := e.pend &&& ~~~ct.ex
          if p ≠ 0 then
            match s.nextPartition s.cur g e p with
            | .error (.wait t) => .wait t
            | .error (.trap t) => .trap t s
            | .ok (m, u, s) =>
              let s := s.setCtl s.cur { ct.setTop { e with pend := p &&& ~~~m } with
                act := m, pc := u + 8 }
              .jump (if m = ct.act then s.emitPC s.cur ctlBM tyIND pc [] (some (u + 8))
                else s.rcv s.cur pc m (u + 8))
          else
            let act := e.restore &&& ~~~ct.ex
            if act = 0 then s.resumeAfter s.cur g ct.pop id
            else
              let s := s.setCtl s.cur { ct.pop with act := act, pc := e.pc }
              let s := if e.kind = .call then s else s.joinCtl s.cur act
              .jump (if act = ct.act then s.emitPC s.cur ctlBM tyIND pc [] (some e.pc)
              else s.rcv s.cur pc act e.pc)) s

/-- `join` (04 R76). -/
def execJoin (s : State) : Host.Outcome State Fault Refusal :=
  run { i := .join, c := .always, sh := .control } (fun g _ s => stackEff s (s.joinAt s.cur g)) s

/-- `exit` (04 R77). -/
def execExit (c : Ctl) (s : State) : Host.Outcome State Fault Refusal :=
  run { i := .exit c, c := c, sh := .control } (fun g ls s =>
    match s.exitLanes s.cur g (maskOf ls) (g.ctl.pc + 8) with
    | .jump t => .jump (t.ctlOn s.cur g.ctl.act (g.depIn c [] (lanesOf g.ctl.act)))
    | e => e) s

/-! ## Predicates (04 R78, R79) -/

/-- The truth table of `plog`. -/
def plogBit (tt : BitVec 4) (a b : Bool) : Bool := tt.toNat.testBit (2 * bit a + bit b)

def predOf (g : Group) (o : Opd) (l : Nat) : Bool :=
  match o with | .p n => g.predAt n l | _ => false

def execPlog (c : Ctl) (d a b : Opd) (tt : BitVec 4) (s : State) : Host.Outcome State Fault Refusal :=
  run { i := .plog c d a b tt, c := c, srcs := [⟨a, 1, false⟩, ⟨b, 1, false⟩], dsts := [⟨d, 1, false⟩] }
    (fun g ls s => .next (s.modGroup s.cur fun h => h.putLanes d 1 (maskOf ls) fun l =>
      bit (plogBit tt (predOf g a l) (predOf g b l)))) s

/-- A vote (04 R79): the lanes G, and Q among them. -/
def vote (i : Instr) (c : Ctl) (d a : Opd) (f : List Nat → List Nat → Nat → Nat) (s : State) :
    Host.Outcome State Fault Refusal :=
  run { i := i, c := c, srcs := [⟨a, 1, false⟩], dsts := [⟨d, 1, false⟩], cross := true }
    (fun g ls s =>
      let q := ls.filter (predOf g a)
      .next (match d with
        | .s _ => if ls.isEmpty then s else s.putS s.cur d (f ls q 0)
        | _ => s.modGroup s.cur fun h => h.putLanes d 1 (maskOf ls) (f ls q))) s

def execVoteAll (c : Ctl) (d a : Opd) (s : State) : Host.Outcome State Fault Refusal :=
  vote (.voteAll c d a) c d a (fun ls q _ => bit (q == ls)) s
def execVoteAny (c : Ctl) (d a : Opd) (s : State) : Host.Outcome State Fault Refusal :=
  vote (.voteAny c d a) c d a (fun _ q _ => bit (!q.isEmpty)) s
def execVoteLeader (c : Ctl) (d a : Opd) (s : State) : Host.Outcome State Fault Refusal :=
  vote (.voteLeader c d a) c d a (fun _ q l => bit (q.head? == some l)) s
def execVoteBallot (c : Ctl) (scal : Bool) (d a : Opd) (s : State) :
    Host.Outcome State Fault Refusal :=
  vote (.voteBallot c scal d a) c d a (fun _ q _ => (maskOf q).toNat) s

/-! ## The instruction caches (04 R80, R81) -/

/-- The 256-byte lines of [base, base + len) modulo 2^64, ascending; none when len is 0. -/
def linesIn (base : Word64) (len : Nat) : List Nat :=
  if len = 0 then [] else
    (List.range ((base.toNat % 256 + len - 1) / 256 + 1)).map fun i => (base.toNat / 256 + i) % 2 ^ 56

/-- The lines of a range enter a scheduler's L0i, as far as L1i holds them (04 R80). -/
def State.linesToL0 (s : State) (core tenant sched : Nat) (ns : List Nat) : State :=
  (ns.takeWhile fun n => (s.heldLine core tenant n).isSome).foldl (fun s n =>
    match s.heldLine core tenant n with
    | some e => s.fillL0i core sched n e
    | none => s) s

def execIpf (c : Ctl) (l0 : Bool) (a b : Src) (s : State) : Host.Outcome State Fault Refusal :=
  let req (g : Group) (ls : List Nat) (s : State) : State :=
    if ls.isEmpty then s
    else
      let ns := linesIn (g.rdS a.o) (min (g.rdS b.o).toNat 524288)
      let s := s.requestLines g.core (s.tenantOf g) ns
      if l0 then s.linesToL0 g.core (s.tenantOf g) (g.slot % 4) ns else s
  let srcs : List Use := [scalUse a, scalUse b]
  run { i := .ipf c l0 a b, c := c, srcs := srcs, sh := .fetch srcs req }
    (fun g ls s => .next (req g ls s)) s

def execIinv (c : Ctl) (d : Opd) (a b : Src) (s : State) : Host.Outcome State Fault Refusal :=
  run { i := .iinv c d a b, c := c, srcs := [scalUse a, scalUse b], dsts := [⟨d, 1, false⟩], ext := true }
    (fun g ls s => ifAny ls s (.next (s.await s.cur g ((⟨d, 1, false⟩ : Use).cells ls)
      (.iinv d (g.rdS a.o).toNat (g.rdS b.o).toNat)))) s

/-- Does a line, or a word of 8 bytes, from an address on meet a virtual range? A range that passes 2^64 goes on
at 0, as that of `ipf` does (log 26). -/
def addrMeets (size a base len : Nat) : Bool :=
  len != 0 && ((a + 2 ^ 64 - base % 2 ^ 64) % 2 ^ 64 < len || (base + 2 ^ 64 - a % 2 ^ 64) % 2 ^ 64 < size)
def lineMeets (n base len : Nat) : Bool := addrMeets 256 (256 * n) base len

/-- The range leaves every L0i, L1i and fetch buffer of the device (04 R81). -/
def State.dropInstr (s : State) (base len : Nat) : State :=
  { s with
    cores := s.cores.mapVals fun _ c => { c with
      l1i := c.l1i.filter fun e => !lineMeets e.1 base len
      l0i := c.l0i.filter fun e => !lineMeets (e.1 % 2 ^ 58) base len }
    groups := s.groups.mapVals fun _ g => { g with fbuf := g.fbuf.filter fun e => !addrMeets 8 e.1 base len } }

/-- Every core has dropped the range's lines (04 R81). -/
def execIinvDone (id : Nat) (s : State) : Host.Outcome State Fault Refusal :=
  event (match s.pend? id with
    | some p =>
      match p.op with
      | .iinv d base len => (s.dropInstr base len).deliverS p d 0
      | _ => s
    | none => s) s

/-! ## runa (04 R82) -/

def setRunAhead (i : Instr) (c : Ctl) (on : Bool) (s : State) : Host.Outcome State Fault Refusal :=
  run { i := i, c := c } (fun g ls s => ifAny ls s (.next
    (if on && !s.hdrFlag g 4 then s else s.modGroup s.cur fun h => { h with runAhead := on }))) s

def execRunaOn (c : Ctl) (s : State) : Host.Outcome State Fault Refusal := setRunAhead (.runaOn c) c true s
def execRunaOff (c : Ctl) (s : State) : Host.Outcome State Fault Refusal := setRunAhead (.runaOff c) c false s

/-! ## Steps of the fetch path -/

def execFetchFill (core line : Nat) (s : State) : Host.Outcome State Fault Refusal :=
  event (s.fetchFill core line) s

/-- 256 instructions have issued in shadow mode: it issues nothing further (04 R68). -/
def execShadowLimitReached (core slot : Nat) (s : State) : Host.Outcome State Fault Refusal :=
  event (match s.groupAt core slot with
    | none => s
    | some gid => s.modGroup gid fun g =>
        match g.shadow with
        | some sh => if 256 ≤ sh.count then { g with shadow := some { sh with issuing := false } } else g
        | none => g) s

end Sys2Proof.Machine
end

