-- ==== Sys2Proof/Machine/Sched.lean ====
section
/-!
DEFINITION. Time, the stall counters (21 R457, R458), and the choice of the group a scheduler issues
from (14 R315).
-/
namespace Sys2Proof.Machine

/-- May the group issue now? -/
def State.issuable (s : State) (gid : Nat) (g : Group) : Bool :=
  match s.team? g.team with
  | none => false
  | some t =>
    !g.ended && t.resident && !g.frozen && !t.railHold && g.held.isNone && g.want.isNone
      && (g.park.isNone || (match g.shadow with | some sh => sh.issuing | none => false))
      && !g.sys.stopped && g.sys.skid != some 0
      && (!t.halted || g.sys.skid.isSome
          || (t.trapper == some gid && !t.agent && (g.sys.high || g.sys.stepping)))
      && (g.ctl.act != 0 || !(g.ctl.stack.isEmpty && s.committing gid))

/-- Groups that are ready, and whose scheduler has not issued in this clock. A group whose last attempt was
held is ready once another would not be (`again`; 21 R458). -/
def State.ready (s : State) (again : Nat → Bool) : List (Nat × Group) :=
  let busy := s.groups.filter fun e => e.2.issuedAt == s.clk + 1
  s.groups.filter fun e => s.issuable e.1 e.2 && (e.2.stall == 0 || again e.1) &&
    !busy.any fun b => b.2.core == e.2.core && b.2.slot % 4 == e.2.slot % 4

def State.prioOf (s : State) (g : Group) : Nat := ((s.gridOf g).map (·.rcd.prio)).getD 3

/-- The better of two ready groups of one scheduler (14 R315). -/
def State.better (s : State) (a b : Nat × Group) : Bool :=
  let forced (e : Nat × Group) : Bool := 1024 ≤ s.clk - e.2.readySince
  let greedy (e : Nat × Group) : Bool := e.2.issuedAt == s.clk && s.clk != 0 &&
    AMap.get 0 (s.core e.2.core).lastIssue (e.2.slot % 4) == e.1 + 1
  let yielded (e : Nat × Group) : Bool := e.2.yieldAt == s.clk && s.clk != 0
  if yielded a != yielded b then yielded b
  else if forced a || forced b then
    if forced a && forced b then a.2.readySince < b.2.readySince ||
      (a.2.readySince == b.2.readySince && a.2.slot < b.2.slot)
    else forced a
  else if s.prioOf a.2 != s.prioOf b.2 then s.prioOf a.2 < s.prioOf b.2
  else if greedy a || greedy b then greedy a
  else a.2.age < b.2.age || (a.2.age == b.2.age && a.2.slot < b.2.slot)

/-- The groups chosen: of each scheduler, the one that no other is better than. Those of one team take their
turns of one clock in the order of their slots, so that of two that trap in it the lower slot is the trapping
group (18 R395). -/
def State.issueCands (s : State) (again : Nat → Bool) : List Nat :=
  let r := s.ready again
  let best := r.filter fun e => r.all fun b => b.1 == e.1 || b.2.core != e.2.core
    || b.2.slot % 4 != e.2.slot % 4 || !s.better b e
  (best.filter fun e => (best.all fun b => b.2.team != e.2.team || e.2.slot ≤ b.2.slot) &&
    s.groups.all fun b => b.2.team != e.2.team || b.2.slot ≤ e.2.slot || b.2.triedAt != s.clk + 1).map (·.1)

/-! ## Time -/

/-- Where the line that a fetch waits for is found (04 R58): 0x1D in L0i, 0x1A in L1i, 0x1B in the die's L2,
0x1C beyond. -/
def State.fetchCause (s : State) (g : Group) (va : Nat) : Nat :=
  if (s.l0Line g (va / 256)).isSome then 0x1D
  else if ((s.core g.core).l1i.at? (va / 256)).isSome then 0x1A
  else match s.tlbLookup g.core (s.tenantOf g) va with
    | some l => if (s.line (lineOf (l.key va))).l2.has (4 * s.dieOf g.core + l.key va / 64 % 4) then 0x1B else 0x1C
    | none => 0x1C

/-- The counter a group that does not issue is charged to (21 R458), and the cause of a fetch stall
(04 R58). A group that nothing else holds waits for the pipes where its scheduler has chosen no other. -/
def State.stallOf (s : State) (gid : Nat) (g : Group) (others : Bool) : Nat × Option Nat :=
  let halted := ((s.teamOf g).map (·.halted)).getD false
  let running : Bool := g.park.isNone || (match g.shadow with | some sh => sh.issuing | none => false)
  if g.sys.stopped || g.frozen || (halted && !s.issuable gid g) then (0x12, none)
  else if g.stall = 1 then (0x13, none)
  else match g.want with
    | some va => (0x14, some (s.fetchCause g va))
    | none =>
      if !running then (match g.park, g.shadow with
        | some (.empty _), none => (0x16, none)
        | _, _ => (0x15, none))
      else if g.stall = 3 then (0x15, none)
      else if g.stall = 2 || g.held.isSome then (0x17, none)
      else if others then (0x19, none)
      else (0x18, none)

/-- Charge a group-clock count. -/
def Core.charge (k : Core) (c : Nat × Option Nat) (n : Nat) : Core :=
  if n = 0 then k else
    let k := k.count c.1 n
    match c.2 with | none => k | some m => k.count m n

/-- Clocks pass: time, the stall counters of every resident group, what `sleep` counts, and how long each
group has been ready (14 R315; 21 R445). -/
def State.pass (s : State) (dt : Nat) : State :=
  let res := s.groups.filter fun e => !e.2.ended &&
    ((s.teamOf e.2).map (·.resident)).getD false
  let s' := if dt = 0 then s else res.foldl (fun s' e =>
    let issued := e.2.issuedAt == s.clk + 1
    let others := res.any fun b => b.1 != e.1 && b.2.core == e.2.core && b.2.slot % 4 == e.2.slot % 4
      && b.2.issuedAt == s.clk + 1
    s'.modCore e.2.core fun k =>
      (if issued then k else k.charge (s.stallOf e.1 e.2 others) 1).charge (s.stallOf e.1 e.2 false) (dt - 1)) s
  { s' with
    clk := s.clk + dt
    time9 := s.time9 + dt * (if s.boot.stage = 3 then 16 else 32)
    groups := s'.groups.mapVals fun k g =>
      let g := if dt = 0 || (s.issuable k g && g.stall == 0) then g else { g with readySince := s.clk + dt }
      match g.park with
      | some (.sleep n) => if g.frozen then g else { g with park := some (.sleep (n - dt)) }
      | _ => g }

end Sys2Proof.Machine
end

