-- ==== Sys2Proof/Machine/Treadle.lean ====
section
/-!
DEFINITION. The Treadle's reading of launches, their refusal, and the placement of clusters
(14 R293 to R309; 03 R51 to R53).
-/
namespace Sys2Proof.Machine

/-! ## Records and headers -/

/-- n bytes of a block from an offset, as a number. -/
def leAt (bs : List Byte) (o n : Nat) : Nat := leNat ((bs.drop o).take n)

/-- A launch record (14 Table 14-1). -/
def recordOf (bs : List Byte) : Record where
  entry := leAt bs 0 8
  gx := leAt bs 0x08 2
  gy := leAt bs 0x0A 2
  gz := leAt bs 0x0C 2
  g := leAt bs 0x0E 1
  w := leAt bs 0x0F 1 % 16
  h := leAt bs 0x0F 1 / 16
  fit := bitAt (leAt bs 0x10 1) 0
  side := bitAt (leAt bs 0x10 1) 1
  prio := leAt bs 0x11 1 % 4
  tenant := leAt bs 0x12 1
  creg := leAt bs 0x14 1
  cscr := leAt bs 0x15 1
  cl1 := leAt bs 0x16 1
  seed := leAt bs 0x18 8
  slots := (List.range 8).map fun i => BitVec.ofNat 64 (leAt bs (0x20 + 8 * i) 8)
  arg := BitVec.ofNat 64 (leAt bs 0x60 8)
  spill := leAt bs 0x68 8
  stack := leAt bs 0x70 4
  ctask := BitVec.ofNat 64 (leAt bs 0x78 8)
  crec := leAt bs 0x80 8
  binsAt := leAt bs 0x88 8
  stkbase := leAt bs 0x90 8

/-- A reserved field of a launch record is not zero. -/
def recordReserved (bs : List Byte) : Bool :=
  leAt bs 0x10 1 / 4 != 0 || leAt bs 0x11 1 / 4 != 0 || leAt bs 0x13 1 != 0 || leAt bs 0x17 1 != 0
    || leAt bs 0x74 4 != 0 || leAt bs 0x98 104 != 0

def Record.clusters (r : Record) : Nat := r.gx * r.gy * r.gz
def Record.groups (r : Record) : Nat := r.w * r.h * r.g
def Record.carve (r : Record) : Nat × Nat × Nat := (r.creg, r.cscr, r.cl1)

def ringDescOf (bs : List Byte) : RingDesc :=
  ⟨leAt bs 0 4, leAt bs 4 4, leAt bs 8 1, leAt bs 10 2, leAt bs 12 2⟩

/-- A ring descriptor is well formed (03 R53). -/
def ringDescOk (bs : List Byte) (scratch : Nat) : Bool :=
  let d := ringDescOf bs
  d.base % 256 == 0 && d.stage % 256 == 0 && d.stage != 0
    && (d.depth == 2 || d.depth == 4 || d.depth == 8 || d.depth == 16)
    && leAt bs 9 1 == 0 && leAt bs 14 2 == 0
    && d.pbar < 32 && d.cbar < 32 && d.pbar != d.cbar
    && d.base + d.depth * d.stage ≤ scratch

/-- No two rings overlap, and no barrier word is named twice (03 R53). -/
def ringsOk (ds : List RingDesc) : Bool :=
  let ix := List.range ds.length
  ix.all fun i => ix.all fun j => i == j || (match ds[i]?, ds[j]? with
    | some a, some b =>
      !(overlap a.base (a.depth * a.stage) b.base (b.depth * b.stage))
        && a.pbar != b.pbar && a.pbar != b.cbar && a.cbar != b.pbar && a.cbar != b.cbar
    | _, _ => true)

/-- A kernel header (03 Table 3-4), with its ring descriptors. -/
def headerOf (bs rings : List Byte) : Header where
  flags := leAt bs 0x06 2
  vcnt := leAt bs 0x08 1
  xcnt := leAt bs 0x09 1
  scnt := leAt bs 0x0A 1
  maxg := leAt bs 0x0B 1
  scratch := leAt bs 0x0C 4
  roles := (leAt bs 0x10 1, leAt bs 0x11 1, leAt bs 0x12 1)
  rings := (List.range (rings.length / 16)).map fun i => ringDescOf (rings.drop (16 * i))
  arith := leAt bs 0x1C 4
  expect := leAt bs 0x20 8
  side := leAt bs 0x28 8
  fmts := leAt bs 0x30 1
  acc := leAt bs 0x31 1
  bins := leAt bs 0x32 2

def Header.roleSum (h : Header) : Nat := h.roles.1 + h.roles.2.1 + h.roles.2.2
/-- The bins a header uses. -/
def Header.binList (h : Header) : List Nat := (List.range 16).filter fun b => bitAt h.bins b

/-- A header is well formed (03 R52). -/
def headerOk (bs rings : List Byte) : Bool :=
  let h := headerOf bs rings
  let n := leAt bs 0x14 1
  let off := leAt bs 0x18 4
  leAt bs 0 4 == 0x4B584649 && leAt bs 4 2 == 1 && h.flags / 64 == 0
    && h.vcnt % 8 == 0 && h.vcnt ≤ 192 && h.xcnt % 8 == 0 && h.xcnt ≤ 64 && h.scnt % 8 == 0 && h.scnt ≤ 64
    && 1 ≤ h.maxg && h.maxg ≤ 128 && h.scratch % 256 == 0 && h.roleSum ≤ h.maxg
    && leAt bs 0x13 1 == 0 && n ≤ 8 && leAt bs 0x15 3 == 0
    && off % 16 == 0 && (off != 0) == (n != 0) && h.arith / 32 == 0
    && bitAt h.flags 3 == (h.xcnt != 0) && bitAt h.flags 1 == (h.side != 0)
    && h.acc ≤ 8 && leAt bs 0x34 12 == 0
    && h.rings.length == n && ringsOk h.rings
    && (List.range n).all fun i => ringDescOk ((rings.drop (16 * i)).take 16) h.scratch

/-- A signed 32-bit offset added to an address. -/
def addSigned (a off : Nat) : Nat := (a + off + (if off < 2 ^ 31 then 0 else 2 ^ 64 - 2 ^ 32)) % 2 ^ 64

/-- Read the header before an entry, and its ring descriptors (14 R294): the two blocks. -/
def State.readHeader (s : State) (tenant entry : Nat) : Option (List Byte × List Byte) × State :=
  let a := (entry + 2 ^ 64 - 64) % 2 ^ 64
  let r := s.readVirt tenant a 64
  match r.1 with
  | none => (none, r.2)
  | some bs =>
    if leAt bs 0x18 4 = 0 then (some (bs, []), r.2) else
      let q := r.2.readVirt tenant (addSigned a (leAt bs 0x18 4)) (16 * leAt bs 0x14 1)
      (q.1.map fun rs => (bs, rs), q.2)

/-! ## What a core holds (14 R304, R309) -/

/-- What the teams of a core hold of it; no owner while it holds none. -/
structure CoreUse where
  teams : Nat := 0
  groups : Nat := 0
  vreg : Nat := 0
  xreg : Nat := 0
  scratch : Nat := 0
  acc : Nat := 0
  owner : Option (Nat × Nat × Nat × Nat) := none
  bins : AMap Nat := []
  drain : Bool := false
deriving DecidableEq, Repr

/-- The entry and timer a bin of a core is bound to (14 R309). -/
def State.binBound (s : State) (core b : Nat) : Option (Nat × Nat) :=
  let k := s.core core
  let bin := AMap.get {} k.bins b
  let used := k.teams.any fun t => match s.team? t with
    | none => false
    | some tm => bitAt tm.hdr.bins b || (tm.bin.map (·.1)) == some b
  if used || !bin.lanes.isEmpty then bin.entry else none

/-- The use of a core now. -/
def State.coreUse (s : State) (core : Nat) : CoreUse :=
  let k := s.core core
  let ts := k.teams.filterMap s.team?
  let sum (f : Team → Nat) : Nat := (ts.map f).sum
  { teams := ts.length
    groups := (s.groups.filter fun e => e.2.core == core && !e.2.ended
      && ((s.team? e.2.team).map (·.resident)).getD false).length
    vreg := sum fun t => 128 * t.groups.length * t.hdr.vcnt
    xreg := sum fun t => 128 * t.groups.length * t.hdr.xcnt
    scratch := sum fun t => t.hdr.scratch
    acc := sum fun t => t.hdr.acc
    owner := ts.head?.map fun t => (s.teamTenant t, k.creg, k.cscr, k.cl1)
    bins := (List.range 16).filterMap fun b => (s.binBound core b).map fun e => (b, e.1)
    drain := ts.any fun t => match t.treat with | .drain _ => true | _ => false }

/-- What a team asks of a core. -/
structure Need where
  tenant : Nat
  carve : Nat × Nat × Nat
  hdr : Header
  /-- The bins it uses, with their entries. -/
  bins : List (Nat × Nat)

/-- A core is eligible for a team of a launch (14 R304; 18 R401 for a core with a draining team). -/
def CoreUse.eligible (u : CoreUse) (n : Need) : Bool :=
  !u.drain && (match u.owner with
    | none => true
    | some o => o == (n.tenant, n.carve.1, n.carve.2.1, n.carve.2.2))

/-- A core has room for a team of g groups (14 R304). -/
def CoreUse.room (u : CoreUse) (n : Need) (g : Nat) : Bool :=
  u.teams < 16 && u.groups + g ≤ 512
    && u.vreg + 128 * g * n.hdr.vcnt ≤ n.carve.1 * 65536
    && u.xreg + 128 * g * n.hdr.xcnt ≤ 786432
    && u.scratch + n.hdr.scratch ≤ n.carve.2.1 * 65536
    && u.acc + n.hdr.acc ≤ 8
    && n.bins.all fun e => match u.bins.at? e.1 with
      | none => true
      | some a => a == e.2

/-- A team is added. -/
def CoreUse.plus (u : CoreUse) (n : Need) (g : Nat) : CoreUse :=
  { u with
    teams := u.teams + 1
    groups := u.groups + g
    vreg := u.vreg + 128 * g * n.hdr.vcnt
    xreg := u.xreg + 128 * g * n.hdr.xcnt
    scratch := u.scratch + n.hdr.scratch
    acc := u.acc + n.hdr.acc
    owner := some (n.tenant, n.carve.1, n.carve.2.1, n.carve.2.2)
    bins := n.bins.foldl (fun m e => AMap.set m e.1 e.2) u.bins }

/-! ## Placement (14 R301 to R305, R307) -/

def placeHash (seed index : Nat) : Nat :=
  let m := 2 ^ 64
  let h := seed ^^^ (index * 0x9E3779B97F4A7C15 % m)
  let h := h ^^^ (h / 2 ^ 31)
  let h := h * 0xD6E8FEB86659FD93 % m
  let h := h ^^^ (h / 2 ^ 29)
  let h := h * 0x9FB21C651E98DF25 % m
  h ^^^ (h / 2 ^ 32)

/-- Pick (14 R301). -/
def pickOf (h e : Nat) (room : Nat → Bool) : Option Nat :=
  let step := (h / 2 ^ 32) ||| 1
  let a (i : Nat) : Nat := (h + i * step) % 2 ^ 64 % e
  let b (j : Nat) : Nat := (h % e + j) % e
  ((List.range e).find? fun i => room (a i)).map a |>.orElse fun _ =>
    ((List.range e).find? fun j => room (b j)).map b

/-- The shape of a cluster: rectangle, groups, mode; the number of its teams where that is settled
already (18 R404). -/
structure Shape where
  w : Nat
  h : Nat
  g : Nat
  fit : Bool
  teams : Option Nat := none

def Shape.total (p : Shape) : Nat := p.w * p.h * p.g

/-- Groups of each of T teams (14 R307). -/
def Shape.sizes (p : Shape) (t : Nat) : List Nat := (List.range t).map fun i => (p.total - i + (t - 1)) / t

/-- The enabled sites of the rectangle at an origin, in ascending order. -/
def State.rectSites (s : State) (p : Shape) (o : Nat) : List Nat :=
  ((List.range p.h).flatMap fun y => (List.range p.w).map fun x => o + 6 * y + x).filter s.siteOn

/-- Is a site a placement origin (14 R305)? -/
def State.isOrigin (s : State) (use : Nat → CoreUse) (p : Shape) (n : Need) (o : Nat) : Bool :=
  let x := o % 6
  let y := o % 36 / 6
  let en := s.rectSites p o
  let ec := en.length
  x + p.w ≤ 6 && y + p.h ≤ 6 && ec != 0
    && en.all (fun q => (use q).eligible n)
    && (match p.teams with | none => true | some t => ec == t)
    && (if p.fit then
          let g := (p.total + (ec - 1)) / ec
          g ≤ min 128 n.hdr.maxg && ({} : CoreUse).room { n with bins := [] } g
        else ec == p.w * p.h)

def State.origins (s : State) (use : Nat → CoreUse) (p : Shape) (n : Need) : List Nat :=
  (List.range 144).filter (s.isOrigin use p n)

/-- Every enabled core of the rectangle has room for its team (14 R302). -/
def State.hasRoom (s : State) (use : Nat → CoreUse) (p : Shape) (n : Need) (o : Nat) : Bool :=
  let en := s.rectSites p o
  (en.zip (p.sizes en.length)).all fun e => (use e.1).room n e.2

/-- The origin of a cluster. `use` gives the use of a site. -/
def State.pickOrigin (s : State) (use : Nat → CoreUse) (p : Shape) (n : Need) (seed index : Nat) :
    Option Nat :=
  let os := s.origins use p n
  match pickOf (placeHash seed index) os.length fun c => s.hasRoom use p n (os.getD c 0) with
  | none => none
  | some c => os[c]?

/-- The use of a site now. -/
def State.siteUse (s : State) (psi : Nat) : CoreUse := s.coreUse (s.coreOfPsi psi)

/-- How many clusters of a grid fit, one after the other, on cores used so (14 R295, code 6). -/
def State.planAll (s : State) (p : Shape) (n : Need) (seed : Nat) : Nat → Nat → AMap CoreUse → Bool
  | 0, _, _ => true
  | k + 1, i, u =>
    match s.pickOrigin (fun q => AMap.get {} u q) p n seed i with
    | none => false
    | some o =>
      let en := s.rectSites p o
      let u := (en.zip (p.sizes en.length)).foldl (fun (u : AMap CoreUse) e =>
        AMap.set u e.1 ((AMap.get {} u e.1).plus n e.2)) u
      s.planAll p n seed k (i + 1) u

/-! ## Refusal (14 R295) -/

def Record.shape (r : Record) : Shape := ⟨r.w, r.h, r.g, r.fit, none⟩

def needOf (r : Record) (h : Header) (binTab : List (Nat × Nat)) : Need where
  tenant := r.tenant
  carve := r.carve
  hdr := h
  bins := h.binList.map fun b => (b, (binTab.getD b (0, 0)).1)

/-- A bin descriptor that a header uses is as R309 gives it. -/
def binDescOk (bs : List Byte) : Bool :=
  leAt bs 0 8 % 64 == 0 && leAt bs 8 2 != 0 && leAt bs 10 6 == 0

/-- The refusal code of a launch whose record, header and bin table were read; 0 for none. -/
def State.refusalOf (s : State) (tenant : Nat) (rb hb rings : List Byte) (bins : List (List Byte))
    (binHdrsOk : Bool) : Nat :=
  let r := recordOf rb
  let h := headerOf hb rings
  let n : Need := ⟨r.tenant, r.carve, h, []⟩
  let total := r.clusters
  let tests : List (Nat × Bool) :=
    [(1, !headerOk hb rings || !binHdrsOk),
     (2, (List.range 8).any fun i => bitAt h.fmts i && (r.slots.getD i 0).toNat % 8 == 0),
     (3, r.g == 0 || 128 < r.g || h.maxg < r.g),
     (4, r.w == 0 || 6 < r.w || r.h == 0 || 6 < r.h || 12 < r.w * r.h || total == 0),
     (5, 48 < r.creg || r.cl1 < 8 || r.creg + r.cscr + r.cl1 != 96 || !({} : CoreUse).room n r.g),
     (6, bitAt h.flags 2 && (16 * s.nCore < total || !s.planAll r.shape n r.seed total 0 [])),
     (7, h.roleSum != 0 && (r.fit || r.g != h.roleSum)),
     (8, recordReserved rb || r.entry % 64 != 0 || r.crec % 16 != 0 || (h.bins != 0 && r.binsAt == 0)
        || (r.stack != 0 && (r.stkbase == 0 || r.stkbase % 4096 != 0)) || r.tenant != tenant
        || bins.any fun b => !binDescOk b),
     (10, (s.origins (fun _ => {}) r.shape n).isEmpty)]
  ((tests.find? (·.2)).map (·.1)).getD 0

/-- The headers of the bin entries a header uses: by bin, or none where one cannot be read. -/
def State.readBinHdrs (s : State) (tenant : Nat) (tab : List Byte) :
    List Nat → Option (AMap (List Byte × List Byte)) × State
  | [] => (some [], s)
  | b :: bs =>
    let r := s.readHeader tenant (leAt tab (16 * b) 8)
    match r.1 with
    | none => (none, r.2)
    | some h =>
      let q := r.2.readBinHdrs tenant tab bs
      (q.1.map fun m => AMap.set m b h, q.2)

/-- Read a launch: its record, its header with the ring descriptors, and its bin table (14 R294, R295).
`lno` is the number it has taken (R493). -/
def State.readLaunch (s : State) (addr tenant lno : Nat) : Launch × State :=
  let bad (c : Nat) (r : Option Record) : Launch :=
    { addr := addr, tenant := tenant, lno := lno, refused := c, rcd := r }
  if addr % 256 != 0 then (bad 8 none, s) else
  let r := s.readVirt tenant addr 256
  match r.1 with
  | none => (bad 9 none, r.2)
  | some rb =>
    let rcd := recordOf rb
    let q := r.2.readHeader tenant rcd.entry
    match q.1 with
    | none => (bad 9 (some rcd), q.2)
    | some (hb, rings) =>
      let h := headerOf hb rings
      let t := if h.bins = 0 ∨ rcd.binsAt = 0 then (some [], q.2) else q.2.readVirt tenant rcd.binsAt 256
      match t.1 with
      | none => (bad 9 (some rcd), t.2)
      | some tab =>
        let used := if tab.isEmpty then [] else h.binList
        let b := t.2.readBinHdrs tenant tab used
        match b.1 with
        | none => (bad 9 (some rcd), b.2)
        | some hs =>
          let desc (i : Nat) : List Byte := (tab.drop (16 * i)).take 16
          let code := b.2.refusalOf tenant rb hb rings (used.map desc)
            (hs.all fun (e : Nat × List Byte × List Byte) => headerOk e.2.1 e.2.2)
          ({ addr := addr, tenant := tenant, lno := lno, refused := code, rcd := some rcd, hdr := some h
             binTab := if tab.isEmpty then [] else
               (List.range 16).map fun i => (leAt (desc i) 0 8, leAt (desc i) 8 2)
             binHdrs := hs.map fun (e : Nat × List Byte × List Byte) => (e.1, headerOf e.2.1 e.2.2) }, b.2)

/-- A launch takes the next number when its record is first read (14 R493). -/
def State.takeLaunch (s : State) (addr tenant : Nat) : Launch × State :=
  let n := s.trd.lno
  ({ s with trd := { s.trd with lno := n + 1 } } : State).readLaunch addr tenant n.toNat

/-! ## Task entries (14 R313, R314, R321) -/

/-- The table key of an identity that its bits could name (14 Table 14-6). -/
def identKey (w : Word64) : Option Nat :=
  let n := w.toNat
  if bitsAt n 18 14 != 0 || bitsAt n 48 16 != 0 then none else some (bitsAt n 16 2 * 65536 + bitsAt n 0 16)

/-- The entry an identity names, unless it is stale. -/
def State.taskOf (s : State) (w : Word64) : Option (Nat × Task) :=
  match identKey w with
  | none => none
  | some k =>
    let t := s.task k
    if t.st = .free ∨ t.gen.toNat != bitsAt w.toNat 32 16 then none else some (k, t)

/-- A counter has reached 0 (14 R314). -/
def State.makeReady (s : State) (k : Nat) (t : Task) : State :=
  (s.setTask k { t with st := .ready }).station 4 7 0 3 (k % 65536) (some t.tenant)

/-- One decrement of a task; the answer of `tdec`. `by_` is where a `tdec` stands in the device order
and the tracked clock of its team (14 R323; 21 R453). -/
def State.decTask (s : State) (w : Word64) (amount : Nat) (by_ : Nat × Option (AMap Nat)) :
    Nat × State :=
  match s.taskOf w with
  | none => (2 ^ 63, { s with trd := { s.trd with staleDec := s.trd.staleDec + 1 } })
  | some (k, t) =>
    if t.st != .wait then (2 ^ 63, { s with trd := { s.trd with staleDec := s.trd.staleDec + 1 } }) else
    let old := t.cnt.toNat
    let t := { t with cnt := BitVec.ofNat 32 (old - min amount old) }
    (old, if t.cnt = 0 then
        let l := t.launch.map fun l => { l with readFrom := by_.1, vc := by_.2 }
        s.makeReady k { t with launch := l }
      else s.setTask k t)

/-! ## Completion records (14 R296) -/

/-- The 16-byte record and the decrement of CTASK. -/
def State.complete (s : State) (tenant lno code : Nat) (r : Record) : State :=
  let s := if r.crec = 0 then s else
    s.writeVirt tenant r.crec (leBytes 4 code ++ leBytes 4 lno ++ leBytes 8 (s.dieTime 4)) .mem
  if r.ctask = 0 then s else (s.decTask r.ctask 1 (s.dev.pos, none)).2

/-- A launch is refused (14 R295). -/
def State.refuse (s : State) (l : Launch) : State :=
  let s := s.station 4 7 0 1 l.refused (some l.tenant)
  match l.rcd with
  | none => s
  | some r => s.complete l.tenant l.lno l.refused r

/-! ## Teams that start (14 R303, R311; 08 R188; 21 R453) -/

/-- StackBase(n) of a launch (14 R312). -/
def Record.stackBase (r : Record) (n : Nat) : Nat :=
  if r.stack = 0 then 0 else (r.stkbase + 32 * r.stack * n) % 2 ^ 64

/-- The role of a group of a team (14 R308). -/
def roleOf (h : Header) (i : Nat) : Role :=
  if h.roleSum = 0 then .general
  else if i < h.roles.1 then .copy
  else if i < h.roles.1 + h.roles.2.1 then .matrix
  else .vector

/-- The lowest number that is not in a set. -/
def leastFree (used : List Nat) : Nat :=
  ((List.range (used.length + 1)).find? fun n => !used.any (· == n)).getD 0

/-- The lowest free team number of a core (14 R303). -/
def State.freeNum (s : State) (core : Nat) : Nat :=
  leastFree ((s.core core).teams.filterMap fun t => (s.team? t).map (·.num))

/-- The lowest free group slot of a core. -/
def State.freeSlot (s : State) (core : Nat) : Nat :=
  leastFree ((s.groups.filter fun e => e.2.core == core && !e.2.ended
    && ((s.team? e.2.team).map (·.resident)).getD false).map (·.2.slot))

/-- A team takes a core: an empty core takes the launch's carve and starts its slice; another tenant's
counters, translations and instructions leave it (14 R304; 18 R399; 21 R457). -/
def State.seat (s : State) (core tenant : Nat) (carve : Nat × Nat × Nat) : State :=
  s.modCore core fun k =>
    if k.teams.isEmpty then
      let k := { k with creg := carve.1, cscr := carve.2.1, cl1 := carve.2.2, sliceStart := s.clk, sliceDone := false }
      if k.sliceTenant = some tenant then k else
        { k with sliceTenant := some tenant, cnt := AMap.put 0 [] 0x10 (BitVec.ofNat 64 s.clk), tlb := [], l1i := [], l0i := [] }
    else k

/-- Bind the bins a team uses (14 R309). -/
def State.bindBins (s : State) (core gid : Nat) (gr : Grid) (bins : List Nat) : State :=
  bins.foldl (fun s b =>
    if (s.binBound core b).isSome then s else
      let bin : Bin := { entry := some (gr.binTab.getD b (0, 0)), hdr := AMap.at? gr.binHdrs b, grid := gid }
      s.modCore core fun k => { k with bins := AMap.set k.bins b bin }) s

/-- The clock index of a team that starts, whether its own entry is past its last value already, and its
clock (21 R453). -/
def State.trackTeam (s : State) (tenant : Nat) (vc : Option (AMap Nat)) :
    (Option Nat × Bool × AMap Nat) × State :=
  match (s.stream tenant).window with
  | none => ((none, false, []), s)
  | some _ =>
    let used := s.teams.filterMap fun e =>
      if !e.2.retired && s.teamTenant e.2 == tenant then e.2.track else none
    if 64 ≤ used.length then ((none, false, []), s.modStream tenant fun r => { r with raceov := true })
    else
      let k := leastFree used
      let own := 1 + AMap.get 0 (s.stream tenant).lastOwn k
      let lapsed := decide (2 ^ 32 ≤ own)
      ((some k, lapsed, AMap.put 0 (vc.getD []) k (if lapsed then own - 1 else own)),
        if lapsed then s.modStream tenant fun r => { r with raceov := true } else s)

/-- A group as it begins (14 R311, R312), with a spill number. -/
def newGroup (core slot tid i entry n : Nat) (hdr : Header) (gr : Grid) (bin : Option (Nat × List Word64))
    (clk : Nat) : Group :=
  let act : Mask := match bin with | none => 0xFFFFFFFF | some b => maskOf (List.range b.2.length)
  let args := match bin with | none => [] | some b => b.2
  let w (m : AMap Word64) (r v : Nat) : AMap Word64 := AMap.put 0 m r (BitVec.ofNat 64 v)
  let vregs := (List.range args.length).foldl (fun (m : AMap Word32) l =>
    let a := (args.getD l 0).toNat
    AMap.put 0 (AMap.put 0 m l (BitVec.ofNat 32 a)) (32 + l) (BitVec.ofNat 32 (a / 2 ^ 32))) []
  { core := core, slot := slot, team := tid, gidx := i, role := roleOf hdr i, spill := n
    ctl := { pc := BitVec.ofNat 64 entry, act := act }
    regs := { v := vregs, s := w (w (w [] 0 gr.rcd.arg.toNat) 1 gr.addr) 2 (gr.rcd.stackBase n) }
    mem := { fen := ⟨0, gr.readFrom⟩ }
    age := clk, readySince := clk }

/-- A group starts, in the lowest free slot (14 R303). -/
def State.startGroup (s : State) (tid core i entry n : Nat) (hdr : Header) (gr : Grid)
    (bin : Option (Nat × List Word64)) : State :=
  let f := s.fresh
  (f.2.setGroup f.1 (newGroup core (s.freeSlot core) tid i entry n hdr gr bin s.clk)).modTeam tid
    fun t => { t with groups := t.groups ++ [f.1] }

/-- A team as it begins (14 R303; 08 R188). -/
def State.newTeam (s : State) (cid index core tenant : Nat) (hdr : Header) (entry : Nat)
    (bin : Option (Nat × List Word64)) : Team :=
  let req := if bitAt hdr.flags 3 then some 0 else none
  { cluster := cid, index := index, core := core, num := s.freeNum core, hdr := hdr, entry := entry
    groups := [], rings := hdr.rings.map fun _ => ⟨0, 0, 0⟩
    ref := ((s.cluster? cid).map (·.ord.pos)).getD 0
    req := req, railHold := req.isSome && !s.railOff
    tbase := (s.tenant tenant).dflt, since := s.clk, bin := bin }

/-- A team starts on a core, and with it its groups: per group its number in the team's kernel, or none
for a group launched from a bin (14 R303); the lanes' arguments for such a group. -/
def State.startTeam (s : State) (gridId cid index core : Nat) (gr : Grid) (hdr : Header) (entry : Nat)
    (nums : List Nat) (bin : Option (Nat × List Word64)) : State :=
  let tenant := gr.rcd.tenant
  let s := s.seat core tenant gr.rcd.carve
  let tr := s.trackTeam tenant (match bin with | none => gr.vc | some _ => none)
  let f := tr.2.fresh
  let s := f.2.setTeam f.1
    { f.2.newTeam cid index core tenant hdr entry bin with track := tr.1.1, lapsed := tr.1.2.1, vc := tr.1.2.2 }
  let s := s.bindBins core gridId gr hdr.binList
  let s := s.modCore core fun k => { k with teams := k.teams ++ [f.1] }
  let s := s.modCluster cid fun c => { c with teams := c.teams ++ [f.1] }
  let s := (List.range nums.length).foldl (fun s i =>
    let n := match bin with
      | none => nums.getD i 0
      | some _ => gr.rcd.clusters * gr.rcd.groups + 512 * core + s.freeSlot core
    s.startGroup f.1 core i entry n hdr gr bin) s
  s.retarget core

/-- A cluster is created on a die. -/
def State.newCluster (s : State) (gridId index die : Nat) : Nat × State :=
  let f := s.fresh
  let c : Cluster := { grid := gridId, index := index, die := die, teams := [], ref := s.dev.pos }
  (f.1, ({ f.2 with clusters := AMap.set f.2.clusters f.1 c } : State).modGrid gridId fun g =>
    { g with clusters := g.clusters ++ [f.1] })

/-! ## CLUSTER_PLACE and CLUSTER_RETRY -/

/-- Place one cluster of a grid at an origin: one team on each enabled core (14 R303, R307). -/
def State.placeAt (s : State) (gridId : Nat) (gr : Grid) (index o : Nat) : State :=
  let p := gr.rcd.shape
  let c := s.newCluster gridId index (o / 36)
  let en := s.rectSites p o
  let t := en.length
  let s := (List.range t).foldl (fun s i =>
    let nums := ((List.range p.total).filter fun k => k % t == i).map fun k => index * p.total + k
    s.startTeam gridId c.1 i (s.coreOfPsi (en.getD i 0)) gr gr.hdr gr.rcd.entry nums none) c.2
  s.station 4 7 0 2 o (some gr.rcd.tenant)

/-- The next cluster a grid is to place: a restarted one (18 R401) or the next index. -/
def Grid.nextIndex (gr : Grid) : Option Nat :=
  match gr.again with
  | i :: _ => some i
  | [] => if gr.next < gr.rcd.clusters then some gr.next else none

def Grid.placed (gr : Grid) (i : Nat) : Grid :=
  if gr.again.has i then { gr with again := gr.again.del i } else { gr with next := i + 1 }

/-- Place up to n clusters of a grid, in order; none where one of them finds no room. -/
def State.placeNext (s : State) (gridId : Nat) : Nat → Option State
  | 0 => some s
  | n + 1 =>
    match s.grid? gridId with
    | none => some s
    | some gr =>
      match gr.nextIndex with
      | none => some s
      | some i =>
        match s.pickOrigin s.siteUse gr.rcd.shape (needOf gr.rcd gr.hdr gr.binTab) gr.rcd.seed i with
        | none => none
        | some o =>
          let s := (s.modGrid gridId fun g => g.placed i).placeAt gridId gr i o
          s.placeNext gridId n

/-- A launch leaves the head of its queue once every cluster has been placed (14 R300). -/
def State.finishTake (s : State) (gridId : Nat) : State :=
  match s.grid? gridId with
  | none => s
  | some gr =>
    if gr.nextIndex.isSome || AMap.at? s.trd.taken gr.queue != some gridId then s else
      let s := { s with trd := { s.trd with taken := AMap.del s.trd.taken gr.queue } }
      if gr.queue = 256 then { s with trd := { s.trd with devq := s.trd.devq.drop 1 } }
      else s.modQueue gr.queue fun q => { q with head := q.head + 1 }

/-- Try to place: one cluster, or all of a cooperative launch in one step. -/
def State.tryPlace (s : State) (gridId : Nat) : State :=
  match s.grid? gridId with
  | none => s
  | some gr =>
    if gr.nextIndex.isNone then s else
      let n := if bitAt gr.hdr.flags 2 then gr.rcd.clusters + 1 - gr.next + gr.again.length else 1
      match s.placeNext gridId n with
      | none => s.modGrid gridId fun g => { g with waiting := true, retry := false }
      | some t => (t.modGrid gridId fun g => { g with waiting := false, retry := false }).finishTake gridId

/-- The Treadle takes no launch, and places nothing, before S2, in a thermal hold, in the S2 to S3 transition and
while a checkpoint or a restore of one runs (23 R478, R483, R487, R489). -/
def State.launchHold (s : State) : Bool := s.boot.stage < 2 || s.plat.hold || s.boot.trans.isSome || s.plat.ckState == 1

/-- The grid of a launch number that is not complete. -/
def State.gridOfLno (s : State) (lno : Nat) : Option (Nat × Grid) :=
  List.find? (fun (e : Nat × Grid) => e.2.lno == lno && !e.2.done) s.grids

/-- CLUSTER_PLACE (14 R300, R302). -/
def execClusterPlace (lno : Nat) (s : State) : Host.Outcome State Fault Refusal :=
  event (match s.gridOfLno lno with
    | none => s
    | some (id, gr) => if gr.waiting || s.launchHold then s else s.tryPlace id) s

/-- CLUSTER_RETRY (14 R306). -/
def execClusterRetry (lno : Nat) (s : State) : Host.Outcome State Fault Refusal :=
  event (match s.gridOfLno lno with
    | none => s
    | some (id, gr) => if gr.waiting && gr.retry && !s.launchHold then s.tryPlace id else s) s

/-! ## SELECT_LAUNCH (14 R300) -/

/-- Where the head slot of a host queue lies, while it holds pending launches and is served. -/
def State.headSlot (s : State) (q : Nat) : Option (Nat × Nat) :=
  let r := s.queue q
  let lg := bitsAt r.ctl.toNat 8 4
  if bitAt r.ctl.toNat 7 && 4 ≤ lg && r.head != r.tail && !(AMap.at? s.trd.taken q).isSome then
    some (bitsAt r.ctl.toNat 12 52 * 4096 + 256 * (r.head.toNat % 2 ^ lg), bitsAt r.ctl.toNat 0 6)
  else none

/-- The priority of the head launch of a queue, if it has one that is not taken. -/
def State.headPrio (s : State) (q : Nat) : Option Nat × State :=
  if q = 256 then
    (if (AMap.at? s.trd.taken 256).isSome then none
     else s.trd.devq.head?.map fun l => (l.rcd.map (·.prio)).getD 0, s)
  else match s.headSlot q with
    | none => (none, s)
    | some (a, t) =>
      let r := s.readVirt t a 256
      (some (match r.1 with
        | none => 0
        | some bs => if leAt bs 0x11 1 < 4 then leAt bs 0x11 1 else 0), r.2)

/-- The queues with a head to take, in ascending order, with its priority. -/
def State.heads (s : State) : List (Nat × Nat) × State :=
  (List.map (fun (e : Nat × Queue) => e.1) s.trd.queues ++ [256]).foldl (fun (r : List (Nat × Nat) × State) q =>
    let h := r.2.headPrio q
    match h.1 with
    | none => (r.1, h.2)
    | some p => (r.1 ++ [(q, p)], h.2)) ([], s)

/-- The queue chosen among heads, and the scheduling state after it. -/
def State.chooseQueue (s : State) (hs : List (Nat × Nat)) : Option Nat × State :=
  let w (p : Nat) : List Nat := (hs.filter fun e => e.2 == p).map (·.1)
  let ne := (List.range 4).filter fun p => !(w p).isEmpty
  let p? := (ne.find? fun p => 32 ≤ AMap.get 0 s.trd.wait p).orElse fun _ => ne.head?
  match p? with
  | none => (none, s)
  | some p =>
    let last := AMap.get 256 s.trd.last p
    let q? := ((w p).find? fun q => last < q).orElse fun _ => (w p).head?
    match q? with
    | none => (none, s)
    | some q =>
      let wait := (ne.filter fun r => p < r).foldl (fun (m : AMap Nat) r => AMap.put 0 m r (AMap.get 0 m r + 1))
        (AMap.put 0 s.trd.wait p 0)
      (some q, { s with trd := { s.trd with last := AMap.put 256 s.trd.last p q, wait := wait } })

/-- A launch that was not refused becomes a grid at the head of its queue. -/
def State.accepted (s : State) (q : Nat) (l : Launch) (r : Record) (h : Header) : State :=
  let s := s.station 4 7 0 0 l.lno (some l.tenant)
  let f := s.fresh
  let gr : Grid :=
    { lno := l.lno, addr := l.addr, rcd := r, hdr := h, binTab := l.binTab, binHdrs := l.binHdrs
      queue := q, next := 0, readFrom := l.readFrom, vc := l.vc }
  { f.2 with
    grids := AMap.set f.2.grids f.1 gr
    trd := { f.2.trd with taken := AMap.set f.2.trd.taken q f.1 } }

/-- Take the head of a queue. -/
def State.takeHead (s : State) (q : Nat) : State :=
  if q = 256 then
    match s.trd.devq.head? with
    | none => s
    | some l => (match l.rcd, l.hdr with
      | some r, some h => s.accepted 256 l r h
      | _, _ => { s with trd := { s.trd with devq := s.trd.devq.drop 1 } })
  else match s.headSlot q with
    | none => s
    | some (a, t) =>
      let l := s.takeLaunch a t
      match l.1.rcd, l.1.hdr with
      | some r, some h =>
        if l.1.refused = 0 then l.2.accepted q l.1 r h
        else (l.2.refuse l.1).modQueue q fun e => { e with head := e.head + 1 }
      | _, _ => (l.2.refuse l.1).modQueue q fun e => { e with head := e.head + 1 }

/-- SELECT_LAUNCH: no launch is selected during a thermal hold (23 R487). -/
def execSelectLaunch (s : State) : Host.Outcome State Fault Refusal :=
  event (
    if s.launchHold then s else
      let h := s.heads
      let c := h.2.chooseQueue h.1
      match c.1 with
      | none => s
      | some q => c.2.takeHead q) s

end Sys2Proof.Machine
end

