-- ==== Sys2Proof/Machine/Tasks.lean ====
section
/-!
DEFINITION. Bins, tasks and the instructions of opcodes 0xB0 to 0xB6 (14 R309 to R314, R318 to R327),
and the retirement of teams and completion of grids (11 R251; 14 R297).
-/
namespace Sys2Proof.Machine

/-! ## Bins (14 R309, R310, R319, R320) -/

def State.bin (s : State) (core b : Nat) : Bin := AMap.get {} (s.core core).bins b
def State.modBin (s : State) (core b : Nat) (f : Bin → Bin) : State :=
  s.modCore core fun k => { k with bins := AMap.set k.bins b (f (AMap.get {} k.bins b)) }

/-- The clock at which a timer started now expires. -/
def Bin.timer (b : Bin) (clk : Nat) : Option Nat := b.entry.map fun e => clk + e.2

/-- Lanes enter a bin; the timer starts when it was empty. -/
def Bin.enter (b : Bin) (clk : Nat) (ws : List Word64) : Bin :=
  if ws.isEmpty then b else
  { b with lanes := b.lanes ++ ws, deadline := if b.lanes.isEmpty then b.timer clk else b.deadline }

def execSpawn (c : Ctl) (bin : Nat) (a : Src) (s : State) : Host.Outcome State Fault Refusal :=
  run { i := .spawn c bin a, c := c, srcs := [⟨a.o, 2, a.bang⟩], ext := true } (fun g ls s =>
    if ls.isEmpty then .next s
    else if 64 < (s.bin g.core bin).lanes.length + ls.length then stallFor 2 s
    else .next ((s.modBin g.core bin fun b =>
      b.enter s.clk (ls.map fun l => BitVec.ofNat 64 (g.rdN a.o 2 l))).soil g.team)) s

def execBinf (c : Ctl) (bin : Nat) (s : State) : Host.Outcome State Fault Refusal :=
  run { i := .binf c bin, c := c, ext := true } (fun g ls s =>
    ifAny ls s (.next ((s.modBin g.core bin fun b =>
      { b with forced := b.forced || !b.lanes.isEmpty }).soil g.team))) s

/-- BIN_TIMER_EXPIRY. -/
def execBinTimerExpiry (core bin : Nat) (s : State) : Host.Outcome State Fault Refusal :=
  event (
    let b := s.bin core bin
    match b.deadline with
    | some d => if d ≤ s.clk && !b.lanes.isEmpty then s.modBin core bin fun b => { b with fired := true } else s
    | none => s) s

/-- A bin may launch a group now (14 R310): its kernel's header and its grid. -/
def State.binReady (s : State) (core bin : Nat) : Option (Header × Grid) :=
  let b := s.bin core bin
  if 32 ≤ b.lanes.length || ((b.fired || b.forced) && !b.lanes.isEmpty) then
    match b.hdr, s.grid? b.grid with
    | some h, some gr =>
      let n := needOf gr.rcd h gr.binTab
      let u := s.coreUse core
      if u.eligible n && u.room n 1 && !s.launchHold then some (h, gr) else none
    | _, _ => none
  else none

/-- BIN_LAUNCH: a group of the bin's first 32 lanes starts, as a team and a cluster of its own; which
cluster index of the grid it reads is free (the log says why). -/
def execBinLaunch (core bin : Nat) (s : State) : Host.Outcome State Fault Refusal :=
  event (match s.binReady core bin with
    | none => s
    | some (h, gr) =>
      let b := s.bin core bin
      let entry := (b.entry.map (·.1)).getD 0
      let rest := b.lanes.drop 32
      let args := b.lanes.take 32
      let f := s.free gr.rcd.clusters
      let c := f.2.newCluster b.grid f.1 (s.dieOf core)
      let s := c.2.modBin core bin fun b => { b with
        lanes := rest, fired := false, forced := false
        deadline := if rest.isEmpty then none else b.timer c.2.clk }
      s.startTeam b.grid c.1 0 core gr h entry [0] (some (bin, args))) s

/-! ## Task instructions (14 R321, R322) -/

def tpostRow (i : Instr) (c : Ctl) (d : Opd) (a b : Src) (bin : Option Nat) (s : State) :
    Host.Outcome State Fault Refusal :=
  run { i := i, c := c, srcs := [scalUse a, scalUse b], dsts := [⟨d, 1, false⟩], ext := true } (fun g ls s =>
    ifAny ls s (.next ((s.soil g.team).await s.cur g ((⟨d, 1, false⟩ : Use).cells ls)
      (.tpost d bin (g.rdS a.o) (bitsAt (g.rdS b.o).toNat 0 32)) (s.allEarlier s.cur)))) s

def execTpostRec (c : Ctl) (d : Opd) (a b : Src) (s : State) : Host.Outcome State Fault Refusal :=
  tpostRow (.tpostRec c d a b) c d a b none s

def execTpostBin (c : Ctl) (bin : Nat) (d : Opd) (a b : Src) (s : State) :
    Host.Outcome State Fault Refusal :=
  tpostRow (.tpostBin c bin d a b) c d a b (some bin) s

def execTdec (c : Ctl) (d : Opd) (a b : Src) (s : State) : Host.Outcome State Fault Refusal :=
  run { i := .tdec c d a b, c := c, srcs := [scalUse a, scalUse b], dsts := [⟨d, 1, false⟩], ext := true }
    (fun g ls s =>
      ifAny ls s (.next ((s.soil g.team).await s.cur g ((⟨d, 1, false⟩ : Use).cells ls)
        (.tdec d (g.rdS a.o) (bitsAt (g.rdS b.o).toNat 0 32)) (s.allEarlier s.cur)))) s

def execTq (c : Ctl) (d : Opd) (a : Src) (s : State) : Host.Outcome State Fault Refusal :=
  run { i := .tq c d a, c := c, srcs := [scalUse a], dsts := [⟨d, 1, false⟩], ext := true } (fun g ls s =>
    ifAny ls s (.next (s.await s.cur g ((⟨d, 1, false⟩ : Use).cells ls) (.tq d (g.rdS a.o))))) s

/-- `lnch` waits for the earlier commits of the group (14 R322). -/
def execLnch (c : Ctl) (d : Opd) (a : Src) (s : State) : Host.Outcome State Fault Refusal :=
  run { i := .lnch c d a, c := c, srcs := [scalUse a], dsts := [⟨d, 1, false⟩], ext := true } (fun g ls s =>
    ifAny ls s (.next ((s.soil g.team).await s.cur g ((⟨d, 1, false⟩ : Use).cells ls)
      (.lnch d (g.rdS a.o)) ((s.pendOf s.cur PendOp.isCommit).map fun i => (i, Scope.team))))) s

def execYield (c : Ctl) (s : State) : Host.Outcome State Fault Refusal :=
  run { i := .yield c, c := c } (fun _ ls s =>
    ifAny ls s (.next (s.modGroup s.cur fun g => { g with age := s.clk, yieldAt := s.clk + 1 }))) s

/-- The n-th number, from 0, that is not in a rising set. -/
def nthFree (used : NSet) (n : Nat) : Nat := used.foldl (fun n u => if u ≤ n then n + 1 else n) n

/-- The indices of a die's task table that are in use. -/
def State.usedTasks (s : State) (die : Nat) : NSet :=
  s.trd.tasks.filterMap fun e => if e.1 / 65536 = die ∧ e.2.st != .free then some (e.1 % 65536) else none

/-- The clock of the tracked team of a group (21 R453). -/
def State.clockOf (s : State) (team : Nat) : Option (AMap Nat) := (s.tracked team).map fun e => e.2.2.vc

/-- `tpost` at the table of the issuing core's die (14 R321): which FREE entry it takes is free. -/
def State.postTask (s : State) (g : Group) (bin : Option Nat) (payload : Word64) (count : Nat) :
    Nat × State :=
  let die := s.dieOf g.core
  let used := s.usedTasks die
  if 65536 ≤ used.length then (0, s) else
    let f := s.free (65536 - used.length)
    let idx := nthFree used f.1
    let s := f.2
    let k := die * 65536 + idx
    let old := s.task k
    let gen := if old.gen + 1 = 0 then 1 else old.gen + 1
    let t : Task :=
      { st := .wait, gen := gen, cnt := BitVec.ofNat 32 count, bin := bin, payload := payload, core := g.core
        grid := match bin with
          | some b => (s.bin g.core b).grid
          | none => ((s.clusterOf g).map (·.grid)).getD 0
        tenant := s.tenantOf g
        binEntry := bin.bind fun b => (s.bin g.core b).entry }
    let r := match bin with
      | some _ => (t, s)
      | none =>
        let l := s.takeLaunch payload.toNat t.tenant
        ({ t with launch := some l.1 }, l.2)
    let s := r.2.setTask k r.1
    (gen.toNat * 2 ^ 32 + k, if count = 0 then s.makeReady k r.1 else s)

/-- `tq` (14 R321). -/
def State.taskState (s : State) (w : Word64) : Nat :=
  match s.taskOf w with
  | none => 0
  | some (_, t) => if t.st = .wait then 1 + t.cnt.toNat * 2 ^ 32 else 2

/-- `lnch` when the record has been read and checked (14 R322, R323). -/
def State.launchNow (s : State) (g : Group) (addr : Nat) : Nat × State :=
  let l := s.takeLaunch addr (s.tenantOf g)
  if l.1.refused = 0 then
    let e : Launch := { l.1 with readFrom := l.2.dev.pos, vc := s.clockOf g.team }
    (l.1.lno, { l.2 with trd := { l.2.trd with devq := l.2.trd.devq ++ [e] } })
  else (2 ^ 63 + l.1.refused * 2 ^ 32 + l.1.lno, l.2.refuse l.1)

/-- TREADLE_REPLY: a `tpost`, `tdec`, `tq` or `lnch` is performed and answers. -/
def execTreadleReply (id : Nat) (s : State) : Host.Outcome State Fault Refusal :=
  event (match s.pend? id with
    | none => s
    | some p =>
      match s.group? p.gid with
      | none => s.dropPend id
      | some g =>
        if !p.after.isEmpty then s else
        match p.op with
        | .tpost d bin payload count =>
          let r := s.postTask g bin payload count
          r.2.deliverS p d r.1
        | .tdec d w amount =>
          let r := s.decTask w amount (s.dev.pos, s.clockOf g.team)
          r.2.deliverS p d r.1
        | .tq d w => s.deliverS p d (s.taskState w)
        | .lnch d addr =>
          let r := s.launchNow g addr.toNat
          r.2.deliverS p d r.1
        | _ => s) s

/-! ## TASK_DISPATCH (14 R314) -/

/-- The entry returns to FREE; its generation stays. -/
def State.freeTask (s : State) (k : Nat) (t : Task) : State := s.setTask k { gen := t.gen }

/-- A bin task adds its lane once its bin can take it. -/
def State.dispatchBin (s : State) (k : Nat) (t : Task) (b : Nat) : State :=
  let lane (s : State) : State :=
    (s.modBin t.core b fun x => x.enter s.clk [t.payload]).freeTask k t
  if 64 ≤ (s.bin t.core b).lanes.length then s else
  match s.binBound t.core b, t.binEntry with
  | some e, some x => if e.1 = x.1 then lane s else s
  | none, some x =>
    lane (s.modBin t.core b fun y => { y with
      entry := some x, grid := t.grid, deadline := none, forced := false, fired := false
      hdr := (s.grid? t.grid).bind fun gr => AMap.at? gr.binHdrs b })
  | _, none => s

def execTaskDispatch (die idx : Nat) (s : State) : Host.Outcome State Fault Refusal :=
  event (
    let k := die * 65536 + idx % 65536
    let t := s.task k
    if t.st != .ready then s else
    match t.bin, t.launch with
    | some b, _ => s.dispatchBin k t b
    | none, some l =>
      let s := s.freeTask k t
      if l.refused = 0 then { s with trd := { s.trd with devq := s.trd.devq ++ [l] } } else s.refuse l
    | none, none => s) s

/-! ## TEAM_RETIRE (11 R251; 14 R303, R306) -/

/-- Waiting clusters are to be tried again: those of a tenant, and all where a core is empty. -/
def State.retryWaiting (s : State) (tenant core : Nat) : State :=
  let all := (s.core core).teams.isEmpty
  { s with grids := s.grids.mapVals fun _ gr =>
      if gr.waiting && (all || gr.rcd.tenant == tenant) then { gr with retry := true } else gr }

/-- A team leaves its core: its request leaves the minimum, its tiles, registers and number are free
(08 R192; 14 R303). -/
def State.leaveCore (s : State) (tid : Nat) (t : Team) : State :=
  let s := s.modCore t.core fun k => { k with teams := k.teams.filter (· != tid) }
  (s.retryWaiting (s.teamTenant t) t.core).retarget t.core

/-- A DISC packet of a team, through one of its groups. -/
def State.emitDisc (s : State) (t : Team) (kind bytes : Nat) : State :=
  match t.groups.head? with
  | none => s
  | some k => s.emitG k 4 ctlCMT tyDISC (leBytes 1 kind ++ leBytes 4 bytes)

/-- What is left of a team that has retired. -/
def Team.husk (t : Team) : Team :=
  { cluster := t.cluster, index := t.index, core := t.core, num := t.num, hdr := t.hdr, groups := []
    gate := false, resident := false, retired := true }

/-- The team's tracked index is freed; its last own entry is kept (21 R453). -/
def State.untrack (s : State) (t : Team) : State :=
  match t.track with
  | none => s
  | some k => s.modStream (s.teamTenant t) fun r => { r with lastOwn := AMap.put 0 r.lastOwn k (AMap.get 0 t.vc k) }

/-- Every team of a cluster has retired. -/
def State.clusterOver (s : State) (c : Cluster) : Bool :=
  c.teams.all fun t => ((s.team? t).map (·.retired)).getD true

/-- A team retires: its level is discarded, and its cluster's with the last team. -/
def State.retire (s : State) (tid : Nat) (t : Team) : State :=
  let s := s.emitDisc t 1 t.lvl.length
  let s := (s.leaveCore tid t).untrack t
  let s := s.setTeam tid t.husk
  let s := match s.cluster? t.cluster with
    | none => s
    | some c =>
      if s.clusterOver c then
        let s := s.emitDisc t 2 c.lvl.length
        s.modCluster t.cluster fun c => { c with lvl := [], ord := {}, tickets := [] }
      else s
  { s with groups := t.groups.foldl (fun (m : AMap Group) k => AMap.del m k) s.groups }

/-- Has everything of a team ended: its groups, what they issued, its engine commands? -/
def State.teamOver (s : State) (tid : Nat) (t : Team) : Bool :=
  t.groups.all (fun k => ((s.group? k).map (·.ended)).getD true)
    && !s.pending.any (fun p => t.groups.any (· == p.gid))
    && (s.core t.core).cmds.all (fun c => c.team != tid)
    && (s.core t.core).locks.all fun k => k.team != tid

def execTeamRetire (team : Nat) (s : State) : Host.Outcome State Fault Refusal :=
  event (match s.team? team with
    | none => s
    | some t => if !t.retired && s.teamOver team t then s.retire team t else s) s

/-! ## GRID_COMPLETE (14 R296, R297) -/

/-- Every group of a grid has ended with its commits, and none is still to start: no cluster is left to place,
and no lane waits in a bin that its teams bound. -/
def State.gridOver (s : State) (gr : Grid) : Bool :=
  gr.nextIndex.isNone
    && (s.cores.all fun e => e.2.bins.all fun b => b.2.lanes.isEmpty || (s.grid? b.2.grid).map (·.lno) != some gr.lno)
    && gr.clusters.all fun c => match s.cluster? c with
    | none => true
    | some cl => cl.teams.all fun t => match s.team? t with
      | none => true
      | some tm => tm.retired || tm.groups.all fun k => match s.group? k with
        | none => true
        | some g => g.ended && !s.committing k

def execGridComplete (lno : Nat) (s : State) : Host.Outcome State Fault Refusal :=
  event (match s.gridOfLno lno with
    | none => s
    | some (id, gr) =>
      if s.gridOver gr then
        (s.modGrid id fun g => { g with done := true }).complete gr.rcd.tenant gr.lno 0 gr.rcd
      else s) s

end Sys2Proof.Machine
end

