-- ==== Sys2Proof/Machine/Engine.lean ====
section
/-!
DEFINITION. What the Quill and the Heddle share (11 R250; 15 R328 to R341; 16 R357, R380): queues, range
locks, acceptance, reading and writing as agents of the issuing team, faults, and completion.
-/
namespace Sys2Proof.Machine

/-! ## Commands -/

def State.cmd? (s : State) (core id : Nat) : Option Cmd := (s.core core).cmds.find? (·.id == id)
def State.setCmd (s : State) (core : Nat) (c : Cmd) : State :=
  s.modCore core fun k => { k with cmds := k.cmds.map fun x => if x.id == c.id then c else x }
def State.dropCmd (s : State) (core id : Nat) : State :=
  s.modCore core fun k => { k with cmds := k.cmds.filter (·.id != id) }

/-- The commands of one engine of a core, in queue order: newly accepted ones keep their place. -/
def State.engCmds (s : State) (core : Nat) (heddle : Bool) : List Cmd :=
  (s.core core).cmds.filter (·.heddle == heddle)

/-- Entries of a queue (15 R328; 16 Table 16-1). -/
def queueSize : Nat := 16
/-- Entries of a range-lock table. -/
def lockSize : Nat := 64

def Cmd.word (c : Cmd) (i : Nat) : Nat := c.blk.getD i 0

/-- The registers of an operand block (15 R331). -/
def blockUse (a : Src) (n : Nat) : Use := ⟨a.o, n, a.bang⟩
def blockVals (g : Group) (a : Src) (n : Nat) : List Nat := (List.range n).map fun i => (g.rdS (opPlus a.o i)).toNat

/-- A command enters the queue, and its group stalls at issue (15 R328). -/
def enqueue (heddle : Bool) (c : Cmd) (g : Group) (s : State) : Eff :=
  if queueSize ≤ (s.engCmds g.core heddle).length then stallFor 2 s else
    let n := s.fresh
    let s := n.2.modCore g.core fun k => { k with cmds := k.cmds ++ [{ c with id := n.1 }] }
    .wait (s.modGroup s.cur fun h => { h with held := some n.1 })

/-! ## Ranges (15 R330, R336) -/

/-- A range a command registers. -/
structure Rng where
  src : Bool
  sp : Bool
  base : Nat
  len : Nat
deriving DecidableEq, Repr

/-- Does a range conflict with entries other than those of one command? -/
def State.clash (s : State) (core team : Nat) (own : Option Nat) (rs : List Rng) : Bool :=
  rs.any fun r => (s.core core).locks.any fun k => some k.cmd != own && k.sp == r.sp
    && (!r.sp || k.team == team) && !(r.src && k.src) && meets k.base k.len r.base r.len

/-- The slots of a core's table that are free. -/
def State.freeSlots (s : State) (core : Nat) : List Nat :=
  (List.range lockSize).filter fun i => !(s.core core).locks.any (·.slot == i)

/-- Register ranges; which free slots they take is free. -/
def State.register (s : State) (core cmd team : Nat) (rs : List Rng) : State :=
  rs.foldl (fun s r =>
    let fs := s.freeSlots core
    let n := s.freeIn 0 (fs.length - 1)
    n.2.modCore core fun k => { k with locks := k.locks ++
      [⟨fs.getD n.1 0, cmd, r.src, r.sp, team, r.base, r.len⟩] }) s

def State.release_ (s : State) (core cmd : Nat) : State :=
  s.modCore core fun k => { k with locks := k.locks.filter (·.cmd != cmd) }

/-- A scratchpad range meets a bound window of its team (06 R142). -/
def Team.inWindow (t : Team) (a n : Nat) : Bool := t.windows.any fun w => overlap a n w.2.sp w.2.len

/-- A scratchpad range lies in the team's bytes and meets no bound window (06 R142). -/
def Team.spOk (t : Team) (a n : Nat) : Bool := a + n ≤ t.hdr.scratch && !t.inWindow a n

/-- A global range lies in the address space. -/
def globalOk (a n : Nat) : Bool :=
  canonical a && (n == 0 || (a + n ≤ 2 ^ 64 && canonical (a + n - 1) && a / 2 ^ 56 == (a + n - 1) / 2 ^ 56))

/-! ## Reading and writing (11 R250; 15 R329, R337 to R339) -/

/-- How an engine's access to a page ends. -/
inductive Tr where
  /-- Poisoned data. -/
  | pois
  /-- A fault page is to be opened. -/
  | fault (f : FaultAt)
  /-- A MEMORY condition, with its cause. -/
  | mem (cause : Nat)
  /-- A line of the wrong type. -/
  | type
deriving DecidableEq, Repr

/-- The leaf of an address, with the permissions asked for; an address past the end of the space has none. -/
def State.engLeaf (s : State) (core tenant va : Nat) (rd wr : Bool) : Except Tr Leaf × State :=
  if canonical va == false || 2 ^ 64 ≤ va then (.error (.mem 0), s) else
  let r := s.translate core tenant va
  (match r.1 with
   | .leaf l => if l.permits rd wr then .ok l else .error (.mem 2)
   | .ats l => if l.permits rd wr then .error (.fault ⟨va / 65536, va, 1, 0, true, []⟩) else .error (.mem 2)
   | .malformed _ | .mixed .. => .error (.mem 3)
   | .absent n => .error (.fault ⟨va / 65536, va, 1, n, false, []⟩), r.2)

/-- The leaves of some addresses, one per page, by page number; the first failure in their order. -/
def State.engLeaves (s : State) (core tenant : Nat) (rd wr : Bool) (vas : List Nat) :
    Except Tr (AMap Leaf) × State :=
  vas.foldl (fun (r : Except Tr (AMap Leaf) × State) va =>
    match r.1 with
    | .error _ => r
    | .ok m =>
      if (AMap.at? m (va / 4096)).isSome then r else
        let q := r.2.engLeaf core tenant va rd wr
        (q.1.map fun l => AMap.set m (va / 4096) l, q.2)) (.ok [], s)

/-- What the reads of a command may not precede now (11 R243, R250). -/
def State.engLo (s : State) (t : Team) (c : Cmd) : VPos :=
  let clu := match s.cluster? t.cluster with | none => 0 | some k => boundAt k.ord.evs s.clk
  c.lo.join ⟨clu, boundAt s.dev.evs s.clk⟩

/-- One byte as an agent of the issuing team at a scope reads it (11 R250). -/
def State.engByte (s : State) (t : Team) (sc : Scope) (pos : VPos) (tol : Bool) (k : Nat) :
    Byte × Bool × State :=
  match (match sc with | .grp | .team => AMap.at? t.lvl k | _ => none) with
  | some h => let b := s.heldByte k h; (b.1, h.pois, b.2)
  | none => s.upperByte (match sc with | .grp | .team | .clu => s.cluster? t.cluster | _ => none) pos tol k

/-- Global bytes an engine reads: each aligned 8 bytes at one position of each level, or all at one position
where `one`. Each byte with whether its line is approximate. Copies of a counted line are left in no L2, as with
a STREAM read, so that each read of it is counted (06 R127). -/
def State.engRead (s : State) (core tenant : Nat) (t : Team) (c : Cmd) (one : Bool) (vas : List Nat) :
    Except Tr (List (Byte × Bool)) × State :=
  if vas.isEmpty then (.ok [], s) else
  let lv := s.engLeaves core tenant true false vas
  match lv.1, lv.2.group? c.gid with
  | .error e, _ => (.error e, lv.2)
  | .ok _, none => (.ok [], lv.2)
  | .ok leaves, some g =>
    let keyAt (va : Nat) : Nat := ((AMap.at? leaves (va / 4096)).map fun (l : Leaf) => l.key va).getD 0
    let ents : AMap (Acc) := vas.foldl (fun (m : AMap Acc) va => match AMap.at? leaves (va / 4096) with
      | some l => AMap.set m (lineOf (keyAt va)) ⟨0, va, l⟩
      | none => m) []
    let secs (n : Nat) : NSet := vas.foldl (fun a va =>
      if lineOf (keyAt va) = n then NSet.add a (keyAt va / 64 % 4) else a) []
    let far := (List.filter (fun (e : Nat × Acc) =>
      (secs e.1).any fun q => 2 ≤ lv.2.supplier (4 * e.1 + q) core) ents).map (·.1)
    let r := List.foldl (fun (r : AMap Bool × State) (e : Nat × Acc) =>
      let q := r.2.lineTol e.2
      (AMap.set r.1 e.1 q.1, q.2.fetchLine e.1 (secs e.1) core (max 1 (entCc e.2.leaf.e.toNat))
        (bit ((q.2.line e.1).cnt != 0)) e.2.leaf.e tenant)) ([], lv.2) ents
    let lo := r.2.engLo t c
    let whole := r.2.drawPos g lo (vas.map keyAt) none
    let q := vas.foldl (fun (a : List (Byte × Bool) × Bool × AMap VPos × State) va =>
      let ps : VPos × AMap VPos × State := if one then (whole.1, a.2.2.1, a.2.2.2) else
        match AMap.at? a.2.2.1 (va / 8) with
        | some p => (p, a.2.2.1, a.2.2.2)
        | none =>
          let d := a.2.2.2.drawPos g lo ((List.range 8).map fun i => keyAt (va / 8 * 8) + i) none
          (d.1, AMap.set a.2.2.1 (va / 8) d.1, d.2)
      let tol := AMap.get false r.1 (lineOf (keyAt va))
      let b := ps.2.2.engByte t c.sc ps.1 tol (keyAt va)
      (a.1 ++ [(b.1, tol)], a.2.1 || b.2.1, ps.2.1, b.2.2)) ([], false, [], if one then whole.2 else r.2)
    let s := (q.2.2.2.countRead far tenant).raceLanes c.team true false c.pc.toNat
      ((vas.foldl (fun a v => NSet.add a (v / 64)) ([] : NSet)).map (64 * ·))
    (if q.2.1 then .error .pois else .ok q.1, s)

/-- One event of the order of a command's scope (11 R230, R250). -/
def State.engEvent (s : State) (core : Nat) (t : Team) (c : Cmd) (bs : List (Nat × Held)) : State :=
  match c.sc with
  | .grp | .team => s.teamEvent c.team 0 (bs.map fun e => (e.1, some e.2)) true false
  | .clu => s.cluEvent t.cluster 0 (bs.map fun e => (e.1, some e.2)) true false s.clk
  | .dev =>
    let dst : Dest := match c.op with | .qcpm _ _ => .l2 (s.dieOf core) | _ => .l3
    (s.devEvent 0 bs dst false s.clk).touchStash (some c.team) (bs.map (·.1))
  | .sys => (s.devEvent 0 bs .mem false s.clk).touchStash (some c.team) (bs.map (·.1))

/-- The storage code at which bytes an engine writes at a scope start (08 R199). -/
def State.engCode (s : State) (core : Nat) : Scope → Nat
  | .grp | .team => s.codeInForce core
  | .clu => s.l2Code
  | .dev => max s.l2Code s.l3Code
  | .sys => 0

/-- The bytes of one 64-byte sector are written (15 R337, R338): `ax` and `pr` say that some come from
approximate and some from precise data. -/
def State.engWrite (s : State) (core tenant : Nat) (t : Team) (c : Cmd) (bs : List (Nat × Byte))
    (ax pr : Bool) : Except Tr Unit × State :=
  match bs.head? with
  | none => (.ok (), s)
  | some b0 =>
    let lv := s.engLeaf core tenant b0.1 false true
    match lv.1 with
    | .error e => (.error e, lv.2)
    | .ok l =>
      let ty := lv.2.lineTol ⟨0, b0.1, l⟩
      if if ty.1 then pr else ax then (.error .type, ty.2) else
        let code := if ty.1 then ty.2.engCode core c.sc else 0
        let ev := bs.map fun b => (l.key b.1,
          ({ hwByte b.1 b.2 with ax := ty.1, code := code, tew := ty.1 && entTew l.e.toNat } : Held))
        let s := ty.2.raceLanes c.team false true c.pc.toNat [b0.1 / 64 * 64]
        (.ok (), s.engEvent core t c ev)

/-- One scratchpad granule is written and becomes full (15 R337, R338): a block that the command writes
whole takes the type of its source bytes, any other has it already. -/
def State.granWrite (s : State) (team a : Nat) (c : Cmd) (whole : Bool) (k : Chunk) : Except Tr Cmd × State :=
  let blk := a / 256
  let isAx := ((s.team? team).map fun t => t.blockAx a).getD false
  let first := !c.blocks.has blk
  let s' := if whole && k.ax && !isAx then femToAx (256 * blk) 256 s team
    else if whole && first && !k.ax && isAx then
      s.modTeam team fun t => { t with sp := { t.sp with ax := AMap.del t.sp.ax blk } }
    else s
  if !whole && (if isAx then k.pr else k.ax) then (.error .type, s) else
    (.ok { c with blocks := c.blocks.add blk },
      ((s'.spWrite team a k.bs).modTeam team fun t => t.mark true [a / 16]))

/-- A command waits on a fault page of kind 6 (15 R339), where one can be opened. -/
def State.cmdFault (s : State) (core tenant : Nat) (c : Cmd) (wr : Bool) (f : FaultAt) : State :=
  match s.group? c.gid with
  | none => s
  | some g =>
    let r := s.faultOne g tenant fkEngine c.pc wr false [] f
    match r.1 with
    | none => r.2
    | some id => r.2.modCore core fun k => { k with cmds := k.cmds.map fun x =>
        if x.id == c.id then { x with fault := some id } else x }

/-- The status a failed access ends a command with (15 Table 15-4). -/
def Tr.status : Tr → Nat
  | .type => 4
  | _ => 3

/-- Remember the destinations of a command that met poisoned data (18 R409). -/
def State.spoil (s : State) (core tenant : Nat) (c : Cmd) : State :=
  let ks := (s.core core).locks.filter fun k => k.cmd == c.id && !k.src
  { s with badDst := s.badDst ++ ks.map fun k => ⟨k.sp, if k.sp then k.team else tenant, k.base, k.len⟩ }

/-- The data phase of a command ends early with a status; its lines are unpinned at once (15 R344). -/
def State.endWith (s : State) (core : Nat) (c : Cmd) (status : Nat) : State :=
  s.modCore core fun k => { k with cmds := k.cmds.map fun x =>
    if x.id == c.id then { x with status := status, work := [], left := [], pins := [], hpins := [] } else x }

/-- What a failed access does to a command in its data phase. -/
def State.cmdFail (s : State) (core tenant : Nat) (c : Cmd) (wr : Bool) (e : Tr) : State :=
  match e with
  | .fault f => s.cmdFault core tenant c wr f
  | .pois => (s.spoil core tenant c).endWith core c 3
  | e => s.endWith core c e.status

/-! ## Acceptance (15 R328, R354; 16 R357, R383) -/

/-- A trap at acceptance, of the group operation. -/
def engTrap (g : Group) (c : Cmd) (cls cause a : Nat) : TrapInfo := trapOn cls cause (lanesOf (g.onLanes c.c)) a

/-- What a failed access at acceptance does: the trap, or the park on a fault page of kind 6. -/
def engStop (g : Group) (c : Cmd) (va : Nat) (wr : Bool) (s : State) : Tr → Eff
  | .pois => .trap (engTrap g c 15 0 va) s
  | .fault f =>
    let ls := lanesOf (g.onLanes c.c)
    .wait (s.faultPark c.gid fkEngine c.pc wr [{ f with lanes := maskOf ls, accs := ls.map fun l => (l, va) }])
  | .mem n => .trap (engTrap g c 2 n va) s
  | .type => .trap (engTrap g c 1 1 va) s

/-- Read a record, descriptor or vector at acceptance: it must be readable and precise; a poisoned one is
an operand, and is answered with its mark. -/
def State.readOperand (s : State) (g : Group) (t : Team) (c : Cmd) (va n : Nat) (one : Bool) :
    Except Eff (List Byte × Bool × State) :=
  let vas := (List.range n).map fun i => (va + i) % 2 ^ 64
  let r := s.engRead g.core (s.tenantOf g) t c one vas
  match r.1 with
  | .error .pois => .ok (List.replicate n 0, true, r.2)
  | .error e => .error (engStop g c va false r.2 e)
  | .ok bs => if bs.any (·.2) then .error (engStop g c va false r.2 .type) else .ok (bs.map (·.1), false, r.2)

/-- Check the completion record's address (15 R340; Table 15-11). -/
def State.checkRecord (s : State) (g : Group) (c : Cmd) (va : Nat) : Except Eff State :=
  if va = 0 then .ok s else
  let r := s.engLeaf g.core (s.tenantOf g) va false true
  match r.1 with
  | .error e => .error (engStop g c va true r.2 e)
  | .ok l =>
    let ty := r.2.lineTol ⟨0, va, l⟩
    if ty.1 then .error (engStop g c va true ty.2 .type) else .ok ty.2

/-- Conditions checked in order at acceptance. -/
def refuseIf (b : Bool) (g : Group) (c : Cmd) (cls cause a : Nat) (s : State) : Except Eff Unit :=
  if b then .error (.trap (engTrap g c cls cause a) s) else .ok ()

/-- An ENG packet (21 Table 21-4). -/
def State.emitEng (s : State) (c : Cmd) (opc phase : Nat) : State :=
  s.emitG c.gid (if c.heddle then 6 else 5) ctlENG tyENG
    ([BitVec.ofNat 8 (bit c.heddle), BitVec.ofNat 8 opc] ++ leBytes 4 c.no ++
      [BitVec.ofNat 8 phase, BitVec.ofNat 8 c.status])

/-- The opcode of an engine command. -/
def EngOp.opc : EngOp → Nat
  | .qcp .. => 0xC0
  | .qcpm .. => 0xC1
  | .qmc .. => 0xC2
  | .qcol => 0xC3
  | .qput => 0xC4
  | .qget => 0xC5
  | .hmm .. => 0xD0
  | .hmmf .. => 0xD1
  | .hclr .. => 0xD2
  | .hacl .. => 0xD3
  | .hdrn .. => 0xD4
  | .bpack .. => 0xD5
  | .bunpk .. => 0xD6

/-- The command's task identity and completion-record address. -/
def Cmd.task (c : Cmd) : Nat :=
  match c.op with
  | .qcol => c.word 1
  | .hclr .. => 0
  | .hacl .. => c.word 1
  | .hdrn .. => c.word 8
  | .hmm .. | .hmmf .. | .bpack .. | .bunpk .. => c.word 3
  | _ => c.word 4
def Cmd.recAt (c : Cmd) : Nat :=
  match c.op with
  | .qcol => c.word 2
  | .hclr .. => 0
  | .hacl .. => c.word 2
  | .hdrn .. => c.word 9
  | .hmm .. | .hmmf .. | .bpack .. | .bunpk .. => c.word 4
  | _ => c.word 5

/-- A command that counts as a global engine write (15 R353; 16 R382). -/
def Cmd.globalWrite (c : Cmd) : Bool :=
  c.task != 0 || c.recAt != 0 || (match c.op with
    | .qcp dst sc _ => (match dst with | .g => true | _ => sc)
    | .qcpm .. | .qmc .. | .qcol | .qput | .qget | .bpack .. | .bunpk .. => true
    | .hdrn m _ _ => m.amax || !m.sp
    | _ => false)

/-- A command is accepted: its ranges are registered, it takes its number, and an ENG packet records it.
Follow-ons are accepted so too. -/
def State.enterCmd (s : State) (core : Nat) (c : Cmd) (rs : List Rng) : State :=
  match s.team? c.team with
  | none => s
  | some t =>
    let no := if c.heddle then t.hcount else t.qcount
    let c := { c with st := .accepted, no := no % 2 ^ 32, since := s.clk }
    let s := s.register core c.id c.team rs
    let s := s.modTeam c.team fun t => { t with
      hcount := if c.heddle then (no + 1) % 2 ^ 32 else t.hcount
      qcount := if c.heddle then t.qcount else (no + 1) % 2 ^ 32
      clean := t.clean && !c.globalWrite }
    let s := s.modCore core fun k => { k with cmds := (k.cmds.filter (·.id != c.id)) ++ [c] }
    s.emitEng c c.op.opc 0

/-- A command that waited for the range of an earlier one reads what that one wrote (15 R330). -/
def State.wroteLo (s : State) (core : Nat) (rs : List Rng) : VPos :=
  (s.core core).wrote.foldl (fun p w =>
    if rs.any fun r => r.src && !r.sp && meets w.1 w.2.1 r.base r.len then p.join w.2.2 else p) {}

/-- What the acceptance of an engine's oldest queued command comes to; `check` reads what the command
names, checks it, and gives its ranges. -/
def State.acceptHead (s : State) (core : Nat) (heddle : Bool)
    (check : Cmd → Group → Team → State → Except Eff (Cmd × List Rng × State)) : State :=
  match (s.engCmds core heddle).find? (·.st == .queued) with
  | none => s
  | some c =>
    let s := s.modGroup c.gid fun g => { g with stall := 0 }
    match s.group? c.gid, s.team? c.team with
    | some g, some t =>
      if !s.issuable c.gid { g with held := none } || s.committing c.gid then s else
      match check { c with lo := g.mem.seen } g t s with
      | .error (.trap ti s) => (s.unqueue c.gid).takeTrap c.gid (instrRaw c.i) c.pc ti
      | .error (.wait s) => s.unqueue c.gid
      | .error _ => s
      | .ok (c, rs, r) =>
        let c := { c with lo := c.lo.join (s.wroteLo core rs) }
        if s.clash core c.team none rs || lockSize < (s.core core).locks.length + rs.length then s else
          let ls := lanesOf (g.onLanes c.c)
          let m : Meta := { i := c.i, c := c.c, ext := true
                            dsts := match c.d with | none => [] | some d => [⟨d, 1, false⟩] }
          let no := if heddle then t.hcount else t.qcount
          let s := if g.trc.started then r else r.gstart c.gid
          let s := (s.enterCmd core c rs).modGroup c.gid fun h =>
            { h with held := none, ctl := { h.ctl with pc := c.pc + 8 } }
          let s := match c.d with | none => s | some d => s.putS c.gid d no
          ((s.counted c.gid m ls g).logDests c.gid m ls g).afterIssue c.gid m g
    | _, _ => s

/-- An acceptance that a lossless trace holds waits, with the issuing group stalled for TRACE (21 R443). -/
def acceptEvent (core : Nat) (heddle : Bool) (t s : State) : Host.Outcome State Fault Refusal :=
  .next (if s.holds t then
    (match (s.engCmds core heddle).find? (·.st == .queued) with
     | none => s
     | some c => s.modGroup c.gid fun g => { g with stall := 1 })
    else t)

/-! ## Completion (15 R340) -/

/-- The completion record (15 Table 15-3). -/
def Cmd.record (c : Cmd) (mask : Nat) : List Byte :=
  leBytes 1 c.status ++ leBytes 1 (c.op.opc - 0xC0) ++ leBytes 2 0 ++
    leBytes 4 (min c.bytes (2 ^ 32 - 1)) ++ leBytes 8 mask

/-- Step 2: the record, where one is named. None: the command waits at this step. -/
def State.writeRecord (s : State) (core tenant : Nat) (t : Team) (c : Cmd) (mask : Nat) : Option Cmd × State :=
  if c.recAt = 0 || c.noRec then (some c, s) else
  let bs := (c.record mask).mapIdx fun i b => (c.recAt + i, b)
  let r := s.engWrite core tenant t c bs false true
  match r.1 with
  | .ok _ => (some c, r.2)
  | .error (.fault f) =>
    (none, (r.2.cmdFault core tenant c true f).modCore core fun k => { k with cmds := k.cmds.map fun x =>
      if x.id == c.id then { x with atRec := true } else x })
  | .error e => (some { c with status := e.status }, r.2)

def State.clusterOfTeam (s : State) (tid : Nat) : Option Cluster := (s.team? tid).bind fun t => s.cluster? t.cluster

/-- Step 3: the ranges are released, the outcome is kept, and the task is decremented. -/
def State.finishCmd (s : State) (core : Nat) (c : Cmd) : State :=
  let mine := (s.core core).locks.filter fun k => k.cmd == c.id && !k.src && !k.sp
  let pos : VPos := ⟨((s.clusterOfTeam c.team).map (·.ord.pos)).getD 0, s.dev.pos⟩
  let s := s.modCore core fun k => { k with wrote := k.wrote ++ mine.map fun l => (l.base, l.len, pos) }
  let s := (s.release_ core c.id).dropCmd core c.id
  let s := s.emitEng c c.op.opc 1
  let s := if c.heddle then s else s.modTeam c.team fun t =>
    { t with outcomes := ((c.no, c.status) :: t.outcomes).take 256 }
  if c.task = 0 then s else (s.decTask (BitVec.ofNat 64 c.task) 1 (s.dev.pos, none)).2

/-- How many lines are pinned on a die (15 R344; 16 R365), those of `qcpm` alone or all. -/
def State.pinned (s : State) (die : Nat) (all : Bool) : Nat :=
  (s.cores.foldl (fun (a : NSet) e => if s.dieOf e.1 = die then
    e.2.cmds.foldl (fun a c => NSet.addAll a (c.pins ++ if all then List.map (·.2) c.hpins else [])) a else a) []).length
def pinLimit : Nat := 32768

/-! ## Units of a data phase -/

/-- A unit is done: the command after it, with bytes written. -/
def Cmd.did (c : Cmd) (u n : Nat) : Cmd :=
  { c with work := c.work.filter (· != u), bytes := c.bytes + n, fault := none }

/-- The result of a step of a command. -/
def State.stepCmd (s : State) (core tenant : Nat) (c : Cmd) (wr : Bool) (r : Except Tr Cmd) : State :=
  match r with
  | .ok c => s.setCmd core c
  | .error e => s.cmdFail core tenant c wr e

/-- One sector of global memory is written. -/
def State.writeSector (s : State) (core tenant : Nat) (t : Team) (c : Cmd) (u : Nat) (dst : List Nat)
    (n : Nat) (k : Chunk) : State :=
  let w := s.engWrite core tenant t c (dst.zip k.bs) k.ax k.pr
  let s := match w.1 with
    | .ok _ => if c.heddle then w.2 else w.2.modCore core fun x => x.count 0x2B n
    | .error _ => w.2
  s.stepCmd core tenant c true (w.1.map fun _ => c.did u n)

/-- The 64-byte sectors of an interval. -/
def sectorsIn (a n : Nat) : List Nat :=
  if n = 0 then [] else (List.range ((a + n - 1) / 64 - a / 64 + 1)).map (a / 64 + ·)

def State.slotsOf (s : State) (g : Group) : List Word64 := ((s.gridOf g).map (·.rcd.slots)).getD []

def State.tenantOfTeam (s : State) (t : Nat) : Nat := ((s.team? t).map s.teamTenant).getD 0

def rngs (src : Bool) (a n : Nat) : List Rng := if n = 0 then [] else [⟨src, false, a, n⟩]

/-- An address that is named and is not canonical: its condition at issue. -/
def badAddr (named : Bool) (a : Nat) : Bool × Nat × Nat × Nat := (named && !canonical a, 2, 0, a)

/-- Traps of operand checks at issue, in order. -/
def issueChecks (ls : List Nat) (s : State) : List (Bool × Nat × Nat × Nat) → Eff → Eff
  | [], k => k
  | (bad, cls, cause, a) :: cs, k => if bad then .trap (trapOn cls cause ls a) s else issueChecks ls s cs k


end Sys2Proof.Machine
end

