-- ==== Sys2Proof/Machine/Heddle.lean ====
section
/-!
DEFINITION. The Heddle (16 R356 to R384): format slots, accumulator tiles, bit-plane and FP16/BF16
multiplies, clears and loads, the drain chain, packing and unpacking, and the steps of its commands.
-/
namespace Sys2Proof.Machine

/-! ## Format slots (16 R362, R363) -/

def slotKind (w : Nat) : Nat := w % 8
def slotN (w : Nat) : Nat := bitsAt w 8 4
def slotP (w : Nat) : Nat := bitsAt w 12 4
def slotSgn (w : Nat) : Bool := bitAt w 16
def slotLayout (w : Nat) : Nat := bitsAt w 17 2
def slotSkip (w : Nat) : Bool := bitAt w 19
def slotSmode (w : Nat) : Nat := bitsAt w 20 2
def slotSexp (w : Nat) : Int := (BitVec.ofNat 8 (bitsAt w 24 8)).toInt
def slotScale (w : Nat) : Nat := bitsAt w 32 32

/-- Well formed (16 R363). -/
def slotOk (w : Nat) : Bool :=
  bitsAt w 3 5 == 0 && bitsAt w 22 2 == 0 && slotSmode w != 3 && slotLayout w ≤ 1
    && (slotSmode w != 1 || bitsAt (slotScale w) 23 8 != 255)
    && (match slotKind w with
      | 0 => w == 0
      | 1 => 2 ≤ slotP w && slotP w ≤ slotN w && slotN w ≤ 8
      | 2 | 3 | 4 => bitsAt w 8 12 == 0
      | _ => false)

def slotAt (slots : List Word64) (i : Nat) : Nat := (slots.getD i 0).toNat
/-- A slot an instruction may name: well formed and of one of these kinds. -/
def slotIn (slots : List Word64) (kinds : List Nat) (i : Nat) : Bool :=
  slotOk (slotAt slots i) && kinds.any (· == slotKind (slotAt slots i))

/-! ## Planes (16 R360, R361) -/

/-- w_i of an n-plane element. -/
def planeWeight (n : Nat) (sgn : Bool) (i : Nat) : Int :=
  (if i = 0 && sgn then -1 else 1) * ((2 ^ (n - 1 - i) : Nat) : Int)

/-- Val_p from the bits of the planes, the most significant first. -/
def planeVal (n : Nat) (sgn : Bool) (bits : List Bool) : Int :=
  (bits.mapIdx fun i b => if b then planeWeight n sgn i else 0).foldl (· + ·) 0

/-- Offset of plane i of chunk c from the operand's base. -/
def planeOff (layout n cs c i : Nat) : Nat :=
  4096 * (if layout = 0 then c * n + i else i * cs + c)

/-- Does a plane bit of row r, column k stand in 4096 bytes? -/
def planeBit (at_ : Nat → Byte) (r k : Nat) : Bool := (at_ (32 * r + k / 8)).toNat.testBit (k % 8)

/-! ## Tiles (16 R364) -/

def tileIdx (t m n : Nat) : Nat := 16384 * t + 128 * m + n
def Team.tile (x : Team) (t m n : Nat) : Nat := (AMap.get 0 x.tiles (tileIdx t m n)).toNat
/-- The state word (16 Table 16-3). -/
def Team.tword (x : Team) (t : Nat) : Nat := (AMap.get 0 x.tstate t).toNat

def twFp (w : Nat) : Bool := bitAt w 16
def twApx (w : Nat) : Bool := bitAt w 5
def twSv (w : Nat) : Bool := bitAt w 17
def twSa (w : Nat) : Nat := bitsAt w 18 3
def twSb (w : Nat) : Nat := bitsAt w 21 3

/-- A state word. -/
def twMake (fp apx : Bool) (flags : Nat) (slots : Option (Nat × Nat)) : Nat :=
  bit fp * 2 ^ 16 + bit apx * 32 + flags % 32 + (match slots with
    | none => 0
    | some (a, b) => 2 ^ 17 + a % 8 * 2 ^ 18 + b % 8 * 2 ^ 21)

/-- A tile holds a poisoned element (18 R409). -/
def Team.tileBad (x : Team) (t : Nat) : Bool := x.tpois.any fun k => k / 16384 == t

/-- Set a tile's elements and state word. -/
def Team.setTile (x : Team) (t : Nat) (els : List (Nat × Nat)) (w : Nat) : Team :=
  { x with
    tpois := x.tpois.filter fun k => k / 16384 != t
    tiles := els.foldl (fun (m : AMap Word32) (e : Nat × Nat) => AMap.put 0 m (16384 * t + e.1) (BitVec.ofNat 32 e.2)) x.tiles
    tstate := AMap.put 0 x.tstate t (BitVec.ofNat 64 w) }

/-! ## Commands: tiles, units, intervals -/

/-- The tile a command names. -/
def EngOp.tile : EngOp → Option Nat
  | .hmm _ t _ _ | .hmmf t _ _ | .hclr _ t | .hacl _ t | .hdrn _ t _ => some t
  | _ => none

/-- The tile a command reads: a multiply adds to it, and a drain writes it out. -/
def EngOp.reads : EngOp → Option Nat
  | .hmm _ t _ _ | .hmmf t _ _ | .hdrn _ t _ => some t
  | _ => none

/-- A command's tile operand is poisoned. -/
def Team.operandBad (x : Team) (op : EngOp) : Bool := (op.reads.map x.tileBad).getD false

/-- The drain unit executes `hdrn`, `bpack` and `bunpk`; the array unit the others (16 Table 16-1). -/
def EngOp.drains : EngOp → Bool
  | .hdrn .. | .bpack _ | .bunpk _ => true
  | _ => false

/-- Kinds of output of the drain (16 R375): bytes of a row, and planes. -/
def drainKind (m : DrnMods) (w : Nat) : Nat := if m.req then (if slotKind w = 1 then 1 else 2) else 0
def drainRow (kind : Nat) : Nat := [512, 16, 256].getD kind 512
def drainPlanes (kind w : Nat) : Nat := if kind = 1 then slotN w else 1

/-- A row a command writes: its address, its bytes, the plane and the row it holds. -/
structure OutRow where
  at_ : Nat
  len : Nat
  i : Nat
  m : Nat
deriving DecidableEq, Repr

/-- The rows a drain, `bpack` or `bunpk` writes (16 R375, R378). -/
def Cmd.outRows (c : Cmd) (slots : List Word64) : List OutRow :=
  match c.op with
  | .hdrn m _ fo =>
    let w := slotAt slots fo
    let k := drainKind m w
    let r := c.word 1 % 2 ^ 32
    let q := if k = 1 then c.word 1 / 2 ^ 32 else 0
    (List.range (drainPlanes k w)).flatMap fun i => (List.range 128).map fun j =>
      ⟨c.word 0 + q * i + r * j, drainRow k, i, j⟩
  | .bpack fs => (List.range (slotN (slotAt slots fs))).map fun i =>
      ⟨c.word 1 + c.word 2 / 2 ^ 32 * i, 4096, i, 0⟩
  | .bunpk _ => (List.range 128).map fun j => ⟨c.word 1 + c.word 2 / 2 ^ 32 * j, 256, 0, j⟩
  | _ => []

/-- The intervals a command reads: operand, address, bytes. -/
def Cmd.inRows (c : Cmd) (slots : List Word64) : List (Nat × Nat × Nat) :=
  let planes (o base fs : Nat) : List (Nat × Nat × Nat) :=
    let w := slotAt slots fs
    let cs := c.word 2 / 256
    (List.range cs).flatMap fun k => (List.range (slotP w)).map fun i =>
      (o, base + planeOff (slotLayout w) (slotN w) cs k i, 4096)
  match c.op with
  | .hmm _ _ fa fb => planes 0 (c.word 0) fa ++ planes 1 (c.word 1) fb
  | .hmmf _ _ _ => [(0, c.word 0, 256 * c.word 2), (1, c.word 1, 256 * c.word 2)]
  | .hacl _ _ => [(0, c.word 0, 65536)]
  | .bpack _ => (List.range 128).map fun j => (0, c.word 0 + c.word 2 % 2 ^ 32 * j, 256)
  | .bunpk fs => (List.range (slotP (slotAt slots fs))).map fun i => (0, c.word 0 + c.word 2 % 2 ^ 32 * i, 4096)
  | _ => []

/-- Bytes from a first address to the end of the last interval. -/
def spanOf (base : Nat) (rs : List (Nat × Nat)) : Nat := rs.foldl (fun m r => max m (r.1 + r.2)) base - base

/-- The ranges a command registers (16 R365, R372, R373, R378). -/
def Cmd.ranges (c : Cmd) (slots : List Word64) : List Rng :=
  let stored (fs : Nat) : Nat := c.word 2 / 256 * slotN (slotAt slots fs) * 4096
  match c.op with
  | .hmm _ _ fa fb => [⟨true, false, c.word 0, stored fa⟩, ⟨true, false, c.word 1, stored fb⟩]
  | .hmmf _ _ _ => [⟨true, false, c.word 0, 256 * c.word 2⟩, ⟨true, false, c.word 1, 256 * c.word 2⟩]
  | .hacl _ _ => [⟨true, false, c.word 0, 65536⟩]
  | .hdrn m _ _ => [⟨false, m.sp, c.word 0, spanOf (c.word 0) ((c.outRows slots).map fun r => (r.at_, r.len))⟩]
  | .bpack _ | .bunpk _ =>
    [⟨true, false, c.word 0, spanOf (c.word 0) ((c.inRows slots).map (·.2))⟩,
     ⟨false, false, c.word 1, spanOf (c.word 1) ((c.outRows slots).map fun r => (r.at_, r.len))⟩]
  | _ => []

/-! ## Checks (16 R363, R368, R370, R372, R373, R378, R383) -/

/-- What would trap at issue, for the operands alone, in order: condition, class, cause, address. -/
def Cmd.checks (c : Cmd) : List (Bool × Nat × Nat × Nat) :=
  let al (x a : Nat) : Bool × Nat × Nat × Nat := (x % a != 0, 3, 0, x)
  let size (u : Nat) : Bool × Nat × Nat × Nat :=
    (c.word 2 % u != 0 || c.word 2 < u || 65536 < c.word 2, 2, 6, c.word 0)
  let record : List (Bool × Nat × Nat × Nat) := [al c.recAt 16, badAddr (c.recAt != 0) c.recAt]
  let pitches (src dst : Nat) : List (Bool × Nat × Nat × Nat) :=
    [al (c.word 0) 256, al (c.word 1) 256, al (c.word 2 % 2 ^ 32) 256, al (c.word 2 / 2 ^ 32) 256,
     (c.word 2 % 2 ^ 32 < src || c.word 2 / 2 ^ 32 < dst, 3, 0, c.word 0)]
  match c.op with
  | .hmm _ _ _ _ => [al (c.word 0) 256, al (c.word 1) 256] ++ record ++ [size 256]
  | .hmmf _ _ _ => [al (c.word 0) 256, al (c.word 1) 256] ++ record ++ [size 64]
  | .hacl _ _ => al (c.word 0) 256 :: record
  | .hdrn m _ _ =>
    let lo := c.word 4 % 2 ^ 32
    let hi := c.word 4 / 2 ^ 32
    [(m.act && (bitsAt lo 23 8 == 255 || !(fCmp fmt32 .lt lo hi).1), 0, 1, 0),
     al (c.word 0) 16, al (c.word 1 % 2 ^ 32) 16,
     (m.bias && c.word 2 % 64 != 0, 3, 0, c.word 2), (m.act && c.word 3 % 64 != 0, 3, 0, c.word 3),
     (m.amax && c.word 5 % 4 != 0, 3, 0, c.word 5), al (c.word 6) 64, al (c.word 7) 64] ++ record ++
    [badAddr m.bias (c.word 2), badAddr m.act (c.word 3), badAddr true (c.word 6), badAddr true (c.word 7)]
  | .bpack _ => pitches 256 4096 ++ record
  | .bunpk _ => pitches 4096 256 ++ record
  | _ => []

/-- What would trap at acceptance, for the slots it names (16 R363, R373, R383). R363 says at issue: the group
is still stalled there when a command is accepted. -/
def Cmd.slotChecks (c : Cmd) (slots : List Word64) : List (Bool × Nat × Nat × Nat) :=
  let slot (kinds : List Nat) (i : Nat) : Bool × Nat × Nat × Nat := (!slotIn slots kinds i, 0, 1, 0)
  match c.op with
  | .hmm _ _ fa fb => [slot [1] fa, slot [1] fb]
  | .hmmf _ fa fb => [slot [2, 3] fa, slot [2, 3] fb]
  | .hdrn m _ fo =>
    let k := drainKind m (slotAt slots fo)
    [(m.req && !slotIn slots [1, 2] fo, 0, 1, 0), (c.word 1 % 2 ^ 32 < drainRow k, 3, 0, c.word 0),
     (k == 1 && c.word 1 / 2 ^ 32 % 16 != 0, 3, 0, c.word 0)]
  | .bpack fs | .bunpk fs => [slot [1] fs]
  | _ => []

/-- The status that ends a follow-on where a directly issued command would trap (16 R380): KIND for
ILLEGAL, else MEMORY. -/
def Cmd.precheck (c : Cmd) (slots : List Word64) : Nat :=
  match (c.slotChecks slots ++ c.checks).find? (·.1) with
  | none => 0
  | some e => if e.2.1 = 0 then 5 else 3

/-- The command of a follow-on (15 R344). -/
def followCmd (f : Follow) (c : Cmd) (pos : VPos) (id : Nat) : Option Cmd :=
  let mk (op : EngOp) : Cmd :=
    let h : Cmd := { id := id, heddle := true, gid := c.gid, team := c.team, i := f.i, c := f.c, pc := c.pc
                     op := op, sc := .dev, blk := f.blk, code := f.code, lo := c.lo.join pos }
    { h with noRec := h.recAt % 16 != 0 }
  match f.i with
  | .hmm _ ax (.acc t) _ fa fb => some (mk (.hmm ax t fa fb))
  | .hmmf _ (.acc t) _ fa fb => some (mk (.hmmf t fa fb))
  | _ => none

/-- Read the vectors of `hdrn` in order (16 R373). -/
def readVecs (g : Group) (t : Team) (c : Cmd) : List (Nat × Nat × Nat) → State → Except Eff (Cmd × State)
  | [], s => .ok (c, s)
  | (k, va, n) :: vs, s =>
    match s.readOperand g t { c with sc := .dev } va n false with
    | .error e => .error e
    | .ok (bs, bad, s) => readVecs g t { c with vecs := AMap.set c.vecs k bs, bad := c.bad || bad } vs s

/-- The checks of an acceptance (16 R383): the slots, the vectors, the destination, the record. A source outside
the space ends the command with STATUS MEMORY, in its data phase. -/
def checkHeddle (c : Cmd) (g : Group) (t : Team) (s : State) : Except Eff (Cmd × List Rng × State) := do
  let slots := s.slotsOf g
  match (c.slotChecks slots).find? (·.1) with
  | some e => refuseIf true g c e.2.1 e.2.2.1 e.2.2.2 s
  | none => .ok ()
  let vs : List (Nat × Nat × Nat) := match c.op with
    | .hdrn m _ _ =>
      (if m.bias then [(0, c.word 2, 512)] else []) ++ (if m.act then [(1, c.word 3, 2048)] else [])
        ++ (if c.word 6 = 0 then [] else [(2, c.word 6, 256)]) ++ (if c.word 7 = 0 then [] else [(3, c.word 7, 256)])
    | _ => []
  let (c, s) ← readVecs g t c vs s
  let rs := c.ranges slots
  let dst : Option Rng := rs.find? fun r => !r.src && (if r.sp then !t.spOk r.base r.len else !globalOk r.base r.len)
  refuseIf dst.isSome g c 2 0 ((dst.map (·.base)).getD 0) s
  let s ← s.checkRecord g c c.recAt
  .ok (c, rs, s)

/-- HEDDLE_ACCEPT: the oldest queued command of a core's Heddle is accepted, or traps, or parks. -/
def execHeddleAccept (core : Nat) (s : State) : Host.Outcome State Fault Refusal :=
  acceptEvent core true (s.acceptHead core true checkHeddle) s

/-! ## Issue -/

/-- An instruction that gives the Heddle a command (16 R357). -/
def heddleRow (i : Instr) (c : Ctl) (sc : Scope) (blk : Option (Src × Nat)) (op : EngOp) (s : State) :
    Host.Outcome State Fault Refusal :=
  run { i := i, c := c, srcs := match blk with | none => [] | some (b, n) => [blockUse b n], ext := true }
    (fun g ls s =>
      ifAny ls s (
        let cmd : Cmd := { id := 0, heddle := true, gid := s.cur, team := g.team, i := i, c := c, pc := g.ctl.pc
                           op := op, sc := sc, code := s.codeOf g.team
                           blk := match blk with | none => [] | some (b, n) => blockVals g b n }
        issueChecks ls s cmd.checks (enqueue true cmd g s))) s

/-- The number of an accumulator operand. -/
def accOf : Opd → Nat
  | .acc n => n
  | _ => 0

def execHmm (c : Ctl) (ax : Bool) (acc : Opd) (blk : Src) (fa fb : Nat) (s : State) :
    Host.Outcome State Fault Refusal :=
  heddleRow (.hmm c ax acc blk fa fb) c .dev (some (blk, 5)) (.hmm ax (accOf acc) fa fb) s
def execHmmf (c : Ctl) (acc : Opd) (blk : Src) (fa fb : Nat) (s : State) :
    Host.Outcome State Fault Refusal :=
  heddleRow (.hmmf c acc blk fa fb) c .dev (some (blk, 5)) (.hmmf (accOf acc) fa fb) s
def execHclr (c : Ctl) (fp : Bool) (acc : Opd) (s : State) : Host.Outcome State Fault Refusal :=
  heddleRow (.hclr c fp acc) c .dev none (.hclr fp (accOf acc)) s
def execHacl (c : Ctl) (fp : Bool) (acc : Opd) (blk : Src) (s : State) :
    Host.Outcome State Fault Refusal :=
  heddleRow (.hacl c fp acc blk) c .dev (some (blk, 3)) (.hacl fp (accOf acc)) s
def execHdrn (c : Ctl) (m : DrnMods) (sc : Scope) (acc : Opd) (blk : Src) (fo : Nat) (s : State) :
    Host.Outcome State Fault Refusal :=
  heddleRow (.hdrn c m sc acc blk fo) c sc (some (blk, 10)) (.hdrn m (accOf acc) fo) s
def execBpack (c : Ctl) (blk : Src) (fs : Nat) (s : State) : Host.Outcome State Fault Refusal :=
  heddleRow (.bpack c blk fs) c .dev (some (blk, 5)) (.bpack fs) s
def execBunpk (c : Ctl) (blk : Src) (fs : Nat) (s : State) : Host.Outcome State Fault Refusal :=
  heddleRow (.bunpk c blk fs) c .dev (some (blk, 5)) (.bunpk fs) s

/-! ## fmtq (16 R379) -/

def execFmtqSlot (c : Ctl) (d : Opd) (fs : Nat) (s : State) : Host.Outcome State Fault Refusal :=
  run { i := .fmtqSlot c d fs, c := c, dsts := [⟨d, 1, false⟩] } (fun g ls s =>
    ifAny ls s (
      if slotOk (slotAt (s.slotsOf g) fs) then .next (s.putS s.cur d (slotAt (s.slotsOf g) fs))
      else .trap (trapOf 0 1 ls) s)) s

/-- An accepted command of a team names a tile. -/
def State.tileBusy (s : State) (team acc : Nat) : Bool :=
  s.cores.any fun e => e.2.cmds.any fun c => c.team == team && c.st != .queued && c.op.tile == some acc

def execFmtqAcc (c : Ctl) (d : Opd) (acc : Nat) (s : State) : Host.Outcome State Fault Refusal :=
  run { i := .fmtqAcc c d acc, c := c, dsts := [⟨d, 1, false⟩], ext := true } (fun g ls s =>
    ifAny ls s (
      if s.tileBusy g.team acc then
        .next (s.await s.cur g ((⟨d, 1, false⟩ : Use).cells ls) (.fmtq d acc))
      else .next (s.putS s.cur d (((s.teamOf g).map (·.tword acc)).getD 0)))) s

/-- Queries of tiles that no accepted command names any more are answered. -/
def State.answerFmtq (s : State) : State :=
  s.pending.foldl (fun s p =>
    match p.op, s.group? p.gid with
    | .fmtq d acc, some g =>
      if s.tileBusy g.team acc then s else s.deliverS p d (((s.teamOf g).map (·.tword acc)).getD 0)
    | .fmtq _ _, none => s.dropPend p.id
    | _, _ => s) s

/-! ## The drain chain (16 R374) -/

/-- Scale(s, idx); none: the vector it needs was not given. -/
def drainScale (w : Nat) (vec : Option (List Byte)) (idx : Nat) : Option FV :=
  match slotSmode w with
  | 1 => some (fmt32.read (slotScale w))
  | 2 => vec.map fun v => fmt16.read (leAt v (2 * idx) 2)
  | _ => some (.fin false 1 0)

/-- Times a power of two. -/
def FV.scale (v : FV) (e : Int) : FV :=
  match v with
  | .fin n m x => .fin n m (x + e)
  | v => v

def tileVal (fp : Bool) (x : Nat) : FV :=
  if fp then fmt32.read x else
    let i := (BitVec.ofNat 32 x).toInt
    .fin (i < 0) i.natAbs 0

/-- The index of the activation table (16 R374). -/
def actIndex (lo hi y : Nat) : Nat :=
  match fmt32.read y, fmt32.read lo, fmt32.read hi with
  | .inf n, _, _ => if n then 0 else 255
  | .fin n m e, .fin ln lm le, .fin hn hm he =>
    let q := min e (min le he)
    let a := (FV.fin n m e).atExp q - (FV.fin ln lm le).atExp q
    let b := (FV.fin hn hm he).atExp q - (FV.fin ln lm le).atExp q
    (max 0 (min 255 (Int.fdiv (a * 256) b))).toNat
  | _, _, _ => 0

/-- Requant (16 R374): the output bits, and whether it saturated. -/
def requant (w y : Nat) : Nat × Bool :=
  let v := (fmt32.read y).scale (-(slotSexp w))
  if slotKind w = 2 then
    match v with
    | .nan _ => (0x7E00, true)
    | .inf n => (fmt16.inf + (if n then fmt16.signBit else 0), false)
    | .fin n m e =>
      let big := if 0 ≤ e then 65504 < m * 2 ^ e.toNat else 65504 * 2 ^ (-e).toNat < m
      if big then (0x7BFF + (if n then fmt16.signBit else 0), true) else ((fmt16.round .ne n m e).1, false)
  else
    let n := slotN w
    let lo : Int := if slotSgn w then -((2 ^ (n - 1) : Nat) : Int) else 0
    let hi : Int := (if slotSgn w then (2 ^ (n - 1) : Nat) else (2 ^ n : Nat)) - 1
    match v with
    | .nan _ => (0, true)
    | .inf neg => ((BitVec.ofInt n (if neg then lo else hi)).toNat, true)
    | .fin neg m e =>
      let r := (roundInt .ne neg m e).1
      let x : Int := if neg then -(r : Int) else r
      let y := max lo (min hi x)
      ((BitVec.ofInt n y).toNat, x != y)

/-- y2 of an element (16 R374). -/
def drainY2 (c : Cmd) (m : DrnMods) (slots : List Word64) (tw x i j : Nat) : Nat :=
  let v := tileVal (twFp tw) x
  let p : FV := if twSv tw then
      let a := slotAt slots (twSa tw)
      let b := slotAt slots (twSb tw)
      let sa := (drainScale a (AMap.at? c.vecs 2) i).getD (.fin false 1 0)
      let sb := (drainScale b (AMap.at? c.vecs 3) j).getD (.fin false 1 0)
      ((v.mul (sa.mul sb).1).1).scale (slotSexp a + slotSexp b)
    else v
  let y0 := (fmt32.roundV .ne p).1
  let y1 := if m.bias then (fAdd fmt32 .ne y0 (leAt (AMap.get [] c.vecs 0) (4 * j) 4)).1 else y0
  if m.act then
    if (fmt32.read y1).isNan then fmt32.canon else
      let k := actIndex (c.word 4 % 2 ^ 32) (c.word 4 / 2 ^ 32) y1
      let tab := AMap.get [] c.vecs 1
      (fFma fmt32 .ne (leAt tab (8 * k) 4) y1 (leAt tab (8 * k + 4) 4)).1
  else y1

/-- The output of an element, and whether it saturated. -/
def drainOut (c : Cmd) (m : DrnMods) (fo : Nat) (slots : List Word64) (tw x i j : Nat) : Nat × Bool :=
  let y := drainY2 c m slots tw x i j
  if m.req then requant (slotAt slots fo) y else (y, false)

/-- m_abs of a tile (16 R376). -/
def drainAbs (c : Cmd) (m : DrnMods) (slots : List Word64) (t : Team) (acc : Nat) : Nat :=
  let tw := t.tword acc
  (List.range 16384).foldl (fun a k =>
    let y := drainY2 c m slots tw (t.tile acc (k / 128) (k % 128)) (k / 128) (k % 128) % 2 ^ 31
    if (fmt32.read y).isNan then a else (fMinMax fmt32 true a y).1) 0

/-! ## Bytes a command has read, and bytes it writes -/

/-- A byte of an operand, from what was read. -/
def Cmd.got (c : Cmd) (o va : Nat) : Byte :=
  match AMap.at? c.data (o * 2 ^ 60 + va / 256) with
  | none => 0
  | some k => k.bs.getD (va % 256) 0

/-- An 8-bit value clamped to n bits (16 R378): its planes as a number, and whether it was clamped. -/
def packVal (n : Nat) (sgn : Bool) (b : Byte) : Nat × Bool :=
  let v : Int := if sgn then b.toInt else b.toNat
  let lo : Int := if sgn then -((2 ^ (n - 1) : Nat) : Int) else 0
  let hi : Int := (if sgn then (2 ^ (n - 1) : Nat) else (2 ^ n : Nat)) - 1
  let y := max lo (min hi v)
  ((BitVec.ofInt n y).toNat, v != y)

/-- Eight bits as a byte. -/
def byteOf (f : Nat → Bool) : Byte := BitVec.ofNat 8 ((List.range 8).foldl (fun a i => a + bit (f i) * 2 ^ i) 0)

/-- Byte j of a row a command writes, and whether a value in it saturated. -/
def Cmd.outByte (c : Cmd) (slots : List Word64) (t : Team) (r : OutRow) (j : Nat) : Byte × Bool :=
  match c.op with
  | .hdrn m acc fo =>
    let tw := t.tword acc
    let out (n : Nat) : Nat × Bool := drainOut c m fo slots tw (t.tile acc r.m n) r.m n
    match drainKind m (slotAt slots fo) with
    | 1 =>
      let n := slotN (slotAt slots fo)
      (byteOf fun b => (out (8 * j + b)).1.testBit (n - 1 - r.i), (List.range 8).any fun b => (out (8 * j + b)).2)
    | 2 => (BitVec.ofNat 8 ((out (j / 2)).1 / 256 ^ (j % 2)), (out (j / 2)).2)
    | _ => (BitVec.ofNat 8 ((out (j / 4)).1 / 256 ^ (j % 4)), false)
  | .bpack fs =>
    let w := slotAt slots fs
    let v (b : Nat) : Nat × Bool :=
      packVal (slotN w) (slotSgn w) (c.got 0 (c.word 0 + c.word 2 % 2 ^ 32 * (j / 32) + (8 * (j % 32) + b)))
    (byteOf fun b => (v b).1.testBit (slotN w - 1 - r.i), (List.range 8).any fun b => (v b).2)
  | .bunpk fs =>
    let w := slotAt slots fs
    let bits := (List.range (slotP w)).map fun i =>
      planeBit (fun o => c.got 0 (c.word 0 + c.word 2 % 2 ^ 32 * i + o)) r.m j
    (BitVec.ofInt 8 (planeVal (slotN w) (slotSgn w) bits), false)
  | _ => (0, false)

/-- The bytes of a unit of output; where rows overlap, any row's byte. -/
def State.outUnit (s : State) (c : Cmd) (slots : List Word64) (t : Team) (at_ n : Nat) :
    List (Nat × Byte) × Bool × State :=
  let rows := c.outRows slots
  (List.range n).foldl (fun (a : List (Nat × Byte) × Bool × State) k =>
    let va := at_ + k
    let cands := rows.filter fun r => r.at_ ≤ va && va < r.at_ + r.len
    match cands with
    | [] => a
    | r :: _ =>
      let f := a.2.2.freeIn 0 (cands.length - 1)
      let r := cands.getD f.1 r
      let b := c.outByte slots t r (va - r.at_)
      (a.1 ++ [(va, b.1)], a.2.1 || b.2, f.2)) ([], false, s)

/-- The units a command writes: sectors, or scratchpad granules. -/
def Cmd.outUnits (c : Cmd) (slots : List Word64) (size : Nat) : List Nat :=
  (c.outRows slots).foldl (fun (a : NSet) r =>
    NSet.addAll a ((List.range ((r.at_ + r.len - 1) / size - r.at_ / size + 1)).map (r.at_ / size + ·))) []

/-- The units a command reads: lines of each operand. -/
def Cmd.inUnits (c : Cmd) (slots : List Word64) : List Nat :=
  (c.inRows slots).foldl (fun (a : NSet) (r : Nat × Nat × Nat) =>
    NSet.addAll a ((List.range (r.2.2 / 256)).map fun k => r.1 * 2 ^ 60 + r.2.1 / 256 + k)) []

def Cmd.toSp (c : Cmd) : Bool := match c.op with | .hdrn m _ _ => m.sp | _ => false

/-! ## HEDDLE_COMMAND_START (16 R358, R364, R373, R375, R376) -/

/-- The absmax word's leaf (16 R376): a precise page of tiers 0 to 2 that may be read and written. -/
def State.amaxLeaf (s : State) (core tenant va : Nat) : Except Tr Leaf × State :=
  let r := s.engLeaf core tenant va true true
  match r.1 with
  | .error e => (.error e, r.2)
  | .ok l =>
    if entTier l.e.toNat = 3 then (.error (.mem 0), r.2) else
      let ty := r.2.lineTol ⟨0, va, l⟩
      (if ty.1 then .error .type else .ok l, ty.2)

/-- Is some destination of an approximate tile precise (16 R375)? -/
def State.precisePart (s : State) (core tenant : Nat) (t : Team) (c : Cmd) (slots : List Word64) :
    Except Tr Unit × State :=
  if c.toSp then
    let us := c.outUnits slots 16
    (if us.any fun u => !t.blockAx (16 * u) &&
        !((List.range 16).all fun i => us.any (· == u / 16 * 16 + i)) then .error .type else .ok (), s)
  else
    (c.outUnits slots 64).foldl (fun (r : Except Tr Unit × State) u =>
      match r.1 with
      | .error _ => r
      | .ok _ =>
        let l := r.2.engLeaf core tenant (64 * u) false true
        match l.1 with
        | .error e => (.error e, l.2)
        | .ok lf =>
          let ty := l.2.lineTol ⟨0, 64 * u, lf⟩
          (if ty.1 then .ok () else .error .type, ty.2)) (.ok (), s)

/-- A drain's checks before any write. -/
def State.drainStart (s : State) (core tenant : Nat) (t : Team) (c : Cmd) (m : DrnMods) (acc : Nat)
    (slots : List Word64) : Except Tr Unit × State :=
  let tw := t.tword acc
  let lacks (fs k : Nat) : Bool := twSv tw && slotSmode (slotAt slots fs) == 2 && (AMap.at? c.vecs k).isNone
  if lacks (twSa tw) 2 || lacks (twSb tw) 3 then (.error (.mem 0), s)
  else if m.amax && twApx tw then (.error .type, s)
  else
    let r := if m.amax then (let q := s.amaxLeaf core tenant (c.word 5); (q.1.map fun _ => (), q.2)) else (.ok (), s)
    match r.1 with
    | .error e => (.error e, r.2)
    | .ok _ => if twApx tw then r.2.precisePart core tenant t c slots else (.ok (), r.2)

/-- The tile's KIND does not fit a multiply (16 R364). -/
def Cmd.kindBad (c : Cmd) (t : Team) : Bool :=
  match c.op with
  | .hmm _ acc _ _ => twFp (t.tword acc)
  | .hmmf acc _ _ => !twFp (t.tword acc)
  | _ => false

/-- May a command start in its unit (16 R358)? -/
def State.mayStart (s : State) (core : Nat) (c : Cmd) : Bool :=
  let cs := (s.engCmds core true).filter (·.st != .queued)
  let before := cs.takeWhile (·.id != c.id)
  c.st == .accepted && c.fault.isNone
    && !before.any fun x => x.op.drains == c.op.drains
        || (x.team == c.team && x.op.tile.isSome && x.op.tile == c.op.tile)

def execHeddleCommandStart (core id : Nat) (s : State) : Host.Outcome State Fault Refusal :=
  event (match s.cmd? core id with
    | none => s
    | some c =>
      match s.team? c.team with
      | none => s
      | some t =>
        if !c.heddle || !s.mayStart core c then s else
          let tenant := s.teamTenant t
          let slots := ((s.group? c.gid).map s.slotsOf).getD []
          let run := { c with st := .running }
          if c.status != 0 then s.setCmd core { run with pins := [] }
          else if c.bad || t.operandBad c.op then (s.setCmd core run).cmdFail core tenant run false .pois
          else if c.kindBad t then s.setCmd core { run with status := 5, pins := [] }
          else match c.op with
            | .hdrn m acc _ =>
              let r := s.drainStart core tenant t c m acc slots
              match r.1 with
              | .ok _ => r.2.setCmd core { run with writes := true, work := c.outUnits slots (if m.sp then 16 else 64) }
              | .error (.fault f) => r.2.cmdFault core tenant c true f
              | .error e => r.2.setCmd core { run with status := e.status }
            | _ => s.setCmd core { run with work := c.inUnits slots }) s

/-! ## Units (11 R250; 16 R365, R366, R375, R378) -/

/-- The chunk of its operands that a unit of a multiply is a line of (16 R361, R370); a line of an `hacl` stands
alone. -/
def Cmd.chunkOf (c : Cmd) (slots : List Word64) (u : Nat) : Nat :=
  let off := u % 2 ^ 60 * 256 - c.word (u / 2 ^ 60)
  match c.op with
  | .hmm _ _ fa fb =>
    let w := slotAt slots (if u / 2 ^ 60 = 0 then fa else fb)
    if slotLayout w = 0 then off / (4096 * slotN w) else off / 4096 % (c.word 2 / 256)
  | .hmmf _ _ _ => off / 16384
  | _ => u

/-- Lines are consumed, and unpinned then (16 R365): none before its chunk has been read whole, and how many of
the others have been by now is timing, so free. -/
def State.consume (s : State) (c : Cmd) (slots : List Word64) : Cmd × State :=
  let left := c.work.map (c.chunkOf slots)
  let rest := List.filter (fun e : Nat × Nat => !left.contains (c.chunkOf slots e.1)) c.hpins
  let f := s.freeIn 0 rest.length
  let gone := rest.take f.1
  ({ c with hpins := List.filter (fun e : Nat × Nat => !gone.any (·.1 == e.1)) c.hpins
            pins := c.pins.delAll (gone.map (·.2)) }, f.2)

/-- A line of an operand is read; a multiply's lines are pinned until they have been consumed, and it waits where
the die can pin no more (16 R365). -/
def State.readUnit (s : State) (core tenant : Nat) (t : Team) (c : Cmd) (slots : List Word64) (u : Nat) : State :=
  let die := s.dieOf core
  let va := u % 2 ^ 60 * 256
  let f := s.consume c slots
  let c := f.1
  let l := (f.2.setCmd core c).engLeaf core tenant va true false
  let line : Option Nat := if c.op.drains then none else match l.1 with
    | .ok lf => some (lineOf (lf.key va))
    | .error _ => none
  let new := (line.map fun n => !l.2.pinnedIn die n).getD false
  let n := l.2.pinned die true
  if new && pinLimit ≤ n then l.2.station die 1 (sliceOf (line.getD 0)) 0 n (some tenant) else
    let c := { c with hpins := match line with | some n => AMap.set c.hpins u n | none => c.hpins }
    let s := l.2.setCmd core c
    let r := s.engRead core tenant t c false ((List.range 256).map (va + ·))
    match r.1 with
    | .error e => r.2.cmdFail core tenant c false e
    | .ok bs =>
      let ax := bs.any (·.2)
      let pr := bs.any fun b => !b.2
      let okTy := match c.op with
        | .hmm a _ _ _ => a || !ax
        | .hacl _ _ =>
          let other := List.any c.data fun (e : Nat × Chunk) => if ax then e.2.pr else e.2.ax
          !(ax && pr) && !other
        | _ => !ax
      if okTy then r.2.setCmd core { c.did u 0 with data := AMap.set c.data u ⟨bs.map (·.1), ax, pr⟩ }
      else r.2.endWith core c 4

/-- A sector or granule of output is written. -/
def State.writeUnit (s : State) (core tenant : Nat) (t : Team) (c : Cmd) (slots : List Word64) (u : Nat) :
    State :=
  let apx := match c.op with | .hdrn _ acc _ => twApx (t.tword acc) | _ => false
  if c.toSp then
    let o := s.outUnit c slots t (16 * u) 16
    let us := c.outUnits slots 16
    let whole := (List.range 16).all fun i => us.any (· == u / 16 * 16 + i)
    let w := o.2.2.granWrite c.team (16 * u) { c with sat := c.sat || o.2.1 } whole ⟨o.1.map (·.2), apx, !apx⟩
    w.2.stepCmd core tenant c true (w.1.map fun c => c.did u 16)
  else
    let o := s.outUnit c slots t (64 * u) 64
    o.2.2.writeSector core tenant t { c with sat := c.sat || o.2.1 } u (o.1.map (·.1)) o.1.length
      ⟨o.1.map (·.2), apx, !apx⟩

/-- A unit of a Heddle command's data phase. -/
def State.heddleUnit (s : State) (core : Nat) (c : Cmd) (u : Nat) : State :=
  match s.team? c.team with
  | none => s
  | some t =>
    let tenant := s.teamTenant t
    let slots := ((s.group? c.gid).map s.slotsOf).getD []
    if t.operandBad c.op then s.cmdFail core tenant c true .pois
    else if c.writes then s.writeUnit core tenant t c slots u
    else
      let s := s.readUnit core tenant t c slots u
      -- `bpack` and `bunpk` write once they have read their source
      match s.cmd? core c.id with
      | none => s
      | some c => if c.op.drains && c.work.isEmpty && c.status == 0 then
          s.setCmd core { c with writes := true, work := c.outUnits slots 64 } else s

/-! ## HEDDLE_COMPLETE (16 R368, R370 to R372, R376, R377, R380) -/

/-- The value of an element of a BP operand (16 R368): row r, column k. -/
def Cmd.bpVal (c : Cmd) (o w r k : Nat) : Int :=
  let base := c.word o
  let cs := c.word 2 / 256
  planeVal (slotN w) (slotSgn w) ((List.range (slotP w)).map fun i =>
    planeBit (fun x => c.got o (base + planeOff (slotLayout w) (slotN w) cs (k / 256) i + x)) r (k % 256))

/-- Signed(acc) plus the exact sum of an `hmm`. -/
def Cmd.bpDot (c : Cmd) (wa wb acc m n : Nat) : Int :=
  (List.range (c.word 2)).foldl (fun (a : Int) k => a + c.bpVal 0 wa m k * c.bpVal 1 wb n k)
    (BitVec.ofNat 32 acc).toInt

/-- The format of an FP16 or BF16 slot. -/
def slotFmt (w : Nat) : Fmt := if slotKind w = 2 then fmt16 else fmtBf

/-- The value of an element of an FP operand (16 R370). -/
def Cmd.fpVal (c : Cmd) (o w r k : Nat) : FV :=
  let va := c.word o + 16384 * (k / 64) + 128 * r + 2 * (k % 64)
  (slotFmt w).read ((c.got o va).toNat + 256 * (c.got o (va + 1)).toNat)

/-- An element of an `hmmf` with its flags. -/
def Cmd.fpDot (c : Cmd) (wa wb acc m n : Nat) : Nat × Fl :=
  let a := fmt32.read acc
  let ts := (List.range (c.word 2)).map fun k => (c.fpVal 0 wa m k, c.fpVal 1 wb n k)
  let ps := ts.map fun e => e.1.mul e.2
  fmt32.sum .ne (a :: ps.map (·.1)) (ps.any (·.2)) (a.isSig || ts.any fun e => e.1.isSig || e.2.isSig)

/-- Plane pairs computed and skipped by an `hmm` (16 R369). -/
def Cmd.pairs (c : Cmd) (wa wb : Nat) : Nat × Nat :=
  let cs := c.word 2 / 256
  let zero (o w k i : Nat) : Bool := slotSkip w &&
    (List.range 4096).all fun x => c.got o (c.word o + planeOff (slotLayout w) (slotN w) cs k i + x) == 0
  (List.range cs).foldl (fun r k => (List.range (slotP wa)).foldl (fun r i =>
    let za := zero 0 wa k i
    (List.range (slotP wb)).foldl (fun (r : Nat × Nat) j =>
      if za || zero 1 wb k j then (r.1, r.2 + 1) else (r.1 + 1, r.2)) r) r) (0, 0)

/-- The tile a command leaves when it ends with DONE: elements, state word, and the state with the free
values drawn. -/
def State.tileAfter (s : State) (t : Team) (c : Cmd) (slots : List Word64) :
    Option (Nat × List (Nat × Nat) × Nat) × State :=
  let anyAx := List.any c.data fun (e : Nat × Chunk) => e.2.ax
  let els := List.range 16384
  match c.op with
  | .hmm ax acc fa fb =>
    let tw := t.tword acc
    let r := els.foldl (fun (r : List (Nat × Nat) × Bool × State) e =>
      let v := c.bpDot (slotAt slots fa) (slotAt slots fb) (t.tile acc (e / 128) (e % 128)) (e / 128) (e % 128)
      let x := (BitVec.ofInt 32 v).toNat
      let y := if ax then r.2.2.permInt (kHeddle c.code) x else (x, r.2.2)
      (r.1 ++ [(e, y.1)], r.2.1 || v < -(2 ^ 31) || 2 ^ 31 ≤ v, y.2)) ([], bitAt tw 0, s)
    (some (acc, r.1, twMake false (twApx tw || ax || anyAx) (bit r.2.1) (some (fa, fb))), r.2.2)
  | .hmmf acc fa fb =>
    let tw := t.tword acc
    let rs := els.map fun e => c.fpDot (slotAt slots fa) (slotAt slots fb) (t.tile acc (e / 128) (e % 128))
      (e / 128) (e % 128)
    let f := Fl.all (rs.map (·.2))
    let flags := tw % 32 ||| (2 * bit f.nv + 4 * bit f.of + 8 * bit f.uf + 16 * bit f.nx)
    (some (acc, els.zip (rs.map (·.1)), twMake true (twApx tw || anyAx) flags (some (fa, fb))), s)
  | .hclr fp acc => (some (acc, els.map fun e => (e, 0), twMake fp false 0 none), s)
  | .hacl fp acc =>
    (some (acc, els.map fun e => (e, leNat ((List.range 4).map fun i => c.got 0 (c.word 0 + 4 * e + i))),
      twMake fp anyAx 0 none), s)
  | .hdrn m acc _ =>
    (if m.clr then some (acc, els.map fun e => (e, 0), twMake (twFp (t.tword acc)) false 0 none) else none, s)
  | _ => (none, s)

/-- MASK of the completion record (16 R380). -/
def Cmd.heddleMask (c : Cmd) (t : Team) (after : Option (Nat × List (Nat × Nat) × Nat)) : Nat :=
  match c.op with
  | .hdrn _ acc _ => t.tword acc + bit c.sat * 256
  | .bpack _ | .bunpk _ => bit c.sat * 256
  | op => match after with
    | some e => e.2.2
    | none => (op.tile.map t.tword).getD 0

/-- The merge into the absmax word, one event of the device order (16 R376). -/
def State.mergeAmax (s : State) (core tenant : Nat) (t : Team) (c : Cmd) (slots : List Word64) :
    Except Tr Unit × State :=
  match c.op with
  | .hdrn m acc _ =>
    if !m.amax || c.merged then (.ok (), s) else
      let va := c.word 5
      let r := s.amaxLeaf core tenant va
      match r.1 with
      | .error e => (.error e, r.2)
      | .ok l =>
        let s := r.2.raceLanes c.team true true c.pc.toNat [va]
        let key := l.key va
        if (List.range 4).any fun i => s.pois.has (key + i) then (.error .pois, s) else
          let new := (fMinMax fmt32 true (s.devNat key 4) (drainAbs c m slots t acc)).1
          let bs := (leBytes 4 new).mapIdx fun i b => (key + i, hwByte (va + i) b)
          (.ok (), (s.devEvent 0 bs .l3 false s.clk).touchStash (some c.team) (bs.map (·.1)))
  | _ => (.ok (), s)

/-- The data phase of a Heddle command is over. -/
def Cmd.heddleOver (c : Cmd) : Bool :=
  c.st == .running && c.fault.isNone && c.work.isEmpty && (c.writes || !c.op.drains || c.status != 0)

/-- HEDDLE_COMPLETE: the absmax word is merged, the record is written, and a command that ends with DONE
leaves its result in its tile; the ranges are released and the task is decremented. -/
def execHeddleComplete (core id : Nat) (s : State) : Host.Outcome State Fault Refusal :=
  event (match s.cmd? core id with
    | none => s
    | some c =>
      match s.team? c.team with
      | none => s
      | some t =>
        if !c.heddle || !c.heddleOver then s
        else if c.status == 0 && t.operandBad c.op then s.cmdFail core (s.teamTenant t) c true .pois else
          let tenant := s.teamTenant t
          let slots := ((s.group? c.gid).map s.slotsOf).getD []
          let mg := if c.status = 0 then s.mergeAmax core tenant t c slots else (.ok (), s)
          match mg.1 with
          | .error e => mg.2.cmdFail core tenant c true e
          | .ok _ =>
            let c := { c with merged := true, pins := [], hpins := [] }
            let s := mg.2.setCmd core c
            let a := if c.status = 0 then s.tileAfter t c slots else (none, s)
            let r := a.2.writeRecord core tenant t c (c.heddleMask t a.1)
            match r.1 with
            | none => r.2
            | some c =>
              let s := match a.1 with
                | some (acc, els, w) => if c.status = 0 then r.2.modTeam c.team fun x => x.setTile acc els w else r.2
                | none => r.2
              let s := match c.op with
                | .hmm _ _ fa fb => if c.status = 0 then
                    let n := c.pairs (slotAt slots fa) (slotAt slots fb)
                    s.modCore core fun k => (k.count 0x29 n.1).count 0x2A n.2 else s
                | _ => s
              (s.finishCmd core c).answerFmtq) s

end Sys2Proof.Machine
end

