-- ==== Sys2Proof/Machine/Quill.lean ====
section
/-!
DEFINITION. The Quill (15 R328 to R355): tensor layout records, the copy, multicast, collective and peer
commands, and the steps of their data phases.
-/
namespace Sys2Proof.Machine

/-! ## Tensor layout records (15 R332 to R335) -/

/-- A layout record (15 Table 15-2); `slot` is the format slot it names. -/
structure Layout where
  base : Nat
  rank : Nat
  e : Nat
  slot : Option Nat
  rot : Nat
  xch : Bool
  fmode : Nat
  fill : Nat
  ext : List Nat
  str : List Nat
  box : List Nat
deriving DecidableEq, Repr

def layoutOf (bs : List Byte) : Layout where
  base := leAt bs 0 8
  rank := leAt bs 8 1 % 8 + 1
  e := 2 ^ (leAt bs 9 1 % 4)
  slot := if bitAt (leAt bs 9 1) 2 then some (bitsAt (leAt bs 9 1) 3 3) else none
  rot := leAt bs 10 1 % 4
  xch := bitAt (leAt bs 10 1) 2
  fmode := bitsAt (leAt bs 10 1) 3 2
  fill := leAt bs 12 4
  ext := (List.range 5).map fun d => leAt bs (0x10 + 4 * d) 4
  str := (List.range 5).map fun d => if d = 0 then 0 else leAt bs (0x20 + 4 * d) 4
  box := (List.range 5).map fun d => leAt bs (0x34 + d) 1 + 1

/-- A reserved field of a layout record is not zero. -/
def layoutReserved (bs : List Byte) : Bool :=
  leAt bs 8 1 / 8 != 0 || leAt bs 9 1 / 64 != 0 || leAt bs 10 1 / 32 != 0 || leAt bs 11 1 != 0
    || leAt bs 0x39 7 != 0

/-- The word of the format slot a record names. -/
def Layout.slotWord (l : Layout) (slots : List Word64) : Option Nat := l.slot.map fun i => (slots.getD i 0).toNat

/-- The plane dimension, when the record names a BP integer slot (15 R335). -/
def Layout.plane (l : Layout) (slots : List Word64) : Option Nat :=
  match l.slotWord slots with
  | some w => if w % 8 = 1 then some (l.rank - 1) else none
  | none => none

/-- The effective box (15 R335). -/
def Layout.ebox (l : Layout) (slots : List Word64) : List Nat :=
  match l.plane slots, l.slotWord slots with
  | some d, some w => l.box.mapIdx fun i n => if i = d then min n (slotP w) else n
  | _, _ => l.box

/-- The dense size (15 R333). -/
def Layout.dense (l : Layout) (box : List Nat) : Nat := l.e * box.foldl (· * ·) 1

/-- The conditions of R335. -/
def Layout.slotOk (l : Layout) (slots : List Word64) : Bool :=
  match l.slotWord slots with
  | none => true
  | some w =>
    match w % 8 with
    | 1 => 2 ≤ l.rank && l.ext.getD (l.rank - 1) 0 == slotN w && (!l.xch || 3 ≤ l.rank)
    | 2 | 3 => l.e == 2
    | 4 => l.e == 4
    | _ => false

/-- Well formed (15 R333). -/
def Layout.ok (l : Layout) (bs : List Byte) (slots : List Word64) : Bool :=
  let box := l.ebox slots
  !layoutReserved bs && l.rank ≤ 5 && l.fmode != 3 && l.base % l.e == 0 && (!l.xch || 2 ≤ l.rank)
    && l.slotOk slots
    && (List.range 5).all (fun d =>
      if d < l.rank then 1 ≤ l.ext.getD d 0 && l.ext.getD d 0 ≤ 2 ^ 31 && (d == 0 || l.str.getD d 0 != 0)
      else l.ext.getD d 0 == 0 && l.str.getD d 0 == 0 && l.box.getD d 1 == 1)
    && box.getD (if l.xch then 1 else 0) 1 * l.e % 16 == 0
    && l.dense box ≤ 2 ^ 24

/-- Coordinates from the block (15 Table 15-1): signed. -/
def originOf (c : Cmd) : List Int :=
  let w (i : Nat) : Nat := c.word (1 + i / 2) / 2 ^ (32 * (i % 2)) % 2 ^ 32
  (List.range 5).map fun i => (BitVec.ofNat 32 (w i)).toInt

/-- An element of a box (15 R334): in bounds, and its address before it is taken modulo 2^64. -/
structure Elem where
  inb : Bool
  addr : Int
deriving DecidableEq, Repr

/-- BoxElement of the element at a dense index (15 R334). -/
def Layout.elem (l : Layout) (box : List Nat) (org : List Int) (lin : Nat) : Elem :=
  let b (d : Nat) : Nat := box.getD d 1
  let f := if l.xch then 1 else 0
  let g := 1 - f
  let jf := lin % b f
  let jg := lin / b f % b g
  let r := lin / (b f * b g)
  let j (d : Nat) : Nat :=
    if d = f then jf else if d = g then jg
    else if d = 2 then r % b 2 else if d = 3 then r / b 2 % b 3 else r / (b 2 * b 3)
  let co (d : Nat) : Int := org.getD d 0 + (j d : Int)
  let dims := List.range l.rank
  let inb := dims.all fun d => 0 ≤ co d && co d < (l.ext.getD d 0 : Int)
  let at_ (d : Nat) : Int :=
    if inb || l.fmode != 2 then co d else min (max (co d) 0) ((l.ext.getD d 0 : Int) - 1)
  ⟨inb, dims.foldl (fun (a : Int) d =>
    a + (if d = 0 then (l.e : Int) else 16 * (l.str.getD d 0 : Int)) * at_ d) (l.base : Int)⟩

def Elem.va (e : Elem) : Nat := (e.addr % 2 ^ 64).toNat

/-- Rotate (15 R334). -/
def rotate (mode off : Nat) : Nat :=
  let m := [0, 1, 3, 7].getD mode 0
  off / 128 * 128 + (off / 16 % 8 + (off / 128) % (m + 1)) % 8 * 16 + off % 16

/-- Bytes from the start of a rotated buffer to the end of the last byte in it. -/
def rotSpan (mode bytes : Nat) : Nat :=
  (List.range (min 8 (bytes / 16))).foldl (fun n i =>
    max n (rotate mode (bytes - 16 * (i + 1)) + 16)) 0

/-! ## What a command moves -/

/-- Where one byte comes from. -/
inductive ByteSrc where
  | fill (b : Byte)
  | glob (va : Nat)
  | sp (a : Nat)
deriving DecidableEq, Repr

/-- A command's record with its box and origin. -/
structure Box where
  l : Layout
  box : List Nat
  org : List Int

def Cmd.boxOf (c : Cmd) (slots : List Word64) : Box :=
  let l := layoutOf c.rcd
  ⟨l, l.ebox slots, originOf c⟩
def Box.bytes (b : Box) : Nat := b.l.dense b.box
def Box.count (b : Box) : Nat := b.bytes / b.l.e
def Box.at_ (b : Box) (lin : Nat) : Elem := b.l.elem b.box b.org lin

/-- Where the byte at a dense offset of a gather comes from (15 R334). -/
def Box.source (b : Box) (off : Nat) : ByteSrc :=
  let x := b.at_ (off / b.l.e)
  let i := off % b.l.e
  if x.inb || b.l.fmode == 2 then .glob ((x.va + i) % 2 ^ 64)
  else .fill (if b.l.fmode = 1 then BitVec.ofNat 8 (b.l.fill / 256 ^ i) else 0)

/-- The interval of addresses of the elements that satisfy a test (15 R336). -/
def Box.interval (b : Box) (p : Elem → Bool) : Option (Nat × Nat) :=
  let as := ((List.range b.count).map b.at_).filter p
  match as with
  | [] => none
  | x :: xs =>
    let lo := xs.foldl (fun m y => min m y.addr) x.addr
    let hi := xs.foldl (fun m y => max m y.addr) x.addr
    some ((lo % 2 ^ 64).toNat, (hi - lo).toNat + b.l.e)

def rngOf (src : Bool) (r : Option (Nat × Nat)) : List Rng :=
  match r with | none => [] | some (a, n) => [⟨src, false, a, n⟩]

/-- The space, the first byte and the operand of a command's dense buffer. -/
def Cmd.denseSp (c : Cmd) : Bool :=
  match c.op with
  | .qcp dst _ _ => (match dst with | .g => false | _ => true)
  | .qmc .. => true
  | _ => false

def Cmd.scatters (c : Cmd) : Bool := match c.op with | .qcp _ sc _ => sc | _ => false

/-- Offset in the buffer of a byte of the dense box: rotated outside global memory. -/
def Cmd.place (c : Cmd) (b : Box) (off : Nat) : Nat := c.base + (if c.denseSp then rotate b.l.rot off else off)

/-! ## Acceptance of copies (15 R343 to R345) -/

/-- The buffer of a copy: its place, or what stops the command, and the bytes from its start to the end of the
last one in it. It is held to its space by its size; where rotation moves bytes past that, they lie where Rotate
puts them (log 76). -/
def denseBuffer (c : Cmd) (b : Box) (g : Group) (t : Team) (s : State) : Except Eff (Cmd × Nat) := do
  let span := if c.denseSp then rotSpan b.l.rot b.bytes else b.bytes
  match c.op with
  | .qcp (.ring n) _ x =>
    match t.ring? n with
    | none => .error (.trap (engTrap g c 13 0 x) s)
    | some (d, r) =>
      refuseIf (d.stage < x + b.bytes) g c 13 1 x s
      if ringFull d r then .error (.wait (s.modGroup c.gid fun g => { g with park := some (.ring n) })) else
        let a := ringAddr d r false (BitVec.ofNat 64 x)
        refuseIf (t.inWindow a span) g c 2 0 a s
        .ok ({ c with base := a }, span)
  | .qcp .sp _ x =>
    refuseIf (!t.spOk x b.bytes || t.inWindow x span) g c 2 0 x s
    .ok ({ c with base := x }, span)
  | .qcp .g _ x | .qcpm x _ =>
    refuseIf (!globalOk x span) g c 2 0 x s
    .ok ({ c with base := x }, span)
  | .qmc x _ =>
    refuseIf (2 ^ 18 < b.bytes) g c 2 6 x s
    refuseIf (t.hdr.scratch < x + b.bytes) g c 2 0 x s
    .ok ({ c with base := x }, span)
  | _ => .ok (c, span)

/-- Read the record, check the copy and give its ranges (15 R328 steps 2 and 3). -/
def checkCopy (c : Cmd) (g : Group) (t : Team) (s : State) : Except Eff (Cmd × List Rng × State) := do
  let (bs, bad, s) ← s.readOperand g t c (c.word 0) 64 true
  let c := { c with rcd := bs, bad := bad }
  if bad then
    let s ← s.checkRecord g c c.recAt
    .ok (c, [], s)
  else
    let slots := s.slotsOf g
    let b := c.boxOf slots
    refuseIf (!b.l.ok bs slots) g c 2 1 (c.word 0) s
    refuseIf (match b.l.plane slots with | some d => b.org.getD d 0 != 0 | none => false) g c 2 0 (c.word 0) s
    let (c, span) ← denseBuffer c b g t s
    let s ← s.checkRecord g c c.recAt
    if c.scatters then
      -- a scatter with no element in bounds reads and writes nothing
      .ok (c, match b.interval (·.inb) with
        | none => []
        | some w => [⟨true, c.denseSp, c.base, span⟩, ⟨false, false, w.1, w.2⟩], s)
    else
      let own : List Rng := match c.op with
        | .qmc .. => []
        | _ => [⟨false, c.denseSp, c.base, span⟩]
      .ok (c, rngOf true (b.interval fun x => x.inb || b.l.fmode == 2) ++ own, s)

/-! ## Collectives and peer transfers: their descriptors (15 R348, R351) -/

/-- A collective descriptor (15 Table 15-8). -/
structure Coll where
  src : Nat
  dst : Nat
  count : Nat
  op : Nat
  ty : Nat
  root : Nat
  rank : Nat
  npeer : Nat
  grp : Nat
  timeout : Nat
  seq : Nat
deriving DecidableEq, Repr

def collOf (bs : List Byte) : Coll where
  src := leAt bs 0 8
  dst := leAt bs 8 8
  count := leAt bs 0x10 8
  op := leAt bs 0x18 1
  ty := leAt bs 0x19 1
  root := leAt bs 0x1A 1
  rank := leAt bs 0x1B 1
  npeer := leAt bs 0x1C 1
  grp := leAt bs 0x1D 1
  timeout := leAt bs 0x20 4
  seq := leAt bs 0x28 8

/-- Bytes of an element. -/
def Coll.e (k : Coll) : Nat := [4, 2, 2, 4, 8, 1].getD k.ty 1

/-- Well formed (15 R348). -/
def Coll.ok (k : Coll) (bs : List Byte) : Bool :=
  leAt bs 0x1E 2 == 0 && leAt bs 0x24 4 == 0 && leAt bs 0x30 16 == 0
    && 1 ≤ k.count && k.count ≤ 2 ^ 32 && k.op ≤ 3 && k.ty ≤ 5 && 2 ≤ k.npeer && k.npeer ≤ 64
    && k.root < k.npeer && k.rank < k.npeer && k.grp ≤ 15 && (k.ty != 5 || 2 ≤ k.op)
    && k.src % k.e == 0 && k.dst % k.e == 0

/-- Bytes this rank contributes: none where it only receives. -/
def Coll.given (k : Coll) : Nat :=
  if k.op = 2 && k.rank != k.root then 0 else k.count * k.e
/-- Bytes a rank contributes. -/
def Coll.givenBy (k : Coll) (r : Nat) : Nat := if k.op = 2 && r != k.root then 0 else k.count * k.e
/-- Bytes of what this rank hears from another: at a rank that is not the root of a reduce, an acknowledgement
(15 R350). -/
def Coll.heardBytes (k : Coll) (r : Nat) : Nat := if k.op = 1 && k.rank != k.root then 0 else k.givenBy r
/-- Bytes this rank writes (15 R349). -/
def Coll.taken (k : Coll) : Nat :=
  match k.op with
  | 1 => if k.rank = k.root then k.count * k.e else 0
  | 3 => k.npeer * k.count * k.e
  | _ => k.count * k.e

def checkColl (c : Cmd) (g : Group) (t : Team) (s : State) : Except Eff (Cmd × List Rng × State) := do
  let (bs, bad, s) ← s.readOperand g t c (c.word 0) 64 true
  let c := { c with rcd := bs, bad := bad }
  if bad then
    let s ← s.checkRecord g c c.recAt
    .ok (c, [], s)
  else
    let k := collOf bs
    refuseIf (!k.ok bs) g c 2 1 (c.word 0) s
    refuseIf (!globalOk k.src k.given) g c 2 0 k.src s
    refuseIf (!globalOk k.dst k.taken) g c 2 0 k.dst s
    let s ← s.checkRecord g c c.recAt
    .ok (c, rngs true k.src k.given ++ rngs false k.dst k.taken, s)

def checkPeer (c : Cmd) (g : Group) (_t : Team) (s : State) : Except Eff (Cmd × List Rng × State) := do
  let n := c.word 3
  let s ← s.checkRecord g c c.recAt
  .ok (c, rngs (match c.op with | .qput => true | _ => false) (c.word 2) n, s)

def checkQuill (c : Cmd) (g : Group) (t : Team) (s : State) : Except Eff (Cmd × List Rng × State) :=
  match c.op with
  | .qcol => checkColl c g t s
  | .qput | .qget => checkPeer c g t s
  | _ => checkCopy c g t s

/-- QUILL_ACCEPT: the oldest queued command of a core's Quill is accepted, or traps, or parks. -/
def execQuillAccept (core : Nat) (s : State) : Host.Outcome State Fault Refusal :=
  acceptEvent core false (s.acceptHead core false checkQuill) s

/-! ## Issue (15 R342 to R345, R351) -/

/-- An instruction that gives the Quill a command (15 R328): its block is read now, and checks that need
only the operands are made. -/
def quillRow (i : Instr) (c : Ctl) (sc : Scope) (d : Opd) (blk : Src) (n : Nat) (more : List Use)
    (checks : Group → List Nat → State → List (Bool × Nat × Nat × Nat)) (op : Group → State → EngOp)
    (s : State) : Host.Outcome State Fault Refusal :=
  run { i := i, c := c, srcs := blockUse blk n :: more, dsts := [⟨d, 1, false⟩], ext := true }
    (fun g ls s =>
      ifAny ls s (
        let b := blockVals g blk n
        issueChecks ls s (checks g b s) (
          enqueue false { id := 0, heddle := false, gid := s.cur, team := g.team, i := i, c := c
                          pc := g.ctl.pc, op := op g s, sc := sc, d := some d, blk := b } g s))) s

/-- The addresses of a copy's record and completion record, and its buffer. -/
def copyChecks (b : List Nat) (x : Nat) : List (Bool × Nat × Nat × Nat) :=
  [(b.getD 0 0 % 64 != 0, 3, 0, b.getD 0 0), (b.getD 5 0 % 16 != 0, 3, 0, b.getD 5 0), (x % 16 != 0, 3, 0, x),
   badAddr true (b.getD 0 0), badAddr (b.getD 5 0 != 0) (b.getD 5 0)]

def qcpChecks (dst : QDst) (x : Src) (g : Group) (b : List Nat) (s : State) : List (Bool × Nat × Nat × Nat) :=
  copyChecks b (g.rdS x.o).toNat ++ (match dst with
    | .ring n => [(((s.teamOf g).bind fun t => t.ring? n).isNone, 13, 0, (g.rdS x.o).toNat)]
    | _ => [])

def execQcp (c : Ctl) (dst : QDst) (sc : Scope) (d : Opd) (blk b : Src) (s : State) :
    Host.Outcome State Fault Refusal :=
  quillRow (.qcp c dst sc d blk b) c sc d blk 6 [scalUse b] (qcpChecks dst b)
    (fun g _ => .qcp dst false (g.rdS b.o).toNat) s

def execQcpSt (c : Ctl) (dst : QDst) (sc : Scope) (d : Opd) (blk b : Src) (s : State) :
    Host.Outcome State Fault Refusal :=
  quillRow (.qcpSt c dst sc d blk b) c sc d blk 6 [scalUse b] (qcpChecks dst b)
    (fun g _ => .qcp dst true (g.rdS b.o).toNat) s

/-- The follow-on of a `qcpm` (15 R344): the word decodes, under the issuing kernel's header and with the
role check left out, to an `hmm` or `hmmf`. -/
def State.followOf (s : State) (g : Group) (w : Nat) : Option Follow :=
  match decode { s.decCtx g with role := .general } w 0 with
  | .ok i =>
    match i with
    | .hmm c _ _ blk _ _ | .hmmf c _ blk _ _ => some ⟨i, c, blockVals g blk 5, s.codeOf g.team⟩
    | _ => none
  | _ => none

/-- The registers that the follow-on names, which the `qcpm` reads. -/
def State.followUses (s : State) (e : Src) : List Use :=
  match s.group? s.cur with
  | none => []
  | some g =>
    match s.followOf g (g.rdS e.o).toNat with
    | some f => if g.onLanes f.c = 0 then [] else
      match f.i with
      | .hmm _ _ _ blk _ _ | .hmmf _ _ blk _ _ => [blockUse blk 5]
      | _ => []
    | none => []

def execQcpm (c : Ctl) (d : Opd) (blk b e : Src) (s : State) : Host.Outcome State Fault Refusal :=
  quillRow (.qcpm c d blk b e) c .dev d blk 6 ([scalUse b, scalUse e] ++ s.followUses e)
    (fun g w s => copyChecks w (g.rdS b.o).toNat ++
      [((s.followOf g (g.rdS e.o).toNat).isNone, 0, 3, (g.rdS e.o).toNat)])
    (fun g s => .qcpm (g.rdS b.o).toNat ((s.followOf g (g.rdS e.o).toNat).bind fun f =>
      if g.onLanes f.c = 0 then none else some f)) s

def execQmc (c : Ctl) (sc : Scope) (d : Opd) (blk b e : Src) (s : State) :
    Host.Outcome State Fault Refusal :=
  quillRow (.qmc c sc d blk b e) c sc d blk 6 [scalUse b, scalUse e]
    (fun g w s => copyChecks w (g.rdS b.o).toNat ++
      [(decide ((((s.clusterOf g).map fun k => 2 ^ k.teams.length).getD 1) ≤ (g.rdS e.o).toNat % 4096), 12, 0,
        (g.rdS e.o).toNat)])
    (fun g _ => .qmc (g.rdS b.o).toNat ((g.rdS e.o).toNat % 4096)) s

def execQcol (c : Ctl) (sc : Scope) (d : Opd) (blk : Src) (s : State) : Host.Outcome State Fault Refusal :=
  quillRow (.qcol c sc d blk) c sc d blk 3 []
    (fun _ w _ => [(w.getD 0 0 % 64 != 0, 3, 0, w.getD 0 0), (w.getD 2 0 % 16 != 0, 3, 0, w.getD 2 0),
      badAddr true (w.getD 0 0), badAddr (w.getD 2 0 != 0) (w.getD 2 0)])
    (fun _ _ => .qcol) s

/-- The checks of a peer transfer (15 R351). -/
def peerChecks (_g : Group) (w : List Nat) (_s : State) : List (Bool × Nat × Nat × Nat) :=
  [(w.getD 1 0 % 16 != 0, 3, 0, w.getD 1 0), (w.getD 2 0 % 16 != 0, 3, 0, w.getD 2 0),
   (w.getD 3 0 % 16 != 0, 3, 0, w.getD 3 0), (w.getD 5 0 % 16 != 0, 3, 0, w.getD 5 0),
   (2 ^ 26 < w.getD 3 0, 2, 6, w.getD 2 0), (!globalOk (w.getD 2 0) (w.getD 3 0), 2, 0, w.getD 2 0),
   badAddr (w.getD 5 0 != 0) (w.getD 5 0)]

def execQput (c : Ctl) (sc : Scope) (d : Opd) (blk : Src) (s : State) : Host.Outcome State Fault Refusal :=
  quillRow (.qput c sc d blk) c sc d blk 6 [] peerChecks (fun _ _ => .qput) s
def execQget (c : Ctl) (sc : Scope) (d : Opd) (blk : Src) (s : State) : Host.Outcome State Fault Refusal :=
  quillRow (.qget c sc d blk) c sc d blk 6 [] peerChecks (fun _ _ => .qget) s

/-! ## qstat (15 R352) -/

def execQstatEng (c : Ctl) (d : Opd) (s : State) : Host.Outcome State Fault Refusal :=
  run { i := .qstatEng c d, c := c, dsts := [⟨d, 1, false⟩], ext := true } (fun g ls s =>
    ifAny ls s (
      let cs := s.engCmds g.core false
      let infl := (cs.filter fun x => x.team == g.team && x.st != .queued).length
      .next (s.putS s.cur d (infl * 2 ^ 32 + (queueSize - cs.length) * 2 ^ 24 +
        (s.core g.core).locks.length * 2 ^ 16 + s.pinned (s.dieOf g.core) false)))) s

def execQstatCmd (c : Ctl) (d : Opd) (a : Src) (s : State) : Host.Outcome State Fault Refusal :=
  run { i := .qstatCmd c d a, c := c, srcs := [scalUse a], dsts := [⟨d, 1, false⟩], ext := true } (fun g ls s =>
    ifAny ls s (
      let no := (g.rdS a.o).toNat % 2 ^ 32
      let busy := (s.engCmds g.core false).any fun x => x.team == g.team && x.st != .queued && x.no == no
      let done := ((s.teamOf g).map (·.outcomes)).getD [] |>.find? fun e => e.1 == no
      .next (s.putS s.cur d (if busy then 1 else match done with
        | some e => e.2 * 256 + 2
        | none => 0)))) s

/-! ## The data phase -/

/-- The sectors of the in-bounds elements of a scatter. -/
def Box.sectors (b : Box) : List Nat :=
  (List.range b.count).foldl (fun (a : NSet) i =>
    let x := b.at_ i
    if x.inb then NSet.add a (x.va / 64) else a) []

/-- The peer that holds a rank of a Weft group, if configured (23 R485). -/
def State.wpeerOk (s : State) (d : Nat) : Bool := bitAt (AMap.get 0 s.plat.wpeer d).toNat 63
def State.wgrpOk (s : State) (grp r : Nat) : Bool := bitAt (AMap.get 0 s.plat.wgrp (64 * grp + r)).toNat 63

/-- What a command does when its data phase begins: its units, or how it ends at once. -/
def Cmd.begin (c : Cmd) (s : State) (slots : List Word64) (nteam : Nat) : Cmd :=
  let c := { c with st := .running }
  if c.bad then { c with status := 3 } else
  match c.op with
  | .qcp _ sc _ =>
    let b := c.boxOf slots
    { c with work := if sc then b.sectors else if c.denseSp then List.range (b.bytes / 16)
                     else sectorsIn c.base b.bytes }
  | .qcpm _ _ => { c with work := sectorsIn c.base (c.boxOf slots).bytes }
  | .qmc _ m =>
    if m = 0 then c else
    { c with work := List.range ((c.boxOf slots).bytes / 16)
             left := (List.range nteam).filter fun i => m.testBit i }
  | .qcol =>
    let k := collOf c.rcd
    if (List.range k.npeer).any fun r => !s.wgrpOk k.grp r then
      { c with status := 2, mask := c.mask ||| 2 ^ k.rank }
    else
      { c with work := sectorsIn k.src k.given, mask := c.mask ||| 2 ^ k.rank
               left := (List.range k.npeer).filter fun r => r != k.rank && !c.mask.testBit r }
  | .qput | .qget =>
    if c.word 3 = 0 then c
    else if !s.wpeerOk (c.word 0 % 64) then { c with status := 2 }
    else { c with work := sectorsIn (match c.op with | .qput => c.word 1 | _ => c.word 2) (c.word 3) }
  | _ => c

/-- QUILL_DATA_PHASE_START: the oldest accepted command begins, when fewer than eight are in their data
phase (15 R328). -/
def execQuillDataPhaseStart (core id : Nat) (s : State) : Host.Outcome State Fault Refusal :=
  event (
    let cs := s.engCmds core false
    match cs.find? (·.st == .accepted) with
    | none => s
    | some c =>
      if c.id != id || 8 ≤ (cs.filter (·.st == .running)).length then s else
        let slots := ((s.group? c.gid).map s.slotsOf).getD []
        let nteam := (((s.team? c.team).bind fun t => s.cluster? t.cluster).map (·.teams.length)).getD 0
        let c' := c.begin s slots nteam
        if c'.status = 3 then (s.setCmd core { c' with status := 0 }).cmdFail core (s.tenantOfTeam c.team) c false .pois
        else s.setCmd core c') s

/-- Bytes from their sources; whether any came from approximate and any from precise data. -/
def State.gather (s : State) (core tenant : Nat) (t : Team) (c : Cmd) (xs : List ByteSrc) :
    Except Tr Chunk × State :=
  let vas := xs.filterMap fun x => match x with | .glob va => some va | _ => none
  let r := s.engRead core tenant t c false vas
  match r.1 with
  | .error e => (.error e, r.2)
  | .ok gs =>
    let q := xs.foldl (fun (a : List Byte × List (Byte × Bool) × Bool × Bool × Bool × State) x =>
      let (out, rest, ax, pr, po, s) := a
      match x with
      | .fill b => (out ++ [b], rest, ax, true, po, s)
      | .glob _ => match rest with
        | [] => (out ++ [0], [], ax, pr, po, s)
        | y :: ys => (out ++ [y.1], ys, ax || y.2, pr || !y.2, po, s)
      | .sp p =>
        let b := s.spByte c.team p
        let isAx := ((b.2.2.team? c.team).map fun t => t.blockAx p).getD false
        (out ++ [b.1], rest, ax || isAx, pr || !isAx, po || b.2.1, b.2.2)) ([], gs, false, false, false, r.2)
    if q.2.2.2.2.1 then (.error .pois, q.2.2.2.2.2) else (.ok ⟨q.1, q.2.2.1, q.2.2.2.1⟩, q.2.2.2.2.2)

/-- A block that a command writes whole (15 R338). -/
def Cmd.whole (c : Cmd) (b : Box) (a : Nat) : Bool :=
  (List.range 16).all fun i =>
    let x := a / 256 * 256 + 16 * i
    c.base ≤ x && (List.range 8).any fun k =>
      let off := (x - c.base) / 128 * 128 + 16 * k
      off < b.bytes && c.place b off == x

/-- The bytes a scatter writes in a sector: where several elements stand on one byte, any one of them; and how many element bytes they are. -/
def State.scatterBytes (s : State) (c : Cmd) (b : Box) (sec : Nat) : List (Nat × ByteSrc) × Nat × State :=
  let all : List (Nat × ByteSrc) := (List.range b.count).flatMap fun i =>
    let x := b.at_ i
    if x.inb && x.va / 64 == sec then
      (List.range b.l.e).map fun k =>
        let p := c.place b (i * b.l.e + k)
        (x.va + k, if c.denseSp then ByteSrc.sp p else ByteSrc.glob p)
    else []
  let q := (List.range 64).foldl (fun (r : List (Nat × ByteSrc) × State) k =>
    let va := sec * 64 + k
    let cands := all.filter fun e => e.1 == va
    match cands with
    | [] => r
    | e :: _ =>
      let f := r.2.freeIn 0 (cands.length - 1)
      (r.1 ++ [cands.getD f.1 e], f.2)) ([], s)
  (q.1, all.length, q.2)

/-- Pin the line of a `qcpm` destination (15 R344). None where the die's limit is reached. -/
def State.pinLine (s : State) (core tenant : Nat) (c : Cmd) (va : Nat) : Option Cmd × State :=
  match c.op with
  | .qcpm _ _ =>
    let die := s.dieOf core
    let l := s.engLeaf core tenant va false true
    match l.1 with
    | .error _ => (some c, l.2)
    | .ok lf =>
      let line := lineOf (lf.key va)
      let n := l.2.pinned die true
      if pinLimit ≤ n && !l.2.pinnedIn die line then
        (none, l.2.station die 1 (sliceOf line) 0 n (some tenant))
      else (some { c with pins := c.pins.add line }, l.2)
  | _ => (some c, s)

/-- A unit of a copy. -/
def State.copyUnit (s : State) (core tenant : Nat) (t : Team) (c : Cmd) (b : Box) (u : Nat) : State :=
  if c.scatters then
    let x := s.scatterBytes c b u
    let r := x.2.2.gather core tenant t c (x.1.map (·.2))
    match r.1 with
    | .error e => r.2.cmdFail core tenant c false e
    | .ok k => r.2.writeSector core tenant t c u (x.1.map (·.1)) x.2.1 k
  else if c.denseSp then
    let r := s.gather core tenant t c ((List.range 16).map fun i => b.source (16 * u + i))
    match r.1 with
    | .error e => r.2.cmdFail core tenant c false e
    | .ok k =>
      let a := c.place b (16 * u)
      let w := r.2.granWrite c.team a c (c.whole b a) k
      let s := match w.1 with
        | .ok _ => w.2.modCore core fun x => x.count 0x2B 16
        | .error _ => w.2
      s.stepCmd core tenant c true (w.1.map fun c => c.did u 16)
  else
    let vas := (List.range 64).map (u * 64 + ·) |>.filter fun v => c.base ≤ v && v < c.base + b.bytes
    let p := s.pinLine core tenant c (vas.headD 0)
    match p.1 with
    | none => p.2
    | some c =>
      let s := p.2.setCmd core c
      let r := s.gather core tenant t c (vas.map fun v => b.source (v - c.base))
      match r.1 with
      | .error e => r.2.cmdFail core tenant c false e
      | .ok k => r.2.writeSector core tenant t c u vas vas.length k

/-- Units of a multicast: those below 2^32 read the tile; the others land a granule at a receiver. -/
def landUnit (t q : Nat) : Nat := (t + 1) * 2 ^ 32 + q

def State.teamIn (s : State) (cluster i : Nat) : Option (Nat × Team) :=
  (s.cluster? cluster).bind fun k => (k.teams[i]?).bind fun id => (s.team? id).map fun t => (id, t)

/-- The entry of a receiver is released after its last granule (15 R346). -/
def State.releaseAt (s : State) (tid : Nat) (t : Team) (cmd : Nat) : State :=
  s.modCore t.core fun k => { k with locks := k.locks.filter fun l => !(l.cmd == cmd && l.team == tid && l.sp && !l.src) }

def State.mcastUnit (s : State) (core tenant : Nat) (t : Team) (c : Cmd) (b : Box) (u : Nat) : State :=
  if u < 2 ^ 32 then
    let r := s.gather core tenant t c ((List.range 16).map fun i => b.source (16 * u + i))
    r.2.stepCmd core tenant c false (r.1.map fun k => { c.did u 0 with data := AMap.set c.data u k })
  else
    let q := u % 2 ^ 32
    match s.teamIn t.cluster (u / 2 ^ 32 - 1), AMap.at? c.data q with
    | some (id, rt), some k =>
      let a := c.place b (16 * q)
      let w := s.granWrite id a { c with blocks := [a / 256] } (c.whole b a) k
      let s := w.2.modCore core fun x => x.count 0x2B 16
      let c := c.did u 16
      let s := s.setCmd core c
      if c.work.any fun x => x / 2 ^ 32 == u / 2 ^ 32 then s else s.releaseAt id rt c.id
    | _, _ => s

/-- Reduce (15 R349). -/
def Coll.reduce (k : Coll) (xs : List Nat) : Nat :=
  let flt (f : Fmt) : Nat :=
    match xs.foldl (fun a x => (xAdd a (f.read x)).1) (xVal 0) with
    | .nan => f.canon
    | .inf n => (if n then f.signBit else 0) + f.inf
    | .fin v => if v = 0 then 0 else (f.round .ne (v < 0) v.natAbs (-149)).1
  match k.ty with
  | 0 => flt fmt32
  | 1 => flt fmt16
  | 2 => flt fmtBf
  | _ => xs.foldl (· + ·) 0 % 2 ^ (8 * k.e)

/-- What a rank has contributed, its own from what was gathered. -/
def Cmd.contrib (c : Cmd) (k : Coll) (r : Nat) : List Byte :=
  if r = k.rank then List.flatMap (fun (e : Nat × Chunk) => e.2.bs) c.data else AMap.get [] c.heard r

/-- The byte this rank writes at an offset of DST. -/
def Cmd.collByte (c : Cmd) (k : Coll) (o : Nat) : Byte :=
  match k.op with
  | 2 => (c.contrib k k.root).getD o 0
  | 3 => (c.contrib k (o / (k.count * k.e))).getD (o % (k.count * k.e)) 0
  | _ =>
    let i := o / k.e
    let xs := (List.range k.npeer).map fun r => leAt (c.contrib k r) (i * k.e) k.e
    BitVec.ofNat 8 (k.reduce xs / 256 ^ (o % k.e))

def State.collUnit (s : State) (core tenant : Nat) (t : Team) (c : Cmd) (u : Nat) : State :=
  let k := collOf c.rcd
  if c.writes then
    let vas := (List.range 64).map (u * 64 + ·) |>.filter fun v => k.dst ≤ v && v < k.dst + k.taken
    -- the bytes take the type of what this rank gave (R338); where it gave nothing, that of the line
    let tol := if k.given = 0 then
        (match s.engLeaf core tenant (vas.headD 0) false true with
         | (.ok l, s) => (s.lineTol ⟨0, vas.headD 0, l⟩).1
         | _ => false)
      else List.any c.data fun (e : Nat × Chunk) => e.2.ax
    s.writeSector core tenant t c u vas vas.length ⟨vas.map fun v => c.collByte k (v - k.dst), tol, !tol⟩
  else
    let vas := (List.range 64).map (u * 64 + ·) |>.filter fun v => k.src ≤ v && v < k.src + k.given
    let r := s.gather core tenant t c (vas.map ByteSrc.glob)
    r.2.stepCmd core tenant c false (r.1.map fun x =>
      { c.did u 0 with data := AMap.set c.data u x })

/-- Weft does not reach a peer: in reduced service it is down (23 R481), and else no port of the peer's PORTS is up
(15 R351; 23 R485). -/
def State.linkLost (s : State) (d : Nat) : Bool :=
  let ports := (AMap.get 0 s.plat.wpeer d).toNat % 256
  s.boot.stage != 3 ||
    !(List.range 8).any fun p => ports.testBit p && (AMap.get 0 s.plat.link (4 + p)).toNat % 8 == 2

/-- One sector of a peer transfer (15 R351), aligned where it is written; nothing moves while no port reaches the
peer. What the peer answers, and what its memory holds, is free. -/
def State.peerUnit (s : State) (core tenant : Nat) (t : Team) (c : Cmd) (u : Nat) : State :=
  if s.linkLost (c.word 0 % 64) then s else
  let at_ := match c.op with | .qput => c.word 1 | _ => c.word 2
  let offs := (List.range 64).filterMap fun i =>
    if at_ ≤ 64 * u + i && 64 * u + i < at_ + c.word 3 then some (64 * u + i - at_) else none
  let n := offs.length
  let local_ := offs.map (c.word 2 + ·)
  let ans := s.free 3
  match c.op with
  | .qput =>
    let r := ans.2.gather core tenant t c (local_.map ByteSrc.glob)
    match r.1 with
    | .error e => r.2.cmdFail core tenant c false e
    | .ok k =>
      if ans.1 = 1 then r.2.endWith core c 3
      else if ans.1 = 2 then r.2.endWith core c 4
      else
        let s := { r.2 with plat := { r.2.plat with
          sent := (c.word 0 % 64, (c.word 1 + offs.headD 0) % 2 ^ 64, k.bs) :: r.2.plat.sent } }
        (s.modCore core fun x => x.count 0x2B n).setCmd core (c.did u n)
  | _ =>
    if ans.1 = 1 then ans.2.endWith core c 3
    else if ans.1 = 2 then ans.2.endWith core c 4
    else
      let d := local_.foldl (fun (r : List Byte × State) _ =>
        let f := r.2.free 256
        (r.1 ++ [BitVec.ofNat 8 f.1], f.2)) ([], ans.2)
      let tol := match d.2.engLeaf core tenant (local_.headD 0) false true with
        | (.ok l, s) => (s.lineTol ⟨0, local_.headD 0, l⟩).1
        | _ => false
      d.2.writeSector core tenant t c u local_ n ⟨d.1, tol, !tol⟩

/-- A unit of a Quill command's data phase. -/
def State.quillUnit (s : State) (core : Nat) (c : Cmd) (u : Nat) : State :=
  match s.team? c.team with
  | none => s
  | some t =>
    let tenant := s.teamTenant t
    let b := c.boxOf (((s.group? c.gid).map s.slotsOf).getD [])
    match c.op with
    | .qmc _ _ => s.mcastUnit core tenant t c b u
    | .qcol => s.collUnit core tenant t c u
    | .qput | .qget => s.peerUnit core tenant t c u
    | _ => s.copyUnit core tenant t c b u

/-- ENGINE_SECTOR_COMPLETE: one unit of a running command, whichever it is, is performed. -/
def execEngineSectorComplete (core : Nat) (heddle : Bool) (id : Nat) (s : State) :
    Host.Outcome State Fault Refusal :=
  event (match s.cmd? core id with
    | none => s
    | some c =>
      if c.heddle != heddle || c.st != .running || c.fault.isSome || c.work.isEmpty then s else
        let f := s.freeIn 0 (c.work.length - 1)
        let u := c.work.getD f.1 0
        if heddle then f.2.heddleUnit core c u else f.2.quillUnit core c u) s

/-! ## Multicast and collectives (15 R346, R350) -/

/-- Does a receiver refuse the tile (15 R346)? -/
def State.refuses (s : State) (c : Cmd) (b : Box) (id : Nat) (t : Team) : Bool :=
  let grans := (List.range (b.bytes / 16)).map fun q => c.place b (16 * q)
  let span := rotSpan b.l.rot b.bytes
  !t.gate || t.retired || !t.resident
    || grans.any (fun a => t.sp.full.has (a / 16))
    || lockSize ≤ (s.core t.core).locks.length
    || (List.range grans.length).any (fun q =>
      let a := grans.getD q 0
      match AMap.at? c.data q with
      | none => false
      | some k => !c.whole b a && (if t.blockAx a then k.pr else k.ax))
    || t.windows.any (fun w => overlap c.base span w.2.sp w.2.len)
    || (s.team? id).isNone

/-- MCAST_RECEIVE: the tile reaches a receiver's gate, which takes or refuses it whole. -/
def execMcastReceive (core id team : Nat) (s : State) : Host.Outcome State Fault Refusal :=
  event (match s.cmd? core id with
    | none => s
    | some c =>
      match c.op, s.team? c.team with
      | .qmc _ _, some t0 =>
        if c.st != .running || !c.left.has team || c.work.any (fun u => u < 2 ^ 32) then s else
          let b := c.boxOf (((s.group? c.gid).map s.slotsOf).getD [])
          let c := { c with left := c.left.del team }
          match s.teamIn t0.cluster team with
          | some (tid, t) =>
            if s.refuses c b tid t then s.setCmd core { c with mask := c.mask + 2 ^ team }
            else
              let s := s.register t.core c.id tid [⟨false, true, c.base, rotSpan b.l.rot b.bytes⟩]
              -- each whole block takes its type before its first granule (R338)
              let units := List.range (b.bytes / 16)
              let ax (blk : Nat) : Bool := units.any fun q => c.place b (16 * q) / 256 == blk &&
                ((AMap.at? c.data q).map (·.ax)).getD false
              let blks := units.foldl (fun (a : NSet) q => NSet.add a (c.place b (16 * q) / 256)) []
              let s := blks.foldl (fun s k =>
                if c.whole b (256 * k) then
                  let isAx := ((s.team? tid).map fun t => t.blockAx (256 * k)).getD false
                  if ax k && !isAx then femToAx (256 * k) 256 s tid
                  else if !ax k && isAx then s.modTeam tid fun t =>
                    { t with sp := { t.sp with ax := AMap.del t.sp.ax k } }
                  else s
                else s) s
              s.setCmd core { c with work := c.work ++ units.map (landUnit team) }
          | none => s.setCmd core { c with mask := c.mask + 2 ^ team }
      | _, _ => s) s

/-- Is a command the one that what a rank has sent goes to: of those accepted with its (GROUP, SEQ) and not yet heard
from that rank, the first (15 R348)? -/
def State.matchesFirst (s : State) (c : Cmd) (rank : Nat) : Bool :=
  let k := collOf c.rcd
  s.cores.all fun e => e.2.cmds.all fun x => c.id ≤ x.id || x.op != .qcol || x.st == .queued || x.bad
    || x.mask.testBit rank || (collOf x.rcd).grp != k.grp || (collOf x.rcd).seq != k.seq

/-- The peer that holds a rank of a Weft group cannot be reached (23 R485). -/
def State.rankLost (s : State) (grp r : Nat) : Bool :=
  s.linkLost ((AMap.get 0 s.plat.wgrp (64 * grp + r)).toNat % 64)

/-- COLLECTIVE_CONTRIBUTION_ARRIVAL: what a rank has sent, under the command's (GROUP, SEQ), is staged and recorded in
MASK; a peer that does not agree counts as failed (15 R348, R350). -/
def execCollectiveContributionArrival (core id rank : Nat) (bytes : List Byte) (agree : Bool) (s : State) :
    Host.Outcome State Fault Refusal :=
  event (match s.cmd? core id with
    | none => s
    | some c =>
      match c.op with
      | .qcol =>
        let k := collOf c.rcd
        if c.bad || c.writes || c.st == .queued || k.npeer ≤ rank || rank == k.rank || c.mask.testBit rank
            || !s.matchesFirst c rank || s.rankLost k.grp rank then s
        else if agree && bytes.length == k.heardBytes rank then
          s.setCmd core { c with mask := c.mask + 2 ^ rank, left := c.left.del rank
                                 heard := AMap.set c.heard rank bytes }
        else s.setCmd core { c with failed := true }
      | _ => s) s

/-- COLLECTIVE_RELEASE: every rank's contribution has arrived, and this rank may write (15 R350). -/
def execCollectiveRelease (core id : Nat) (s : State) : Host.Outcome State Fault Refusal :=
  event (match s.cmd? core id with
    | none => s
    | some c =>
      match c.op with
      | .qcol =>
        let k := collOf c.rcd
        if c.st == .running && c.status == 0 && !c.writes && !c.failed && c.work.isEmpty && c.left.isEmpty then
          -- types follow the source bytes; a reduction of any approximate data is approximate (R338)
          s.setCmd core { c with writes := true, work := sectorsIn k.dst k.taken }
        else s
      | _ => s) s

/-- COLLECTIVE_TIMEOUT: TIMEOUT has expired, or a peer has failed, before the release (15 R350). -/
def execCollectiveTimeout (core id : Nat) (s : State) : Host.Outcome State Fault Refusal :=
  event (match s.cmd? core id with
    | none => s
    | some c =>
      match c.op with
      | .qcol =>
        let k := collOf c.rcd
        let us := if k.timeout = 0 then 1000000 else k.timeout
        if c.st == .running && c.status == 0 && !c.writes && (c.failed || c.since + s.realClocks (1000 * us) ≤ s.clk)
        then (s.endWith core c 2).modCore core fun x => { x with cmds := x.cmds.map fun y =>
          if y.id == c.id then { y with heard := [], data := [], fault := none } else y }
        else s
      | _ => s) s

/-- PEER_TRANSFER_TIMEOUT: a link loss, or a transfer not complete within 1 s (15 R351). -/
def execPeerTransferTimeout (core id : Nat) (s : State) : Host.Outcome State Fault Refusal :=
  event (match s.cmd? core id with
    | none => s
    | some c =>
      match c.op with
      | .qput | .qget =>
        if c.st == .running && c.status == 0 && !c.work.isEmpty &&
            (s.linkLost (c.word 0 % 64) || c.since + s.realClocks 1000000000 ≤ s.clk)
        then (s.endWith core c 2).modCore core fun x => { x with cmds := x.cmds.map fun y =>
          if y.id == c.id then { y with fault := none } else y }
        else s
      | _ => s) s

/-! ## Completion (15 R340, R344) -/

/-- Is the data phase over? -/
def Cmd.finished (c : Cmd) : Bool :=
  c.st == .running && c.fault.isNone && c.work.isEmpty && c.left.isEmpty &&
    (match c.op with | .qcol => c.writes || c.status != 0 | _ => true)

/-- The MASK of a completion record. -/
def Cmd.maskOut (c : Cmd) : Nat := match c.op with | .qmc .. | .qcol => c.mask | _ => 0

/-- A follow-on is registered before its copy's ranges are released (15 R344): the state, or none where it
must wait. -/
def State.passFollow (s : State) (core : Nat) (c : Cmd) : Option State :=
  match c.op with
  | .qcpm _ (some f) =>
    if c.status != 0 then some s else
    let n := s.fresh
    match (n.2.group? c.gid), followCmd f c ⟨((n.2.clusterOfTeam c.team).map (·.ord.pos)).getD 0, n.2.dev.pos⟩ n.1 with
    | some g, some h =>
      let chk := h.precheck (n.2.slotsOf g)
      let rs := if chk = 0 then h.ranges (n.2.slotsOf g) else []
      let h := { h with status := chk, pins := c.pins }
      if s.clash core c.team (some c.id) rs || lockSize < (s.core core).locks.length + rs.length
          || queueSize ≤ (s.engCmds core true).length then none
      else some ((n.2.setCmd core { c with pins := [] }).enterCmd core h rs)
    | _, _ => some s
  | _ => some s

/-- QUILL_COMPLETE: the follow-on is passed on, the record is written, the ranges are released and the
task is decremented. -/
def execQuillComplete (core id : Nat) (s : State) : Host.Outcome State Fault Refusal :=
  event (match s.cmd? core id with
    | none => s
    | some c =>
      if c.heddle || !c.finished then s else
      match s.team? c.team with
      | none => s
      | some t =>
        let st := match c.op with | .qmc .. => if c.mask != 0 && c.status == 0 then 1 else c.status | _ => c.status
        let c := { c with status := st }
        match (if c.atRec then some s else s.passFollow core c) with
        | none => s
        | some s =>
          let r := s.writeRecord core (s.teamTenant t) t c c.maskOut
          match r.1 with
          | none => r.2
          | some c => r.2.finishCmd core c) s

end Sys2Proof.Machine
end

