-- ==== Sys2Proof/Machine/Sreg.lean ====
section
/-!
DEFINITION. The special registers (18 Table 18-1; 21 Tables 21-1 to 21-3): who may reach them, what they
read, what a write does; the answers of the service agent (06 R114, R118, R120) and its queue registers
(14 R298; 08 R187). The management window reaches them too (Machine/Window.lean).
-/
namespace Sys2Proof.Machine

/-! ## Access (18 R390, R391) -/

/-- Level needed to read and to write: 0 U, 1 H, 2 S, 3 nobody; and how many indices it takes. -/
structure SReg where
  rd : Nat
  wr : Nat
  range : Option Nat := none
deriving DecidableEq, Repr

def sregInfo (n : Nat) : Option SReg :=
  if n = 0 then some ⟨0, 0, none⟩
  else if n ≤ 4 || (0x10 ≤ n && n ≤ 0x13) then some ⟨0, 3, none⟩
  else if n = 0x14 then some ⟨0, 3, some 144⟩
  else if n = 0x100 || n = 0x101 then some ⟨0, 2, some 256⟩
  else if n = 0x200 || n = 0x300 then some ⟨0, 3, none⟩
  else if 0x400 ≤ n && n ≤ 0x402 then some ⟨2, 2, some 64⟩
  else if n = 0x403 || n = 0x405 then some ⟨3, 2, some 64⟩
  else if n = 0x404 then some ⟨2, 3, some 64⟩
  else if 0x500 ≤ n && n ≤ 0x508 then some ⟨0, 1, none⟩
  else if n = 0x509 then some ⟨0, 2, none⟩
  else if n = 0x50A then some ⟨1, 1, none⟩
  else if n = 0x50B then some ⟨3, 2, none⟩
  else if n = 0x510 then some ⟨0, 1, some 8⟩
  else if n = 0x600 then some ⟨0, 2, none⟩
  else if n = 0x700 then some ⟨0, 0, none⟩
  else if n = 0x701 then some ⟨2, 2, some 64⟩
  else if n = 0x702 || n = 0x706 || n = 0x707 then some ⟨1, 1, none⟩
  else if n = 0x703 then some ⟨1, 3, some 8⟩
  else if n = 0x704 || n = 0x705 then some ⟨1, 3, some 128⟩
  else if 0x800 ≤ n && n ≤ 0x802 then some ⟨0, 2, some 64⟩
  else if n = 0x803 then some ⟨2, 2, some 64⟩
  else if n = 0x804 then some ⟨3, 2, none⟩
  else if n = 0x805 || n = 0x806 || n = 0x900 then some ⟨0, 3, none⟩
  else none

/-- The ILLEGAL cause of an access by a group: 2 privilege, 4 index. -/
def sregCause (high wr : Bool) (n : Nat) (i : Option Nat) : Option Nat :=
  match sregInfo n with
  | none => some 0
  | some r =>
    if (if high then 1 else 0) < (if wr then r.wr else r.rd) then some 2
    else match r.range, i with
      | some k, some i => if k ≤ i then some 4 else none
      | _, _ => none

/-- Whose copy an access reaches: core, team, group, and the stream or tenant. -/
structure Who where
  core : Option Nat
  team : Option Nat
  gid : Option Nat
  stream : Nat
deriving DecidableEq, Repr

/-! ## Slices (18 R407, R408) -/

/-- Context bytes of a team. -/
def Team.context (t : Team) : Nat :=
  (Config.contextBytes t.groups.length t.hdr.vcnt t.hdr.xcnt t.hdr.scnt t.hdr.scratch t.hdr.acc).toNat

/-- B of a core. -/
def State.contextB (s : State) (core : Nat) : Nat :=
  (((s.core core).teams.filterMap s.team?).map Team.context).sum

/-- The least slice of a core in ns; the estimates are doubled in reduced service (23 R482). -/
def State.leastSlice (s : State) (core : Nat) : Nat :=
  let b := s.contextB core / 64
  (8889 + b + (b + 2000)) * (if s.boot.stage = 3 then 1 else 2) + 20000

def State.tslice (s : State) (core : Nat) : Nat :=
  (((s.core core).sliceTenant.map fun t => (s.tenant t).tslice).getD 0).toNat

/-- PRE_TSLICE_EFF. -/
def State.sliceEff (s : State) (core : Nat) : Nat := max (s.tslice core) (s.leastSlice core)

/-! ## Reading -/

/-- SV_STAT. -/
def Stream.stat (r : Stream) : Nat :=
  r.races.toNat * 2 ^ 48 + bit r.raceov * 2 ^ 36 + bit r.rpldiv * 2 ^ 35 + bit r.rpldone * 2 ^ 34
    + bit r.rplov * 2 ^ 33 + r.lostCnt.toNat

/-- A Selvage register of a stream. -/
def Stream.read (r : Stream) (n b : Nat) : Nat :=
  if n = 0x500 then r.ctl.toNat
  else if n = 0x501 then r.base.toNat
  else if n = 0x502 then r.rptr.toNat * 2 ^ 32 + r.wptr.toNat
  else if n = 0x503 then r.syncTus.toNat * 2 ^ 16 + r.syncN.toNat
  else if n = 0x504 then r.msmp.toNat
  else if n = 0x505 then r.rpl.toNat
  else if n = 0x506 then r.race.toNat
  else if n = 0x507 then r.racew.toNat
  else if n = 0x508 then r.stat
  else if n = 0x509 then bit r.attach
  else if n = 0x510 then (AMap.get 0 r.brk b).toNat
  else 0

/-- HMAP_C of a die (18 Table 18-2). -/
def State.hmap (s : State) (d : Nat) : Nat :=
  (List.range 36).foldl (fun n i => n + bit (s.siteOn (36 * d + i)) * 2 ^ i) 0

/-- LMAP of a logical core (18 Table 18-3). -/
def State.lmap (s : State) (i : Nat) : Nat :=
  if s.nCore ≤ i then 2 ^ 63 else
    let p := s.psi i
    p + p / 36 * 2 ^ 8 + p % 6 * 2 ^ 10 + p % 36 / 6 * 2 ^ 13

/-- TRAP_GST (18 Table 18-5). -/
def Group.gstWord (g : Group) : Nat :=
  bit g.sys.pendTrap.isSome * 128 + bit g.ended * 64 + g.sys.gst.toNat % 64

/-- The group of a team with an index. -/
def State.member (s : State) (team : Option Nat) (i : Nat) : Option Group :=
  ((team.bind s.team?).bind fun t => t.groups.findSome? fun k =>
    (s.group? k).bind fun g => if g.gidx = i then some g else none)

/-- A special register that a core, a team or a group holds; 0 where none is selected. -/
def State.readLocal (s : State) (w : Who) (n i : Nat) : Nat :=
  let g := w.gid.bind s.group?
  let ofG (f : Group → Nat) : Nat := (g.map f).getD 0
  let ofC (f : Nat → Nat) : Nat := (w.core.map f).getD 0
  if n = 0 then ofG fun g => g.sys.fpsr.toNat
  else if n = 1 then ofG fun g => bit g.sys.high + 2 * bit (s.queueMode g)
  else if n = 3 then ofC fun _ => s.clk
  else if n = 0x200 then ofC fun c =>
    let cs := s.engCmds c false
    (cs.filter fun x => some x.team == w.team && x.st != .queued).length * 2 ^ 32
      + (queueSize - cs.length) * 2 ^ 24 + (s.core c).locks.length * 2 ^ 16 + s.pinned (s.dieOf c) false
  else if n = 0x300 then ofC fun c => s.pinned (s.dieOf c) true
  else if n = 0x50A then ofG fun g => bit g.sys.step + 2 * bit g.sys.stepHold
  else if n = 0x700 then ((w.team.bind s.team?).map fun t => t.tbase.toNat).getD 0
  else if n = 0x702 then ofG fun g => g.sys.epc.toNat
  else if n = 0x703 then ofG fun g => (AMap.get 0 g.sys.ld i).toNat
  else if n = 0x704 then ((s.member w.team i).map fun g => g.sys.gpc.toNat).getD 0
  else if n = 0x705 then ((s.member w.team i).map Group.gstWord).getD 0
  else if n = 0x706 then ofG fun g => g.sys.scr0.toNat
  else if n = 0x707 then ofG fun g => g.sys.scr1.toNat
  else if n = 0x805 then ofC fun c => s.sliceEff c
  else if n = 0x806 then ofC fun c =>
    (s.core c).preStat.toNat / 16 * 16 + bit ((s.core c).sliceTenant.isSome && s.tslice c < s.leastSlice c)
  else 0

/-- A special register of a die, that of the selected core, of the device or of a tenant. -/
def State.readShared (s : State) (w : Who) (n i : Nat) : Nat :=
  let t := s.tenant i
  if n = 2 then (w.core.map fun c => s.dieTime (s.dieOf c)).getD 0
  else if n = 4 then s.nCore
  else if 0x10 ≤ n && n ≤ 0x13 then s.hmap (n - 0x10)
  else if n = 0x14 then s.lmap i
  else if n = 0x100 then (s.queue i).ctl.toNat
  else if n = 0x101 then (s.queue i).head.toNat * 2 ^ 32 + (s.queue i).tail.toNat
  else if n = 0x400 then t.root.toNat
  else if n = 0x401 then t.fqbase.toNat
  else if n = 0x402 then t.fqhead.toNat * 2 ^ 32 + t.fqtail.toNat
  else if n = 0x404 then bit t.invDone
  else if n = 0x600 then s.l2c + s.l3c * 16
  else if n = 0x701 then t.dflt.toNat
  else if n = 0x800 then t.tslice.toNat
  else if n = 0x801 then t.drain.toNat
  else if n = 0x802 then t.budget.toNat
  else if n = 0x803 then t.ctx.toNat
  else if n = 0x900 then s.boot.stage
  else (s.stream w.stream).read n i

/-- The registers that cores, teams and groups hold. -/
def localReg (n : Nat) : Bool :=
  n = 0 || n = 1 || n = 3 || n = 0x200 || n = 0x300 || n = 0x50A || n = 0x700 || (0x702 ≤ n && n ≤ 0x707)
    || n = 0x805 || n = 0x806

/-- What a special register reads (18 R414). -/
def State.readSreg (s : State) (w : Who) (n i : Nat) : Word64 :=
  BitVec.ofNat 64 (if localReg n then s.readLocal w n i else s.readShared w n i)

/-! ## Writing the Selvage registers (21 R435, R436) -/

/-- Some bits of a word take the value of another. -/
def blend (keep : Nat) (old new : Word64) : Word64 :=
  let m := BitVec.ofNat 64 keep
  (new &&& m) ||| (old &&& ~~~m)

/-- EN goes from 0 to 1: the stream starts again with a SYNC (21 R436). -/
def Stream.turnOn (r : Stream) (now : Nat) : Stream :=
  { r with
    wptr := r.rptr, fresh := true, syncDue := true, lastSync := now, lastStamp := if r.written = 0 then now else r.lastStamp }

/-- A write of a Selvage register of a stream; the field of a reserved value keeps its value. -/
def Stream.write (r : Stream) (n b : Nat) (w : Word64) (now : Nat) : Stream :=
  let v := w.toNat
  if n = 0x500 then
    let r' := { r with ctl := BitVec.ofNat 12 v }
    if bitAt v 0 && !r.ctl.toNat.testBit 0 then r'.turnOn now else r'
  else if n = 0x501 then
    let lg := bitsAt v 0 5
    let lg := if 6 ≤ lg && lg ≤ 30 then lg else bitsAt r.base.toNat 0 5
    { r with base := BitVec.ofNat 64 (v / 64 * 64 + lg), wptr := r.rptr }
  else if n = 0x502 then { r with rptr := BitVec.ofNat 32 (v / 2 ^ 32) }
  else if n = 0x503 then { r with syncTus := BitVec.ofNat 32 (v / 2 ^ 16), syncN := BitVec.ofNat 16 v }
  else if n = 0x504 then
    { r with msmp := blend 0xF1 0 w }
  else if n = 0x505 then
    let lg := bitsAt v 1 5
    let rpl := BitVec.ofNat 64 (v / 4096 * 4096 + bitsAt v 0 1
      + (if 16 ≤ lg then lg else bitsAt r.rpl.toNat 1 5) * 2)
    if bitAt v 0 then { r with rpl := rpl, rplOff := 0 } else { r with rpl := rpl }
  else if n = 0x506 then
    let lg := bitsAt v 1 5
    { r with race := BitVec.ofNat 64 (v / 65536 * 65536 + bitsAt v 0 1
      + (if 16 ≤ lg then lg else bitsAt r.race.toNat 1 5) * 2) }
  else if n = 0x507 then { r with racew := BitVec.ofNat 64 (v / 4096 * 4096) }
  else if n = 0x508 then
    { r with
      raceov := r.raceov && !bitAt v 36, rpldiv := r.rpldiv && !bitAt v 35
      rpldone := r.rpldone && !bitAt v 34, rplov := r.rplov && !bitAt v 33 }
  else if n = 0x509 then { r with attach := bitAt v 0 }
  else if n = 0x510 then { r with brk := AMap.put 0 r.brk b w }
  else r

/-- The open intervals of a tenant's groups are given up. -/
def State.dropIntervals (s : State) (t : Nat) : State :=
  { s with groups := s.groups.mapVals fun _ g =>
      if s.tenantOf g = t then { g with trc := { g.trc with rec? := none } } else g }

def State.svWrite (s : State) (t n b : Nat) (w : Word64) : State :=
  let s := s.modStream t fun r => r.write n b w s.time
  if n = 0x505 then s.dropIntervals t else s

/-! ## The service agent's registers -/

/-- A command that waited on a fault page goes on, or ends with MEMORY; a completion record that cannot
be written is left out (15 R339, R340). -/
def Cmd.answered (c : Cmd) (page : Nat) (fail : Bool) : Cmd :=
  if c.fault != some page then c
  else if !fail then { c with fault := none }
  else if c.atRec then { c with fault := none, status := 3, noRec := true }
  else { c with fault := none, status := 3, work := [], left := [], pins := [], hpins := [] }

/-- A write of MM_FRESP (06 R120). -/
def State.fresp (s : State) (t seq : Nat) (fail : Bool) : State :=
  match s.faults.find? (fun p => p.tenant == t && p.seq % 2 ^ 56 == seq && p.ans.isNone) with
  | none => { s with frespIgnored := s.frespIgnored + 1 }
  | some p =>
    let s := s.station 4 6 0 0 (p.seq % 2 ^ 32) (some t)
    { s with
      faults := (s.faults.map fun q => if q.id == p.id then { q with ans := some (fail, s.clk) } else q).filter
        fun q => q.id != p.id || !q.waiters.isEmpty
      cores := s.cores.mapVals fun _ k => { k with cmds := k.cmds.map fun c => c.answered p.id fail } }

/-- Is a page number in the range of an MM_INV word (18 Table 18-1)? Pages of 2^(9 lvl) 4 KiB pages. -/
def inInv (w : Nat) (page span : Nat) : Bool :=
  let first := bitsAt w 12 45
  let p := page % 2 ^ 45
  p < first + 2 ^ bitsAt w 0 6 && first < p + span

/-- The TLB copies of a range are gone (06 R114). -/
def State.dropTlbs (s : State) (t w : Nat) : State :=
  let keep (k : Nat) : Bool := !inInv w (k / 4 * 512 ^ (k % 4)) (512 ^ (k % 4))
  { s with
    cores := s.cores.mapVals fun _ c =>
      if c.sliceTenant = some t then { c with tlb := List.filter (fun e : Nat × Leaf => keep e.1) c.tlb } else c
    l2tlb := s.l2tlb.mapVals fun _ m =>
      List.filter (fun e : Nat × Leaf => e.1 / 2 ^ 60 != t || keep (e.1 % 2 ^ 60)) m
    groups := s.groups.mapVals fun _ g => if s.tenantOf g = t then
      { g with mem := { g.mem with walked := List.filter (fun e : Nat × WalkRes => !inInv w e.1 1) g.mem.walked } }
      else g }

/-- A write of MM_INV: an invalidation starts; malformed writes are ignored. -/
def State.invWrite (s : State) (t : Nat) (w : Word64) : State :=
  let v := w.toNat
  if 45 < bitsAt v 0 6 || bitsAt v 6 6 != 0 || bitsAt v 57 7 != 0 then s else
    (s.modTenant t fun x => { x with inv := w, invDone := false }).dropTlbs t v

/-- An operation in progress holds a translation of a tenant's page in the range (06 R114). -/
def Pend.translated (p : Pend) (w : Nat) : Bool :=
  match p.op with
  | .load _ _ _ _ acc _ _ _ _ => acc.any fun a => inInv w (a.va % 2 ^ 64 / 4096) 1
  | .atom _ _ _ _ _ ws _ => ws.any fun a => inInv w (a.va % 2 ^ 64 / 4096) 1
  | .xadd _ _ ws _ => ws.any fun a => inInv w (a.va % 2 ^ 64 / 4096) 1
  | .park _ _ _ va _ _ => inInv w (va % 2 ^ 64 / 4096) 1
  | _ => false

/-- INVALIDATION_DONE may happen: every access translated by a copy in the range has been performed. -/
def State.invReady (s : State) (t : Nat) : Bool :=
  let x := s.tenant t
  !x.invDone && !s.pending.any fun p => p.translated x.inv.toNat &&
    ((s.group? p.gid).map s.tenantOf) == some t

/-- A write of TRD_QCTL (14 R298). -/
def State.qctlWrite (s : State) (q : Nat) (w : Word64) : State :=
  s.modQueue q fun x => if x.head = x.tail then { x with ctl := blend 0xFFFFFFFFFFFFFFBF 0 w } else x

/-- A write of TRD_QPTR: TAIL (14 R298). -/
def State.qtailWrite (s : State) (q : Nat) (w : Word64) : State :=
  let x := s.queue q
  let tail := BitVec.ofNat 32 w.toNat
  if 2 ^ bitsAt x.ctl.toNat 8 4 < (tail - x.head).toNat then
    { s with trd := { s.trd with ignored := s.trd.ignored + 1 } }
  else s.modQueue q fun x => { x with tail := tail }

/-- A write of RAIL_SHARED (08 R187). -/
def State.railSharedSet (s : State) (w : Word64) : State :=
  let v := w.toNat
  let old := s.oldShared
  ({ s with
    railSet := some (max s.l2c old.1, max s.l3c old.2, s.clk)
    l2c := bitsAt v 0 3, l3c := bitsAt v 4 3 } : State).raiseShared

/-- A write of a tenant's register. -/
def State.tenantWrite (s : State) (n t : Nat) (w : Word64) : State :=
  let v := w.toNat
  s.modTenant t fun x =>
    if n = 0x400 then { x with root := blend 0x01FFFFFFFFFFF000 0 w }
    else if n = 0x401 then { x with fqbase := blend 0xFFFFFFFFFFFFF01F 0 w }
    else if n = 0x402 then { x with fqhead := BitVec.ofNat 32 (v / 2 ^ 32) }
    else if n = 0x701 then { x with dflt := w }
    else if n = 0x800 then { x with tslice := BitVec.ofNat 32 v }
    else if n = 0x801 then { x with drain := BitVec.ofNat 8 v }
    else if n = 0x802 then { x with budget := BitVec.ofNat 32 v }
    else if n = 0x803 then { x with ctx := blend 0xFFFFFFFFFF00FFFF 0 w }
    else x

/-! ## Writing what cores, teams and groups hold -/

/-- A write of a register of a team or a group; TRAP_TBASE takes only multiples of 1024. -/
def State.writeLocal (s : State) (w : Who) (n : Nat) (v : Word64) : State :=
  let onG (f : GSys → GSys) : State := match w.gid with
    | none => s
    | some k => s.modGroup k fun g => { g with sys := f g.sys }
  if n = 0 then onG fun y => { y with fpsr := BitVec.ofNat 5 v.toNat }
  else if n = 0x50A then onG fun y => { y with step := bitAt v.toNat 0, stepHold := bitAt v.toNat 1 }
  else if n = 0x700 then (match w.team with
    | none => s
    | some t => if v.toNat % 1024 = 0 then s.modTeam t fun x => { x with tbase := v } else s)
  else if n = 0x702 then onG fun y => { y with epc := v }
  else if n = 0x706 then onG fun y => { y with scr0 := v }
  else if n = 0x707 then onG fun y => { y with scr1 := v }
  else s

end Sys2Proof.Machine
end

