-- ==== Sys2Proof/Machine/System.lean ====
section
/-!
DEFINITION. Opcodes 0xE0 to 0xE6 (18 R412 to R417) and the events of traps, of the service agent's
registers and of the device's own storage (18 R393, R409, R410).
-/
namespace Sys2Proof.Machine

/-! ## trap, brkp, the stop of a sibling (18 R412, R393) -/

def execTrap (c : Ctl) (n : Nat) (s : State) : Host.Outcome State Fault Refusal :=
  run { i := .trap c n, c := c } (fun _ ls s => ifAny ls s (.trap (trapOf 10 0 ls n) s)) s

def execBrkp (c : Ctl) (n : Nat) (s : State) : Host.Outcome State Fault Refusal :=
  run { i := .brkp c n, c := c } (fun _ ls s => ifAny ls s (.trap (trapOf 9 0 ls n) s)) s

/-- SIBLING_STOP: a sibling may stop before its skid is used up. -/
def execSiblingStop (core slot : Nat) (s : State) : Host.Outcome State Fault Refusal :=
  event (match s.groupAt core slot with
    | none => s
    | some k => s.stopSibling k) s

/-! ## rtt (18 R413; 21 R460) -/

/-- A group has left H: in queue mode a trap still pending in the team is delivered first, and this group stands
with its siblings (18 R398); otherwise what follows is `rest`. -/
def State.leftH (s : State) (gid : Nat) (g : Group) (pc : Word64) (rest : State) : State :=
  match if s.queueMode g then s.nextPending g.team else none with
  | some k =>
    let s := s.modGroup gid fun g => { g with sys := { g.sys with stopped := true, gpc := pc, gst := 0 } }
    s.deliverPending k
  | none => rest

/-- The group is back at U at an address; a pending trap is delivered, or the halt is released, unless a
step holds the siblings. -/
def State.returnTo (s : State) (gid : Nat) (g : Group) (pc : Word64) : State :=
  let s := s.setGroup gid { g with
    ctl := { g.ctl with pc := pc }
    sys := { g.sys with high := false, stepping := g.sys.step } }
  s.leftH gid g pc (if g.sys.step && g.sys.stepHold then s else s.releaseHalt g.team)

/-- CheckTarget of `rtt`: a failure is a trap at H, of the active lanes. -/
def rttTarget (g : Group) (pc : Word64) : Option TrapInfo :=
  checkTarget ((lanesOf g.ctl.act).map fun l => (l, pc.toNat))

def rttRow (i : Instr) (skip : Bool) (s : State) : Host.Outcome State Fault Refusal :=
  run { i := i, c := .always } (fun g ls s =>
    if !g.sys.high then .trap (trapOf 0 1 ls) s else
      match rttTarget g g.sys.epc with
      | some t => .trap t s
      | none =>
        if !skip then .jump (s.returnTo s.cur g g.sys.epc) else
          match s.insWord s.cur g g.sys.epc with
          | .error t => .wait t
          | .ok (w, s) =>
            let pc := g.sys.epc + (if bitAt w 0 then 16 else 8)
            match rttTarget g pc with
            | some t => .trap t s
            | none => .jump (s.returnTo s.cur g pc)) s

def execRtt (s : State) : Host.Outcome State Fault Refusal := rttRow .rtt false s
def execRttSkip (s : State) : Host.Outcome State Fault Refusal := rttRow .rttSkip true s

/-! ## srd, swr (18 R391, R414, R417; 07 R163; 21 R436) -/

/-- An earlier floating-point instruction of the group has not completed (07 R163). -/
def State.floatPending (s : State) (gid : Nat) : Bool :=
  s.pending.any fun p => p.gid == gid && (match p.op with
    | .long k _ _ _ _ => k == 1 || k == 2
    | _ => false)

def State.whoOf (s : State) (gid : Nat) (g : Group) : Who := ⟨some g.core, some g.team, some gid, s.tenantOf g⟩

/-- The use of an index register, which has empty action 0 (18 R411). -/
def indexUse : Option Opd → List Use
  | none => []
  | some o => [⟨o, 1, false⟩]

/-- An `srd` of SV_PTR counts as an `lda.dev` (21 R436). -/
def State.srdOrder (s : State) (gid n : Nat) : State :=
  if n = 0x502 then s.modGroup gid fun g => { g with mem := { g.mem with
    fen := g.mem.fen.join ⟨s.clusterEnd g, s.dev.pos⟩ } }
  else s

def execSrd (c : Ctl) (n : Nat) (d : Opd) (i : Option Opd) (s : State) :
    Host.Outcome State Fault Refusal :=
  run { i := .srd c n d i, c := c, srcs := indexUse i, dsts := [⟨d, 1, false⟩], ext := true } (fun g ls s =>
    ifAny ls s (
      let ix := i.map fun o => (g.rdS o).toNat
      match sregCause g.sys.high false n ix with
      | some k => .trap (trapOf 0 k ls) s
      | none =>
        if n = 0 && s.floatPending s.cur then .wait s else
          let s := s.srdOrder s.cur n
          .next (s.putS s.cur d (s.readSreg (s.whoOf s.cur g) n (ix.getD 0)).toNat))) s

/-- A write by a group: of the registers a group may write, the team's and its own, and the Selvage
registers of its tenant. -/
def State.groupWrite (s : State) (gid : Nat) (g : Group) (n i : Nat) (w : Word64) : State :=
  if localReg n then s.writeLocal (s.whoOf gid g) n w else s.svWrite (s.tenantOf g) n i w

def execSwr (c : Ctl) (n : Nat) (i : Option Opd) (a : Src) (s : State) :
    Host.Outcome State Fault Refusal :=
  run { i := .swr c n i a, c := c, srcs := indexUse i ++ [scalUse a], ext := !localReg n } (fun g ls s =>
    ifAny ls s (
      let ix := i.map fun o => (g.rdS o).toNat
      let w := g.rdS a.o
      match sregCause g.sys.high true n ix with
      | some k => .trap (trapOf 0 k ls) s
      | none =>
        if n = 0x700 && w.toNat % 1024 != 0 then .trap (trapOf 0 4 ls) s
        else if n = 0 && s.floatPending s.cur then .wait s
        else .next (s.groupWrite s.cur g n (ix.getD 0) w))) s

/-! ## sleep, spt (18 R415, R416) -/

def execSleep (c : Ctl) (a : Src) (s : State) : Host.Outcome State Fault Refusal :=
  run { i := .sleep c a, c := c, srcs := [scalUse a] } (fun g ls s =>
    ifAny ls s (
      let n := bitsAt (g.rdS a.o).toNat 0 32
      if n = 0 then .next s
      else .next (s.modGroup s.cur fun g => { g with park := some (.sleep n) }))) s

/-- SLEEP_EXPIRY. -/
def execSleepExpiry (core slot : Nat) (s : State) : Host.Outcome State Fault Refusal :=
  event (match s.groupAt core slot with
    | none => s
    | some k => match (s.group? k).bind (·.park) with
      | some (.sleep 0) => s.wakeGroup k
      | _ => s) s

/-- `spt` is a stopping place for a save that waits for one; what stops there is the next instruction. -/
def execSpt (c : Ctl) (s : State) : Host.Outcome State Fault Refusal :=
  run { i := .spt c, c := c } (fun g ls s =>
    ifAny ls s (
      if g.stopReq.isNone then .next s else
        let s := s.modGroup s.cur fun g => { g with
          ctl := { g.ctl with pc := g.ctl.pc + BitVec.ofNat 64 (instrSize (.spt c)) } }
        .jump (s.freeze s.cur none))) s

/-! ## Writes by the service agent (06 R114, R118, R120; 08 R187; 14 R298) -/

/-- A write of a special register by the agent: in S0 it reaches none (23 Table 23-5). -/
def agentWrite (t s : State) : Host.Outcome State Fault Refusal := event (if s.boot.stage = 0 then s else t) s

def execMmFrespResume (tenant : Nat) (seq : BitVec 56) (s : State) : Host.Outcome State Fault Refusal :=
  agentWrite (s.fresp (tenant % 64) seq.toNat false) s
def execMmFrespFail (tenant : Nat) (seq : BitVec 56) (s : State) : Host.Outcome State Fault Refusal :=
  agentWrite (s.fresp (tenant % 64) seq.toNat true) s
def execMmInv (tenant : Nat) (w : Word64) (s : State) : Host.Outcome State Fault Refusal :=
  agentWrite (s.invWrite (tenant % 64) w) s

/-- INVALIDATION_DONE: what has been filled since the write in the range goes too. -/
def execInvalidationDone (tenant : Nat) (s : State) : Host.Outcome State Fault Refusal :=
  event (
    let t := tenant % 64
    if s.invReady t then
      (s.dropTlbs t (s.tenant t).inv.toNat).modTenant t fun x => { x with invDone := true }
    else s) s

def execMmFqbaseWrite (tenant : Nat) (w : Word64) (s : State) : Host.Outcome State Fault Refusal :=
  agentWrite (s.tenantWrite 0x401 (tenant % 64) w) s
def execMmFqptrHeadWrite (tenant : Nat) (w : Word64) (s : State) : Host.Outcome State Fault Refusal :=
  agentWrite (s.tenantWrite 0x402 (tenant % 64) w) s
def execTrdQptrTailWrite (q : Nat) (w : Word64) (s : State) : Host.Outcome State Fault Refusal :=
  agentWrite (s.qtailWrite (q % 256) w) s
def execTrdQctlWrite (q : Nat) (w : Word64) (s : State) : Host.Outcome State Fault Refusal :=
  agentWrite (s.qctlWrite (q % 256) w) s
def execRailSharedWrite (w : Word64) (s : State) : Host.Outcome State Fault Refusal :=
  agentWrite (s.railSharedSet w) s

/-! ## Errors of the device's storage (18 R409, R410) -/

def execEccCorrectable (s : State) : Host.Outcome State Fault Refusal :=
  event { s with plat := { s.plat with eccCorr := s.plat.eccCorr + 1 } } s

/-- A register cell of a group is poisoned. -/
def State.poisonCell (s : State) (core slot cell : Nat) : State :=
  match s.groupAt core slot with
  | none => s
  | some k => s.modGroup k fun g => { g with regs := { g.regs with pois := NSet.add g.regs.pois cell } }

/-- A held byte is poisoned, where it is precise. -/
def Held.struck (h : Held) : Held := if h.ax then h else { h with pois := true }
def strikeAt (m : AMap Held) (k : Nat) : AMap Held := m.mapVals fun n h => if n = k then h.struck else h

/-- An entry of a stash window is struck at an offset: the team-level byte where it is dirty, else its own, where
its page is precise. -/
def Team.strikeStash (t : Team) (w i off : Nat) : Team :=
  match (AMap.at? t.windows w).bind fun x => (AMap.at? x.entries i).map fun e => (x, e) with
  | none => t
  | some (x, e) =>
    if !e.valid || bitAt e.e.toNat 5 then t
    else if (t.dirtyAt e off).isSome then { t with lvl := strikeAt t.lvl ((AMap.at? e.dirty off).getD 0) }
    else
      let x' := { x with entries := AMap.set x.entries i { e with pois := NSet.add e.pois off } }
      { t with windows := AMap.set t.windows w x' }

/-- Approximate data carry no ECC: x-registers, approximate scratchpad blocks, approximate lines in the caches,
approximate bytes of buffers, levels and stashes, and approximate tiles. -/
def State.poison (s : State) : EccSite → State
  | .memory k =>
    let l := s.line (lineOf k)
    if l.cached && l.tol then s else { s with pois := NSet.add s.pois k }
  | .vreg core slot lane n => s.poisonCell core slot (cellOf (.v (n % 192)) (lane % 32))
  | .xreg _ _ _ _ => s
  | .sreg core slot n => s.poisonCell core slot (cellOf (.s (n % 64)) 0)
  | .scratch team a =>
    s.modTeam team fun t => if t.blockAx a then t else { t with sp := { t.sp with pois := NSet.add t.sp.pois a } }
  | .groupBuffer core slot key => match s.groupAt core slot with
    | none => s
    | some k => s.modGroup k fun g => { g with mem := { g.mem with buf := strikeAt g.mem.buf key } }
  | .teamLevel team key => s.modTeam team fun t => { t with lvl := strikeAt t.lvl key }
  | .clusterLevel clu key => s.modCluster clu fun c => { c with lvl := strikeAt c.lvl key }
  | .stash team w i off => s.modTeam team fun t => t.strikeStash w i (off % 256)
  | .tile team acc e => s.modTeam team fun t =>
    if twApx (t.tword acc) || t.hdr.acc ≤ acc then t
    else { t with tpois := NSet.add t.tpois (16384 * acc + e % 16384) }

def execEccUncorrectable (site : EccSite) (s : State) : Host.Outcome State Fault Refusal :=
  event (s.poison site) s

/-- A saturating 8-bit count of MM_HBMST (23 R490). -/
def satUp (w : Word64) (lo : Nat) : Word64 := if bitsAt w.toNat lo 8 = 255 then w else w + BitVec.ofNat 64 (2 ^ lo)

/-- Count at the stack of a segment: segment 64 c + k lies in channel c, stack c / 64 (06 R123). -/
def State.hbmCount (s : State) (seg lo : Nat) : State :=
  let m := AMap.put 0 s.plat.hbmst (seg / 4096) (satUp (AMap.get 0 s.plat.hbmst (seg / 4096)) lo)
  { s with plat := { s.plat with hbmst := m } }

/-- A segment becomes bad in both copies: a double fault. -/
def State.remapFault (s : State) (c0 c1 : Bool) (seg : Nat) : State :=
  let was := s.plat.bad0.has seg && s.plat.bad1.has seg
  let s := { s with plat := { s.plat with
    bad0 := if c0 then NSet.add s.plat.bad0 seg else s.plat.bad0
    bad1 := if c1 then NSet.add s.plat.bad1 seg else s.plat.bad1 } }
  if !was && s.plat.bad0.has seg && s.plat.bad1.has seg then s.hbmCount seg 8 else s

def execRepairTableError (copy seg : Nat) (s : State) : Host.Outcome State Fault Refusal :=
  event (s.remapFault (copy % 2 == 0) (copy % 2 == 1) (seg % 49152)) s
def execRepairTableDoubleFault (seg : Nat) (s : State) : Host.Outcome State Fault Refusal :=
  event (s.remapFault true true (seg % 49152)) s

/-- REPAIR_TABLE_REBUILT: the rebuild of a segment is complete, and the write-backs it held may go on. -/
def execRepairTableRebuilt (seg : Nat) (s : State) : Host.Outcome State Fault Refusal :=
  event (
    let g := seg % 49152
    if s.plat.bad0.has g || s.plat.bad1.has g then
      let s := { s with plat := { s.plat with bad0 := NSet.del s.plat.bad0 g, bad1 := NSet.del s.plat.bad1 g } }
      (s.hbmCount g 0).signal 0 none
    else s) s

end Sys2Proof.Machine
end

