-- ==== Sys2Proof/Machine/Preempt.lean ====
section
/-!
DEFINITION. Pre-emption (18 R399 to R408, R494; 03 R55): the three treatments, the report of a save, the
restore of a cluster, and the service agent's PRE_REQ (18 R396).
-/
namespace Sys2Proof.Machine

/-! ## What a core shows of it (18 Table 18-6) -/

/-- PRE_STAT of a core: LAST, NOSLOT and DOVER, each where it is given. -/
def State.preMark (s : State) (core : Nat) (last : Option Nat) (noslot dover : Option Bool) : State :=
  s.modCore core fun k =>
    let v := k.preStat.toNat
    let l := last.getD (bitsAt v 6 2)
    let n := noslot.getD (bitAt v 5)
    let d := dover.getD (bitAt v 4)
    { k with preStat := BitVec.ofNat 8 (l * 64 + bit n * 32 + bit d * 16) }

/-! ## Leaving a core -/

/-- Groups leave the fault pages they wait on (06 R121) and the park tables. -/
def State.leaveTables (s : State) (gids : List Nat) : State :=
  let mine (k : Nat) : Bool := gids.any (· == k)
  { s with
    faults := s.faults.map fun p => { p with waiters := p.waiters.filter fun w => !mine w.1 }
    cores := s.cores.mapVals fun _ k => { k with parks := k.parks.filter fun e => !mine e.gid } }

/-- What groups have in progress is dropped too. -/
def State.dropWaits (s : State) (gids : List Nat) : State :=
  let s := s.leaveTables gids
  { s with pending := s.pending.filter fun p => !gids.any (· == p.gid) }

/-- The engine commands of a team are cancelled: they write nothing further (15 R353; 16 R382). -/
def State.cancelCmds (s : State) (tid : Nat) (t : Team) : State :=
  (s.modCore t.core fun k => { k with
    cmds := k.cmds.filter (·.team != tid), locks :=
      k.locks.filter fun l => !k.cmds.any fun c => c.team == tid && c.id == l.cmd }).answerFmtq

/-- A STOP packet of every group of a team that has not ended. -/
def State.emitStops (s : State) (t : Team) (kind : Nat) : State :=
  t.groups.foldl (fun s k => match s.group? k with
    | none => s
    | some g => if g.ended then s else s.emitPC k ctlGRP tySTOP g.ctl.pc [0, 0, BitVec.ofNat 8 kind] none) s

/-- What flush-and-restart gives up of a team (18 R401). -/
def State.discard (s : State) (tid : Nat) (t : Team) : State :=
  let s := ((s.emitStops t 4).cancelCmds tid t).abortTeam tid none false
  s.2.dropWaits t.groups

/-- A whole cluster goes back to its launch. -/
def State.restart (s : State) (cid : Nat) (c : Cluster) : State :=
  let s := c.teams.foldl (fun s k => match s.team? k with
    | none => s
    | some t =>
      if t.retired then s else
        let s := ((s.discard k t).leaveCore k t).untrack t
        let s := s.setTeam k t.husk
        { s with groups := t.groups.foldl (fun (m : AMap Group) g => AMap.del m g) s.groups }) s
  let s := s.modCluster cid fun c => { c with lvl := [], ord := {}, tickets := [] }
  s.modGrid c.grid fun g => { g with again := NSet.add g.again c.index }

/-- A team of a cluster whose other teams go on: it stands at its beginning, and starts when the cluster
is restored. -/
def State.restartTeam (s : State) (tid : Nat) (t : Team) (c : Cluster) (gr : Grid) : State :=
  let s := (s.discard tid t).leaveCore tid t
  let s := s.setTeam tid { s.newTeam t.cluster t.index t.core gr.rcd.tenant t.hdr t.entry t.bin with
    num := t.num, groups := t.groups, gate := false, resident := false, track := t.track, lapsed := t.lapsed, vc := t.vc
    ref := c.ord.pos }
  t.groups.foldl (fun s k => s.modGroup k fun g =>
    newGroup g.core g.slot tid g.gidx t.entry g.spill t.hdr gr t.bin s.clk) s

/-! ## The treatments (18 R399 to R402) -/

inductive Treatment where
  | flush | drain | save
deriving DecidableEq, Repr

/-- The condition of drain, with T in ninths of a ns. -/
def State.mayDrain (s : State) (t : Team) : Bool :=
  let y := s.tenant (s.teamTenant t)
  let x := t.hdr.expect
  let i := t.issued
  let time := (s.clk - t.since) * (if s.boot.stage = 3 then 4 else 8)
  x != 0 && i != 0 && y.drain.toNat * x ≤ 256 * i && (x - i) * time ≤ y.budget.toNat * i * 9

/-- The first treatment whose condition holds; a team that waits for the agent is saved (18 R405). -/
def State.treatment (s : State) (t : Team) : Treatment :=
  if t.agent then .save
  else if bitAt t.hdr.flags 0 && t.clean then .flush
  else if s.mayDrain t then .drain
  else .save

/-- A save asks a group to stop (18 R402, R405): at once, or at a safe point. -/
def State.askStop (s : State) (side : Bool) (gid : Nat) : State :=
  let s := s.stopSibling gid
  match s.group? gid with
  | none => s
  | some g =>
    if g.ended || g.frozen then s
    else if side && !g.sys.high && !g.sys.stopped then s.setGroup gid { g with stopReq := some s.clk }
    else s.freeze gid none

/-- A save of a team begins, to a slot; its gate closes (15 R347). -/
def State.beginSave (s : State) (tid slot : Nat) : State :=
  match s.team? tid with
  | none => s
  | some t =>
    let side := (((s.cluster? t.cluster).bind fun c => s.grid? c.grid).map (·.rcd.side)).getD false
    let s := s.setTeam tid { t with treat := .save, ctxSlot := some slot, gate := false }
    let s := s.modTenant (s.teamTenant t) fun y => { y with slots := NSet.add y.slots slot }
    let s := s.preMark t.core (some 3) (some false) none
    t.groups.foldl (fun s k => s.askStop side k) s

/-- Free slots of a tenant's context pool, if there are so many (18 R401). -/
def Tenant.freeSlots (y : Tenant) (n : Nat) : Option (List Nat) :=
  let fs := ((List.range (min (bitsAt y.ctx.toNat 0 16) (y.slots.length + n))).filter
    fun k => !NSet.has y.slots k).take n
  if fs.length = n then some fs else none

/-- A team runs on to its end, within a budget. -/
def State.beginDrain (s : State) (tid : Nat) (t : Team) : State :=
  let d := s.clk + s.realClocks (s.tenant (s.teamTenant t)).budget.toNat
  ((s.setTeam tid { t with treat := .drain d }).preMark t.core (some 2) (some false) (some false)).emitStops t 5

/-- Teams of a cluster that a pre-emption reaches. -/
def State.toTreat (s : State) (c : Cluster) : List (Nat × Team) :=
  c.teams.filterMap fun k => (s.team? k).bind fun t =>
    if t.resident && !t.retired && t.treat == .no then some (k, t) else none

/-- All the teams of a cluster are pre-empted together; where the pool has not slots enough, none is. -/
def State.preempt (s : State) (cid : Nat) : State :=
  match s.cluster? cid with
  | none => s
  | some c =>
    match s.grid? c.grid with
    | none => s
    | some gr =>
      let ts := s.toTreat c
      let saves := ts.filter fun e => s.treatment e.2 == .save
      match (s.tenant gr.rcd.tenant).freeSlots saves.length with
      | none => ts.foldl (fun s e => s.preMark e.2.core none (some true) none) s
      | some slots =>
        let live := c.teams.filter fun k => !((s.team? k).map (·.retired)).getD true
        let all := ts.length == live.length && ts.all fun e =>
          s.treatment e.2 == .flush && e.2.bin.isNone
        if all && !ts.isEmpty then
          (ts.foldl (fun s e => s.preMark e.2.core (some 1) (some false) none) s).restart cid c
        else
          let how := ts.map fun e => (e, s.treatment e.2)
          let s := (saves.zip slots).foldl (fun s e => s.beginSave e.1.1 e.2) s
          how.foldl (fun s e => match e.2 with
            | .save => s
            | .drain => s.beginDrain e.1.1 e.1.2
            | .flush => (s.preMark e.1.2.core (some 1) (some false) none).restartTeam e.1.1 e.1.2 c gr) s

/-- The clusters with a team on a core. -/
def State.clustersOn (s : State) (core : Nat) : NSet :=
  (s.core core).teams.foldl (fun (a : NSet) k => match s.team? k with
    | none => a
    | some t => NSet.add a t.cluster) []

/-! ## SLICE_EXPIRY (18 R399, R494) -/

/-- Some placement origin of a launch covers a core, with every enabled core empty. -/
def State.covers (s : State) (gr : Grid) (core : Nat) : Bool :=
  let p := gr.rcd.shape
  (s.origins (fun _ => {}) p (needOf gr.rcd gr.hdr gr.binTab)).any fun o =>
    (s.rectSites p o).any (· == s.psi core)

/-- A launch waits for room on a core. -/
def State.waitsFor (s : State) (core : Nat) : Bool :=
  let ts := (s.core core).teams.filterMap s.team?
  let tenant := ts.head?.map s.teamTenant
  let prio (t : Team) : Nat := (((s.cluster? t.cluster).bind fun c => s.grid? c.grid).map (·.rcd.prio)).getD 3
  s.grids.any fun e =>
    let gr := e.2
    !gr.done && gr.waiting && gr.nextIndex.isSome
      && (some gr.rcd.tenant != tenant || ts.all fun t => gr.rcd.prio < prio t)
      && s.covers gr core

def execSliceExpiry (core : Nat) (s : State) : Host.Outcome State Fault Refusal :=
  event (
    let k := s.core core
    if k.teams.isEmpty || !(k.sliceDone || k.sliceStart + s.realClocks (s.sliceEff core) ≤ s.clk) then s else
      let s := s.modCore core fun k => { k with sliceDone := true }
      if s.waitsFor core then (s.clustersOn core).foldl State.preempt s else s) s

/-- DRAIN_BUDGET_EXPIRY: the team is saved; with no slot it runs on. -/
def execDrainBudgetExpiry (team : Nat) (s : State) : Host.Outcome State Fault Refusal :=
  event (match s.team? team with
    | none => s
    | some t =>
      match t.treat with
      | .drain d =>
        if s.clk < d || t.retired then s else
          match (s.tenant (s.teamTenant t)).freeSlots 1 with
          | some (k :: _) => (s.beginSave team k).preMark t.core none none (some true)
          | _ => (s.setTeam team { t with treat := .no }).preMark t.core none (some true) none
      | _ => s) s

/-- SAFEPOINT_WINDOW_EXPIRY (18 R402). -/
def execSafepointWindowExpiry (core slot : Nat) (s : State) : Host.Outcome State Fault Refusal :=
  event (match s.groupAt core slot with
    | none => s
    | some k => match (s.group? k).bind (·.stopReq) with
      | some c => if c + 20000 ≤ s.clk then s.freeze k none else s
      | none => s) s

/-! ## SAVE_REPORTED (18 R401, R403; 12 R284) -/

/-- Every group has stopped, and all that was issued has completed. -/
def State.saveReady (s : State) (tid : Nat) (t : Team) : Bool :=
  t.treat == .save && t.resident && !t.retired
    && t.groups.all (fun k => match s.group? k with
      | none => true
      | some g => g.ended || g.frozen || g.sys.stopped)
    && !s.pending.any (fun p => t.groups.any (· == p.gid))
    && (s.core t.core).cmds.all (fun c => c.team != tid)
    && (s.core t.core).locks.all fun k => k.team != tid

/-- Registered parks of some groups end with code 3. -/
def State.endParks (s : State) (core : Nat) (gids : List Nat) : State :=
  ((s.core core).parks.filter fun e => gids.any (· == e.gid)).foldl (fun s e =>
    (s.unpark e).endPark e.gid e.tag e.d 3) s

/-- The team's context stands in its slot: its records of the state are what the slot holds. -/
def State.saved (s : State) (tid : Nat) (t : Team) : State :=
  let s := s.endParks t.core t.groups
  let s := t.groups.foldl (fun s k => s.modGroup k fun g => { g with frozen := !g.ended, stopReq := none }) s
  let s := s.modTeam tid fun t => { t with resident := false, treat := .no }
  let s := s.modCore t.core fun k => { k with teams := k.teams.filter (· != tid) }
  let s := if (s.core t.core).teams.isEmpty then s.retryWaiting (s.teamTenant t) t.core else s
  s.retarget t.core

def execSaveReported (clu : Nat) (s : State) : Host.Outcome State Fault Refusal :=
  event (match s.cluster? clu with
    | none => s
    | some c => c.teams.foldl (fun s k => match s.team? k with
      | none => s
      | some t => if s.saveReady k t then s.saved k t else s) s) s

/-! ## TEAM_RESTORE (18 R402, R404, R405) -/

/-- Registers that were not live at the safe point hold 0 and are full (03 R55). -/
def Group.keepLive (g : Group) (m : Nat × Nat × Nat) : Group :=
  let gone (c : Nat) : Bool :=
    if c < 6144 then !m.1.testBit (c / 32)
    else if c < 8192 then !m.2.1.testBit ((c - 6144) / 32)
    else c < 8256 && !m.2.2.testBit (c - 8192)
  { g with live := none, regs := { g.regs with
      v := List.filter (fun e : Nat × Word32 => !gone e.1) g.regs.v
      x := List.filter (fun e : Nat × Word32 => !gone (6144 + e.1)) g.regs.x
      s := List.filter (fun e : Nat × Word64 => !gone (8192 + e.1)) g.regs.s
      empt := g.regs.empt.filter fun c => !gone c
      pois := g.regs.pois.filter fun c => !gone c
      dep := List.filter (fun e : Nat × VPos => !gone e.1) g.regs.dep } }

/-- A group stands on its new core. -/
def Group.reseat (g : Group) (core slot clk : Nat) : Group :=
  let g := match g.live with
    | none => g
    | some m => g.keepLive m
  { g with core := core, slot := slot, frozen := false, age := clk, readySince := clk }

/-- The groups of a restored team take the free slots of its core in ascending order. -/
def State.reseatAll (s : State) (core : Nat) (gids : List Nat) : State :=
  let used := (s.groups.filter fun e => e.2.core == core && !e.2.ended
    && ((s.team? e.2.team).map (·.resident)).getD false).map (·.2.slot)
  (gids.foldl (fun (r : State × List Nat) k => match r.1.group? k with
    | none => r
    | some g =>
      if g.ended then r else
        let n := leastFree r.2
        (r.1.setGroup k (g.reseat core n r.1.clk), n :: r.2)) (s, used)).1

/-- Saved for the agent: the trapping group leaves H at TRAP_EPC and the halt is released (18 R396), after what is
pending in queue mode (R398). A trap raised during the save is delivered (18 R405). -/
def State.resumeTeam (s : State) (tid : Nat) (t : Team) : State :=
  if t.agent && t.leaveH then
    let s := s.modTeam tid fun t => { t with leaveH := false }
    match t.trapper.bind fun k => (s.group? k).map fun g => (k, g) with
    | none => s.releaseHalt tid
    | some (k, g) =>
      let pc := pcOf g.sys.epc
      let s := s.setGroup k { g with ctl := { g.ctl with pc := pc }, sys := { g.sys with high := false } }
      s.leftH k g pc (s.releaseHalt tid)
  else match t.trapper with
    | none => s
    | some k => s.deliverPending k

/-- A team is restored on a core. -/
def State.restoreTeam (s : State) (tid core : Nat) (gridId : Nat) (gr : Grid) : State :=
  match s.team? tid with
  | none => s
  | some t =>
    let s := s.seat core gr.rcd.tenant gr.rcd.carve
    let s := s.reseatAll core t.groups
    let s := s.modTenant gr.rcd.tenant fun y => { y with slots := match t.ctxSlot with
      | none => y.slots
      | some k => NSet.del y.slots k }
    let s := s.setTeam tid { t with
      core := core, num := s.freeNum core, resident := true, treat := .no, ctxSlot := none, gate := true
      issued := 0, since := s.clk, railHold := t.req.isSome && !s.railOff }
    let s := s.bindBins core gridId gr t.hdr.binList
    let s := s.modCore core fun k => { k with teams := k.teams ++ [tid] }
    let s := (s.emitStops t 3).resumeTeam tid t
    s.retarget core

/-- What a cluster asks of the cores it is restored on. -/
def clusterNeed (gr : Grid) (ts : List (Nat × Team)) : Need :=
  match ts.find? fun e => e.2.bin.isSome with
  | some (_, t) => needOf gr.rcd t.hdr gr.binTab
  | none => needOf gr.rcd gr.hdr gr.binTab

/-- A saved cluster is placed again, as one unit (14 R302); one team of a cluster whose others go on
returns to its own core. -/
def State.restoreCluster (s : State) (cid : Nat) (c : Cluster) (gr : Grid) : State :=
  let live := c.teams.filterMap fun k => (s.team? k).bind fun t => if t.retired then none else some (k, t)
  let out := live.filter fun e => !e.2.resident
  if out.isEmpty then s
  else
    let n := clusterNeed gr live
    if out.length = live.length then
      let p : Shape := if live.any fun e => e.2.bin.isSome then ⟨1, 1, 1, false, some 1⟩
        else { gr.rcd.shape with teams := some c.teams.length }
      match s.pickOrigin s.siteUse p n gr.rcd.seed c.index with
      | none => s
      | some o =>
        let en := s.rectSites p o
        let s := s.modCluster cid fun c => { c with die := o / 36 }
        out.foldl (fun s e => s.restoreTeam e.1 (s.coreOfPsi (en.getD e.2.index 0)) c.grid gr) s
    else out.foldl (fun s e =>
      let u := s.coreUse e.2.core
      if e.2.leaveH && u.eligible n && u.room n e.2.groups.length then s.restoreTeam e.1 e.2.core c.grid gr
      else s) s

def execTeamRestore (clu : Nat) (s : State) : Host.Outcome State Fault Refusal :=
  event (match s.cluster? clu with
    | none => s
    | some c => match s.grid? c.grid with
      | none => s
      | some gr => if s.launchHold then s else s.restoreCluster clu c gr) s

/-! ## PRE_REQ (18 R396, R399) -/

/-- The teams of a tenant that wait for the agent. -/
def State.agentTeams (s : State) (tenant : Nat) : List (Nat × Team) :=
  List.filter (fun e : Nat × Team => e.2.agent && !e.2.retired && s.teamTenant e.2 == tenant) s.teams

/-- END = 0, ALL = 0: they are saved, to be restored running; one for which the pool has no slot is not. -/
def State.saveHalted (s : State) (tenant : Nat) : State :=
  (s.agentTeams tenant).foldl (fun s e =>
    let mark (s : State) : State := s.modTeam e.1 fun t => { t with leaveH := true }
    if !e.2.resident || e.2.treat == .save then mark s else
      match (s.tenant tenant).freeSlots 1 with
      | some (k :: _) => mark (s.beginSave e.1 k)
      | _ => s.preMark e.2.core none (some true) none) s

/-- A group of a team that the agent ends: as after `exit`, it ends once its commits in progress have completed
(11 R251). -/
def State.quit (s : State) (gid : Nat) : State :=
  let s := (s.unqueue gid).modGroup gid fun g => { g with
    park := none, want := none, fbuf := [], shadow := none, frozen := false, stopReq := none
    ctl := { g.ctl with act := 0, stack := [], deep := 0 }
    trc := { g.trc with replay := none }
    sys := { g.sys with high := false, stepping := false, stopped := false, skid := none, pendTrap := none } }
  if s.committing gid then s else s.endGroup gid

/-- END = 1: they are ended; they retire once their commands have completed, and their level goes then. -/
def State.endHalted (s : State) (tenant : Nat) : State :=
  (s.agentTeams tenant).foldl (fun s e =>
    let t := e.2
    let s := t.groups.foldl (fun s k =>
      if ((s.group? k).map (·.ended)).getD true then s else s.quit k) s
    let s := s.modTenant tenant fun y => { y with slots := match t.ctxSlot with
      | none => y.slots
      | some k => NSet.del y.slots k }
    (s.leaveTables t.groups).modTeam e.1 fun t => { t with
      halted := false, agent := false, trapper := none, treat := .no, ctxSlot := none, leaveH := false }) s

/-- END = 0, ALL = 1: every resident team of the tenant is pre-empted. -/
def State.preemptAll (s : State) (tenant : Nat) : State :=
  let s := (s.agentTeams tenant).foldl (fun s e => s.modTeam e.1 fun t => { t with leaveH := true }) s
  let cs := s.teams.foldl (fun (a : NSet) (e : Nat × Team) =>
    if e.2.resident && !e.2.retired && s.teamTenant e.2 == tenant then NSet.add a e.2.cluster else a) []
  cs.foldl State.preempt s

/-- A write of PRE_REQ (18 Table 18-1). -/
def State.preReq (s : State) (w : Word64) : State :=
  let t := bitsAt w.toNat 0 6
  if bitAt w.toNat 7 then s.endHalted t
  else if bitAt w.toNat 6 then s.preemptAll t
  else s.saveHalted t

def execPreReqSaveHalted (tenant : Nat) (s : State) : Host.Outcome State Fault Refusal :=
  agentWrite (s.saveHalted (tenant % 64)) s
def execPreReqEnd (tenant : Nat) (s : State) : Host.Outcome State Fault Refusal :=
  agentWrite (s.endHalted (tenant % 64)) s
def execPreReqAll (tenant : Nat) (s : State) : Host.Outcome State Fault Refusal :=
  agentWrite (s.preemptAll (tenant % 64)) s

end Sys2Proof.Machine
end

