-- ==== Sys2Proof/Machine/Selvage.lean ====
section
/-!
DEFINITION. Opcodes 0xF0 to 0xF4 (21 R463 to R468), the aggregation of the trace fabric (21 R433, R436,
R437, R441 to R444), and replay (21 R449 to R452).
-/
namespace Sys2Proof.Machine

/-! ## tmark, msmp, rmark, pcnt, vclk -/

def execTmark (c : Ctl) (n : Nat) (a : Src) (s : State) : Host.Outcome State Fault Refusal :=
  run { i := .tmark c n a, c := c, srcs := [scalUse a], ext := true } (fun g ls s =>
    ifAny ls s (.next (s.emitPC s.cur ctlMARK tyTMARK g.ctl.pc
      (leBytes 1 n ++ leBytes 8 (g.rdS a.o).toNat) none))) s

def execMsmp (c : Ctl) (s : State) : Host.Outcome State Fault Refusal :=
  run { i := .msmp c, c := c } (fun _ ls s =>
    ifAny ls s (.next (s.modGroup s.cur fun g => { g with trc := { g.trc with msmp := true } }))) s

/-- `rmark` ends the interval it stands in; the next begins at the next instruction (21 R465). -/
def execRmark (c : Ctl) (d : Opd) (s : State) : Host.Outcome State Fault Refusal :=
  run { i := .rmark c d, c := c, dsts := [⟨d, 1, false⟩], ext := true } (fun g ls s =>
    ifAny ls s (
      if ((s.stream (s.tenantOf g)).logSize).isNone then .next (s.putS s.cur d (2 ^ 63))
      else .next ((s.modGroup s.cur fun g => { g with trc := { g.trc with byMark := true } }).putS s.cur d
        g.trc.interval))) s

/-- A counter (21 Table 21-9). C_CLK counts from the clock listed under its number. -/
def State.counter (s : State) (g : Group) (n : Nat) : Word64 :=
  match n with
  | 0 => g.cnt.issue
  | 1 => g.cnt.lanes
  | 2 => g.cnt.shadow
  | 3 => g.cnt.raep
  | 4 => g.cnt.fault
  | 5 => g.cnt.xpath
  | 0x10 => BitVec.ofNat 64 s.clk - AMap.get 0 (s.core g.core).cnt 0x10
  | n => AMap.get 0 (s.core g.core).cnt n

def execPcnt (c : Ctl) (d : Opd) (n : Nat) (s : State) : Host.Outcome State Fault Refusal :=
  run { i := .pcnt c d n, c := c, dsts := [⟨d, 1, false⟩], ext := true } (fun g ls s =>
    ifAny ls s (.next (s.putS s.cur d (s.counter g n).toNat))) s

/-- The entry of the team's clock that `vclk` reads (21 R467). -/
def State.clockEntry (s : State) (team i : Nat) : Nat :=
  match s.tracked team with
  | none => 2 ^ 63
  | some (_, _, t) => AMap.get 0 t.vc i

def execVclk (c : Ctl) (d : Opd) (a : Src) (s : State) : Host.Outcome State Fault Refusal :=
  run { i := .vclk c d a, c := c, srcs := [scalUse a], dsts := [⟨d, 1, false⟩], ext := true } (fun g ls s =>
    ifAny ls s (.next (s.await s.cur g ((⟨d, 1, false⟩ : Use).cells ls)
      (.long 3 d 1 [(0, s.clockEntry g.team (bitsAt (g.rdS a.o).toNat 0 6))] [])))) s

/-! ## The aggregation -/

/-- The sources of a stream (21 R433): the units of the cores that carry its tenant or still hold a packet of it,
and the stations of the six dies, eight kinds each (log 73). -/
def State.sources (s : State) (t : Nat) : List Nat :=
  let cores := List.filter (fun e : Nat × Core => !e.2.teams.isEmpty && e.2.sliceTenant == some t
    || e.2.fifo.any (fun p => p.stream == t)
    || s.plat.stn.any fun p => p.stream == t && p.src / 8 == e.1) s.cores
  (List.flatMap (fun e : Nat × Core => (List.range 8).map fun u => 8 * e.1 + u) cores)
    ++ (List.range 48).map fun k => 1152 + k

/-- The die of a source. -/
def State.sourceDie (s : State) (k : Nat) : Nat := if k < 1152 then s.dieOf (k / 8) else (k - 1152) / 8

/-- What a source has made for a stream and not yet given to the aggregation: its packets in its core's FIFO, and
those in its station's queue, which hold the packets that stay lossy (21 R444). -/
def State.unread (s : State) (t k : Nat) : List Pkt :=
  (if k < 1152 then (s.core (k / 8)).fifo.filter fun p => p.stream == t && p.src == k else [])
    ++ s.plat.stn.filter fun p => p.stream == t && p.src == k

/-- `a` stands before `b` in merge order (21 R433). -/
def Pkt.before (a b : Pkt) : Bool :=
  a.stamp < b.stamp || (a.stamp == b.stamp && (a.die < b.die || (a.die == b.die && a.src < b.src)))

/-- The packet that stands first, and the others in the order in which they came. -/
def firstPkt : List Pkt → Option (Pkt × List Pkt)
  | [] => none
  | p :: ps => match firstPkt ps with
    | none => some (p, [])
    | some (q, rest) => if q.before p then some (q, p :: rest) else some (p, ps)

/-- The least number of bytes that holds a number. -/
def bytesFor (n : Nat) : Nat := ((List.range 9).find? fun k => n < 256 ^ k).getD 8

/-- A SYNC packet (21 Table 21-4). -/
def Stream.sync (r : Stream) (now ts : Nat) : List Byte × Stream :=
  ([BitVec.ofNat 8 (tySYNC * 8)] ++ leBytes 8 ts ++ leBytes 4 r.written,
   { r with
     written := (r.written + 1) % 2 ^ 32, sinceSync := 0, syncDue := false, lastStamp := ts
     lastSync := now })

/-- One packet, with a SYNC before it where one is due or its delta would need 8 bytes (21 R437, R441);
the bytes, and the stream after it. -/
def Stream.encode (r : Stream) (now : Nat) (due : Bool) (stamp ty : Nat) (body : List Byte) : List Byte × Stream :=
  let rec_ := max r.lastStamp stamp
  let a := if 2 ^ 56 ≤ rec_ - r.lastStamp then r.sync now rec_
    else if due then r.sync now r.lastStamp
    else ([], r)
  let delta := rec_ - a.2.lastStamp
  let dl := bytesFor delta
  (a.1 ++ [BitVec.ofNat 8 (ty * 8 + dl)] ++ leBytes dl delta ++ body,
   { a.2 with
     lastStamp := rec_, written := (a.2.written + 1) % 2 ^ 32, sinceSync := a.2.sinceSync + 1 })

/-- TUS µs, of 4000 stamp units each, have passed since the last SYNC (21 R441). -/
def Stream.timeUp (r : Stream) (now : Nat) : Bool := r.syncTus != 0 && r.lastSync + 4000 * r.syncTus.toNat ≤ now

/-- A SYNC is due (21 R441). -/
def Stream.dueNow (r : Stream) (now : Nat) : Bool :=
  r.syncDue || r.timeUp now || (r.syncN.toNat != 0 && r.syncN.toNat ≤ r.sinceSync)

/-- What is written for a packet: the LOSS that the buffer owes, then the SYNC that is due once the LOSS is
written, then the packet (21 R441, R442). The stream's first packet is a SYNC even where a LOSS is owed (21
R436). -/
def Stream.withLoss (r : Stream) (now : Nat) (p : Pkt) : List Byte × Stream :=
  let a := if r.drops = 0 then ([], r) else
    let e := r.encode now (r.syncDue && r.fresh) r.dropStamp tyLOSS (leBytes 4 r.drops ++ [0])
    (e.1, { e.2 with drops := 0 })
  let e := a.2.encode now (a.2.dueNow now) p.stamp p.ty p.body
  (a.1 ++ e.1, { e.2 with fresh := false })

/-- Size and free space of the buffer (21 R436). -/
def Stream.ringSize (r : Stream) : Nat := 2 ^ bitsAt r.base.toNat 0 5
def Stream.room (r : Stream) : Nat := r.ringSize - (r.wptr - r.rptr).toNat

/-- The buffer of a lossless stream has no room for the packet that stands first (21 R443). The queues of the
stations are then held too, and drop what they have no room for (21 R444). -/
def Stream.blocked (r : Stream) (now : Nat) : Bool :=
  r.ctl.toNat.testBit ctlLL && (match firstPkt r.queue with
    | none => false
    | some (p, _) => r.room < (r.withLoss now p).1.length)

/-- Bytes written at a device physical address, a tier-0 offset (21 R436; 23 R484). -/
def State.writePhys (s : State) (a : Nat) (bs : List Byte) (dst : Dest) : State :=
  if s.tierSize 0 < a + bs.length || bs.isEmpty then s else
    let ks := (List.range bs.length).map fun i => physKey 0 0 0 (a + i)
    (s.devEvent 0 ((List.range bs.length).map fun i =>
      (physKey 0 0 0 (a + i), hwByte (a + i) (bs.getD i 0))) dst false s.clk).touchStash none ks

/-- Bytes of the ring of a stream, from WPTR on. -/
def State.ringWrite (s : State) (t : Nat) (bs : List Byte) : State :=
  let r := s.stream t
  let base := r.base.toNat / 64 * 64
  let at_ := r.wptr.toNat % r.ringSize
  let put (s : State) (o : Nat) (bs : List Byte) : State :=
    if bs.isEmpty then s
    else if t = 64 then s.writePhys (base + o) bs .mem
    else s.writeVirt t ((base + o) % 2 ^ 64) bs .mem
  let n := r.ringSize - at_
  let s := put (put s at_ (bs.take n)) 0 (bs.drop n)
  s.modStream t fun r => { r with wptr := r.wptr + BitVec.ofNat 32 bs.length }

/-- A packet for which the buffer has no room is dropped. -/
def Stream.drop (r : Stream) (p : Pkt) : Stream :=
  { r with
    lostCnt := r.lostCnt + 1
    drops := r.drops + 1, dropStamp := if r.drops = 0 then p.stamp else r.dropStamp }

/-- Every source of a stream has reported a stamp at or beyond one. -/
def State.passed (s : State) (t stamp : Nat) : Bool :=
  (s.sources t).all fun k => stamp ≤ AMap.get 0 (s.stream t).heard k

/-- TRACE_AGGREGATION_RELEASE: the packet that stands first is written, dropped or held. -/
def execTraceAggregationRelease (stream : Nat) (s : State) : Host.Outcome State Fault Refusal :=
  event (
    let r := s.stream stream
    match firstPkt r.queue with
    | none => s
    | some (p, rest) =>
      if !s.passed stream p.stamp then s else
        let e := r.withLoss s.time p
        if e.1.length ≤ r.room then
          (s.modStream stream fun _ => { e.2 with queue := rest }).ringWrite stream e.1
        else if r.ctl.toNat.testBit ctlLL then s
        else s.modStream stream fun r => { r.drop p with queue := rest }) s

/-- SYNC_INTERVAL_EXPIRY (21 R441). -/
def execSyncIntervalExpiry (stream : Nat) (s : State) : Host.Outcome State Fault Refusal :=
  event (
    let r := s.stream stream
    if r.ctl.toNat.testBit ctlEN && r.timeUp s.time then
      s.modStream stream fun r => { r with syncDue := true }
    else s) s

/-- IDLE_STAMP_REPORT (21 R433): a source gives the aggregation what it has made for the stream, unless the full
buffer of a lossless stream holds it (21 R443), and reports the last stamp at which it can make no packet any
more: the one before its die's time, since it may yet make one now. -/
def execIdleStampReport (stream source : Nat) (s : State) : Host.Outcome State Fault Refusal :=
  event (
    let mine (p : Pkt) : Bool := p.stream == stream && p.src == source
    let ps := s.unread stream source
    if !ps.isEmpty && (s.stream stream).blocked s.time then s else
      let s := if ps.isEmpty then s else
        let s := if source < 1152 then
            s.modCore (source / 8) fun k => { k with fifo := k.fifo.filter fun p => !mine p } else s
        { s with plat := { s.plat with stn := s.plat.stn.filter fun p => !mine p } }
      s.modStream stream fun r => { r with
        queue := r.queue ++ ps, heard := AMap.put 0 r.heard source (s.dieTime (s.sourceDie source) - 1) }) s

/-! ## Writes of Selvage registers through the window (21 R435, R436) -/

def execSvCtlWrite (stream : Nat) (w : Word64) (s : State) : Host.Outcome State Fault Refusal :=
  agentWrite (s.svWrite (stream % 65) 0x500 0 w) s
def execSvBaseWrite (stream : Nat) (w : Word64) (s : State) : Host.Outcome State Fault Refusal :=
  agentWrite (s.svWrite (stream % 65) 0x501 0 w) s
def execSvPtrWrite (stream : Nat) (w : Word64) (s : State) : Host.Outcome State Fault Refusal :=
  agentWrite (s.svWrite (stream % 65) 0x502 0 w) s
def execSvRplWrite (stream : Nat) (w : Word64) (s : State) : Host.Outcome State Fault Refusal :=
  agentWrite (s.svWrite (stream % 65) 0x505 0 w) s

/-! ## Replay (21 R449, R452) -/

/-- REPLAY_INTERVAL_BOUNDARY: a full interval ends; the next begins, once the group's producers have
delivered. -/
def execReplayIntervalBoundary (core slot : Nat) (s : State) : Host.Outcome State Fault Refusal :=
  event (match s.groupAt core slot with
    | none => s
    | some k => match s.group? k with
      | none => s
      | some g =>
        if g.trc.rec?.isNone || g.trc.inInterval < 2 ^ 16 then s else
          let s := s.endInterval k
          if s.pending.any fun p => p.gid == k then s else s.beginInterval k) s

/-- The group of a replay: the snapshot, on its new core, with the values of the log. -/
def RplRec.group (r : RplRec) (core slot team clk : Nat) : Group :=
  { r.snap with
    core := core, slot := slot, team := team
    sys := { r.snap.sys with skid := none, stopped := false, pendTrap := none, stepping := false }
    trc := { replay := some (r.vals, r.count, r.int), ids := some r.ids }
    park := none, want := none, fbuf := [], shadow := none, held := none, stopReq := none, live := none
    frozen := false, ended := false, age := clk, readySince := clk }

/-- The cores on which a replay may start (14 R304). -/
def State.replayCores (s : State) (n : Need) : List Nat :=
  (List.range s.nCore).filter fun c =>
    let u := s.coreUse c
    u.eligible n && u.room n 1

/-- A team of one group of the interval's kernel starts from the snapshot, on one of the cores that may
take it. It belongs to a grid of its own that is complete from the start and reports nothing. -/
def State.startReplay (s : State) (tenant : Nat) (r : RplRec) : State :=
  let rcd : Record := { r.rcd with tenant := tenant, crec := 0, ctask := 0 }
  let hdr : Header := { r.hdr with bins := 0 }
  let cores := s.replayCores (needOf rcd hdr [])
  if cores.isEmpty then s else
    let f := s.free cores.length
    let core := cores.getD f.1 0
    let n := f.2.fresh
    let gr : Grid :=
      { lno := 0, addr := 0, rcd := rcd, hdr := r.hdr, binTab := [], binHdrs := [], queue := 256
        next := rcd.clusters, done := true }
    let s := { n.2 with grids := AMap.set n.2.grids n.1 gr }
    let c := s.newCluster n.1 0 (s.dieOf core)
    let s := c.2.startTeam n.1 c.1 0 core gr hdr 0 [0] none
    match (s.core core).teams.getLast? with
    | none => s
    | some tid => match s.team? tid with
      | none => s
      | some t => t.groups.foldl (fun s k => s.modGroup k fun g => r.group core g.slot tid s.clk)
          (s.setTeam tid { t with hdr := r.hdr })

/-- SV_RPLGO: the head's handle names the device's own part of the log. -/
def State.rplgo (s : State) (tenant : Nat) (w : Word64) : State :=
  let h := s.readVirt tenant w.toNat 24
  match h.1 with
  | none => h.2
  | some bs => match AMap.at? (s.stream tenant).rplLog (leNat (bs.drop 16)) with
    | none => h.2
    | some r => h.2.startReplay tenant r

def execSvRplgo (stream : Nat) (w : Word64) (s : State) : Host.Outcome State Fault Refusal :=
  agentWrite (if stream < 64 then s.rplgo stream w else s) s

end Sys2Proof.Machine
end

