-- ==== Sys2Proof/Machine/Window.lean ====
section
/-!
DEFINITION. The management window (23 R474, R475, R491): special registers at level S, the platform
registers, and the start of a checkpoint or a restore (23 R487).
-/
namespace Sys2Proof.Machine

/-! ## Checkpoints: the start (23 R487) -/

/-- Bytes a checkpoint holds: the HBM, after a head of 4 KiB. -/
def imageSize : Nat := 768 * 2 ^ 30
def imageBase (w : Word64) : Nat := w.toNat / 2 ^ 30 * 2 ^ 30

/-- A team is resident or saved, or an engine command is pending. -/
def State.occupied (s : State) : Bool :=
  (s.teams.any fun e => !e.2.retired) || s.cores.any fun e => !e.2.cmds.isEmpty

/-- Byte k of backing memory in tier 2. -/
def tier2 (k : Nat) : Nat := 2 * 2 ^ 52 + k

/-- The check of a head: 0, or 4 (not valid) or 5 (another device). -/
def State.headCode (s : State) (base : Nat) : Nat :=
  let f (o n : Nat) : Nat := leNat ((List.range n).map fun i => Memory.read s.mem (tier2 (base + o + i)))
  if f 0 8 != Config.ckptMagic.toNat || f 24 1 != 1 then 4
  else if f 8 8 != s.fuses.serial % 2 ^ 64 then 5
  else 0

/-- BOOT_STAT. -/
def State.bootStat (s : State) : Nat :=
  s.fuses.boots % 2 ^ 32 * 2 ^ 32 + bit s.boot.s3w * 32 + bit s.boot.thsd * 16 + bit s.boot.hbmf * 8
    + bit s.boot.keyx * 4 + bit s.boot.rej * 2 + bit s.boot.net

/-- The registers a change of which vector 0 reports (23 Table 23-3): BOOT_STAGE, BOOT_STAT, RAIL_THERM, MM_CKST
and SYS_LINK. -/
def State.watched (s : State) : List Nat × AMap (BitVec 16) :=
  ([s.boot.stage, s.bootStat, bit s.plat.hold, bit s.plat.warn, s.plat.ckCode, s.plat.ckState], s.plat.link)

/-- What has become of a state, with vector 0 where one of the registers it reports has changed. -/
def State.notify (s t : State) : State := if s.watched = t.watched then t else t.signal 0 none

/-- MM_CKST takes a result; what runs is the operation given. -/
def State.ckResult (s : State) (code state : Nat) (run : Option (Nat × Nat)) : State :=
  s.notify { s with plat := { s.plat with ckCode := code, ckState := state, ckRun := run } }

/-- A write of MM_CKPT. What runs keeps the OP and BASE it was started with. -/
def State.ckptWrite (s : State) (w : Word64) : State :=
  let v := w.toNat
  let op := bitsAt v 1 2
  let base := imageBase w
  let s := { s with plat := { s.plat with ckpt := blend 0xFFFFFFFFC0000006 0 w } }
  let refuse (code : Nat) : State := s.ckResult code s.plat.ckState s.plat.ckRun
  if !bitAt v 0 then s
  else if op = 0 || op = 3 then refuse 6
  else if s.boot.stage != 3 || s.occupied || s.plat.ckState == 1 then refuse 1
  else if op = 1 then
    if s.tierSize 2 < base + 4096 + imageSize then refuse 2 else s.ckResult 0 1 (some (1, base))
  else
    let c := s.headCode base
    if c = 0 then s.ckResult 0 1 (some (2, base)) else refuse c

/-! ## Platform registers (23 Table 23-4) -/

/-- Clusters that wait are tried again. -/
def State.retryAll (s : State) : State :=
  { s with grids := s.grids.mapVals fun _ g => if g.waiting then { g with retry := true } else g }

/-- A write of HOLD2: with 1 the device stays in S2 (23 R483), so that a transition that has begun is given up and
launches go on (log 77). -/
def State.holdS2 (s : State) (on : Bool) : State :=
  let s' := { s with boot := { s.boot with hold2 := on } }
  if on && s.boot.trans.isSome then
    s.notify ({ s' with boot := { s'.boot with trans := none, s3w := false } } : State).retryAll
  else s'

/-- The temperature, power, stack, link and peer registers, by their offset. -/
def State.platRead (s : State) (o : Nat) : Word64 :=
  let p := s.plat
  if o = 0 then p.wsel
  else if o = 0x008 then BitVec.ofNat 64 p.werr.toNat
  else if o = 0x010 then p.svc
  else if o = 0x018 then BitVec.ofNat 64 (bit s.boot.hold2)
  else if o = 0x020 then BitVec.ofNat 64 s.bootStat
  else if o = 0x028 then BitVec.ofNat 64 (p.ptpOfs.toNat * 2 ^ 32 + bit p.ptpLock * 256 + p.ptpPort.toNat)
  else if o = 0x030 then p.ckpt
  else if o = 0x038 then BitVec.ofNat 64 (p.ckCode * 16 + p.ckState)
  else if 0x100 ≤ o && o < 0x120 then BitVec.ofNat 64 (AMap.get 0 p.power ((o - 0x100) / 8)).toNat
  else if 0x200 ≤ o && o < 0x290 then BitVec.ofNat 64 (AMap.get 0 p.temp ((o - 0x200) / 8)).toNat
  else if o = 0x300 then BitVec.ofNat 64 (bit p.hold * 2 + bit p.warn)
  else if 0x400 ≤ o && o < 0x460 then AMap.get 0 p.hbmst ((o - 0x400) / 8)
  else if 0x500 ≤ o && o < 0x570 then BitVec.ofNat 64 (AMap.get 0 p.link ((o - 0x500) / 8)).toNat
  else if 0x600 ≤ o && o < 0x800 then AMap.get 0 p.wpeer ((o - 0x600) / 8)
  else if 0x1000 ≤ o && o < 0x3000 then AMap.get 0 p.wgrp ((o - 0x1000) / 8)
  else 0

/-- Registers of the block that take no write. -/
def platReadOnly (o : Nat) : Bool :=
  o = 0x008 || o = 0x038 || (0x100 ≤ o && o < 0x120) || (0x200 ≤ o && o < 0x290) || (0x400 ≤ o && o < 0x460)
    || (0x500 ≤ o && o < 0x570)

/-- A power register shows the mean of the last ms: a measured value (log 8). -/
def State.measure (s : State) (o : Nat) : State :=
  if 0x100 ≤ o && o < 0x120 then
    let f := s.free (2 ^ 32)
    let m := AMap.put 0 f.2.plat.power ((o - 0x100) / 8) (BitVec.ofNat 32 f.1)
    { f.2 with plat := { f.2.plat with power := m } }
  else s

/-- A write in the block. -/
def State.platWrite (s : State) (o : Nat) (w : Word64) : State :=
  let p := s.plat
  let v := w.toNat
  if o = 0 then { s with plat := { p with wsel := blend 0xFFF8FF 0 w } }
  else if o = 0x010 then { s with plat := { p with svc := w } }
  else if o = 0x018 then s.holdS2 (bitAt v 0)
  else if o = 0x020 then s.notify { s with boot := { s.boot with rej := s.boot.rej && !bitAt v 1 } }
  else if o = 0x028 then
    let k := bitsAt v 0 4
    if k ≤ 9 || k = 15 then { s with plat := { p with ptpPort := BitVec.ofNat 4 k } } else s
  else if o = 0x030 then s.ckptWrite w
  else if o = 0x300 then s.notify { s with plat := { p with warn := p.warn && !bitAt v 0 } }
  else if 0x600 ≤ o && o < 0x800 then
    let m := AMap.put 0 p.wpeer ((o - 0x600) / 8) (blend 0x8000000000003FFF 0 w)
    { s with plat := { p with wpeer := m } }
  else if 0x1000 ≤ o && o < 0x3000 then
    let m := AMap.put 0 p.wgrp ((o - 0x1000) / 8) (blend 0x800000000000007F 0 w)
    { s with plat := { p with wgrp := m } }
  else s

/-! ## Special registers at level S (23 R475) -/

/-- What SYS_WSEL selects. -/
def State.selected (s : State) (stream : Nat) : Who :=
  let v := s.plat.wsel.toNat
  let core := bitsAt v 0 8
  if s.nCore ≤ core then ⟨none, none, none, stream⟩ else
    { core := some core
      team := (s.core core).teams.find? fun t => ((s.team? t).map (·.num)) == some (bitsAt v 20 4)
      gid := s.groupAt core (bitsAt v 11 9)
      stream := stream }

/-- A register of a tenant's copy among the Selvage registers: its index is the stream. -/
def streamReg (n : Nat) : Bool := 0x500 ≤ n && n ≤ 0x50B && n != 0x50A

/-- How many indices a register takes in the window. -/
def winRange (n : Nat) (r : SReg) : Nat :=
  if n = 0x510 then 520
  else if streamReg n then 65
  else if n = 0x703 then 4096
  else r.range.getD 1

/-- May S make this access? -/
def winOk (n i : Nat) (wr : Bool) : Bool :=
  match sregInfo n with
  | none => false
  | some r => (if wr then r.wr else r.rd) ≤ 2 && i < winRange n r

/-- A special register read at S. -/
def State.winSreg (s : State) (n i : Nat) : Word64 :=
  if n = 0x510 then s.readSreg (s.selected (i / 8)) n (i % 8)
  else if streamReg n then s.readSreg (s.selected i) n 0
  else if n = 0x703 then
    let w := s.selected 0
    s.readSreg { w with gid := w.core.bind fun c => s.groupAt c (i / 8) } n (i % 8)
  else s.readSreg (s.selected 0) n i

/-- A special register written at S. -/
def State.winSet (s : State) (n i : Nat) (w : Word64) : State :=
  if n = 0x510 then s.svWrite (i / 8) n (i % 8) w
  else if n = 0x50B then (if i < 64 then s.rplgo i w else s)
  else if streamReg n then s.svWrite i n 0 w
  else if localReg n then s.writeLocal (s.selected 0) n w
  else if n = 0x100 then s.qctlWrite i w
  else if n = 0x101 then s.qtailWrite i w
  else if n = 0x403 then s.invWrite i w
  else if n = 0x405 then
    if bitsAt w.toNat 0 8 ≤ 1 then s.fresp i (w.toNat / 256) (bitAt w.toNat 0)
    else { s with frespIgnored := s.frespIgnored + 1 }
  else if n = 0x600 then s.railSharedSet w
  else if n = 0x804 then s.preReq w
  else s.tenantWrite n i w

/-! ## Accesses (23 R474) -/

/-- A rejected access is counted. -/
def State.winReject (s : State) : State := { s with plat := { s.plat with werr := s.plat.werr + 1 } }

/-- In S0 the window shows only the BOOT_ registers (23 Table 23-5). -/
def winShown (stage o : Nat) : Bool :=
  stage != 0 || o = 0x900 * 65536 || o = 2 ^ 28 + 0x018 || o = 2 ^ 28 + 0x020

/-- A read of 8 bytes. -/
def State.windowRead (s : State) (o : Nat) : Word64 × State :=
  if !winShown s.boot.stage o then (0, s)
  else if o < 2 ^ 28 then
    if winOk (o / 65536) (o % 65536 / 8) false then (s.winSreg (o / 65536) (o % 65536 / 8), s)
    else (BitVec.allOnes 64, s.winReject)
  else if o < 2 ^ 28 + 0x3000 then
    let s := s.measure (o - 2 ^ 28)
    (s.platRead (o - 2 ^ 28), s)
  else (0, s)

/-- A write of 8 bytes. -/
def State.windowWrite (s : State) (o : Nat) (w : Word64) : State :=
  if !winShown s.boot.stage o then s
  else if o < 2 ^ 28 then
    if winOk (o / 65536) (o % 65536 / 8) true then s.winSet (o / 65536) (o % 65536 / 8) w else s.winReject
  else if o < 2 ^ 28 + 0x3000 then
    if platReadOnly (o - 2 ^ 28) then s.winReject else s.platWrite (o - 2 ^ 28) w
  else s

/-- SPECIAL_REGISTER_WRITE: an access through the window that is not 8-byte aligned is rejected. -/
def execSpecialRegisterWrite (off : Nat) (w : Word64) (s : State) : Host.Outcome State Fault Refusal :=
  event (if off % 8 = 0 then s.windowWrite off w else s.winReject) s

/-- MM_CKPT writes with GO. -/
def ckptWord (base : Word64) (op : Nat) : Word64 := BitVec.ofNat 64 (imageBase base + op % 4 * 2 + 1)

def execMmCkptCheckpoint (base : Word64) (s : State) : Host.Outcome State Fault Refusal :=
  agentWrite (s.ckptWrite (ckptWord base 1)) s
def execMmCkptRestore (base : Word64) (s : State) : Host.Outcome State Fault Refusal :=
  agentWrite (s.ckptWrite (ckptWord base 2)) s
/-- OP 0, or 3 for any other. -/
def execMmCkptBadOp (op : Nat) (s : State) : Host.Outcome State Fault Refusal :=
  agentWrite (s.ckptWrite (ckptWord s.plat.ckpt (if op = 0 then 0 else 3))) s

end Sys2Proof.Machine
end

