-- ==== Sys2Proof/Machine/Platform.lean ====
section
/-!
DEFINITION. Boot, host, peers and the platform (23 R476 to R491).
-/
namespace Sys2Proof.Machine

/-! ## Power (23 R478, R488, R489) -/

/-- Without power, a byte of tier 2 that its device has not reported persistent keeps what was written last or has
one of the values from before (06 R151; 11 R247). -/
def State.settleTier2 (s : State) : State :=
  List.foldl (fun (s : State) (e : Nat × List Byte) =>
    let f := s.freeIn 0 e.2.length
    match e.2[f.1]? with
    | none => f.2
    | some b => { f.2 with mem := Memory.write f.2.mem e.1 b }) s s.volat

/-- The module without power: fuses, the CXL tiers that keep their bytes (tier 2) and host memory remain. -/
def State.off (s : State) (thermal : Bool) : State :=
  let s := s.settleTier2
  { State.reset with
    cur := s.cur, turns := s.turns, freeCount := s.freeCount, nextId := s.nextId
    fuses := s.fuses, installed := s.installed
    mem := s.mem.filter fun e => 2 * 2 ^ 52 ≤ e.1
    boot := { powered := false, thsd := thermal } }

/-- A checkpoint whose head is not written leaves VALID 0 (23 R488). -/
def State.spoilHead (s : State) : State :=
  match s.plat.ckRun with
  | some (1, base) =>
    let k := tier2 (base + 24)
    { s with mem := Memory.write s.mem k 0, volat := s.volat.filter fun e => e.1 != k }
  | _ => s

def execLossOfPower (s : State) : Host.Outcome State Fault Refusal := event (s.spoilHead.off false) s

/-- POWER_GOOD: S0, and the ROM seeks an image from the source that NETFIRST names. -/
def execPowerGood (s : State) : Host.Outcome State Fault Refusal :=
  event (if s.boot.powered then s else { s with boot := { s.boot with
    powered := true, fromNet := s.fuses.netFirst, since := s.clk, keyx := 65536 ≤ s.fuses.boots } }) s

/-! ## Boot (23 R479, R480) -/

/-- An image is accepted: signature, key and version. -/
def State.imageOk (s : State) (image : List Byte) : Bool :=
  let key := Config.imageKey image
  Config.verifies key (Config.imageBare image) (Config.imageSig image)
    && (List.range 4).any (fun i => !s.fuses.revoked.has i && s.fuses.keys[i]? == some (Config.hash key))
    && s.fuses.rollback ≤ Config.imageVersion image

/-- An image that has arrived: S1, measured, and the boot counter advances; or it is rejected. -/
def State.tryImage (s : State) (image : List Byte) (net : Bool) : State :=
  s.notify (if s.imageOk image then
    let s := if s.fuses.boots < 65536 then { s with fuses := { s.fuses with boots := s.fuses.boots + 1 } }
      else { s with boot := { s.boot with keyx := true } }
    let m := Config.hash image
    let log := Config.hash (List.replicate 64 0 ++ m)
    { s with boot := { s.boot with stage := 1, net := net, chunks := [], log := log, entries := [m] } }
  else { s with boot := { s.boot with rej := true, chunks := [] } })

def execMailboxImageChunk (bytes : List Byte) (last : Bool) (s : State) :
    Host.Outcome State Fault Refusal :=
  event (
    if s.boot.stage != 0 || s.boot.fromNet || 2 ^ 20 < bytes.length then s else
      let image := s.boot.chunks ++ bytes
      if last then s.tryImage image false else { s with boot := { s.boot with chunks := image } }) s

def execNetworkImageFetched (image : List Byte) (s : State) : Host.Outcome State Fault Refusal :=
  event (if s.boot.stage = 0 ∧ s.boot.fromNet then s.tryImage image true else s) s

/-- The ROM has waited 30 s for its source (23 R479). -/
def State.sourceOver (s : State) : Bool := s.boot.stage == 0 && s.boot.since + s.realClocks 30000000000 ≤ s.clk

/-- BOOT_SOURCE_TIMEOUT: the ROM turns to the other source. -/
def execBootSourceTimeout (s : State) : Host.Outcome State Fault Refusal :=
  event (if s.sourceOver then
    { s with boot := { s.boot with fromNet := !s.boot.fromNet, since := s.clk, chunks := [] } } else s) s

/-- What a vendor command answers. -/
def State.reply (s : State) (bs : List Byte) : State :=
  { s with plat := { s.plat with replies := bs :: s.plat.replies } }

/-- The report that vendor command 0xC001 signs (23 R480). -/
def State.report (s : State) (nonce : List Byte) : List Byte :=
  nonce ++ s.boot.log ++ leBytes 4 s.fuses.boots ++ leBytes 1 s.boot.stage
    ++ ((List.range 4).flatMap fun d => leBytes 8 (s.hmap d)) ++ leBytes 8 (s.dieTime 4)
    ++ Config.certificate s.fuses.boots

/-- ATTESTATION_REPORT: refused, with an empty answer, before S1, once the counter is exhausted, and
after 1,024 reports. -/
def execAttestationReport (nonce : List Byte) (s : State) : Host.Outcome State Fault Refusal :=
  event (
    if s.boot.stage = 0 || s.boot.keyx || 1024 ≤ s.boot.reports || nonce.length != 32 then s.reply [] else
      let b := s.report nonce
      ({ s with boot := { s.boot with reports := s.boot.reports + 1 } } : State).reply
        (b ++ Config.sign s.fuses.boots b)) s

def execLogEntries (s : State) : Host.Outcome State Fault Refusal := event (s.reply s.boot.entries.flatten) s

/-! ## Stages (23 R481 to R483) -/

/-- S1_COMPLETE: S2 begins, with launch numbers from 0 (14 R493). -/
def execS1Complete (s : State) : Host.Outcome State Fault Refusal :=
  event (if s.boot.stage = 1 then
    s.notify { s with boot := { s.boot with stage := 2 }, trd := { s.trd with lno := 0 } } else s) s

/-- Every cache and TLB is written back and invalidated. -/
def State.invalidateAll (s : State) : State :=
  let s := (List.map (fun e : Nat × Line => e.1) s.lines).foldl State.evict s
  { s with
    cores := s.cores.mapVals fun _ k => { k with tlb := [], l1i := [], l0i := [] }
    l2tlb := []
    groups := s.groups.mapVals fun _ g => { g with fbuf := [], mem := { g.mem with walked := [] } } }

/-- A team is resident. -/
def State.anyResident (s : State) : Bool := s.teams.any fun e => e.2.resident && !e.2.retired

/-- SYS_LINK of a port (23 Table 23-4). -/
def State.setLink (s : State) (p state width rate : Nat) : State :=
  let m := AMap.put 0 s.plat.link p (BitVec.ofNat 16 (rate % 256 * 256 + width % 32 * 8 + state % 8))
  { s with plat := { s.plat with link := m } }

/-- An event of a Weft port, 4 to 11 of the ports, on its base die (21 Table 21-5). -/
def State.weftEvent (s : State) (p ev arg : Nat) : State := s.station (4 + (p - 4) / 4) 5 (p - 4) ev arg none

/-- Host ports 1 to 3 and the Weft ports are brought up (23 R483), with lanes and a rate that are the links' own. -/
def State.bringUp (s : State) : State :=
  ((List.range 11).map (· + 1)).foldl (fun s p =>
    let w := s.free 32
    let r := w.2.free 256
    let s := r.2.setLink p 2 w.1 r.1
    if 4 ≤ p then s.weftEvent p 1 0 else s) s

/-- Steps 3 to 5 of the transition: the flat memory keeps its tier offsets. -/
def State.enterS3 (s : State) : State :=
  let t := s.invalidateAll.bringUp
  s.notify ({ t with boot := { t.boot with trans := none, s3w := false, stage := 3 } } : State).retryAll

/-- Every stack of the HBM is trained (23 R490). -/
def State.allTrained (s : State) : Bool := (List.range 12).all fun i => bitAt (AMap.get 0 s.plat.hbmst i).toNat 63

/-- MM_HBMST of a stack after its training: TRND, and the rows remapped and spares left, which are the stack's own. -/
def State.trainStack (s : State) (i : Nat) (ok : Bool) : State :=
  let f := s.free (2 ^ 32)
  let w := BitVec.ofNat 64 (bit ok * 2 ^ 63 + f.1 * 2 ^ 16 + (AMap.get 0 s.plat.hbmst i).toNat % 2 ^ 16)
  { f.2 with plat := { f.2.plat with hbmst := AMap.put 0 f.2.plat.hbmst i w } }

/-- The training and repair of the HBM end (23 R483, R490): every stack is trained, or HBMF is set and at least one
is not. -/
def State.trainEnd (s : State) : State :=
  let f := s.free 2
  let k := f.2.free 12
  let t := (List.range 12).foldl (fun (t : State) i =>
    let g := t.free 2
    g.2.trainStack i (f.1 == 0 || (i != k.1 && g.1 == 0))) k.2
  if f.1 = 0 then t else s.notify { t with boot := { t.boot with hbmf := true } }

/-- S2_TO_S3_TRANSITION: the training ends, and where it ended well the transition begins; or it ends, once no team
is resident. -/
def execS2ToS3Transition (s : State) : Host.Outcome State Fault Refusal :=
  event (
    if s.boot.stage != 2 || s.boot.hbmf then s else
      match s.boot.trans with
      | some _ => if s.anyResident || s.boot.hold2 then s else s.enterS3
      | none =>
        let s := if s.allTrained then s else s.trainEnd
        if s.boot.hbmf || s.boot.hold2 then s else { s with boot := { s.boot with trans := some s.clk } }) s

/-- A write of PRE_REQ with ALL for every tenant. -/
def State.preemptEvery (s : State) : State := (List.range 64).foldl State.preemptAll s

/-- S3_RETIRE_TIMEOUT: the teams still resident are saved; one that cannot be holds the transition. -/
def execS3RetireTimeout (s : State) : Host.Outcome State Fault Refusal :=
  event (match s.boot.trans with
    | none => s
    | some c =>
      if s.clk < c + s.realClocks 100000000 then s else
        let s := s.preemptEvery
        let stuck := s.teams.any fun e => e.2.resident && !e.2.retired && e.2.treat == .no
        s.notify { s with boot := { s.boot with s3w := stuck } }) s

/-! ## Host and peers (23 R476, R484, R485, R488; 11 R247; 15 R351) -/

/-- Port 0 names the management window by 2^52 plus its offset. -/
def winBase : Nat := 2 ^ 52

/-- An operation on device memory is held while a checkpoint or a restore of one runs. -/
def State.holdOp (s : State) (i : HeldOp) (f : State) : State :=
  if s.plat.ckState = 1 then { s with plat := { s.plat with heldOps := s.plat.heldOps ++ [i] } } else f

/-- The memory is there from S2 on. -/
def State.memoryUp (s : State) : Bool := 2 ≤ s.boot.stage

/-- A host write of device memory; one beyond the installed memory is dropped. -/
def State.hostWrite (s : State) (pa : Nat) (bytes : List Byte) : State :=
  if s.memoryUp then s.writePhys pa bytes .l3 else s

/-- Bytes read at their home (12 R266; 18 R410), for the host or a peer, at one device position, any from a bound
on; none where one of them is poisoned, which stands for data marked poisoned (log 66). What a near unit owns is
recalled, and each read of a counted line counts (06 R127). -/
def State.homeRead (s : State) (lo : Nat) (ks : List Nat) (tenant : Option Nat) : Option (List Byte) × State :=
  let ns := linesOf ks
  let r := ns.foldl (fun (r : Bool × State) n =>
    let s := if (r.2.line n).own.isSome then (r.2.toHome n).fit3 n else r.2
    let secs : NSet := ks.foldl (fun a k => if lineOf k = n then NSet.add a (k / 64 % 4) else a) []
    (r.1 || (s.remapBad n && secs.any fun q => !(s.line n).holds q), s.memEvents n secs tenant)) (false, s)
  let p := r.2.drawFrom lo (changesAt r.2.dev.evs lo ks)
  let b := ks.foldl (fun (b : List Byte × State) k =>
    let x := b.2.lineByte k (b.2.devByteAt p.1 k)
    (b.1 ++ [x.1], x.2)) ([], p.2)
  let bad := r.1 || ks.any fun k => s.pois.has k
  (if bad then none else some b.1, ns.foldl (fun s n => s.l3Request n tenant) b.2)

/-- A host read: at the home, at a device position no earlier than the last `cmt.sys` that has completed; which of
the positions from there on is not stated, and is free (11 R247). One beyond the installed memory has an error
answer, shown as no bytes. -/
def State.hostReadMem (s : State) (pa len : Nat) : State :=
  if !s.memoryUp || s.tierSize 0 < pa + len then s.reply [] else
    let r := s.homeRead s.sysDone ((List.range len).map fun i => physKey 0 0 0 (pa + i)) none
    r.2.reply (r.1.getD [])

/-- Port 0 holds a posted write (23 R488). -/
def State.postedHeld (s : State) : Bool :=
  s.plat.heldOps.any fun i => match i with | .hostWrite .. => true | _ => false

/-- A posted write of port 0. One of the window waits for every earlier one that is held (23 R476). -/
def State.hostPosted (s : State) (pa : Nat) (bytes : List Byte) : State :=
  if winBase ≤ pa then
    (if s.postedHeld then { s with plat := { s.plat with heldOps := s.plat.heldOps ++ [.hostWrite pa bytes] } }
     else if bytes.length = 8 ∧ pa % 8 = 0 then s.windowWrite (pa - winBase) (BitVec.ofNat 64 (leNat bytes))
     else s.winReject)
  else s.holdOp (.hostWrite pa bytes) (s.hostWrite pa bytes)

/-- A read through port 0. -/
def State.hostRead (s : State) (pa len : Nat) : State :=
  if winBase ≤ pa then
    (if len = 8 ∧ pa % 8 = 0 then
       let r := s.windowRead (pa - winBase)
       r.2.reply (leBytes 8 r.1.toNat)
     else s.winReject.reply (List.replicate len 0xFF))
  else s.holdOp (.hostRead pa len) (s.hostReadMem pa len)

def execHostPostedWrite (pa : Nat) (bytes : List Byte) (s : State) : Host.Outcome State Fault Refusal :=
  event (s.hostPosted pa bytes) s
def execHostRead (pa len : Nat) (s : State) : Host.Outcome State Fault Refusal := event (s.hostRead pa len) s

/-- The tenant that serves a peer, while Weft reaches it (23 R481, R485). -/
def State.peerTenant (s : State) (peer : Nat) : Option Nat :=
  let w := (AMap.get 0 s.plat.wpeer peer).toNat
  if bitAt w 63 && !s.linkLost peer then some (bitsAt w 8 6) else none

/-- The keys of a peer's access and its status: 0, 3 MEMORY, 4 TYPE (15 R351). -/
def State.peerKeys (s : State) (tenant va n : Nat) (wr : Bool) : Nat × List Nat × State :=
  (List.range n).foldl (fun (r : Nat × List Nat × State) i =>
    let a := (va + i) % 2 ^ 64
    let w := r.2.2.walk tenant a
    match w.1 with
    | .leaf l =>
      if !canonical a || !l.permits (!wr) wr then (3, r.2.1, w.2)
      else if entTol l.e.toNat then (if r.1 = 3 then 3 else 4, r.2.1, w.2)
      else (r.1, r.2.1 ++ [l.key a], w.2)
    | _ => (3, r.2.1, w.2)) (0, [], s)

/-- A sector of a peer's `qput`: its status is answered. -/
def State.peerWrite (s : State) (peer va : Nat) (bytes : List Byte) : State :=
  match s.peerTenant peer with
  | none => s
  | some t =>
    let r := s.peerKeys t va bytes.length true
    if r.1 != 0 || bytes.isEmpty then r.2.2.reply [BitVec.ofNat 8 r.1] else
      ((r.2.2.devEvent 0 ((r.2.1.zip bytes).map fun e => (e.1, hwByte va e.2)) .l3 false s.clk).touchStash none
        r.2.1).reply [0]

/-- A sector of a peer's `qget`: its status and its bytes are answered, those of one device position that 11 R243
allows. -/
def State.peerRead (s : State) (peer va len : Nat) : State :=
  match s.peerTenant peer with
  | none => s
  | some t =>
    let r := s.peerKeys t va len false
    if r.1 != 0 then r.2.2.reply [BitVec.ofNat 8 r.1] else
      let b := r.2.2.homeRead (boundAt s.dev.evs s.clk) r.2.1 (some t)
      b.2.reply (0 :: b.1.getD [])

/-- A host or peer access: performed, or held while an operation runs. -/
def State.access (s : State) (i : HeldOp) : State :=
  match i with
  | .hostWrite pa bs => s.hostPosted pa bs
  | .hostRead pa n => s.hostRead pa n
  | .peerWrite p va bs => s.holdOp i (s.peerWrite p va bs)
  | .peerRead p va n => s.holdOp i (s.peerRead p va n)

def execWeftPeerWrite (peer : Nat) (va : Word64) (bytes : List Byte) (s : State) :
    Host.Outcome State Fault Refusal :=
  event (s.access (.peerWrite (peer % 64) va.toNat bytes)) s
def execWeftPeerRead (peer : Nat) (va : Word64) (len : Nat) (s : State) :
    Host.Outcome State Fault Refusal :=
  event (s.access (.peerRead (peer % 64) va.toNat len)) s

/-- CXL_CACHE_SNOOP (06 R115): a tier-3 line, by its number in host memory, is written back; where it is
invalidated no copy remains. -/
def execCxlCacheSnoop (line : Nat) (inval : Bool) (s : State) : Host.Outcome State Fault Refusal :=
  event (
    let n := 3 * 2 ^ 44 + line % 2 ^ 44
    if !(s.line n).cached then s
    else if inval then s.evict n
    else if (s.line n).l2d.isSome || (s.line n).own.isSome then s.writeBack n else s) s

/-! ## Checkpoint and restore: the end (23 R487, R488) -/

/-- What was held is performed, in order. -/
def State.releaseHeld (s : State) : State :=
  s.plat.heldOps.foldl State.access { s with plat := { s.plat with heldOps := [] } }

/-- The cells of memory with the bytes of one range replaced by those of another. -/
def copyCells (m : List Host.Cell) (src dst n : Nat) : List Host.Cell :=
  (List.filter (fun e : Nat × Byte => e.1 < dst) m)
    ++ (List.filter (fun e : Nat × Byte => src ≤ e.1 && e.1 < src + n) m).map (fun e => (e.1 - src + dst, e.2))
    ++ List.filter (fun e : Nat × Byte => dst + n ≤ e.1) m

/-- The head of an image, written last. -/
def State.writeHead2 (s : State) (base : Nat) : State :=
  let bs := leBytes 8 Config.ckptMagic.toNat ++ leBytes 8 s.fuses.serial ++ leBytes 8 (s.dieTime 4) ++ [1]
  let m := ((List.range 4096).foldl (fun m i => Memory.write m (tier2 (base + i)) (bs.getD i 0)) s.mem)
  { s with mem := m }

/-- An operation ends: well, or with a CXL error, which the devices decide (23 Table 23-4); what was held is then
performed. -/
def State.ckEnd (s : State) (error : Bool) : State := (s.ckResult (if error then 3 else 0) 2 none).releaseHeld

/-- Every dirty line is written back, and nothing dirty remains in a cache but what a bad segment holds there. -/
def State.writeBackAll (s : State) : State :=
  (List.map (fun e : Nat × Line => e.1) s.lines).foldl (fun s n =>
    let l := s.line n
    if l.l2d.isSome || l.l3d || l.own.isSome then s.writeBack n else s) s

/-- The HBM is copied to tier 2, which reports it persistent. -/
def State.copyOut (s : State) (base : Nat) : State :=
  { s with
    mem := copyCells s.mem 0 (tier2 (base + 4096)) imageSize
    volat := s.volat.filter fun e => e.1 < tier2 base || tier2 (base + 4096 + imageSize) ≤ e.1 }

/-- The image is copied back, and what caches still hold of the HBM goes. -/
def State.copyBack (s : State) (base : Nat) : State :=
  let s := s.invalidateAll
  { s with
    mem := copyCells s.mem (tier2 (base + 4096)) 0 imageSize
    lines := List.filter (fun e : Nat × Line => lineTier e.1 != 0) s.lines
    dirty := s.dirty.filter fun e => keyTier e.1 != 0
    kept := s.kept.filter fun e => keyTier e.1 != 0
    pois := s.pois.filter fun k => keyTier k != 0
    dev := { s.dev with evs := [] }, sysDone := s.dev.pos }

/-- CHECKPOINT_COMPLETE (23 R487): the head is written last, and not at all where a CXL error ended the copy (log
78). -/
def execCheckpointComplete (s : State) : Host.Outcome State Fault Refusal :=
  event (match s.plat.ckRun with
    | some (1, base) =>
      let f := s.free 2
      let s := f.2.writeBackAll.copyOut base
      ((if f.1 = 1 then s else s.writeHead2 base).ckEnd (f.1 == 1))
    | _ => s) s

/-- CKPT_RESTORE_COMPLETE; after a CXL error the HBM is as it was (log 78). -/
def execCkptRestoreComplete (s : State) : Host.Outcome State Fault Refusal :=
  event (match s.plat.ckRun with
    | some (2, base) =>
      let f := s.free 2
      (if f.1 = 1 then f.2 else f.2.copyBack base).ckEnd (f.1 == 1)
    | _ => s) s

/-! ## Temperature, links, time, refresh (23 R486, R489, R491; 21 Table 21-5) -/

/-- A sensor reads a temperature, in sixteenths of a degree. -/
def State.sensed (s : State) (sensor : Nat) (t : BitVec 16) : State :=
  let m := AMap.put 0 s.plat.temp (sensor % 18) t
  { s with plat := { s.plat with temp := m } }

/-- Every sensor reads below 100 °C. -/
def State.cool (s : State) : Bool := (List.range 18).all fun i => (AMap.get 0 s.plat.temp i).toInt < 100 * 16

/-- HOLD clears (23 R489). -/
def State.holdClear (s : State) : State :=
  if s.plat.hold && s.cool then s.notify ({ s with plat := { s.plat with hold := false } } : State).retryAll else s

/-- WARN, from 95 °C on. -/
def State.warned (s : State) : State := s.notify { s with plat := { s.plat with warn := true } }

/-- HOLD, from 105 °C on: launches stop, and every resident team is pre-empted. -/
def State.heldHot (s : State) : State :=
  if s.plat.hold then s else (s.notify { s with plat := { s.plat with hold := true } }).preemptEvery

/-- A sensor reads a temperature, and what that calls for is done (23 R489), whichever row brings it. -/
def State.thermal (s : State) (sensor : Nat) (t : BitVec 16) : State :=
  let s := s.sensed sensor t
  if 115 * 16 ≤ t.toInt then s.spoilHead.off true
  else if 105 * 16 ≤ t.toInt then s.warned.heldHot
  else if 95 * 16 ≤ t.toInt then s.warned.holdClear
  else s.holdClear

def execThermalWarn (sensor : Nat) (t : BitVec 16) (s : State) : Host.Outcome State Fault Refusal :=
  event (s.thermal sensor t) s
def execThermalHold (sensor : Nat) (t : BitVec 16) (s : State) : Host.Outcome State Fault Refusal :=
  event (s.thermal sensor t) s
def execThermalShutdown (sensor : Nat) (t : BitVec 16) (s : State) : Host.Outcome State Fault Refusal :=
  event (s.thermal sensor t) s

/-- THERMAL_HOLD_CLEAR: every sensor has fallen below 100 °C; what a sensor that stood above now reads is
free. -/
def execThermalHoldClear (s : State) : Host.Outcome State Fault Refusal :=
  event (
    let s := (List.range 18).foldl (fun s i =>
      if (AMap.get 0 s.plat.temp i).toInt < 100 * 16 then s else
        let f := s.free (2 ^ 15 + 100 * 16)
        f.2.sensed i (BitVec.ofInt 16 (f.1 - 2 ^ 15))) s
    s.holdClear) s

/-- LINK_STATE_CHANGE: SYS_LINK of a port, in one of its five states; a Weft port also writes its station event,
and one that retrains or comes up may have retried flits. Host ports 1 to 3 and the Weft ports are down until S3
(23 R481, R483). -/
def execLinkStateChange (port state width rate : Nat) (s : State) : Host.Outcome State Fault Refusal :=
  event (
    let p := port % 14
    if 4 < state || (1 ≤ p && p < 12 && s.boot.stage != 3) then s else
    let t := s.notify (s.setLink p state width rate)
    if p < 4 || 12 ≤ p then t
    else if state = 0 || state = 4 then t.weftEvent p 0 0
    else if state = 1 then t
    else
      let t := t.weftEvent p (if state = 2 then 1 else 2) 0
      let f := t.free (2 ^ 32)
      if f.1 = 0 then f.2 else f.2.weftEvent p 3 f.1) s

/-- PTP_SYNC_MESSAGE: the last offset, the lock, and, while locked, the time of every die, which its own stamp
follows to 1 ns (21 R432). -/
def execPtpSyncMessage (ofs : Word32) (lock : Bool) (stamp : Word64) (s : State) :
    Host.Outcome State Fault Refusal :=
  event (
    if s.plat.ptpPort = 15 then s else
      let s := { s with plat := { s.plat with ptpOfs := ofs, ptpLock := lock, ptpMsgs := s.plat.ptpMsgs + 1 } }
      if lock then { s with time9 := stamp.toNat * 9 } else s) s

/-- REFRESH_BEGIN and REFRESH_END of a memory controller, one for each channel of the HBM. -/
def execRefreshBegin (mc : Nat) (s : State) : Host.Outcome State Fault Refusal :=
  event (s.station (4 + mc % 768 / 384) 3 (mc % 768) 0 0 none) s
def execRefreshEnd (mc : Nat) (s : State) : Host.Outcome State Fault Refusal :=
  event (s.station (4 + mc % 768 / 384) 3 (mc % 768) 1 0 none) s

end Sys2Proof.Machine
end

