-- ==== Sys2Proof/Machine/Dispatch.lean ====
section
/-!
DEFINITION. The meaning of every operation: one arm per constructor, each a direct call of the
definition that stands under Machine/ for it.
-/
namespace Sys2Proof.Machine

def exec (i : Instr) (s : State) : Host.Outcome State Fault Refusal :=
  match i with
  | .nop c => Sys2Proof.Machine.execNop c s
  | .bra c off => Sys2Proof.Machine.execBra c off s
  | .braLong c off => Sys2Proof.Machine.execBraLong c off s
  | .bru c cc a off => Sys2Proof.Machine.execBru c cc a off s
  | .bruLong c cc a off => Sys2Proof.Machine.execBruLong c cc a off s
  | .brx c a => Sys2Proof.Machine.execBrx c a s
  | .call c off => Sys2Proof.Machine.execCall c off s
  | .callLong c off => Sys2Proof.Machine.execCallLong c off s
  | .callx c a => Sys2Proof.Machine.execCallx c a s
  | .ret => Sys2Proof.Machine.execRet s
  | .join => Sys2Proof.Machine.execJoin s
  | .exit c => Sys2Proof.Machine.execExit c s
  | .plog c d a b tt => Sys2Proof.Machine.execPlog c d a b tt s
  | .voteAll c d a => Sys2Proof.Machine.execVoteAll c d a s
  | .voteAny c d a => Sys2Proof.Machine.execVoteAny c d a s
  | .voteLeader c d a => Sys2Proof.Machine.execVoteLeader c d a s
  | .voteBallot c scal d a => Sys2Proof.Machine.execVoteBallot c scal d a s
  | .ipf c l0 a b => Sys2Proof.Machine.execIpf c l0 a b s
  | .iinv c d a b => Sys2Proof.Machine.execIinv c d a b s
  | .iinvDone id => Sys2Proof.Machine.execIinvDone id s
  | .runaOn c => Sys2Proof.Machine.execRunaOn c s
  | .runaOff c => Sys2Proof.Machine.execRunaOff c s
  | .fetchFill core line => Sys2Proof.Machine.execFetchFill core line s
  | .shadowLimitReached core slot => Sys2Proof.Machine.execShadowLimitReached core slot s
  | .iadd c f d a b => Sys2Proof.Machine.execIadd c f d a b s
  | .iaddImm c f d a imm => Sys2Proof.Machine.execIaddImm c f d a imm s
  | .isub c f d a b => Sys2Proof.Machine.execIsub c f d a b s
  | .isubImm c f d a imm => Sys2Proof.Machine.execIsubImm c f d a imm s
  | .imul c f d a b => Sys2Proof.Machine.execImul c f d a b s
  | .imulImm c f d a imm => Sys2Proof.Machine.execImulImm c f d a imm s
  | .imulh c f d a b => Sys2Proof.Machine.execImulh c f d a b s
  | .imad c f d a b e => Sys2Proof.Machine.execImad c f d a b e s
  | .iabs c f d a => Sys2Proof.Machine.execIabs c f d a s
  | .imin c f d a b => Sys2Proof.Machine.execImin c f d a b s
  | .iminImm c f d a imm => Sys2Proof.Machine.execIminImm c f d a imm s
  | .imax c f d a b => Sys2Proof.Machine.execImax c f d a b s
  | .imaxImm c f d a imm => Sys2Proof.Machine.execImaxImm c f d a imm s
  | .lop c ax ty d a b e tt => Sys2Proof.Machine.execLop c ax ty d a b e tt s
  | .shl c f d a b => Sys2Proof.Machine.execShl c f d a b s
  | .shlImm c f d a imm => Sys2Proof.Machine.execShlImm c f d a imm s
  | .shr c f d a b => Sys2Proof.Machine.execShr c f d a b s
  | .shrImm c f d a imm => Sys2Proof.Machine.execShrImm c f d a imm s
  | .sar c f d a b => Sys2Proof.Machine.execSar c f d a b s
  | .sarImm c f d a imm => Sys2Proof.Machine.execSarImm c f d a imm s
  | .shfL c ax d a b e => Sys2Proof.Machine.execShfL c ax d a b e s
  | .shfR c ax d a b e => Sys2Proof.Machine.execShfR c ax d a b e s
  | .popc c f d a => Sys2Proof.Machine.execPopc c f d a s
  | .clz c f d a => Sys2Proof.Machine.execClz c f d a s
  | .brev c ty d a => Sys2Proof.Machine.execBrev c ty d a s
  | .bfe c f d a b => Sys2Proof.Machine.execBfe c f d a b s
  | .bfi c f d a b e => Sys2Proof.Machine.execBfi c f d a b e s
  | .prmt c d a b e => Sys2Proof.Machine.execPrmt c d a b e s
  | .icmp c f cc d a b => Sys2Proof.Machine.execIcmp c f cc d a b s
  | .icmpImm c f cc d a imm => Sys2Proof.Machine.execIcmpImm c f cc d a imm s
  | .isel c ax ty d a b q => Sys2Proof.Machine.execIsel c ax ty d a b q s
  | .mov c f fromScal d a => Sys2Proof.Machine.execMov c f fromScal d a s
  | .movi c f d imm => Sys2Proof.Machine.execMovi c f d imm s
  | .moviLong c f d imm => Sys2Proof.Machine.execMoviLong c f d imm s
  | .ident c scal sel d => Sys2Proof.Machine.execIdent c scal sel d s
  | .xlane c ax mode ty d a b => Sys2Proof.Machine.execXlane c ax mode ty d a b s
  | .lea c f d a b sh => Sys2Proof.Machine.execLea c f d a b sh s
  | .cvti c f sty sat d a => Sys2Proof.Machine.execCvti c f sty sat d a s
  | .ld c ax w sx d m => Sys2Proof.Machine.execLd c ax w sx d m s
  | .ldLong c ax w sx d m off => Sys2Proof.Machine.execLdLong c ax w sx d m off s
  | .loadDataArrival id evict => Sys2Proof.Machine.execLoadDataArrival id evict s
  | .st c ax w a m => Sys2Proof.Machine.execSt c ax w a m s
  | .stLong c ax w a m off => Sys2Proof.Machine.execStLong c ax w a m off s
  | .lds c ax w sx fw clr d m => Sys2Proof.Machine.execLds c ax w sx fw clr d m s
  | .sts c ax w set a m => Sys2Proof.Machine.execSts c ax w set a m s
  | .ldr c ax w sx fw clr d r => Sys2Proof.Machine.execLdr c ax w sx fw clr d r s
  | .str c ax w set a r => Sys2Proof.Machine.execStr c ax w set a r s
  | .pf c lvl m => Sys2Proof.Machine.execPf c lvl m s
  | .pfLong c lvl m off => Sys2Proof.Machine.execPfLong c lvl m off s
  | .stmap c w a b e => Sys2Proof.Machine.execStmap c w a b e s
  | .stunmap c w => Sys2Proof.Machine.execStunmap c w s
  | .femEmpty c a b => Sys2Proof.Machine.execFemEmpty c a b s
  | .femFull c a b => Sys2Proof.Machine.execFemFull c a b s
  | .femAx c a b => Sys2Proof.Machine.execFemAx c a b s
  | .femPr c a b => Sys2Proof.Machine.execFemPr c a b s
  | .ringq c ring d => Sys2Proof.Machine.execRingq c ring d s
  | .cwbL3 c d a b => Sys2Proof.Machine.execCwbL3 c d a b s
  | .cwbMem c d a b => Sys2Proof.Machine.execCwbMem c d a b s
  | .cinvCore c d a b => Sys2Proof.Machine.execCinvCore c d a b s
  | .cinvDie c d a b => Sys2Proof.Machine.execCinvDie c d a b s
  | .cinvDev c d a b => Sys2Proof.Machine.execCinvDev c d a b s
  | .cacheOpDone id => Sys2Proof.Machine.execCacheOpDone id s
  | .tlbq c kind d a => Sys2Proof.Machine.execTlbq c kind d a s
  | .translationQueryDone id => Sys2Proof.Machine.execTranslationQueryDone id s
  | .fadd c f d a b => Sys2Proof.Machine.execFadd c f d a b s
  | .faddImm c f d a imm => Sys2Proof.Machine.execFaddImm c f d a imm s
  | .fsub c f d a b => Sys2Proof.Machine.execFsub c f d a b s
  | .fmul c f d a b => Sys2Proof.Machine.execFmul c f d a b s
  | .fmulImm c f d a imm => Sys2Proof.Machine.execFmulImm c f d a imm s
  | .fma c f d a b e => Sys2Proof.Machine.execFma c f d a b e s
  | .fdot2 c f d a b e => Sys2Proof.Machine.execFdot2 c f d a b e s
  | .fscale c f d a b => Sys2Proof.Machine.execFscale c f d a b s
  | .fmin c ax ty d a b => Sys2Proof.Machine.execFmin c ax ty d a b s
  | .fminImm c ax ty d a imm => Sys2Proof.Machine.execFminImm c ax ty d a imm s
  | .fmax c ax ty d a b => Sys2Proof.Machine.execFmax c ax ty d a b s
  | .fmaxImm c ax ty d a imm => Sys2Proof.Machine.execFmaxImm c ax ty d a imm s
  | .fmov c ax ty abs neg d a => Sys2Proof.Machine.execFmov c ax ty abs neg d a s
  | .fcmp c ty cc d a b => Sys2Proof.Machine.execFcmp c ty cc d a b s
  | .fcmpImm c ty cc d a imm => Sys2Proof.Machine.execFcmpImm c ty cc d a imm s
  | .fcvt c f sty hi d a b => Sys2Proof.Machine.execFcvt c f sty hi d a b s
  | .frnd c md ty d a => Sys2Proof.Machine.execFrnd c md ty d a s
  | .frcps c d a => Sys2Proof.Machine.execFrcps c d a s
  | .frsqs c d a => Sys2Proof.Machine.execFrsqs c d a s
  | .fsqrt c f d a => Sys2Proof.Machine.execFsqrt c f d a s
  | .fdiv c f d a b => Sys2Proof.Machine.execFdiv c f d a b s
  | .fex2 c d a => Sys2Proof.Machine.execFex2 c d a s
  | .flg2 c d a => Sys2Proof.Machine.execFlg2 c d a s
  | .longLatencyResult id => Sys2Proof.Machine.execLongLatencyResult id s
  | .fclass c ty d a => Sys2Proof.Machine.execFclass c ty d a s
  | .fxtrExp c ty d a => Sys2Proof.Machine.execFxtrExp c ty d a s
  | .fxtrMan c ty d a => Sys2Proof.Machine.execFxtrMan c ty d a s
  | .xacc c ty acc b => Sys2Proof.Machine.execXacc c ty acc b s
  | .xrnd c md clr d acc => Sys2Proof.Machine.execXrnd c md clr d acc s
  | .endorse c ty d a => Sys2Proof.Machine.execEndorse c ty d a s
  | .rail c d code a => Sys2Proof.Machine.execRail c d code a s
  | .railq c d => Sys2Proof.Machine.execRailq c d s
  | .tolq c d a => Sys2Proof.Machine.execTolq c d a s
  | .regulatorStep core => Sys2Proof.Machine.execRegulatorStep core s
  | .regulatorSettle core => Sys2Proof.Machine.execRegulatorSettle core s
  | .cmt c sc excl d => Sys2Proof.Machine.execCmt c sc excl d s
  | .commitPlacement id => Sys2Proof.Machine.execCommitPlacement id s
  | .abt c sc d range => Sys2Proof.Machine.execAbt c sc d range s
  | .abortPlacement id => Sys2Proof.Machine.execAbortPlacement id s
  | .fence c sc => Sys2Proof.Machine.execFence c sc s
  | .lda c sc w sx d m => Sys2Proof.Machine.execLda c sc w sx d m s
  | .ldaLong c sc w sx d m off => Sys2Proof.Machine.execLdaLong c sc w sx d m off s
  | .bufq c d => Sys2Proof.Machine.execBufq c d s
  | .rlq c sp d a b => Sys2Proof.Machine.execRlq c sp d a b s
  | .stashInvalidate team window entry => Sys2Proof.Machine.execStashInvalidate team window entry s
  | .atom c op sc ty d a b e => Sys2Proof.Machine.execAtom c op sc ty d a b e s
  | .atomf c op sc ty d a b e => Sys2Proof.Machine.execAtomf c op sc ty d a b e s
  | .xadd c sc ty a b => Sys2Proof.Machine.execXadd c sc ty a b s
  | .atomicPerform id word => Sys2Proof.Machine.execAtomicPerform id word s
  | .bari c bar a => Sys2Proof.Machine.execBari c bar a s
  | .barv c bar d => Sys2Proof.Machine.execBarv c bar d s
  | .barrierArrivalCounted id => Sys2Proof.Machine.execBarrierArrivalCounted id s
  | .barw c a => Sys2Proof.Machine.execBarw c a s
  | .tkt c n d => Sys2Proof.Machine.execTkt c n d s
  | .tktw c a => Sys2Proof.Machine.execTktw c a s
  | .tkts c n => Sys2Proof.Machine.execTkts c n s
  | .park c sc d a b e => Sys2Proof.Machine.execPark c sc d a b e s
  | .parkTimeout core slot => Sys2Proof.Machine.execParkTimeout core slot s
  | .wake c sc d a b => Sys2Proof.Machine.execWake c sc d a b s
  | .groupWake core slot => Sys2Proof.Machine.execGroupWake core slot s
  | .homeAcknowledge id => Sys2Proof.Machine.execHomeAcknowledge id s
  | .walkDone id => Sys2Proof.Machine.execWalkDone id s
  | .engineSectorComplete core heddle id => Sys2Proof.Machine.execEngineSectorComplete core heddle id s
  | .s1Complete => Sys2Proof.Machine.execS1Complete s
  | .s2ToS3Transition => Sys2Proof.Machine.execS2ToS3Transition s
  | .s3RetireTimeout => Sys2Proof.Machine.execS3RetireTimeout s
  | .checkpointComplete => Sys2Proof.Machine.execCheckpointComplete s
  | .ckptRestoreComplete => Sys2Proof.Machine.execCkptRestoreComplete s
  | .replayIntervalBoundary core slot => Sys2Proof.Machine.execReplayIntervalBoundary core slot s
  | .spawn c bin a => Sys2Proof.Machine.execSpawn c bin a s
  | .binf c bin => Sys2Proof.Machine.execBinf c bin s
  | .binTimerExpiry core bin => Sys2Proof.Machine.execBinTimerExpiry core bin s
  | .binLaunch core bin => Sys2Proof.Machine.execBinLaunch core bin s
  | .tpostRec c d a b => Sys2Proof.Machine.execTpostRec c d a b s
  | .tpostBin c bin d a b => Sys2Proof.Machine.execTpostBin c bin d a b s
  | .tdec c d a b => Sys2Proof.Machine.execTdec c d a b s
  | .tq c d a => Sys2Proof.Machine.execTq c d a s
  | .treadleReply id => Sys2Proof.Machine.execTreadleReply id s
  | .taskDispatch die idx => Sys2Proof.Machine.execTaskDispatch die idx s
  | .lnch c d a => Sys2Proof.Machine.execLnch c d a s
  | .yield c => Sys2Proof.Machine.execYield c s
  | .selectLaunch => Sys2Proof.Machine.execSelectLaunch s
  | .clusterPlace lno => Sys2Proof.Machine.execClusterPlace lno s
  | .clusterRetry lno => Sys2Proof.Machine.execClusterRetry lno s
  | .teamRetire team => Sys2Proof.Machine.execTeamRetire team s
  | .gridComplete lno => Sys2Proof.Machine.execGridComplete lno s
  | .qcp c dst sc d blk b => Sys2Proof.Machine.execQcp c dst sc d blk b s
  | .qcpSt c dst sc d blk b => Sys2Proof.Machine.execQcpSt c dst sc d blk b s
  | .qcpm c d blk b e => Sys2Proof.Machine.execQcpm c d blk b e s
  | .qmc c sc d blk b e => Sys2Proof.Machine.execQmc c sc d blk b e s
  | .qcol c sc d blk => Sys2Proof.Machine.execQcol c sc d blk s
  | .qput c sc d blk => Sys2Proof.Machine.execQput c sc d blk s
  | .qget c sc d blk => Sys2Proof.Machine.execQget c sc d blk s
  | .qstatEng c d => Sys2Proof.Machine.execQstatEng c d s
  | .qstatCmd c d a => Sys2Proof.Machine.execQstatCmd c d a s
  | .quillAccept core => Sys2Proof.Machine.execQuillAccept core s
  | .quillDataPhaseStart core id => Sys2Proof.Machine.execQuillDataPhaseStart core id s
  | .quillComplete core id => Sys2Proof.Machine.execQuillComplete core id s
  | .mcastReceive core id team => Sys2Proof.Machine.execMcastReceive core id team s
  | .collectiveRelease core id => Sys2Proof.Machine.execCollectiveRelease core id s
  | .collectiveTimeout core id => Sys2Proof.Machine.execCollectiveTimeout core id s
  | .peerTransferTimeout core id => Sys2Proof.Machine.execPeerTransferTimeout core id s
  | .hmm c ax acc blk fa fb => Sys2Proof.Machine.execHmm c ax acc blk fa fb s
  | .hmmf c acc blk fa fb => Sys2Proof.Machine.execHmmf c acc blk fa fb s
  | .hclr c fp acc => Sys2Proof.Machine.execHclr c fp acc s
  | .hacl c fp acc blk => Sys2Proof.Machine.execHacl c fp acc blk s
  | .hdrn c m sc acc blk fo => Sys2Proof.Machine.execHdrn c m sc acc blk fo s
  | .bpack c blk fs => Sys2Proof.Machine.execBpack c blk fs s
  | .bunpk c blk fs => Sys2Proof.Machine.execBunpk c blk fs s
  | .fmtqSlot c d fs => Sys2Proof.Machine.execFmtqSlot c d fs s
  | .fmtqAcc c d acc => Sys2Proof.Machine.execFmtqAcc c d acc s
  | .heddleAccept core => Sys2Proof.Machine.execHeddleAccept core s
  | .heddleCommandStart core id => Sys2Proof.Machine.execHeddleCommandStart core id s
  | .heddleComplete core id => Sys2Proof.Machine.execHeddleComplete core id s
  | .trap c n => Sys2Proof.Machine.execTrap c n s
  | .brkp c n => Sys2Proof.Machine.execBrkp c n s
  | .siblingStop core slot => Sys2Proof.Machine.execSiblingStop core slot s
  | .rtt => Sys2Proof.Machine.execRtt s
  | .rttSkip => Sys2Proof.Machine.execRttSkip s
  | .srd c num d idx => Sys2Proof.Machine.execSrd c num d idx s
  | .swr c num idx a => Sys2Proof.Machine.execSwr c num idx a s
  | .sleep c a => Sys2Proof.Machine.execSleep c a s
  | .sleepExpiry core slot => Sys2Proof.Machine.execSleepExpiry core slot s
  | .spt c => Sys2Proof.Machine.execSpt c s
  | .sliceExpiry core => Sys2Proof.Machine.execSliceExpiry core s
  | .drainBudgetExpiry team => Sys2Proof.Machine.execDrainBudgetExpiry team s
  | .safepointWindowExpiry core slot => Sys2Proof.Machine.execSafepointWindowExpiry core slot s
  | .saveReported clu => Sys2Proof.Machine.execSaveReported clu s
  | .teamRestore clu => Sys2Proof.Machine.execTeamRestore clu s
  | .preReqSaveHalted tenant => Sys2Proof.Machine.execPreReqSaveHalted tenant s
  | .preReqEnd tenant => Sys2Proof.Machine.execPreReqEnd tenant s
  | .preReqAll tenant => Sys2Proof.Machine.execPreReqAll tenant s
  | .mmFrespResume tenant seq => Sys2Proof.Machine.execMmFrespResume tenant seq s
  | .mmFrespFail tenant seq => Sys2Proof.Machine.execMmFrespFail tenant seq s
  | .mmInv tenant w => Sys2Proof.Machine.execMmInv tenant w s
  | .invalidationDone tenant => Sys2Proof.Machine.execInvalidationDone tenant s
  | .mmFqbaseWrite tenant w => Sys2Proof.Machine.execMmFqbaseWrite tenant w s
  | .mmFqptrHeadWrite tenant w => Sys2Proof.Machine.execMmFqptrHeadWrite tenant w s
  | .trdQptrTailWrite q w => Sys2Proof.Machine.execTrdQptrTailWrite q w s
  | .trdQctlWrite q w => Sys2Proof.Machine.execTrdQctlWrite q w s
  | .railSharedWrite w => Sys2Proof.Machine.execRailSharedWrite w s
  | .specialRegisterWrite off w => Sys2Proof.Machine.execSpecialRegisterWrite off w s
  | .eccCorrectable => Sys2Proof.Machine.execEccCorrectable s
  | .eccUncorrectable site => Sys2Proof.Machine.execEccUncorrectable site s
  | .repairTableError copy seg => Sys2Proof.Machine.execRepairTableError copy seg s
  | .repairTableDoubleFault seg => Sys2Proof.Machine.execRepairTableDoubleFault seg s
  | .repairTableRebuilt seg => Sys2Proof.Machine.execRepairTableRebuilt seg s
  | .tmark c n a => Sys2Proof.Machine.execTmark c n a s
  | .msmp c => Sys2Proof.Machine.execMsmp c s
  | .rmark c d => Sys2Proof.Machine.execRmark c d s
  | .pcnt c d n => Sys2Proof.Machine.execPcnt c d n s
  | .vclk c d a => Sys2Proof.Machine.execVclk c d a s
  | .traceAggregationRelease stream => Sys2Proof.Machine.execTraceAggregationRelease stream s
  | .syncIntervalExpiry stream => Sys2Proof.Machine.execSyncIntervalExpiry stream s
  | .idleStampReport stream source => Sys2Proof.Machine.execIdleStampReport stream source s
  | .svCtlWrite stream w => Sys2Proof.Machine.execSvCtlWrite stream w s
  | .svBaseWrite stream w => Sys2Proof.Machine.execSvBaseWrite stream w s
  | .svPtrWrite stream w => Sys2Proof.Machine.execSvPtrWrite stream w s
  | .svRplWrite stream w => Sys2Proof.Machine.execSvRplWrite stream w s
  | .svRplgo stream w => Sys2Proof.Machine.execSvRplgo stream w s
  | .hostPostedWrite pa bytes => Sys2Proof.Machine.execHostPostedWrite pa bytes s
  | .hostRead pa len => Sys2Proof.Machine.execHostRead pa len s
  | .weftPeerWrite peer va bytes => Sys2Proof.Machine.execWeftPeerWrite peer va bytes s
  | .weftPeerRead peer va len => Sys2Proof.Machine.execWeftPeerRead peer va len s
  | .mailboxImageChunk bytes last => Sys2Proof.Machine.execMailboxImageChunk bytes last s
  | .attestationReport nonce => Sys2Proof.Machine.execAttestationReport nonce s
  | .logEntries => Sys2Proof.Machine.execLogEntries s
  | .powerGood => Sys2Proof.Machine.execPowerGood s
  | .bootSourceTimeout => Sys2Proof.Machine.execBootSourceTimeout s
  | .networkImageFetched image => Sys2Proof.Machine.execNetworkImageFetched image s
  | .mmCkptCheckpoint base => Sys2Proof.Machine.execMmCkptCheckpoint base s
  | .mmCkptRestore base => Sys2Proof.Machine.execMmCkptRestore base s
  | .mmCkptBadOp op => Sys2Proof.Machine.execMmCkptBadOp op s
  | .thermalWarn sensor t => Sys2Proof.Machine.execThermalWarn sensor t s
  | .thermalHold sensor t => Sys2Proof.Machine.execThermalHold sensor t s
  | .thermalHoldClear => Sys2Proof.Machine.execThermalHoldClear s
  | .thermalShutdown sensor t => Sys2Proof.Machine.execThermalShutdown sensor t s
  | .linkStateChange port state width rate => Sys2Proof.Machine.execLinkStateChange port state width rate s
  | .ptpSyncMessage ofs lock stamp => Sys2Proof.Machine.execPtpSyncMessage ofs lock stamp s
  | .collectiveContributionArrival core id rank bytes agree => Sys2Proof.Machine.execCollectiveContributionArrival core id rank bytes agree s
  | .cxlCacheSnoop line inval => Sys2Proof.Machine.execCxlCacheSnoop line inval s
  | .lossOfPower => Sys2Proof.Machine.execLossOfPower s
  | .refreshBegin mc => Sys2Proof.Machine.execRefreshBegin mc s
  | .refreshEnd mc => Sys2Proof.Machine.execRefreshEnd mc s

end Sys2Proof.Machine
end

