-- ==== Sys2Proof/Machine/Auto.lean ====
section
/-!
DEFINITION. What the machine does next when no event is named (log 4): a scheduler's group issues, or
an internal step that is due or may happen is taken. Where several may, a free value chooses.
-/
namespace Sys2Proof.Machine

/-- What may happen to a pending operation. -/
def State.pendCands (s : State) (p : Pend) : List Instr :=
  if !p.after.isEmpty then [] else
  match p.op with
  | .load .. => [.loadDataArrival p.id none]
  | .long k .. => if k = 0 then [.loadDataArrival p.id none] else [.longLatencyResult p.id]
  | .commit _ _ _ _ placed acked _ =>
    if !placed then [.commitPlacement p.id] else if !acked then [.homeAcknowledge p.id] else [.commitPlacement p.id]
  | .abort .. => [.abortPlacement p.id]
  | .atom _ _ _ _ _ ws _ => (List.range ws.length).map fun w => .atomicPerform p.id w
  | .xadd _ _ ws _ => (List.range ws.length).map fun w => .atomicPerform p.id w
  | .tkt .. | .tkts .. | .park .. | .wake .. => [.atomicPerform p.id 0]
  | .barv _ bar => match (s.group? p.gid).bind s.teamOf with
    | some t => if t.mayArrive bar then [.barrierArrivalCounted p.id] else []
    | none => []
  | .rail .. => match s.group? p.gid with
    | some g => if (s.railDone g.core).isEmpty then [] else [.regulatorSettle g.core]
    | none => []
  | .cache .. => [.cacheOpDone p.id]
  | .tlbq .. => [.translationQueryDone p.id]
  | .iinv .. => [.iinvDone p.id]
  | .tpost .. | .tdec .. | .tq .. | .lnch .. => [.treadleReply p.id]
  | .fmtq .. => []
  | .walk .. => [.walkDone p.id]

/-- What may happen to a group. -/
def State.groupCands (s : State) (gid : Nat) (g : Group) : List Instr :=
  let runs := !g.frozen && !g.sys.stopped && ((s.teamOf g).map (·.resident)).getD false
  if g.ended then [] else
    (match g.park with
      | none => []
      | some (.sleep _) => if runs && s.mayWake gid g then [.sleepExpiry g.core g.slot] else []
      | some _ => if runs && s.mayWake gid g then [.groupWake g.core g.slot] else [])
    ++ (match g.want with | some n => [.fetchFill g.core (n / 256)] | none => [])
    ++ (if g.sys.skid.isSome then [.siblingStop g.core g.slot] else [])
    ++ (match g.shadow with
      | some sh => if sh.issuing && 256 ≤ sh.count then [.shadowLimitReached g.core g.slot] else []
      | none => [])
    ++ (if g.trc.rec?.isSome && 2 ^ 16 ≤ g.trc.inInterval then [.replayIntervalBoundary g.core g.slot] else [])
    ++ (match g.stopReq with
      | some c => if c + 20000 ≤ s.clk && !g.frozen then [.safepointWindowExpiry g.core g.slot] else []
      | none => [])

/-- What may happen to an engine command. -/
def State.cmdCands (s : State) (core : Nat) (c : Cmd) : List Instr :=
  let runs := c.st == .running && c.status == 0
  (if c.st == .running && c.fault.isNone && !c.work.isEmpty then [.engineSectorComplete core c.heddle c.id] else [])
  ++ (if c.heddle then
      (if s.mayStart core c then [.heddleCommandStart core c.id] else [])
      ++ (if c.heddleOver then [.heddleComplete core c.id] else [])
    else
      (if c.st == .accepted then [.quillDataPhaseStart core c.id] else [])
      ++ (if c.finished then [.quillComplete core c.id] else [])
      ++ (match c.op with
        | .qmc .. => if c.st == .running then c.left.map fun t => .mcastReceive core c.id t else []
        | .qcol =>
          let k := collOf c.rcd
          let us := if k.timeout = 0 then 1000000 else k.timeout
          if !runs || c.writes then [] else
            (if !c.failed && c.work.isEmpty && c.left.isEmpty then [.collectiveRelease core c.id] else [])
            ++ (if c.failed || c.since + s.realClocks (1000 * us) ≤ s.clk then [.collectiveTimeout core c.id] else [])
        | .qput | .qget =>
          if runs && !c.work.isEmpty &&
              (s.linkLost (c.word 0 % 64) || c.since + s.realClocks 1000000000 ≤ s.clk)
          then [.peerTransferTimeout core c.id] else []
        | _ => []))

/-- What may happen in a core. -/
def State.coreCands (s : State) (core : Nat) (k : Core) : List Instr :=
  (match k.reg.next with
    | none => []
    | some n => if n = s.railTarget core then [.regulatorSettle core] else [.regulatorStep core])
  ++ (List.filterMap (fun e : ParkEnt => match e.deadline with
      | some c => if c ≤ s.clk then (s.group? e.gid).map fun g => .parkTimeout core g.slot else none
      | none => none) k.parks)
  ++ (List.flatMap (fun e : Nat × Bin =>
      (match e.2.deadline with
        | some d => if d ≤ s.clk && !e.2.lanes.isEmpty && !e.2.fired then [.binTimerExpiry core e.1] else []
        | none => [])
      ++ (if (s.binReady core e.1).isSome then [.binLaunch core e.1] else [])) k.bins)
  ++ (if k.cmds.any fun c => !c.heddle && c.st == .queued then [.quillAccept core] else [])
  ++ (if k.cmds.any fun c => c.heddle && c.st == .queued then [.heddleAccept core] else [])
  ++ k.cmds.flatMap (s.cmdCands core)
  ++ (if !k.teams.isEmpty && (s.grids.any fun e => e.2.waiting) &&
        (k.sliceDone || k.sliceStart + s.realClocks (s.sliceEff core) ≤ s.clk) && s.waitsFor core
      then [.sliceExpiry core] else [])

/-- What the Treadle may do. -/
def State.treadleCands (s : State) : List Instr :=
  (if !s.launchHold && (!s.trd.devq.isEmpty || (List.map (fun (e : Nat × Queue) => e.1) s.trd.queues).any
      fun q => (s.headSlot q).isSome) then [.selectLaunch] else [])
  ++ (List.filterMap (fun e : Nat × Task =>
      if e.2.st == .ready then some (.taskDispatch (e.1 / 65536) (e.1 % 65536)) else none) s.trd.tasks)
  ++ (List.flatMap (fun e : Nat × Grid => if e.2.done then [] else
      (if e.2.nextIndex.isSome && !s.launchHold then
        (if !e.2.waiting then [.clusterPlace e.2.lno] else if e.2.retry then [.clusterRetry e.2.lno] else []) else [])
      ++ (if s.gridOver e.2 then [.gridComplete e.2.lno] else [])) s.grids)

/-- What may happen to a team. -/
def State.teamCands (s : State) (tid : Nat) (t : Team) : List Instr :=
  if t.retired then [] else
    (if s.teamOver tid t then [.teamRetire tid] else [])
    ++ (if s.saveReady tid t then [.saveReported t.cluster] else [])
    ++ (if !t.resident && !s.launchHold then [.teamRestore t.cluster] else [])
    ++ (match t.treat with
      | .drain d => if d ≤ s.clk then [.drainBudgetExpiry tid] else []
      | _ => [])
    ++ (List.flatMap (fun w : Nat × Window => List.filterMap (fun e : Nat × StashEntry =>
        if e.2.inv.isSome then some (.stashInvalidate tid w.1 e.1) else none) w.2.entries) t.windows)

/-- What may happen to a stream. -/
def State.streamCands (s : State) (t : Nat) (r : Stream) : List Instr :=
  let first := (firstPkt r.queue).map fun p => p.1.stamp
  (match first with
    | some c => if s.passed t c && !r.blocked s.time then [.traceAggregationRelease t] else []
    | none => [])
  ++ (if r.ctl.toNat.testBit ctlEN && !r.syncDue && r.timeUp s.time then [.syncIntervalExpiry t] else [])
  ++ ((s.sources t).filter fun k =>
      (match first with
        | some c => AMap.get 0 r.heard k < c && c < s.dieTime (s.sourceDie k) && (s.unread t k).isEmpty
        | none => false)
      || (!(s.unread t k).isEmpty && !r.blocked s.time)).map
    fun k => .idleStampReport t k

/-- What the platform's own processes may do. -/
def State.bootCands (s : State) : List Instr :=
  (if s.sourceOver then [.bootSourceTimeout] else [])
  ++ (if s.boot.stage = 1 then [.s1Complete] else [])
  ++ (if s.boot.stage = 2 && !s.boot.hbmf && (match s.boot.trans with
        | some _ => !s.anyResident && !s.boot.hold2
        | none => !s.boot.hold2 || !s.allTrained) then [.s2ToS3Transition] else [])
  ++ (match s.boot.trans with
    | some c => if s.anyResident && c + s.realClocks 100000000 ≤ s.clk then [.s3RetireTimeout] else []
    | none => [])
  ++ (match s.plat.ckRun with
    | some (1, _) => [.checkpointComplete]
    | some (2, _) => [.ckptRestoreComplete]
    | _ => [])
  ++ (List.filterMap (fun e : Nat × Tenant =>
      if s.invReady e.1 then some (.invalidationDone e.1) else none) s.tenants)

/-- The internal steps that may happen now. What comes from outside, and what the spec lets happen at any
time without a cause (an eviction, an error in memory), only the oracle names. -/
def State.evCands (s : State) : List Instr :=
  s.pending.flatMap s.pendCands
  ++ List.flatMap (fun e : Nat × Group => s.groupCands e.1 e.2) s.groups
  ++ List.flatMap (fun e : Nat × Core => s.coreCands e.1 e.2) s.cores
  ++ s.treadleCands
  ++ List.flatMap (fun e : Nat × Team => s.teamCands e.1 e.2) s.teams
  ++ List.flatMap (fun e : Nat × Stream => s.streamCands e.1 e.2) s.streams
  ++ s.bootCands

/-! ## The turn of a group -/

/-- The group's turn has come in this clock. -/
def State.tried (s : State) (gid : Nat) : State := s.modGroup gid fun g => { g with triedAt := s.clk + 1 }

/-- What a turn came to, unless a lossless stream has no room for a packet of it: then the group is stalled
for TRACE (21 R443). -/
def State.orHeld (s : State) (gid : Nat) (t : State) : State :=
  if s.holds t then s.modGroup gid fun g => { g with stall := 1 } else t

/-- A group's turn: Resume while Act is zero (04 R64); else fetch, decode and execute (02 R35). -/
def groupTurn (gid : Nat) (s : State) : Host.Outcome State Fault Refusal :=
  let s := s.tried gid
  match s.group? gid with
  | none => .next s
  | some g =>
    if g.ctl.act = 0 then .next (s.orHeld gid (s.resumeStep gid)) else
    match s.fetch gid with
    | .ok i t => if s.holds t then .next (s.orHeld gid t) else exec i t
    | .done t => .next (s.orHeld gid t)

/-- Would a group whose last attempt was held issue now? -/
def State.again (s : State) (gid : Nat) : Bool :=
  match groupTurn gid (s.modGroup gid fun g => { g with stall := 0 }) with
  | .next t => match t.group? gid with
    | some g => g.stall == 0
    | none => true
  | _ => true

/-- The next move. -/
inductive Move where
  | issue (gid : Nat)
  | ev (i : Instr)
  | idle

/-- The move of a state, and the state with the free value drawn. -/
def State.move (s : State) : Move × State :=
  let ms := (s.issueCands s.again).map Move.issue ++ s.evCands.map Move.ev
  match ms with
  | [] => (.idle, s)
  | [m] => (m, s)
  | m :: _ =>
    let r := s.free ms.length
    (ms.getD r.1 m, r.2)

/-- Event rows have no word. -/
def isEvent (i : Instr) : Bool := (view i).isNone

/-- The module has no power, and this event does not bring it back (23 R478). -/
def State.dark (s : State) (i : Option Instr) : Bool :=
  !s.boot.powered && (match i with | some .powerGood => false | _ => true)

end Sys2Proof.Machine
end

