-- ==== Sys2Proof/WellFormed.lean ====
section
/-!
DEFINITION. Well-formed instructions: those some kernel of some role may execute. Each register
stands in a position of its kind (02 R28), pairs and quads are aligned (R29), nothing lies beyond the
largest allocation (R30), every field holds a value its entry accepts (R35), and approximate registers
stand only where R34 lets them.
-/
namespace Sys2Proof

/-- 02 R28 for one operand: a register of the kind its position names. -/
def Need.posOk (n : Need) : Bool :=
  match n.pos, n.o with
  | .vec, .v i => i < 192
  | .vec, .x i => i < 64
  | .scal, .s i => i < 64
  | .pred, .p i => i < 8
  | .acc, .acc i => i < 8
  | _, _ => false

/-- Ranges that the width of a field gives, and operands that exist only in some forms. -/
def rangeOk : Instr → Bool
  | .trap _ n | .brkp _ n | .tmark _ n _ => n < 128
  | .lda _ sc _ _ _ _ | .ldaLong _ sc _ _ _ _ _ => sc != .grp
  | .rail _ _ code a => code.isSome != a.isSome
  | .atom _ op _ _ _ _ _ e | .atomf _ op _ _ _ _ _ e => e.isSome == (op == .cas)
  | _ => true

/-- Well-formed. An event row has no word and no such condition. -/
def Instr.wf (i : Instr) : Bool :=
  match view i with
  | none => true
  | some v => v.c.ok && v.c.pg < 8 && formOk i && rangeOk i && (needs i).all Need.posOk
      && (needs i).all (fun n => n.allocOk .max) && !(needs i).any Need.typeBad

end Sys2Proof
end

