-- ==== Sys2Proof/Machine/Step.lean ====
section
/-!
DEFINITION. One step of the machine, and the placing of one instruction where the next step fetches.
-/
namespace Sys2Proof.Machine

/-- A move of the machine's own. -/
def ownMove (s : State) : Host.Outcome State Fault Refusal :=
  if s.dark none then .fault .unpowered else
  match s.move with
  | (.issue gid, t) => groupTurn gid t
  | (.ev i, t) => exec i t
  | (.idle, t) => .next t

/-- One step: the next turn says how many clocks pass and, where it names an event row, what happens;
otherwise the machine makes its own next move (log 4). -/
def step (s : State) : Host.Outcome State Fault Refusal :=
  match s.turns with
  | [] => ownMove (s.pass 1)
  | t :: rest =>
    let s := ({ s with turns := rest } : State).pass t.dt
    match t.ev with
    | none => ownMove s
    | some i => if isEvent i then (if s.dark (some i) then .fault .unpowered else exec i s) else ownMove s

/-- The header of the largest kernel (03 Table 3-4). -/
def maxHeader : Header where
  flags := 0
  vcnt := 192
  xcnt := 64
  scnt := 64
  maxg := 128
  scratch := 65536
  roles := (0, 0, 0)
  rings := (List.range 8).map fun i => ⟨4096 * i, 256, 2, 2 * i, 2 * i + 1⟩
  arith := 0
  expect := 0
  side := 0
  fmts := 0
  acc := 8
  bins := 0xFFFF

/-- A launch record of one cluster of one team of one group. -/
def oneRecord : Record where
  entry := 4096
  gx := 1
  gy := 1
  gz := 1
  g := 1
  w := 1
  h := 1
  fit := false
  side := false
  prio := 0
  tenant := 0
  creg := 48
  cscr := 40
  cl1 := 8
  seed := 0
  slots := []
  arg := 0
  spill := 0
  stack := 0
  ctask := 0
  crec := 0
  binsAt := 0
  stkbase := 0

/-- The state with one instruction placed at address 4096 of a running group (the log says what this
stands for): stage S3, one grid, cluster and team, one group of 32 active lanes on core 0, whose
instruction line is held and translated, and whose fetch buffer holds the instruction. -/
def State.withFetchWord (s : State) (_nbits w : Nat) : State :=
  { s with
    turns := []
    boot := { s.boot with stage := 3 }
    mem := ((leBytes 8 w ++ leBytes 8 (w / 2 ^ 64)).foldl
      (fun (r : Nat × List Host.Cell) b => (r.1 + 1, Memory.write r.2 r.1 b)) (4096, s.mem)).2
    nextId := 5
    grids := [(1, { lno := 0, addr := 0, rcd := oneRecord, hdr := maxHeader, binTab := [], binHdrs := []
                    queue := 256, next := 1, clusters := [2] })]
    clusters := [(2, { grid := 1, index := 0, die := 0, teams := [3] })]
    teams := [(3, { cluster := 2, index := 0, core := 0, num := 0, hdr := maxHeader, groups := [4]
                    rings := List.replicate 8 ⟨0, 0, 0⟩ })]
    groups := [(4, { core := 0, slot := 0, team := 3, gidx := 0
                     ctl := { pc := 4096, act := 0xFFFFFFFF }
                     fbuf := [(4096, w % 2 ^ 64), (4104, w / 2 ^ 64 % 2 ^ 64)] })]
    cores := [(0, { teams := [3], l1i := [(16, (4096, s.dev.pos))], l0i := [(16, (4096, s.dev.pos))]
                    tlb := [(4, ⟨0x1017, 0⟩)] })] }

end Sys2Proof.Machine
end

