-- ==== Sys2Proof/Safety.lean ====
section
/-!
DEFINITION. The terms claims are stated in: when a group may issue an instruction, what an
instruction that only writes registers leaves as it was, which byte a group sees, and what every
step keeps.
-/
namespace Sys2Proof.Machine

/-- The outcome is a next state that meets a condition. -/
def NextIs (o : Host.Outcome State Fault Refusal) (P : State → Prop) : Prop :=
  ∃ t, o = .next t ∧ P t

/-! ## Registers as cells (Machine/Operands.lean numbers them) -/

/-- The content of a register cell: v, x and s registers, and one bit per lane of a predicate. -/
def Regs.cell (r : Regs) (c : Nat) : Nat :=
  if c < 6144 then (AMap.get 0 r.v c).toNat
  else if c < 8192 then (AMap.get 0 r.x (c - 6144)).toNat
  else if c < 8256 then (AMap.get 0 r.s (c - 8192)).toNat
  else bit ((AMap.get 0 r.p ((c - 8256) / 32)).toNat.testBit ((c - 8256) % 32))

/-- The cells a destination covers in some lanes. A scalar has one cell per register. -/
def destCells (o : Opd) (k : Nat) (ls : List Nat) : List Nat :=
  (List.range k).flatMap fun i => ls.map fun l => cellOf (opPlus o i) l

/-- A vector operand: v- or x-registers (02 R28). -/
def VecOpd (o : Opd) : Prop := (∃ n, o = .v n) ∨ ∃ n, o = .x n

/-! ## When a group may issue -/

/-- The group that `cur` names runs ordinarily: it has issued before, is not in shadow mode, not
replayed or logged, not stepped, and no halt has reached it. -/
structure Runs (s : State) (g : Group) : Prop where
  group : s.group? s.cur = some g
  started : g.trc.started = true
  shadow : g.shadow = none
  replay : g.trc.replay = none
  unlogged : g.trc.rec? = none
  skid : g.sys.skid = none
  stepping : g.sys.stepping = false

/-- Every register of some uses is full and unpoisoned in some lanes (02 R27; 18 R409). -/
structure Usable (g : Group) (us : List Use) (ls : List Nat) : Prop where
  full : ∀ u ∈ us, g.emptyCells u ls = []
  clean : ∀ u ∈ us, lanesIn g.regs.pois u ls = []

/-- Every register of some destinations is full (02 R27). -/
def Fillable (g : Group) (us : List Use) (ls : List Nat) : Prop := ∀ u ∈ us, g.emptyCells u ls = []

/-- The lanes an instruction acts on: active and guarded on (02 R26). -/
def Group.on (g : Group) (c : Ctl) : List Nat := lanesOf (g.onLanes c)

/-! ## What stays as it was -/

/-- Everything outside the issuing group is as before, but for the counts of the issue itself: the
team's and the core's (21 R457), and which group the scheduler issued last (14 R315). -/
structure Kept (s t : State) (g : Group) : Prop where
  groups : ∀ k, k ≠ s.cur → t.group? k = s.group? k
  teams : ∀ k, t.team? k = (s.team? k).map fun x =>
    if k = g.team then { x with issued := x.issued + 1 } else x
  cores : ∀ k, t.core k = if k = g.core then
    { (s.core k).count 0x11 1 with
      lastIssue := AMap.put 0 (s.core k).lastIssue (g.slot % 4) (s.cur + 1) } else s.core k
  mem : t.mem = s.mem
  dirty : t.dirty = s.dirty
  pois : t.pois = s.pois
  lines : t.lines = s.lines
  dev : t.dev = s.dev
  clusters : t.clusters = s.clusters
  grids : t.grids = s.grids
  trd : t.trd = s.trd
  tenants : t.tenants = s.tenants
  streams : t.streams = s.streams
  faults : t.faults = s.faults
  boot : t.boot = s.boot
  plat : t.plat = s.plat
  fuses : t.fuses = s.fuses
  rails : t.l2c = s.l2c ∧ t.l3c = s.l3c
  clk : t.clk = s.clk ∧ t.time9 = s.time9
  held : t.kept = s.kept ∧ t.volat = s.volat ∧ t.spills = s.spills ∧ t.sysDone = s.sysDone

/-- Every cell outside a list holds what it held, with its full/empty and poison marks. -/
def CellsKept (g h : Group) (cells : List Nat) : Prop :=
  ∀ c, c ∉ cells → h.regs.cell c = g.regs.cell c ∧ (c ∈ h.regs.empt ↔ c ∈ g.regs.empt) ∧
    (c ∈ h.regs.pois ↔ c ∈ g.regs.pois)

/-- An instruction of a group has issued and written some of the group's registers: PC stands behind it,
masks and stack, trap registers and FPSR but for the flags raised, the group's buffer and orders,
every other register and everything outside the group are as before. -/
structure IssuedAs (s t : State) (g h : Group) (size : Nat) (cells : List Nat) (raised : BitVec 5) :
    Prop where
  group : t.group? s.cur = some h
  pc : h.ctl = { g.ctl with pc := g.ctl.pc + BitVec.ofNat 64 size }
  regs : CellsKept g h cells
  full : ∀ c ∈ cells, c ∉ h.regs.empt ∧ c ∉ h.regs.pois
  sys : h.sys = { g.sys with fpsr := g.sys.fpsr ||| raised }
  gmem : h.mem = g.mem
  park : h.park = g.park
  kept : Kept s t g
  pending : t.pending = s.pending

/-- A control instruction of a group has issued: PC, masks and stack are those given, and every register,
the trap registers, FPSR, the group's buffer and orders and everything outside the group are as
before (what control depends on, 04 R67, may change). -/
structure MovedTo (s t : State) (g h : Group) (ctl : Ctrl) : Prop where
  group : t.group? s.cur = some h
  ctl : h.ctl = ctl
  regs : CellsKept g h []
  sys : h.sys = g.sys
  gmem : h.mem = { g.mem with ctlDep := h.mem.ctlDep }
  park : h.park = g.park
  kept : Kept s t g
  pending : t.pending = s.pending

/-- An instruction has issued whose effect is the state u, where its group is x: PC stands behind it, and
nothing differs from u but the counts of the issue. -/
structure After (u t : State) (x h : Group) (size : Nat) : Prop where
  group : t.group? u.cur = some h
  pc : h.ctl = { x.ctl with pc := x.ctl.pc + BitVec.ofNat 64 size }
  regs : CellsKept x h []
  sys : h.sys = x.sys
  gmem : h.mem = x.mem
  park : h.park = x.park
  kept : Kept u t x
  pending : t.pending = u.pending

/-- The instruction completes with the effect u. -/
def Completes (o : Host.Outcome State Fault Refusal) (u : State) (size : Nat) : Prop :=
  ∃ x t h, u.group? u.cur = some x ∧ o = .next t ∧ After u t x h size

/-- As `Kept`, for an instruction that uses the memory pipe: its core also counts its requests, and its
TLB may have been refilled (21 Table 21-9; 06 R114). -/
structure Beside (s t : State) (g : Group) : Prop where
  groups : ∀ k, k ≠ s.cur → t.group? k = s.group? k
  teams : ∀ k, t.team? k = (s.team? k).map fun x =>
    if k = g.team then { x with issued := x.issued + 1 } else x
  cores : ∀ k, k ≠ g.core → t.core k = s.core k
  core : ∃ cnt mc tlb last, t.core g.core =
      { s.core g.core with cnt := cnt, mcount := mc, tlb := tlb, lastIssue := last } ∧
    ∀ n, n ∉ [0x11, 0x20, 0x21, 0x22, 0x23, 0x24] → AMap.get 0 cnt n = AMap.get 0 (s.core g.core).cnt n
  mem : t.mem = s.mem
  dirty : t.dirty = s.dirty
  pois : t.pois = s.pois
  lines : t.lines = s.lines
  dev : t.dev = s.dev
  clusters : t.clusters = s.clusters
  grids : t.grids = s.grids
  trd : t.trd = s.trd
  tenants : t.tenants = s.tenants
  streams : t.streams = s.streams
  faults : t.faults = s.faults
  boot : t.boot = s.boot
  plat : t.plat = s.plat
  fuses : t.fuses = s.fuses
  rails : t.l2c = s.l2c ∧ t.l3c = s.l3c
  clk : t.clk = s.clk ∧ t.time9 = s.time9
  held : t.kept = s.kept ∧ t.volat = s.volat ∧ t.spills = s.spills ∧ t.sysDone = s.sysDone

/-- An operation whose result comes later has been issued: its destination cells are empty and keep
their bits, it is listed last among those pending, and everything else is as in b. -/
structure StartedAs (K : State → State → Group → Prop) (b t : State) (g h : Group) (size : Nat)
    (cells : List Nat) (p : Pend) : Prop where
  group : t.group? b.cur = some h
  pc : h.ctl = { g.ctl with pc := g.ctl.pc + BitVec.ofNat 64 size }
  vals : ∀ c, h.regs.cell c = g.regs.cell c ∧ (c ∈ h.regs.pois ↔ c ∈ g.regs.pois)
  empt : ∀ c, c ∈ h.regs.empt ↔ c ∈ g.regs.empt ∨ c ∈ cells
  sys : h.sys = g.sys
  buf : h.mem.buf = g.mem.buf
  park : h.park = g.park
  kept : K b t g
  pending : t.pending = b.pending ++ [p]
  name : p.id = b.nextId
  owner : p.gid = b.cur
  since : p.clk = b.clk
  at_ : p.pc = g.ctl.pc

/-- A pending operation has delivered its scalar result: the register holds it and is full, the operation
is no longer pending, and everything else is as in u. -/
structure AnsweredAs (u t : State) (p : Pend) (g h : Group) (d : Opd) (w : Nat) : Prop where
  group : t.group? p.gid = some h
  value : h.rdS d = BitVec.ofNat 64 w
  full : cellOf d 0 ∉ h.regs.empt ∧ cellOf d 0 ∉ h.regs.pois
  regs : CellsKept g h [cellOf d 0]
  same : h = { g with regs := h.regs }
  pending : t.pending = u.pending.filter (·.id != p.id)
  groups : ∀ k, k ≠ p.gid → t.group? k = u.group? k
  streams : ∀ k, t.stream k = u.stream k
  rest : t = { u with pending := t.pending, groups := t.groups, streams := t.streams }

/-- No stream records any kind of event (21 R446). -/
def Untraced (s : State) : Prop := ∀ t b, s.traces t b = false

/-! ## The byte a group sees -/

/-- The newest value of a byte for a group (11 R228): its own buffer, its team's level, its
cluster's, then device-visible memory. -/
def State.sees (s : State) (g : Group) (k : Nat) : Byte :=
  match AMap.at? g.mem.buf k with
  | some e => e.b
  | none => match (s.teamOf g).bind fun t => AMap.at? t.lvl k with
    | some e => e.b
    | none => match (s.clusterOf g).bind fun c => AMap.at? c.lvl k with
      | some e => e.b
      | none => s.devByte k

/-! ## What every step keeps -/

/-- Backing memory is in canonical form, and no address is listed twice among the bytes not yet written
back. -/
structure MemOk (s : State) : Prop where
  backing : Memory.wf s.mem = true
  dirty : (s.dirty.map (·.1)).Nodup

end Sys2Proof.Machine
end

