-- ==== Sys2Proof/Certificates/Slice0/Obligations.lean ====
section
/-!
DEFINITION. The statements for the provers. A statement about an instruction says that it answers a
next state and what that state holds, for every state in which the group runs ordinarily and its
operands are readable; `IssuedAs` (Safety.lean) carries the frame.
-/
namespace Sys2Proof.Claims
open Sys2Proof.Machine

/-- How an integer instruction reads and writes: guard, form, destination, sources and the function of
the source values that its entry gives. -/
structure IntRow where
  c : Ctl
  f : IForm
  d : Opd
  args : List Arg
  op : List Nat → Nat

/-- Value n of a list of source values. -/
def nth (xs : List Nat) (n : Nat) : Nat := xs.getD n 0

/-- The two's-complement reading of a W-bit value, 05 R88 Sg. -/
def sg (t : Ty) (x : Nat) : Int := sextInt t.width x

/-- 05 R91: arithmetic, wrapped at the operand width. -/
def arithRow : Instr → Option IntRow
  | .iadd c f d a b => some ⟨c, f, d, [.r a, .r b], fun x => (nth x 0 + nth x 1) % 2 ^ f.ty.width⟩
  | .iaddImm c f d a k => some ⟨c, f, d, [.r a, .k k], fun x => (nth x 0 + nth x 1) % 2 ^ f.ty.width⟩
  | .isub c f d a b => some ⟨c, f, d, [.r a, .r b], fun x => wrap f.ty ((nth x 0 : Int) - nth x 1)⟩
  | .isubImm c f d a k => some ⟨c, f, d, [.r a, .k k], fun x => wrap f.ty ((nth x 0 : Int) - nth x 1)⟩
  | .imul c f d a b => some ⟨c, f, d, [.r a, .r b], fun x => nth x 0 * nth x 1 % 2 ^ f.ty.width⟩
  | .imulImm c f d a k => some ⟨c, f, d, [.r a, .k k], fun x => nth x 0 * nth x 1 % 2 ^ f.ty.width⟩
  | .imulh c f d a b => some ⟨c, f, d, [.r a, .r b],
      fun x => wrap f.ty (num f.ty (nth x 0) * num f.ty (nth x 1) / (2 ^ f.ty.width : Nat))⟩
  | .imad c f d a b e => some ⟨c, f, d, [.r a, .r b, .r e],
      fun x => (nth x 0 * nth x 1 + nth x 2) % 2 ^ f.ty.width⟩
  | .iabs c f d a => some ⟨c, f, d, [.r a], fun x => (sg f.ty (nth x 0)).natAbs % 2 ^ f.ty.width⟩
  | .imin c f d a b => some ⟨c, f, d, [.r a, .r b],
      fun x => if num f.ty (nth x 0) ≤ num f.ty (nth x 1) then nth x 0 else nth x 1⟩
  | .iminImm c f d a k => some ⟨c, f, d, [.r a, .k k],
      fun x => if num f.ty (nth x 0) ≤ num f.ty (nth x 1) then nth x 0 else nth x 1⟩
  | .imax c f d a b => some ⟨c, f, d, [.r a, .r b],
      fun x => if num f.ty (nth x 0) ≤ num f.ty (nth x 1) then nth x 1 else nth x 0⟩
  | .imaxImm c f d a k => some ⟨c, f, d, [.r a, .k k],
      fun x => if num f.ty (nth x 0) ≤ num f.ty (nth x 1) then nth x 1 else nth x 0⟩
  | _ => none

/-- 05 R92 to R94: logic and shifts. -/
def shiftRow : Instr → Option IntRow
  | .lop c ax ty d a b e tt => some ⟨c, ⟨ax, false, ty⟩, d, [.r a, .r b, .r e], fun x =>
      (List.range ty.width).foldl (fun r i => r + bit (tt.getLsbD
        (4 * bit (bitAt (nth x 0) i) + 2 * bit (bitAt (nth x 1) i) + bit (bitAt (nth x 2) i))) * 2 ^ i) 0⟩
  | .shl c f d a b => some ⟨c, f, d, [.r a, .r b],
      fun x => if nth x 1 < f.ty.width then nth x 0 * 2 ^ nth x 1 % 2 ^ f.ty.width else 0⟩
  | .shlImm c f d a k => some ⟨c, f, d, [.r a, .k k],
      fun x => if nth x 1 < f.ty.width then nth x 0 * 2 ^ nth x 1 % 2 ^ f.ty.width else 0⟩
  | .shr c f d a b => some ⟨c, f, d, [.r a, .r b],
      fun x => if nth x 1 < f.ty.width then nth x 0 / 2 ^ nth x 1 else 0⟩
  | .shrImm c f d a k => some ⟨c, f, d, [.r a, .k k],
      fun x => if nth x 1 < f.ty.width then nth x 0 / 2 ^ nth x 1 else 0⟩
  | .sar c f d a b => some ⟨c, f, d, [.r a, .r b], fun x =>
      if nth x 1 < f.ty.width then wrap f.ty (sg f.ty (nth x 0) / (2 ^ nth x 1 : Nat))
      else if sg f.ty (nth x 0) < 0 then 2 ^ f.ty.width - 1 else 0⟩
  | .sarImm c f d a k => some ⟨c, f, d, [.r a, .k k], fun x =>
      if nth x 1 < f.ty.width then wrap f.ty (sg f.ty (nth x 0) / (2 ^ nth x 1 : Nat))
      else if sg f.ty (nth x 0) < 0 then 2 ^ f.ty.width - 1 else 0⟩
  | .shfL c ax d a b e => some ⟨c, ⟨ax, false, .b32⟩, d, [.r a, .r b, .r e], fun x =>
      (nth x 0 * 2 ^ 32 + nth x 1) * 2 ^ min (nth x 2) 32 / 2 ^ 32 % 2 ^ 32⟩
  | .shfR c ax d a b e => some ⟨c, ⟨ax, false, .b32⟩, d, [.r a, .r b, .r e], fun x =>
      (nth x 0 * 2 ^ 32 + nth x 1) / 2 ^ min (nth x 2) 32 % 2 ^ 32⟩
  | _ => none

/-- 05 R95 to R97: counts, bit fields, byte permutation. -/
def fieldRow : Instr → Option IntRow
  | .popc c f d a => some ⟨c, f, d, [.r a],
      fun x => ((List.range f.ty.width).filter fun i => bitAt (nth x 0) i).length⟩
  | .clz c f d a => some ⟨c, f, d, [.r a],
      fun x => (((List.range f.ty.width).reverse).takeWhile fun i => !bitAt (nth x 0) i).length⟩
  | .brev c ty d a => some ⟨c, ⟨false, false, ty⟩, d, [.r a], fun x =>
      (List.range ty.width).foldl (fun r i => r + bit (bitAt (nth x 0) i) * 2 ^ (ty.width - 1 - i)) 0⟩
  | .bfe c f d a b => some ⟨c, f, d, [.r a, .r b], fun x =>
      let pos := min (nth x 1 % 256) f.ty.width
      let len := min (nth x 1 / 256 % 256) (f.ty.width - pos)
      if len = 0 then 0 else
        let v := nth x 0 / 2 ^ pos % 2 ^ len
        if f.ty.isI then wrap f.ty (sextInt len v) else v⟩
  | .bfi c f d a b e => some ⟨c, f, d, [.r a, .r b, .r e], fun x =>
      let pos := min (nth x 2 % 256) f.ty.width
      let len := min (nth x 2 / 256 % 256) (f.ty.width - pos)
      let m := (2 ^ len - 1) * 2 ^ pos
      (nth x 1 - (nth x 1 &&& m)) ||| (nth x 0 * 2 ^ pos &&& m)⟩
  | .prmt c d a b e => some ⟨c, ⟨false, false, .b32⟩, d, [.r a, .r b, .r e], fun x =>
      (List.range 4).foldl (fun r i =>
        let sel := nth x 2 / 2 ^ (4 * i) % 16
        let y := (nth x 0 + nth x 1 * 2 ^ 32) / 2 ^ (8 * (sel % 8)) % 256
        r + (if sel < 8 then y else if y < 128 then 0 else 255) * 2 ^ (8 * i)) 0⟩
  | _ => none

/-- IntPut of a result (05 R88): a scalar takes 64 bits, a vector register 32 or a pair. -/
def IntWrites (rows : Instr → Option IntRow) : Prop :=
  ∀ i r, rows i = some r → i.wf = true → r.f.ax = false →
  ∀ (s : State) (g : Group), Runs s g →
    Usable g (r.args.flatMap (Arg.use r.f.scal r.f.ty.regs)) (g.on r.c) →
    Fillable g [⟨r.d, if r.f.scal then 1 else r.f.ty.regs, false⟩] (g.on r.c) →
    ∃ t h, exec i s = .next t ∧
      IssuedAs s t g h 8 (destCells r.d (if r.f.scal then 1 else r.f.ty.regs) (g.on r.c)) 0 ∧
      (r.f.scal = true → g.on r.c ≠ [] →
        h.rdS r.d = BitVec.ofNat 64 (intExt r.f.ty true (r.op (r.args.map (Arg.val true r.f.ty g 0))))) ∧
      (r.f.scal = false → ∀ l ∈ g.on r.c,
        h.rdN r.d r.f.ty.regs l = intExt r.f.ty false (r.op (r.args.map (Arg.val false r.f.ty g l))))


/-! ## Registers written by other register instructions -/

/-- What an instruction that writes one value per lane does: guard, sources and the lanes they are read
in, destination and its registers, and the value of a lane. -/
structure LaneRow where
  c : Ctl
  srcs : List Use
  d : Opd
  k : Nat
  val : State → Group → Nat → Nat

/-- In every lane on, the destination holds the value; everything else is as before (`IssuedAs`). -/
def LaneWrites (rows : Instr → Option LaneRow) : Prop :=
  ∀ i r, rows i = some r → i.wf = true → ∀ (s : State) (g : Group), Runs s g →
    Usable g r.srcs (g.on r.c) → Fillable g [⟨r.d, r.k, false⟩] (g.on r.c) →
    ∃ t h, exec i s = .next t ∧ IssuedAs s t g h (instrSize i) (destCells r.d r.k (g.on r.c)) 0 ∧
      ∀ l ∈ g.on r.c, h.rdN r.d r.k l = r.val s g l

/-- The same for an instruction that writes one scalar, once, when some lane is on. -/
def ScalarWrites (rows : Instr → Option LaneRow) : Prop :=
  ∀ i r, rows i = some r → i.wf = true → ∀ (s : State) (g : Group), Runs s g →
    Usable g r.srcs (g.on r.c) → Fillable g [⟨r.d, 1, false⟩] (g.on r.c) →
    ∃ t h, exec i s = .next t ∧ IssuedAs s t g h (instrSize i) (destCells r.d 1 (g.on r.c)) 0 ∧
      (g.on r.c ≠ [] → h.rdS r.d = BitVec.ofNat 64 (r.val s g 0))

/-- The same for one that writes a predicate; pt discards the result (04 R78). -/
def PredicateWrites (rows : Instr → Option LaneRow) : Prop :=
  ∀ i r, rows i = some r → i.wf = true → ∀ (s : State) (g : Group), Runs s g →
    Usable g r.srcs (g.on r.c) →
    ∃ t h n, exec i s = .next t ∧ r.d = .p n ∧
      IssuedAs s t g h (instrSize i) (destCells r.d 1 (g.on r.c)) 0 ∧
      (n < 7 → ∀ l ∈ g.on r.c, h.predAt n l = (r.val s g l == 1)) ∧ (∀ l, h.predAt 7 l = true)

/-- Value of an integer source in a lane (05 R88). -/
def av (scal : Bool) (t : Ty) (g : Group) (l : Nat) (a : Arg) : Int := num t (Arg.val scal t g l a)

/-- The relation of `icmp` (05 R98). -/
def cmpHolds : ICc → Int → Int → Bool
  | .eq, a, b => a == b
  | .ne, a, b => a != b
  | .lt, a, b => a < b
  | .le, a, b => a ≤ b
  | .gt, a, b => a > b
  | .ge, a, b => a ≥ b

/-- 05 R98; 04 R78 and R79: the instructions that write a predicate. -/
def predRow : Instr → Option LaneRow
  | .icmp c f cc d a b => some ⟨c, [⟨a.o, if f.scal then 1 else f.ty.regs, a.bang⟩,
      ⟨b.o, if f.scal then 1 else f.ty.regs, b.bang⟩], d, 1,
      fun _ g l => bit (cmpHolds cc (av f.scal f.ty g l (.r a)) (av f.scal f.ty g l (.r b)))⟩
  | .icmpImm c f cc d a k => some ⟨c, [⟨a.o, if f.scal then 1 else f.ty.regs, a.bang⟩], d, 1,
      fun _ g l => bit (cmpHolds cc (av f.scal f.ty g l (.r a)) (av f.scal f.ty g l (.k k)))⟩
  | .plog c d a b tt => some ⟨c, [⟨a, 1, false⟩, ⟨b, 1, false⟩], d, 1, fun _ g l =>
      bit (tt.getLsbD (2 * bit (predOf g a l) + bit (predOf g b l)))⟩
  | .voteAll c d a => some ⟨c, [⟨a, 1, false⟩], d, 1, fun _ g _ => bit ((g.on c).all (predOf g a))⟩
  | .voteAny c d a => some ⟨c, [⟨a, 1, false⟩], d, 1, fun _ g _ => bit ((g.on c).any (predOf g a))⟩
  | .voteLeader c d a => some ⟨c, [⟨a, 1, false⟩], d, 1, fun _ g l =>
      bit (((g.on c).filter (predOf g a)).head? == some l)⟩
  | _ => none

/-- The lane whose A `xlane` puts into lane l (05 R104). -/
def xlaneLane (mode : XMode) (g : Group) (l n : Nat) : Nat :=
  let j : Int := match mode with
    | .idx => n | .xor => (l ^^^ n : Nat) | .up => (l : Int) - n | .down => (l : Int) + n
  if 0 ≤ j ∧ j ≤ 31 ∧ g.ctl.act.toNat.testBit j.toNat = true then j.toNat else l

/-- 05 R99 to R102, R105, R106; 04 R79: vector forms that move, select, name or convert. -/
def laneRow : Instr → Option LaneRow
  | .isel c _ ty d a b q => some ⟨c, [⟨a.o, ty.regs, a.bang⟩, ⟨b.o, ty.regs, b.bang⟩, ⟨q, 1, false⟩], d, ty.regs,
      fun _ g l => if predOf g q l then g.rdN a.o ty.regs l else g.rdN b.o ty.regs l⟩
  | .mov c f fs d a => if f.scal then none else
      some ⟨c, [⟨a.o, if fs then 1 else f.ty.regs, a.bang⟩], d, f.ty.regs, fun _ g l =>
        (if fs then (g.rdS a.o).toNat else g.rdN a.o f.ty.regs l) % 2 ^ f.ty.width⟩
  | .movi c f d k => if f.scal then none else
      some ⟨c, [], d, f.ty.regs, fun _ _ _ => (k.signExtend f.ty.width).toNat⟩
  | .moviLong c f d k => if f.scal then none else
      some ⟨c, [], d, f.ty.regs, fun _ _ _ => k.toNat % 2 ^ f.ty.width⟩
  | .ident c scal sel d => if scal then none else some ⟨c, [], d, 1, fun s g l => s.identOf g sel l % 2 ^ 32⟩
  | .lea c f d a b sh => if f.scal then none else
      some ⟨c, [⟨a.o, 2, a.bang⟩, ⟨b.o, 1, b.bang⟩], d, 2, fun _ g l =>
        (((g.rdN a.o 2 l : Int) + num f.ty (g.rd32 b.o l) * 2 ^ sh) % 2 ^ 64).toNat⟩
  | .cvti c f sty sat d a => if f.scal then none else
      some ⟨c, [⟨a.o, sty.regs, a.bang⟩], d, f.ty.regs, fun _ g l =>
        let v := av false sty g l (.r a)
        intExt f.ty false (wrap f.ty (if sat then max (tyMin f.ty) (min v (tyMax f.ty)) else v))⟩
  | .voteBallot c scal d a => if scal then none else
      some ⟨c, [⟨a, 1, false⟩], d, 1, fun _ g _ => (maskOf ((g.on c).filter (predOf g a))).toNat⟩
  | .endorse c ty d a => some ⟨c, [⟨a.o, ty.regs, a.bang⟩], d, ty.regs, fun _ g l => g.rdN a.o ty.regs l⟩
  | _ => none

/-- The scalar forms of the same instructions. -/
def scalarRow : Instr → Option LaneRow
  | .mov c f true d a => if f.scal then
      some ⟨c, [⟨a.o, 1, a.bang⟩], d, 1, fun _ g _ => (g.rdS a.o).toNat % 2 ^ f.ty.width⟩ else none
  | .movi c f d k => if f.scal then
      some ⟨c, [], d, 1, fun _ _ _ => (k.signExtend f.ty.width).toNat⟩ else none
  | .moviLong c f d k => if f.scal then some ⟨c, [], d, 1, fun _ _ _ => k.toNat % 2 ^ f.ty.width⟩ else none
  | .ident c true sel d => some ⟨c, [], d, 1, fun s g l => s.identOf g sel l⟩
  | .lea c f d a b sh => if f.scal then
      some ⟨c, [⟨a.o, 1, a.bang⟩, ⟨b.o, 1, b.bang⟩], d, 1, fun _ g _ =>
        ((((g.rdS a.o).toNat : Int) + num f.ty (g.rd32 b.o 0) * 2 ^ sh) % 2 ^ 64).toNat⟩ else none
  | .cvti c f sty sat d a => if f.scal then
      some ⟨c, [⟨a.o, 1, a.bang⟩], d, 1, fun _ g _ =>
        let v := av true sty g 0 (.r a)
        intExt f.ty true (wrap f.ty (if sat then max (tyMin f.ty) (min v (tyMax f.ty)) else v))⟩ else none
  | .voteBallot c true d a => some ⟨c, [⟨a, 1, false⟩], d, 1, fun _ g _ => (maskOf ((g.on c).filter (predOf g a))).toNat⟩
  | _ => none

/-! ## Control -/

/-- 04 R71: the guard, the scalar tested, whether the branch transfers, the target and the size. -/
def branchRow : Instr → Option (Ctl × List Use × (Group → Bool) × (Word64 → Word64) × Nat)
  | .bra c off => some (c, [], fun _ => true, fun pc => pc + 8 * off.signExtend 64, 8)
  | .braLong c off => some (c, [], fun _ => true, fun pc => pc + off, 16)
  | .bru c cc a off => some (c, [⟨a.o, 1, a.bang⟩], fun g => match cc with
      | .z => g.rdS a.o == 0 | .nz => g.rdS a.o != 0
      | .neg => (g.rdS a.o).toInt < 0 | .nneg => 0 ≤ (g.rdS a.o).toInt,
      fun pc => pc + 8 * off.signExtend 64, 8)
  | .bruLong c cc a off => some (c, [⟨a.o, 1, a.bang⟩], fun g => match cc with
      | .z => g.rdS a.o == 0 | .nz => g.rdS a.o != 0
      | .neg => (g.rdS a.o).toInt < 0 | .nneg => 0 ≤ (g.rdS a.o).toInt,
      fun pc => pc + off, 16)
  | _ => none

/-- Where a group's control comes to stand after an instruction. -/
def Moves (i : Instr) (s : State) (g : Group) (ctl : Ctrl) : Prop :=
  ∃ t h, exec i s = .next t ∧ MovedTo s t g h ctl

/-- A push stays on chip (04 R65): fewer than 32 entries are there, and not all 4096 of the stack are used. -/
def RoomOnChip (g : Group) : Prop :=
  g.ctl.stack.length < 32 ∧ g.ctl.stack.length + g.ctl.deep < 4096 ∧ (g.ctl.stack = [] → g.ctl.deep = 0)

/-- The target that `brx` and `callx` give a lane, by their guard and address registers (04 R62 TargetOf). -/
def indexedTarget (g : Group) (origin : Word64) (c : Ctl) (a : Src) (l : Nat) : Word64 :=
  if g.predAt c.pg l = c.neg then origin + 8 else BitVec.ofNat 64 (g.rdN a.o 2 l)

/-- Resume passes an entry by: no lane of it is left to run (04 R64). -/
def Exhausted (ex : Mask) (e : Entry) : Prop :=
  (e.pend &&& ~~~ex = 0 ∨ e.kind = .call) ∧ e.restore &&& ~~~ex = 0

/-- A code address that CheckTarget accepts (02 R22). -/
def CodeAddr (a : Word64) : Prop := a.toNat % 8 = 0 ∧ canonical a.toNat = true

/-- The word a group reads at once at an address is the instruction's own (04 R62). -/
def HoldsWord (s : State) (g : Group) (a : Word64) (i : Instr) : Prop :=
  s.wordAt g a = (view i).map View.word0

/-! ## Operations of other units -/

/-- An instruction that starts an operation: guard, scalar sources, destination, the operation with what
it reads at issue, whether its team is clean no longer (18 R400), and what it waits for. -/
structure StartRow where
  c : Ctl
  srcs : List Src
  d : Option Opd
  op : State → Group → PendOp
  soils : Bool := false
  after : State → List (Nat × Scope) := fun _ => []

/-- The uses of an optional scalar destination. -/
def dstUse (d : Option Opd) : List Use := match d with | none => [] | some d => [⟨d, 1, false⟩]

/-- The value of a scalar source. -/
def sv (g : Group) (a : Src) : Nat := (g.rdS a.o).toNat

/-- 04 R81; 06 R151, R152; 08 R211; 11 R258; 12 R277, R281, R283; 14 R321, R322; 21 R467. -/
def startRow : Instr → Option StartRow
  | .iinv c d a b => some ⟨c, [a, b], some d, fun _ g => .iinv d (sv g a) (sv g b), false, fun _ => []⟩
  | .cwbL3 c d a b => some ⟨c, [a, b], some d, fun _ g => .cache d 0 (sv g a) (sv g b), false, fun _ => []⟩
  | .cwbMem c d a b => some ⟨c, [a, b], some d, fun _ g => .cache d 1 (sv g a) (sv g b), false, fun _ => []⟩
  | .cinvCore c d a b => some ⟨c, [a, b], some d, fun _ g => .cache d 2 (sv g a) (sv g b), false, fun _ => []⟩
  | .cinvDie c d a b => some ⟨c, [a, b], some d, fun _ g => .cache d 3 (sv g a) (sv g b), false, fun _ => []⟩
  | .cinvDev c d a b => some ⟨c, [a, b], some d, fun _ g => .cache d 4 (sv g a) (sv g b), false, fun _ => []⟩
  | .tlbq c kind d a => some ⟨c, [a], some d, fun _ g => .tlbq d kind (g.rdS a.o), false, fun _ => []⟩
  | .tolq c d a => some ⟨c, [a], some d, fun _ g => .tlbq d 3 (g.rdS a.o), false, fun _ => []⟩
  | .abt c sc d r => some ⟨c, match r with | none => [] | some (a, b) => [a, b], some d,
      fun _ g => .abort d sc (r.map fun e => (sv g e.1, sv g e.2)) none, false, fun _ => []⟩
  | .barv c bar d => some ⟨c, [], some d, fun _ _ => .barv d bar, false, fun s => s.allEarlier s.cur⟩
  | .tkt c n d => some ⟨c, [], some d, fun _ _ => .tkt d n, true, fun _ => []⟩
  | .tkts c n => some ⟨c, [], none, fun _ _ => .tkts n, true, fun s => s.allEarlier s.cur⟩
  | .wake c sc d a b => some ⟨c, [a, b], some d, fun _ g => .wake d sc (sv g a) (g.rdS b.o), cluUp sc,
      fun s => s.allEarlier s.cur⟩
  | .tpostRec c d a b => some ⟨c, [a, b], some d,
      fun _ g => .tpost d none (g.rdS a.o) (sv g b % 2 ^ 32), true, fun s => s.allEarlier s.cur⟩
  | .tpostBin c bin d a b => some ⟨c, [a, b], some d,
      fun _ g => .tpost d (some bin) (g.rdS a.o) (sv g b % 2 ^ 32), true, fun s => s.allEarlier s.cur⟩
  | .tdec c d a b => some ⟨c, [a, b], some d,
      fun _ g => .tdec d (g.rdS a.o) (sv g b % 2 ^ 32), true, fun s => s.allEarlier s.cur⟩
  | .tq c d a => some ⟨c, [a], some d, fun _ g => .tq d (g.rdS a.o), false, fun _ => []⟩
  | .lnch c d a => some ⟨c, [a], some d, fun _ g => .lnch d (g.rdS a.o), true,
      fun s => (s.pendOf s.cur PendOp.isCommit).map fun i => (i, Scope.team)⟩
  | .rlq c sp d a b => some ⟨c, [a, b], some d, fun s g =>
      let hit (src : Bool) := (s.core g.core).locks.any fun k => k.sp == sp && (!sp || k.team == g.team) &&
        k.src == src && meets k.base k.len (sv g a) (sv g b)
      .long 3 d 1 [(0, bit (hit false) * 2 ^ 63 + bit (hit true) * 2 ^ 62 + (s.core g.core).locks.length)] [],
      false, fun _ => []⟩
  | .vclk c d a => some ⟨c, [a], some d,
      fun s g => .long 3 d 1 [(0, s.clockEntry g.team (sv g a % 64))] [], false, fun _ => []⟩
  | _ => none

/-- Values a query writes at issue, once, when some lane is on. -/
def queryRow (s : State) (g : Group) : Instr → Option LaneRow
  | .ringq c n d => ((s.teamOf g).bind fun t => t.ring? n).map fun (x, r) => ⟨c, [], d, 1, fun _ _ _ =>
      r.lap % 2 ^ x.depth % 65536 * 2 ^ 48 + r.c.toNat % 2 ^ 24 * 2 ^ 24 + r.p.toNat % 2 ^ 24⟩
  | .bufq c d => some ⟨c, [], d, 1, fun s g _ =>
      ((s.clusterOf g).map fun k => heldLines k.lvl).getD 0 % 65536 * 2 ^ 48 +
      ((s.teamOf g).map fun t => heldLines t.lvl).getD 0 % 65536 * 2 ^ 32 +
      (s.core g.core).cl1 * 64 * 2 ^ 16 + heldLines g.mem.buf * 2 ^ 8⟩
  | .railq c d => some ⟨c, [], d, 1, fun s g _ => s.railStatus g⟩
  | .pcnt c d n => some ⟨c, [], d, 1, fun s g _ => (s.counter g n).toNat⟩
  | .rmark c d => if ((s.stream (s.tenantOf g)).logSize).isSome then none else
      some ⟨c, [], d, 1, fun _ _ _ => 2 ^ 63⟩
  | .qstatEng c d => some ⟨c, [], d, 1, fun s g _ =>
      let cs := (s.core g.core).cmds.filter fun k => !k.heddle
      (cs.filter fun k => k.team == g.team && k.st != .queued).length * 2 ^ 32 + (16 - cs.length) * 2 ^ 24 +
        (s.core g.core).locks.length * 2 ^ 16 + s.pinned (s.dieOf g.core) false⟩
  | .qstatCmd c d a => some ⟨c, [scalUse a], d, 1, fun s g _ =>
      let no := sv g a % 2 ^ 32
      if ((s.core g.core).cmds.filter fun k => !k.heddle).any fun k =>
          k.team == g.team && k.st != .queued && k.no == no then 1
      else match (((s.teamOf g).map (·.outcomes)).getD []).find? fun e => e.1 == no with
        | some e => e.2 * 256 + 2
        | none => 0⟩
  | .fmtqSlot c d fs => if slotOk (slotAt (s.slotsOf g) fs) then
      some ⟨c, [], d, 1, fun s g _ => slotAt (s.slotsOf g) fs⟩ else none
  | .fmtqAcc c d acc => if s.tileBusy g.team acc then none else
      some ⟨c, [], d, 1, fun s g _ => ((s.teamOf g).map (·.tword acc)).getD 0⟩
  | _ => none

/-- The event at which a pending operation answers, its destination and value, and what else the machine
then looks like. -/
def answerRow (s : State) (p : Pend) (g : Group) : Option (Instr × Opd × Nat × State) :=
  match p.op with
  | .iinv d base len => some (.iinvDone p.id, d, 0, s.dropInstr base len)
  | .cache d kind base len =>
    let r := s.cacheRange kind g.core (s.tenantOf g) base len
    if r.2.2.1 then none
    else some (.cacheOpDone p.id, d, bit r.2.1 * 2 ^ 63 + r.1 % 2 ^ 40, r.2.2.2)
  | .tlbq d kind va =>
    let r := if canonical va.toNat then s.translate g.core (s.tenantOf g) va.toNat else (.absent 3, s)
    if kind = 3 then some (.translationQueryDone p.id, d, tolqWord g.core va.toNat r.1 r.2, r.2)
    else
      let w := tlbqWord kind va.toNat r.1 r.2
      some (.translationQueryDone p.id, d, w.1, w.2)
  | .long 3 d 1 [(0, w)] [] => some (.longLatencyResult p.id, d, w, s)
  | .tq d w => some (.treadleReply p.id, d, s.taskState w, s)
  | .tpost d bin pay n => let r := s.postTask g bin pay n; some (.treadleReply p.id, d, r.1, r.2)
  | .tdec d w n => let r := s.decTask w n (s.dev.pos, s.clockOf g.team); some (.treadleReply p.id, d, r.1, r.2)
  | .lnch d a => let r := s.launchNow g a.toNat; some (.treadleReply p.id, d, r.1, r.2)
  | .tkt d n => (s.clusterOf g).map fun cl =>
      let k := cl.ticket n
      (.atomicPerform p.id 0, d, n * 2 ^ 32 + k.next.toNat,
        s.modCluster (((s.teamOf g).map (·.cluster)).getD 0) fun c => c.setTicket n { k with next := k.next + 1 })
  | _ => none

/-! ## Memory accesses -/

/-- What lets a global access complete (06 R116): every lane's address is aligned to `al`, canonical, outside
the range locks, and in the core's TLB under a leaf with the permissions, over a line of the type the
access may touch; no data breakpoint and no poisoned engine destination is met. -/
structure Allowed (s : State) (g : Group) (rd wr ax : Bool) (al w : Nat) (ls : List Nat) (ea : Nat → Nat)
    (leaf : Nat → Leaf) : Prop where
  aligned : ∀ l ∈ ls, ea l % al = 0
  canon : ∀ l ∈ ls, canonical (ea l) = true
  unlocked : ∀ l ∈ ls, s.lockMet g false true wr (ea l) w = none
  held : ∀ l ∈ ls, tlbFind (s.core g.core).tlb (ea l / 4096 * 4096) = some (leaf l) ∧
    AMap.at? (s.core g.core).tlb (tlbKey (ea l / 4096 * 4096) (leaf l).lvl) = some (leaf l)
  waited : g.mem.walked = []
  perms : ∀ l ∈ ls, (leaf l).permits rd wr = true
  typed : ∀ l ∈ ls, tolOk ax wr (entTol (leaf l).e.toNat) = true
  line : ∀ l ∈ ls, (s.line (lineOf ((leaf l).key (ea l)))).cached = true →
    (s.line (lineOf ((leaf l).key (ea l)))).typed = true →
    (s.line (lineOf ((leaf l).key (ea l)))).tol = entTol (leaf l).e.toNat
  unbroken : s.dataBrk (s.tenantOf g) (bit rd + 2 * bit wr) w (ls.map fun l => (l, ea l)) = none
  unspoilt : rd = true → s.badDst = []

/-- The keys of a lane's bytes. -/
def laneKeys (leaf : Nat → Leaf) (ea : Nat → Nat) (w l : Nat) : List Nat :=
  (List.range w).map ((leaf l).key (ea l) + ·)

/-- Loads: guard, approximate, width, sign extension, destination, operand, second word, scope, size. -/
def loadRow : Instr → Option (Ctl × Bool × Wd × Bool × Opd × MemOp × Option Word64 × Option Scope × Nat)
  | .ld c ax w sx d m => some (c, ax, w, sx, d, m, none, none, 8)
  | .ldLong c ax w sx d m off => some (c, ax, w, sx, d, m, some off, none, 16)
  | .lda c sc w sx d m => some (c, false, w, sx, d, m, none, some sc, 8)
  | .ldaLong c sc w sx d m off => some (c, false, w, sx, d, m, some off, some sc, 16)
  | _ => none

/-- Stores: guard, approximate, width, source, operand, second word, size. -/
def storeRow : Instr → Option (Ctl × Bool × Wd × Src × MemOp × Option Word64 × Nat)
  | .st c ax w a m => some (c, ax, w, a, m, none, 8)
  | .stLong c ax w a m off => some (c, ax, w, a, m, some off, 16)
  | _ => none

/-- Caches may fill, displace and write back around a byte, and its value stays: its page is not compressed, its
line is precise and not counted, no approximate copy of it stands over its memory, and no dirty line of a compressed
page is packed there (06 R122, R127; 08 R199, R204). -/
structure PlainByte (s : State) (k : Nat) : Prop where
  flat : keyCmp k = 0
  precise : (s.line (lineOf k)).tol = false
  whole : AMap.at? s.kept k = none
  alone : ∀ n, keyCmp (n * 256) ≠ 0 → k ∈ backingOf n →
    (s.line n).l2d = none ∧ (s.line n).l3d = false ∧ (s.line n).own = none
  uncounted : (s.line (lineOf k)).cnt = 0

/-- No read through a page of the other type makes the byte's line approximate before it is written back (08 R198): it
is clean, or it has its type already. -/
def Typed (s : State) (k : Nat) : Prop :=
  ((s.line (lineOf k)).l2d = none ∧ (s.line (lineOf k)).l3d = false ∧ (s.line (lineOf k)).own = none) ∨
    ((s.line (lineOf k)).cached = true ∧ (s.line (lineOf k)).typed = true)

/-- A view position is at or past another. -/
def VPos.le (a b : VPos) : Prop := a.c ≤ b.c ∧ a.d ≤ b.d

/-- A byte reads the same at every view position, and it is not approximate (11 R229). -/
def Settled (s : State) (g : Group) (k : Nat) (b : Byte) : Prop :=
  ∀ p d, match (s.clusterOf g).bind fun c => heldAt c.lvl c.ord p k with
    | some h => h.ax = false ∧ h.b = b
    | none => s.devByteAt d k = b

/-- The byte a load takes: a precise one it held at issue or, for `lda`, that its team's level holds now
(11 R244), or one settled on a precise page whose value no fill changes. -/
def TakesByte (s : State) (g : Group) (sc : Option Scope) (acc : List LaneAcc) (a : LaneAcc) (j : Nat)
    (b : Byte) : Prop :=
  match a.got[j]?, a.keys[j]? with
  | some (some h), some _ => h.ax = false ∧ h.b = b
  | some none, some k =>
    match (if sc.isSome then (s.teamOf g).bind fun t => AMap.at? t.lvl k else none) with
    | some h => h.ax = false ∧ h.b = b
    | none => entTol a.e.toNat = false ∧ Settled s g k b ∧ PlainByte s k ∧
        (Typed s k ∨ ∀ x ∈ acc, (∃ y ∈ x.keys, lineOf y = lineOf k) → entTol x.e.toNat = false)
  | _, _ => False

/-- 06 R144 Extend32, as a value of the destination's registers. -/
def extended (w : Wd) (sx : Bool) (bs : List Byte) : Nat :=
  match w with
  | .b8 => if sx then ((BitVec.ofNat 8 (leNat bs)).signExtend 32).toNat else leNat bs
  | .b16 => if sx then ((BitVec.ofNat 16 (leNat bs)).signExtend 32).toNat else leNat bs
  | _ => leNat bs

/-- The group is not traced, its tenant's race detector does not track its team, and no interval of its
tenant is logged (21). -/
structure Unwatched (s : State) (g : Group) : Prop where
  untraced : Untraced s
  untracked : s.tracked g.team = none
  unlogged : (s.stream (s.tenantOf g)).rplLog = []

/-! ## Scratchpad accesses -/

/-- The byte a team's scratchpad holds: in a stash window that of its entry (06 R140). -/
def Team.spSees (t : Team) (a : Nat) : Byte :=
  match t.windowAt a with
  | some (_, w, i) => (w.entry i).bytes.getD ((a - w.sp) % 256) 0
  | none => AMap.get 0 t.sp.bytes a

/-- The address is precise there (06 R133, R138). -/
def Team.precise (t : Team) (a : Nat) : Bool :=
  match t.windowAt a with
  | some (_, w, i) => !entTol (w.entry i).e.toNat
  | none => !t.blockAx a

/-- What lets a scratchpad access complete (06 R116): aligned, in range, outside the locks, its stash
entries usable and permitted, of the right type, and with `.fw` every granule full. -/
structure SpAllowed (s : State) (g : Group) (t : Team) (wr ax fw : Bool) (w : Nat) (ls : List Nat)
    (ea : Nat → Nat) : Prop where
  aligned : ∀ l ∈ ls, ea l % w = 0
  inside : ∀ l ∈ ls, ea l + w ≤ t.hdr.scratch ∧ ea l < 2 ^ 32
  unlocked : ∀ l ∈ ls, s.lockMet g true (!(fw && !wr)) wr (ea l) w = none
  windows : ∀ l ∈ ls, ∀ n q i, t.windowAt (ea l) = some (n, q, i) →
    s.usable (q.entry i) = true ∧ (⟨(q.entry i).e, 0⟩ : Leaf).permits true wr = true ∧
    tolOk ax wr (entTol (q.entry i).e.toNat) = true
  typed : ∀ l ∈ ls, t.windowAt (ea l) = none → tolOk ax wr (t.blockAx (ea l)) = true
  waited : g.mem.walked = []
  unspoilt : wr = false → s.badDst = []
  full : fw = true → ∀ l ∈ ls, t.sp.full.has (ea l / 16) = true

/-- Scratchpad and ring loads: guard, approximate, width, sign extension, `.fw`, `.clr`, destination, the uses
that give the addresses. -/
def spLoadRow : Instr → Option (Ctl × Bool × Wd × Bool × Bool × Bool × Opd × List Use)
  | .lds c ax w sx fw clr d m => some (c, ax, w, sx, fw, clr, d, memUses m)
  | .ldr c ax w sx fw clr d r => some (c, ax, w, sx, fw, clr, d, idxUses r.idx)
  | _ => none

/-- Scratchpad and ring stores: guard, approximate, width, `.set`, source, the uses of the address. -/
def spStoreRow : Instr → Option (Ctl × Bool × Wd × Bool × Src × List Use)
  | .sts c ax w set a m => some (c, ax, w, set, a, memUses m)
  | .str c ax w set a r => some (c, ax, w, set, a, idxUses r.idx)
  | _ => none

/-- The address of a lane (02 R25; 06 R135): for a ring, the offset within the stage that the view names,
which must lie within it (R146), in a producer view that is not full (R137). -/
def spAddr (t : Team) (g : Group) (w l : Nat) (a : Nat) : Instr → Prop
  | .lds _ _ _ _ _ _ _ m | .sts _ _ _ _ _ m => a = effAddr g m none l
  | .ldr _ _ _ _ _ _ _ r | .str _ _ _ _ _ r => ∃ d q, t.ring? r.ring = some (d, q) ∧
      (r.cons = false → (q.p - q.c).toNat ≠ d.depth) ∧
      ∃ off : Word64, off = (match r.idx with
          | none => r.off.signExtend 64
          | some i => (BitVec.ofNat 32 (g.rd32 i.i l)).signExtend 64 <<< i.scl) ∧
        off.msb = false ∧ off.toNat + w ≤ d.stage ∧
        a = d.base + (if r.cons then q.c.toNat else q.p.toNat) % d.depth * d.stage + off.toNat ∧ a < 2 ^ 64
  | _ => False

/-- Window and mark operations (06 R148, R149): guard, scalar sources, what must hold of their values and the
team, and what the team becomes. -/
def markRow (g : Group) : Instr → Option (Ctl × List Src × (Team → Prop) × (Team → Team) × Option (Nat × Nat))
  | .stmap c n a b e => some (c, [a, b, e], fun t => sv g a % 256 = 0 ∧ sv g b % 256 = 0 ∧ sv g e % 256 = 0 ∧
      256 ≤ sv g e ∧ sv g e ≤ 2 ^ 22 ∧ sv g a + sv g e ≤ t.hdr.scratch ∧ sv g b + sv g e ≤ 2 ^ 64 ∧
      canonical (sv g b) = true ∧ canonical ((sv g b + sv g e - 1) % 2 ^ 64) = true ∧
      t.windowClash n (sv g a) (sv g e) = false,
      fun t => { t.unbind n with
        windows := AMap.set (t.unbind n).windows n ⟨sv g a, sv g b, sv g e, []⟩ }, some (sv g a, sv g e))
  | .stunmap c n => some (c, [], fun _ => True, fun t => t.unbind n, none)
  | .femEmpty c a b => some (c, [a, b], fun t => sv g b ≠ 0 ∧ sv g a % 16 = 0 ∧ sv g b % 16 = 0 ∧ sv g a + sv g b ≤ t.hdr.scratch,
      fun t => { t with sp := { t.sp with full := t.sp.full.delAll ((List.range (sv g b / 16)).map (sv g a / 16 + ·)) } },
      some (sv g a, sv g b))
  | .femFull c a b => some (c, [a, b], fun t => sv g b ≠ 0 ∧ sv g a % 16 = 0 ∧ sv g b % 16 = 0 ∧ sv g a + sv g b ≤ t.hdr.scratch,
      fun t => { t with sp := { t.sp with full := t.sp.full.addAll ((List.range (sv g b / 16)).map (sv g a / 16 + ·)) } },
      some (sv g a, sv g b))
  | .femPr c a b => some (c, [a, b], fun t => sv g b ≠ 0 ∧ sv g a % 256 = 0 ∧ sv g b % 256 = 0 ∧ sv g a + sv g b ≤ t.hdr.scratch,
      fun t => { t with sp := { t.sp with
        bytes := t.sp.bytes.filter fun e => !(sv g a ≤ e.1 && e.1 < sv g a + sv g b)
        pois := t.sp.pois.filter fun e => !(sv g a ≤ e && e < sv g a + sv g b)
        ax := t.sp.ax.filter fun e => !(sv g a ≤ e.1 * 256 && e.1 * 256 < sv g a + sv g b) } },
      some (sv g a, sv g b))
  | _ => none

/-- What a parked group waits for has come about: empty registers (02 R27), granules (06 R132), a ring
(R137), a barrier (12 R280), a ticket (R281), a sleep (18 R415), a page walk (06 R114), a commit (12
R269), or the wake itself (R283). Fault pages and the fault queue are not among these. -/
def cameAbout (s : State) (g : Group) : Park → Option Prop
  | .empty cells => some (∀ c ∈ cells, c ∉ g.regs.empt)
  | .fw grans => some (∀ t, s.teamOf g = some t → ∀ n ∈ grans, n ∈ t.sp.full)
  | .ring n => some (∀ t d r, s.teamOf g = some t → t.ring? n = some (d, r) → (r.p - r.c).toNat ≠ d.depth)
  | .barw bar ph => some (1 ≤ (s.phaseOf g bar - BitVec.ofNat 32 ph).toNat ∧
      (s.phaseOf g bar - BitVec.ofNat 32 ph).toNat ≤ 2 ^ 31)
  | .tktw n t => some ((s.servOf g n - BitVec.ofNat 32 t).toNat < 2 ^ 31)
  | .sleep n => some (n = 0)
  | .walk id | .commit id => some (s.pend? id = none)
  | .park => some False
  | .woken => some True
  | .fault _ | .noQueue _ => none

/-- A group that may run when it wakes. -/
structure MayRun (s : State) (g : Group) : Prop where
  team : ∃ t, s.teamOf g = some t ∧ t.resident = true
  frozen : g.frozen = false
  stopped : g.sys.stopped = false
  ended : g.ended = false
  shadow : g.shadow = none

/-! ## Floating point -/

/-- What a floating-point instruction does in a lane: guard, sources, destination and its registers, the
type whose low bits an approximate form leaves open, and the value with the flags raised. -/
structure FloatRow where
  c : Ctl
  srcs : List Use
  d : Opd
  k : Nat
  ax : Option Ty
  val : Group → Nat → Nat × Fl

/-- The uses of sources of one type. -/
def fuses (t : Ty) (as_ : List Src) : List Use := as_.map fun a => ⟨a.o, fpRegs t, a.bang⟩

/-- A function of elements, on one element or on both halves (07 R157). -/
def perElement (t : Ty) (f : Nat → Nat → Nat → Nat × Fl) (x y z : Nat) : Nat × Fl :=
  if t = .f16x2 ∨ t = .bf16x2 then
    let a := f (x % 65536) (y % 65536) (z % 65536)
    let b := f (x / 65536) (y / 65536) (z / 65536)
    (a.1 + b.1 * 65536, a.2.or b.2)
  else f x y z

/-- A row of one type with up to three arguments. -/
def sameType (c : Ctl) (t : Ty) (ax : Bool) (d : Opd) (srcs : List Src) (x y z : Group → Nat → Nat)
    (f : Nat → Nat → Nat → Nat × Fl) : FloatRow :=
  ⟨c, fuses t srcs, d, fpRegs t, if ax then some t else none,
    fun g l => perElement t f (x g l) (y g l) (z g l)⟩

/-- The value of a source of a type in a lane (07 R157). -/
def fv (t : Ty) (a : Src) (g : Group) (l : Nat) : Nat := Arg.fval t g l (.r a)

/-- 07 R167: the exact result, rounded once. -/
def arithFloatRow : Instr → Option FloatRow
  | .fadd c f d a b => some (sameType c f.ty f.ax d [a, b] (fv f.ty a) (fv f.ty b) (fun _ _ => 0)
      fun x y _ => fAdd (Fmt.of f.ty) f.rm x y)
  | .faddImm c f d a k => some (sameType c f.ty f.ax d [a] (fv f.ty a) (fun _ _ => fpImm f.ty k) (fun _ _ => 0)
      fun x y _ => fAdd (Fmt.of f.ty) f.rm x y)
  | .fsub c f d a b => some (sameType c f.ty f.ax d [a, b] (fv f.ty a) (fv f.ty b) (fun _ _ => 0)
      fun x y _ => fSub (Fmt.of f.ty) f.rm x y)
  | .fmul c f d a b => some (sameType c f.ty f.ax d [a, b] (fv f.ty a) (fv f.ty b) (fun _ _ => 0)
      fun x y _ => fMul (Fmt.of f.ty) f.rm x y)
  | .fmulImm c f d a k => some (sameType c f.ty f.ax d [a] (fv f.ty a) (fun _ _ => fpImm f.ty k) (fun _ _ => 0)
      fun x y _ => fMul (Fmt.of f.ty) f.rm x y)
  | .fma c f d a b e => some (sameType c f.ty f.ax d [a, b, e] (fv f.ty a) (fv f.ty b) (fv f.ty e)
      fun x y z => fFma (Fmt.of f.ty) f.rm x y z)
  | .fdot2 c f d a b e => some ⟨c, [⟨a.o, 1, a.bang⟩, ⟨b.o, 1, b.bang⟩, ⟨e.o, 1, e.bang⟩], d, 1,
      if f.ax then some .f32 else none,
      fun g l => fDot2 (Fmt.of f.ty) f.rm (g.rd32 a.o l) (g.rd32 b.o l) (g.rd32 e.o l)⟩
  | .fscale c f d a b => some ⟨c, [⟨a.o, fpRegs f.ty, a.bang⟩, ⟨b.o, 1, b.bang⟩], d, fpRegs f.ty,
      if f.ax then some f.ty else none,
      fun g l => fScale (Fmt.of f.ty) f.rm (fv f.ty a g l) (g.rd32 b.o l)⟩
  | _ => none

/-- The value of a source of `fcvt`: an integer one at its type's width (05 R88). -/
def cvtSrc (t : Ty) (a : Src) (g : Group) (l : Nat) : Nat :=
  if t.isInt then g.rdN a.o t.regs l % 2 ^ t.width else fv t a g l

/-- 07 R168, R169, R171 to R174, R180: selection, moves, conversions, classes and parts, and the exact
accumulator. -/
def otherFloatRow : Instr → Option FloatRow
  | .fmin c _ t d a b => some (sameType c t false d [a, b] (fv t a) (fv t b) (fun _ _ => 0)
      fun x y _ => fMinMax (Fmt.of t) false x y)
  | .fminImm c _ t d a k => some (sameType c t false d [a] (fv t a) (fun _ _ => fpImm t k) (fun _ _ => 0)
      fun x y _ => fMinMax (Fmt.of t) false x y)
  | .fmax c _ t d a b => some (sameType c t false d [a, b] (fv t a) (fv t b) (fun _ _ => 0)
      fun x y _ => fMinMax (Fmt.of t) true x y)
  | .fmaxImm c _ t d a k => some (sameType c t false d [a] (fv t a) (fun _ _ => fpImm t k) (fun _ _ => 0)
      fun x y _ => fMinMax (Fmt.of t) true x y)
  | .fmov c _ t ab ng d a => some (sameType c t false d [a] (fv t a) (fun _ _ => 0) (fun _ _ => 0)
      fun x _ _ =>
        let top := x / (Fmt.of t).signBit % 2
        let top := if ab then 0 else top
        (x % (Fmt.of t).signBit + (if ng then 1 - top else top) * (Fmt.of t).signBit, {}))
  | .fcvt c f sty hi d a b => some ⟨c, ⟨a.o, sty.regs, a.bang⟩ ::
      (match b with | none => [] | some b => [⟨b.o, 1, b.bang⟩]), d, f.ty.regs, if f.ax then some f.ty else none,
      fun g l => cvtLane f.rm f.ty sty hi (cvtSrc sty a g l) (match b with | none => 0 | some b => cvtSrc sty b g l)⟩
  | .frnd c md t d a => some (sameType c t false d [a] (fv t a) (fun _ _ => 0) (fun _ _ => 0)
      fun x _ _ => fRnd (Fmt.of t) md x)
  | .fclass c t d a => some ⟨c, [⟨a.o, fpRegs t, a.bang⟩], d, 1, none,
      fun g l => (fClass (Fmt.of t) (fv t a g l), {})⟩
  | .fxtrExp c t d a => some ⟨c, [⟨a.o, fpRegs t, a.bang⟩], d, 1, none,
      fun g l => fExp (Fmt.of t) (fv t a g l)⟩
  | .fxtrMan c t d a => some (sameType c t false d [a] (fv t a) (fun _ _ => 0) (fun _ _ => 0)
      fun x _ _ => fMan (Fmt.of t) x)
  | .xacc c t acc b => some ⟨c, [⟨acc.o, 10, acc.bang⟩, ⟨b.o, 1, b.bang⟩], acc.o, 10, none,
      fun g l => xaccLane t (g.rdN acc.o 10 l) (fv t b g l)⟩
  | _ => none

/-- 08 R193 for a format: a NaN or an infinity stands, and the bits from k up agree. -/
def permitted (f : Fmt) (k c v : Nat) : Prop :=
  if c / 2 ^ f.fb % 2 ^ f.eb = 2 ^ f.eb - 1 then v = c else v / 2 ^ k = c / 2 ^ k

/-- The values an approximate form may give for an exact result, per element (08 R193; 07 R182). -/
def permissible (t : Ty) (k c v : Nat) : Prop :=
  if t = .f16x2 ∨ t = .bf16x2 then
    ∃ lo hi, v = lo + hi * 65536 ∧ permitted (Fmt.of t) k (c % 65536) lo ∧ permitted (Fmt.of t) k (c / 65536) hi
  else permitted (Fmt.of t) k c v

/-- The flags the lanes on raise (07 R163). -/
def raisedBy (ls : List Nat) (val : Nat → Nat × Fl) : Fl :=
  ⟨ls.any fun l => (val l).2.nv, ls.any fun l => (val l).2.dz, ls.any fun l => (val l).2.of,
   ls.any fun l => (val l).2.uf, ls.any fun l => (val l).2.nx⟩

/-- The flags raised do not trap (07 R164). -/
def Calm (s : State) (g : Group) (f : Fl) : Prop := f.bits &&& s.arithMask g = 0

/-- In every lane on, the destination holds the result, or a permissible one; FPSR collects the flags;
everything else is as before (`IssuedAs`). -/
def FloatWrites (rows : Instr → Option FloatRow) : Prop :=
  ∀ i r, rows i = some r → i.wf = true → ∀ (s : State) (g : Group), Runs s g →
    Usable g r.srcs (g.on r.c) → Fillable g [⟨r.d, r.k, false⟩] (g.on r.c) →
    let fl := raisedBy (g.on r.c) (r.val g)
    Calm s g fl →
    ∃ t h, exec i s = .next t ∧ IssuedAs s t g h 8 (destCells r.d r.k (g.on r.c)) (BitVec.ofNat 5 fl.bits) ∧
      ∀ l ∈ g.on r.c, match r.ax with
        | none => h.rdN r.d r.k l = (r.val g l).1 % 2 ^ (32 * r.k)
        | some ty => ∃ v, permissible ty (kFp ty (s.codeOf g.team)) (r.val g l).1 v ∧
            h.rdN r.d r.k l = v % 2 ^ (32 * r.k)

/-- Long-latency rows: guard, type, approximate, destination, sources, and the function of the first and the
second source (07 R175 to R179). -/
def slowRow : Instr → Option (Ctl × Ty × Bool × Opd × List Src × (Nat → Nat → Slow))
  | .frcps c d a => some (c, .f32, false, d, [a], fun x _ => ⟨(fRcps x).1, (fRcps x).2, false⟩)
  | .frsqs c d a => some (c, .f32, false, d, [a], fun x _ => ⟨(fRsqs x).1, (fRsqs x).2, false⟩)
  | .fsqrt c f d a => some (c, f.ty, f.ax, d, [a], fun x _ => fSqrt (Fmt.of f.ty) f.rm x)
  | .fdiv c f d a b => some (c, f.ty, f.ax, d, [a, b], fun x y => fDiv (Fmt.of f.ty) f.rm x y)
  | .fex2 c d a => some (c, .f32, false, d, [a], fun x _ => ⟨(fEx2 x).1, (fEx2 x).2, false⟩)
  | .flg2 c d a => some (c, .f32, false, d, [a], fun x _ => ⟨(fLg2 x).1, (fLg2 x).2, false⟩)
  | _ => none

/-- The result of a long-latency row in a lane. -/
def slowAt (ty : Ty) (srcs : List Src) (f : Nat → Nat → Slow) (g : Group) (l : Nat) : Slow :=
  f ((srcs[0]?.map fun a => fv ty a g l).getD 0) ((srcs[1]?.map fun a => fv ty a g l).getD 0)

/-- The code a `rail` names (08 R209). -/
def railCode (g : Group) (code : Option Nat) (a : Option Src) : Nat :=
  match code, a with
  | some n, _ => n
  | none, some a => min (sv g a) 7
  | none, none => 0

/-! ## Visibility -/

/-- What a commit moves, and from which levels (11 R231). -/
def commitBytes (sc : Scope) (snap team clu : AMap Held) : AMap Held :=
  match sc with
  | .grp => overlay snap []
  | .team => team
  | .clu => clu
  | _ => overlay snap (overlay team clu)

/-- The value a list of held bytes gives a byte, the last entry standing. -/
def held (m : AMap Held) (k : Nat) : Option Byte := (AMap.at? (overlay m []) k).map (·.b)

/-- The byte a level holds. -/
def inLevel (m : AMap Held) (k : Nat) : Option Byte := (AMap.at? m k).map (·.b)

/-- Every byte held is precise. -/
def PreciseBytes (m : AMap Held) : Prop := ∀ e ∈ m, e.2.ax = false

/-- A pending commit that is due: nothing it must follow is outstanding. -/
structure CommitDue (s : State) (p : Pend) (g : Group) (tm : Team) (cl : Cluster) (d : Opd) (sc : Scope)
    (excl : Bool) (snap : AMap Held) : Prop where
  pend : s.pend? p.id = some p
  op : ∃ a st, p.op = .commit d sc excl snap false a st
  due : p.after = []
  group : s.group? p.gid = some g
  team : s.teamOf g = some tm
  cluster : s.clusterOf g = some cl
  dst : ∃ n, d = .s n
  shadow : g.shadow = none
  quiet : Unwatched s g

/-- What the order a scope commits to has given so far (11 R230). -/
def orderSeq (s : State) (tm : Team) (cl : Cluster) : Scope → Nat
  | .grp => tm.ord.seq
  | .team => cl.ord.seq
  | _ => s.dev.seq
/-! ## Atomics and synchronisation -/

/-- How an atomic issues: guard, scope, `atomf`, width, alignment, registers of an operand, destination,
address, B, C, and the operation it becomes. -/
structure AtomRow where
  c : Ctl
  sc : Scope
  far : Bool
  w : Nat
  al : Nat
  k : Nat
  d : Option Opd
  a : Src
  b : Src
  e : Option Src
  op : List AWord → PendOp

/-- 12 R275, R276. -/
def atomicRow : Instr → Option AtomRow
  | .atom c op sc ty d a b e => some ⟨c, sc, false, ty.width / 8, ty.width / 8, ty.regs, d, a, b, e,
      fun ws => .atom d op sc ty false ws []⟩
  | .atomf c op sc ty d a b e => some ⟨c, sc, true, ty.width / 8, ty.width / 8, ty.regs, d, a, b, e,
      fun ws => .atom d op sc ty true ws []⟩
  | .xadd c sc ty a b => some ⟨c, sc, true, 40, 64, 1, none, a, b, none, fun ws => .xadd sc ty ws {}⟩
  | _ => none

/-- The uses of an atomic's sources. -/
def AtomRow.srcs (r : AtomRow) : List Use :=
  ⟨r.a.o, 2, r.a.bang⟩ :: ⟨r.b.o, r.k, r.b.bang⟩ ::
    (match r.e with | none => [] | some e => [⟨e.o, r.k, e.bang⟩])

/-- The lanes of one word with B and C, in ascending order (12 R270). -/
def AtomRow.lanesAt (r : AtomRow) (g : Group) (leaf : Nat → Leaf) (key : Nat) : List (Nat × Nat × Nat) :=
  ((g.on r.c).filter fun l => (leaf l).key (g.rdN r.a.o 2 l) == key).map fun l =>
    (l, g.rdN r.b.o r.k l, match r.e with | none => 0 | some e => g.rdN e.o r.k l)

/-- 12 Table 12-2: Op(o, B, C). -/
def opRule (op : AOp) (ty : Ty) (o b e : Nat) : Nat :=
  match op with
  | .add => (o + b) % 2 ^ ty.width
  | .sub => wrap ty ((o : Int) - b)
  | .and => o &&& b
  | .or => o ||| b
  | .xor => o ^^^ b
  | .min => if num ty o ≤ num ty b then o else b
  | .max => if num ty o ≤ num ty b then b else o
  | .exch => b
  | .cas => if o = b then e else o

/-- 12 R270: what the lanes of a word receive, and what the word becomes. -/
def wordRule (op : AOp) (ty : Ty) (o : Nat) : List (Nat × Nat × Nat) → List (Nat × Nat) × Nat
  | [] => ([], o)
  | (l, b, e) :: ls => let r := wordRule op ty (opRule op ty o b e) ls; ((l, o) :: r.1, r.2)

/-- The bytes of a word that an event at the end of its scope's order reads are `old` (12 R265): precise, and
the same at every view position where the scope does not fix one; those read from memory are plain. -/
def WordReads (s : State) (g : Group) (tm : Team) (sc : Scope) (key w old : Nat) : Prop :=
  old < 256 ^ w ∧ ∀ j < w, let b : Byte := BitVec.ofNat 8 (old / 256 ^ j)
    match sc with
    | .grp => False
    | .team => match AMap.at? tm.lvl (key + j) with
        | some h => h.ax = false ∧ h.b = b
        | none => Settled s g (key + j) b ∧ PlainByte s (key + j)
    | .clu => Settled s g (key + j) b ∧ PlainByte s (key + j)
    | .dev | .sys => (∀ d, s.devByteAt d (key + j) = b) ∧ PlainByte s (key + j)

/-- The word an event leaves at the level its scope names; every other byte of every level, and every other plain byte
of memory, is as before. -/
def WordLeft (s t : State) (g : Group) (tm : Team) (cl : Cluster) (sc : Scope) (key w new : Nat) : Prop :=
  ∃ q v, t.team? g.team = some q ∧ t.cluster? tm.cluster = some v ∧
    (∀ j < w, let b : Byte := BitVec.ofNat 8 (new / 256 ^ j)
      match sc with
      | .grp | .team => inLevel q.lvl (key + j) = some b
      | .clu => inLevel v.lvl (key + j) = some b
      | .dev | .sys => t.devByte (key + j) = b) ∧
    (∀ k, ((sc = .grp ∨ sc = .team) → k < key ∨ key + w ≤ k) → inLevel q.lvl k = inLevel tm.lvl k) ∧
    (∀ k, (sc = .clu → k < key ∨ key + w ≤ k) → inLevel v.lvl k = inLevel cl.lvl k) ∧
    (∀ k, PlainByte s k → ((sc = .dev ∨ sc = .sys) → k < key ∨ key + w ≤ k) → t.devByte k = s.devByte k)

/-- What lets an operation of a group be performed now. -/
structure Due (s : State) (p : Pend) (g : Group) (tm : Team) (cl : Cluster) : Prop where
  pend : s.pend? p.id = some p
  due : p.after = []
  group : s.group? p.gid = some g
  team : s.teamOf g = some tm
  cluster : s.clusterOf g = some cl
  shadow : g.shadow = none
  quiet : Unwatched s g

/-- The barrier word after an arrival completes its phase, and the ring it drives (12 R279; 06 R136). -/
def phaseDone (tm : Team) (bar : Nat) : Option Team :=
  let b := tm.bar bar
  let u := tm.setBar bar { b with phase := b.phase + 1, arr := b.arr2, arr2 := 0, held := false }
  match tm.ringOf bar with
  | none => some u
  | some (i, prod) => (tm.ring? i).bind fun (x, r) =>
    if prod then
      if (r.p - r.c).toNat = x.depth then
        some (tm.setBar bar { b with arr := b.count, held := true })
      else if (tm.bar x.cbar).held then none
      else some (u.setRing i fun r => { r with p := r.p + 1, lap := r.lap ^^^ 2 ^ (r.p.toNat % x.depth) })
    else
      if r.p = r.c then some (tm.setBar bar { b with arr := b.count, held := true })
      else if (tm.bar x.pbar).held then none
      else some (u.setRing i fun r => { r with c := r.c + 1 })

/-! ## Traps and special registers -/

/-- A trap of a class goes to the handler (18 R396): the team runs, is not being saved, has a handler, and
no service agent is attached for DEBUG. -/
structure HasHandler (s : State) (g : Group) (tm : Team) (cls : Nat) : Prop where
  team : s.teamOf g = some tm
  runs : tm.halted = false
  kept : (tm.treat == .save) = false
  low : g.sys.high = false
  base : tm.tbase ≠ 0
  attach : cls = 9 → (s.stream (s.tenantOf g)).attach = false
  quiet : Untraced s

/-- The lane-detail entry of a trap (18 Table 18-4). -/
def DetailIs (ld : AMap Word64) (i : Instr) (ti : TrapInfo) (pc : Word64) (high : Bool) : Prop :=
  (AMap.get 0 ld 0).toNat = ti.lanes.toNat + ti.cls * 2 ^ 32 + ti.cause * 2 ^ 40 +
      (if instrSize i = 16 then 2 ^ 48 else 0) + bit high * 2 ^ 49 ∧
    AMap.get 0 ld 1 = BitVec.ofNat 64 (instrRaw i).1 ∧
    AMap.get 0 ld 2 = BitVec.ofNat 64 ((instrRaw i).2.getD 0) ∧ AMap.get 0 ld 3 = BitVec.ofNat 64 ti.alo ∧
    AMap.get 0 ld 4 = BitVec.ofNat 64 ti.ahi ∧ AMap.get 0 ld 5 = pc ∧
    AMap.get 0 ld 6 = BitVec.ofNat 64 ti.info ∧ AMap.get 0 ld 7 = 0

/-- The halt has reached the siblings of the trapping group (18 R393, R394): a running one has its skid of 8
before it, a parked one counts as stopped, and one that waits for a line or a save stops where it stands; no other
group has changed. -/
def SiblingsHalted (s t : State) (tm : Team) : Prop :=
  (∀ k ∈ tm.groups, k ≠ s.cur → ∀ w, s.group? k = some w → w.ended = false → w.sys.stopped = false →
    w.sys.skid = none → w.shadow = none →
    (w.park = none → w.want = none → w.stopReq = none → w.frozen = false →
      t.group? k = some { w with sys := { w.sys with skid := some 8, gst := 0 } }) ∧
    (w.park.isSome = true → w.held = none → t.group? k = some { w with sys := { w.sys with
      stopped := true, gpc := w.ctl.pc, gst := 0x20 } }) ∧
    (w.park = none → w.want.isSome = true ∨ w.stopReq.isSome = true ∨ w.frozen = true → w.held = none →
      t.group? k = some { w with sys := { w.sys with stopped := true, gpc := w.ctl.pc, gst := 0 } })) ∧
  (∀ k, k ∉ tm.groups → k ≠ s.cur → t.group? k = s.group? k)

/-- The group has entered its handler (18 R393 to R398): level H, PC at the class's vector or, in queue mode,
at TRAP_TBASE, the return address and the lane detail saved, FPSR as given; its registers, masks and
stack as before, and its team halted. -/
def Entered (s t : State) (g : Group) (tm : Team) (i : Instr) (ti : TrapInfo) (epc : Word64)
    (fpsr : BitVec 5) : Prop :=
  ∃ h q, t.group? s.cur = some h ∧ t.team? g.team = some q ∧
    h.ctl = { g.ctl with
      pc := (tm.tbase + BitVec.ofNat 64 (if s.queueMode g then 0 else 64 * ti.cls)) &&& ~~~7#64 } ∧
    h.sys = { g.sys with
      fpsr := fpsr, ld := h.sys.ld, epc := epc, gst := 0x10, high := true, stopped := false
      gpc := (if ti.cls = 9 ∨ ti.cls = 10 then g.ctl.pc else epc) } ∧
    DetailIs h.sys.ld i ti g.ctl.pc false ∧ CellsKept g h [] ∧ h.mem.buf = g.mem.buf ∧ h.park = none ∧
    q = { tm with halted := true, trapper := some s.cur, agent := false, issued := q.issued } ∧
    SiblingsHalted s t tm ∧ t.mem = s.mem ∧ t.dirty = s.dirty ∧ t.pending = s.pending

/-- What a special register reads, where its value is not made of other units' state (18 Table 18-1;
21 Table 21-1). -/
def sregRule (s : State) (g : Group) (n i : Nat) : Option Nat :=
  let r := s.stream (s.tenantOf g)
  match n with
  | 0x000 => some g.sys.fpsr.toNat
  | 0x001 => some (bit g.sys.high + 2 * bit (s.hdrFlag g 5))
  | 0x002 => some (s.dieTime (s.dieOf g.core))
  | 0x003 => some s.clk
  | 0x004 => some s.nCore
  | 0x100 => some (s.queue i).ctl.toNat
  | 0x101 => some ((s.queue i).head.toNat * 2 ^ 32 + (s.queue i).tail.toNat)
  | 0x500 => some r.ctl.toNat
  | 0x501 => some r.base.toNat
  | 0x503 => some (r.syncTus.toNat * 2 ^ 16 + r.syncN.toNat)
  | 0x504 => some r.msmp.toNat
  | 0x505 => some r.rpl.toNat
  | 0x506 => some r.race.toNat
  | 0x507 => some r.racew.toNat
  | 0x508 => some (r.races.toNat * 2 ^ 48 + bit r.raceov * 2 ^ 36 + bit r.rpldiv * 2 ^ 35 +
      bit r.rpldone * 2 ^ 34 + bit r.rplov * 2 ^ 33 + r.lostCnt.toNat)
  | 0x509 => some (bit r.attach)
  | 0x50A => some (bit g.sys.step + 2 * bit g.sys.stepHold)
  | 0x510 => some (AMap.get 0 r.brk i).toNat
  | 0x600 => some (s.l2c + 16 * s.l3c)
  | 0x700 => (s.teamOf g).map fun t => t.tbase.toNat
  | 0x702 => some g.sys.epc.toNat
  | 0x703 => some (AMap.get 0 g.sys.ld i).toNat
  | 0x706 => some g.sys.scr0.toNat
  | 0x707 => some g.sys.scr1.toNat
  | 0x800 => some (s.tenant i).tslice.toNat
  | 0x801 => some (s.tenant i).drain.toNat
  | 0x802 => some (s.tenant i).budget.toNat
  | 0x900 => some s.boot.stage
  | _ => none

/-- What a write of a Selvage register, at a time, makes of a stream's (21 R435, R436, Tables 21-1 to 21-3). -/
def StreamWritten (now : Nat) (r q : Stream) (n i : Nat) (w : Word64) : Prop :=
  let v := w.toNat
  let log2 (k : Nat) (old : Word64) (ok : Bool) := bitsAt k 0 5 = if ok then bitsAt v 0 5 else bitsAt old.toNat 0 5
  let size (new old : Word64) := bitsAt new.toNat 1 5 = if 16 ≤ bitsAt v 1 5 then bitsAt v 1 5 else bitsAt old.toNat 1 5
  match n with
  | 0x500 => q.ctl = BitVec.ofNat 12 v ∧
      (bitAt v 0 = true → bitAt r.ctl.toNat 0 = false → q = { r with
        ctl := q.ctl, wptr := r.rptr, fresh := true, syncDue := true, lastSync := now
        lastStamp := if r.written = 0 then now else r.lastStamp }) ∧
      (bitAt v 0 = false ∨ bitAt r.ctl.toNat 0 = true → q = { r with ctl := q.ctl })
  | 0x501 => q = { r with base := q.base, wptr := r.rptr } ∧ q.base.toNat / 64 = v / 64 ∧
      log2 q.base.toNat r.base (decide (6 ≤ bitsAt v 0 5) && decide (bitsAt v 0 5 ≤ 30))
  | 0x502 => q = { r with rptr := BitVec.ofNat 32 (v / 2 ^ 32) }
  | 0x503 => q = { r with syncTus := BitVec.ofNat 32 (v / 2 ^ 16), syncN := BitVec.ofNat 16 v }
  | 0x504 => q = { r with msmp := w &&& 0xF1 }
  | 0x505 => q = { r with rpl := q.rpl, rplOff := if bitAt v 0 then 0 else r.rplOff } ∧
      q.rpl.toNat / 4096 = v / 4096 ∧ bitAt q.rpl.toNat 0 = bitAt v 0 ∧ size q.rpl r.rpl
  | 0x506 => q = { r with race := q.race } ∧ q.race.toNat / 65536 = v / 65536 ∧
      bitAt q.race.toNat 0 = bitAt v 0 ∧ size q.race r.race
  | 0x507 => q = { r with racew := BitVec.ofNat 64 (v / 4096 * 4096) }
  | 0x508 => q = { r with
      raceov := r.raceov && !bitAt v 36, rpldiv := r.rpldiv && !bitAt v 35
      rpldone := r.rpldone && !bitAt v 34, rplov := r.rplov && !bitAt v 33 }
  | 0x509 => q = { r with attach := bitAt v 0 }
  | 0x510 => q = { r with brk := AMap.put 0 r.brk i w }
  | _ => q = r

/-- A state with a stream replaced; a write of SV_RPL gives up the tenant's open intervals. -/
def withStream (s : State) (t n : Nat) (q : Stream) : State :=
  let u : State := { s with streams := AMap.put {} s.streams t q }
  if n = 0x505 then u.dropIntervals t else u

/-- What a write of a register of the group or its team changes. -/
def localWrite (s : State) (g : Group) (n : Nat) (w : Word64) : Option State :=
  let onG (y : GSys) := some (s.setGroup s.cur { g with sys := y })
  match n with
  | 0x000 => onG { g.sys with fpsr := BitVec.ofNat 5 w.toNat }
  | 0x50A => onG { g.sys with step := bitAt w.toNat 0, stepHold := bitAt w.toNat 1 }
  | 0x700 => some (s.modTeam g.team fun t => { t with tbase := w })
  | 0x702 => onG { g.sys with epc := w }
  | 0x706 => onG { g.sys with scr0 := w }
  | 0x707 => onG { g.sys with scr1 := w }
  | _ => none

/-! ## Pre-emption -/

/-- A cluster of one resident team that runs on, of a grid. -/
structure OneTeam (s : State) (cid tid : Nat) (c : Cluster) (t : Team) (gr : Grid) : Prop where
  cluster : s.cluster? cid = some c
  grid : s.grid? c.grid = some gr
  teams : c.teams = [tid]
  team : s.team? tid = some t
  up : t.cluster = cid
  resident : t.resident = true
  live : t.retired = false
  free : t.treat = .no
  quiet : Untraced s

/-- PRE_STAT (18 Table 18-6): LAST, and whether NOSLOT or DOVER stands. -/
def lastTreated (s : State) (core : Nat) : Nat := (s.core core).preStat.toNat / 64
def noSlot (s : State) (core : Nat) : Bool := bitAt (s.core core).preStat.toNat 5
def drainOver (s : State) (core : Nat) : Bool := bitAt (s.core core).preStat.toNat 4

/-- A save of a team has begun, to a slot (18 R402, R405): groups that run stop at once, or are asked to stop
at a safe point where the launch allows side saves. -/
def SaveBegun (s v : State) (tid slot tenant : Nat) (t : Team) (side : Bool) (leaveH : Bool) : Prop :=
  ∃ q, v.team? tid = some q ∧ q = { t with treat := .save, ctxSlot := some slot, gate := false, leaveH := leaveH } ∧
    slot ∈ (v.tenant tenant).slots ∧ lastTreated v t.core = 3 ∧ noSlot v t.core = false ∧
    (∀ k ∈ t.groups, ∀ g, s.group? k = some g → g.ended = false → g.frozen = false → g.sys.skid = none →
      g.shadow = none → g.held = none → g.trc.rec? = none →
      (side = true → g.sys.high = false → g.sys.stopped = false →
        v.group? k = some { g with stopReq := some s.clk }) ∧
      (side = false → v.group? k = some { g with
        frozen := true, stopReq := none, want := none, fbuf := [], live := none })) ∧
    ((∀ k ∈ t.groups, ∀ g, s.group? k = some g → g.trc.rec? = none) → v.mem = s.mem)

/-- The one team of a cluster has been pre-empted (18 R399 to R402): flushed where it is idempotent and clean,
drained where its remaining time is within the budget, and saved otherwise, if its tenant has a slot. -/
def Preempted (s v : State) (cid tid : Nat) (c : Cluster) (t : Team) (gr : Grid) : Prop :=
  let y := s.tenant gr.rcd.tenant
  let flush := bitAt t.hdr.flags 0 = true ∧ t.clean = true
  ((t.agent = true ∨ (¬ flush ∧ s.mayDrain t = false)) →
    (∀ slot, y.freeSlots 1 = some [slot] → SaveBegun s v tid slot gr.rcd.tenant t gr.rcd.side t.leaveH) ∧
    (y.freeSlots 1 = none → v.team? tid = some t ∧ noSlot v t.core = true ∧ v.groups = s.groups)) ∧
  (t.agent = false → ¬ flush → s.mayDrain t = true →
    v.team? tid = some { t with treat := .drain (s.clk + s.realClocks y.budget.toNat) } ∧
    lastTreated v t.core = 2 ∧ v.groups = s.groups) ∧
  (t.agent = false → flush → t.bin = none →
    (∃ q gr', v.team? tid = some q ∧ q.retired = true ∧ v.grid? c.grid = some gr' ∧ c.index ∈ gr'.again) ∧
    (∀ k ∈ t.groups, v.group? k = none) ∧ tid ∉ (v.core t.core).teams ∧
    (∃ c', v.cluster? cid = some c' ∧ c'.lvl = []) ∧ lastTreated v t.core = 1)

/-- Everything of a team has stopped and completed (18 R403). -/
structure Stopped (s : State) (tid : Nat) (t : Team) : Prop where
  save : t.treat = .save
  resident : t.resident = true
  live : t.retired = false
  groups : ∀ k ∈ t.groups, ∀ g, s.group? k = some g → g.ended = true ∨ g.frozen = true ∨ g.sys.stopped = true
  pending : ∀ p ∈ s.pending, p.gid ∉ t.groups
  cmds : ∀ x ∈ (s.core t.core).cmds, x.team ≠ tid
  locks : ∀ x ∈ (s.core t.core).locks, x.team ≠ tid
  parks : ∀ x ∈ (s.core t.core).parks, x.gid ∉ t.groups

/-! ## Tasks and launches -/

/-- A cluster of a grid has been placed at an origin (14 R302, R303, R307): one team on each enabled core of the
rectangle, with its share of the groups. -/
def PlacedAt (s t : State) (id i o : Nat) (gr : Grid) : Prop :=
  let p := gr.rcd.shape
  let en := s.rectSites p o
  ∃ gr' cid c, t.grid? id = some gr' ∧ gr'.clusters = gr.clusters ++ [cid] ∧ gr'.waiting = false ∧
    t.cluster? cid = some c ∧ c.grid = id ∧ c.index = i ∧ c.die = o / 36 ∧ c.lvl = [] ∧
    c.teams.length = en.length ∧
    ∀ j < en.length, ∃ tm, t.team? (c.teams.getD j 0) = some tm ∧ tm.cluster = cid ∧ tm.index = j ∧
      tm.core = s.coreOfPsi (en.getD j 0) ∧ tm.hdr = gr.hdr ∧ tm.resident = true ∧
      tm.groups.length = (p.w * p.h * p.g - j + (en.length - 1)) / en.length

/-- CLUSTER_PLACE and CLUSTER_RETRY of a launch that is not cooperative: placed, or waiting. -/
def PlacesNext (i : Instr) (s : State) (id : Nat) (gr : Grid) : Prop :=
  ∀ n, gr.nextIndex = some n → bitAt gr.hdr.flags 2 = false → Untraced s →
    let pick := s.pickOrigin s.siteUse gr.rcd.shape (needOf gr.rcd gr.hdr gr.binTab) gr.rcd.seed n
    (∀ o, pick = some o → ∃ t, exec i s = .next t ∧ PlacedAt s t id n o gr) ∧
    (pick = none → exec i s = .next (s.modGrid id fun g => { g with waiting := true, retry := false }))

/-! ## Registers of the service agent -/

/-- What a write of a tenant's register makes of the tenant (18 Table 18-1; 06 R114, R118): reserved bits
take no value. -/
def tenantWritten (x : Tenant) (n : Nat) (w : Word64) : Option Tenant :=
  match n with
  | 0x400 => some { x with root := w &&& 0x01FFFFFFFFFFF000 }
  | 0x401 => some { x with fqbase := w &&& 0xFFFFFFFFFFFFF01F }
  | 0x402 => some { x with fqhead := BitVec.ofNat 32 (w.toNat / 2 ^ 32) }
  | 0x701 => some { x with dflt := w }
  | 0x800 => some { x with tslice := BitVec.ofNat 32 w.toNat }
  | 0x801 => some { x with drain := BitVec.ofNat 8 w.toNat }
  | 0x802 => some { x with budget := BitVec.ofNat 32 w.toNat }
  | 0x803 => some { x with ctx := w &&& 0xFFFFFFFFFF00FFFF }
  | _ => none

/-- A state with a tenant replaced. -/
def withTenant (s : State) (t : Nat) (x : Tenant) : State :=
  { s with tenants := AMap.put {} s.tenants t x }

/-- MM_FRESP answers the open fault page of its tenant and sequence number, once (06 R120). -/
def Answers (i : Instr) (s : State) (tenant seq : Nat) (fail : Bool) : Prop :=
  let open_ (p : FaultPage) : Bool := p.tenant == tenant && p.seq % 2 ^ 56 == seq && p.ans.isNone
  (∀ p, s.faults.find? open_ = some p → ∃ t, exec i s = .next t ∧
    (∀ q ∈ s.faults, q.id = p.id → q.waiters ≠ [] → { q with ans := some (fail, s.clk) } ∈ t.faults) ∧
    (∀ q, q.id ≠ p.id → (q ∈ t.faults ↔ q ∈ s.faults)) ∧ t.groups = s.groups ∧ t.mem = s.mem ∧
    t.frespIgnored = s.frespIgnored) ∧
  (s.faults.find? open_ = none → exec i s = .next { s with frespIgnored := s.frespIgnored + 1 })

/-- Writes of tenant registers by their own rows: register, tenant, word. -/
def agentRow : Instr → Option (Nat × Nat × Word64)
  | .mmFqbaseWrite t w => some (0x401, t % 64, w)
  | .mmFqptrHeadWrite t w => some (0x402, t % 64, w)
  | _ => none

/-- Writes of Selvage registers by their own rows. -/
def selvageRow : Instr → Option (Nat × Nat × Word64)
  | .svCtlWrite t w => some (0x500, t % 65, w)
  | .svBaseWrite t w => some (0x501, t % 65, w)
  | .svPtrWrite t w => some (0x502, t % 65, w)
  | .svRplWrite t w => some (0x505, t % 65, w)
  | _ => none

/-- Does a register cell of the group in a slot exist: the group. -/
def atSlot (s : State) (core slot : Nat) (k : Nat) (g : Group) : Prop :=
  s.groupAt core slot = some k ∧ s.group? k = some g

/-- A buffer or level with one of its bytes poisoned, where it holds it precise. -/
def Struck (m q : AMap Held) (key : Nat) : Prop :=
  ∀ k, AMap.at? q k = (AMap.at? m k).map fun h => if k = key ∧ h.ax = false then { h with pois := true } else h

/-- A group whose register cell has been poisoned. -/
def poisonedAt (g : Group) (c : Nat) : Group :=
  { g with regs := { g.regs with pois := NSet.add g.regs.pois c } }


/-! ## The engines -/

/-- A command an instruction gives an engine: guard, engine, scope, destination, block, other sources, what
the command is, and when its operands trap nothing at issue. -/
structure EngRow where
  c : Ctl
  heddle : Bool
  sc : Scope
  d : Option Opd
  blk : Option (Src × Nat)
  more : List Use
  op : EngOp
  fits : List Nat → Prop

/-- An address of a completion record, or none, is aligned and in the address space (15 R340). -/
def RecordFits (a : Nat) : Prop := a % 16 = 0 ∧ (a ≠ 0 → canonical a = true)

/-- The block and completion record of a copy are aligned and in the address space (15 R332, R340). -/
def CopyFits (x : Nat) (b : List Nat) : Prop :=
  nth b 0 % 64 = 0 ∧ canonical (nth b 0) = true ∧ RecordFits (nth b 5) ∧ x % 16 = 0

/-- A multiply's blocks lie on lines and its count fits its unit (16 R361, R367, R370). -/
def MultiplyFits (unit : Nat) (b : List Nat) : Prop :=
  nth b 0 % 256 = 0 ∧ nth b 1 % 256 = 0 ∧ nth b 2 % unit = 0 ∧ unit ≤ nth b 2 ∧ nth b 2 ≤ 65536 ∧ RecordFits (nth b 4)

/-- A conversion between planes and bytes fits (16 R378). -/
def PackFits (lo hi : Nat) (b : List Nat) : Prop :=
  nth b 0 % 256 = 0 ∧ nth b 1 % 256 = 0 ∧ nth b 2 % 2 ^ 32 % 256 = 0 ∧
  nth b 2 / 2 ^ 32 % 256 = 0 ∧ lo ≤ nth b 2 % 2 ^ 32 ∧ hi ≤ nth b 2 / 2 ^ 32 ∧ RecordFits (nth b 4)

/-- A peer transfer is aligned, of at most 64 MiB, and its local buffer lies in the address space (15 R351). -/
def PeerFits (w : List Nat) : Prop :=
  nth w 1 % 16 = 0 ∧ nth w 2 % 16 = 0 ∧ nth w 3 % 16 = 0 ∧ RecordFits (nth w 5) ∧ nth w 3 ≤ 2 ^ 26 ∧
    globalOk (nth w 2) (nth w 3) = true

/-- 15 R331, R342 to R351; 16 R357, R367 to R378: the commands, with the ranges of operands that trap
nothing at issue. -/
def engRow (s : State) (g : Group) : Instr → Option EngRow
  | .qcp c dst sc d blk b => some ⟨c, false, sc, some d, some (blk, 6), [scalUse b], .qcp dst false (sv g b),
      fun w => CopyFits (sv g b) w ∧ ∀ n, dst = .ring n → ((s.teamOf g).bind fun t => t.ring? n) ≠ none⟩
  | .qcpSt c dst sc d blk b => some ⟨c, false, sc, some d, some (blk, 6), [scalUse b], .qcp dst true (sv g b),
      fun w => CopyFits (sv g b) w ∧ ∀ n, dst = .ring n → ((s.teamOf g).bind fun t => t.ring? n) ≠ none⟩
  | .qcpm c d blk b e => (s.followOf g (sv g e)).map fun f =>
      ⟨c, false, .dev, some d, some (blk, 6), [scalUse b, scalUse e] ++ s.followUses e,
        .qcpm (sv g b) (if g.onLanes f.c = 0 then none else some f), CopyFits (sv g b)⟩
  | .qmc c sc d blk b e => (s.clusterOf g).map fun cl =>
      ⟨c, false, sc, some d, some (blk, 6), [scalUse b, scalUse e], .qmc (sv g b) (sv g e % 4096),
        fun w => CopyFits (sv g b) w ∧ sv g e % 4096 < 2 ^ cl.teams.length⟩
  | .qcol c sc d blk => some ⟨c, false, sc, some d, some (blk, 3), [], .qcol,
      fun w => nth w 0 % 64 = 0 ∧ canonical (nth w 0) = true ∧ RecordFits (nth w 2)⟩
  | .qput c sc d blk => some ⟨c, false, sc, some d, some (blk, 6), [], .qput, PeerFits⟩
  | .qget c sc d blk => some ⟨c, false, sc, some d, some (blk, 6), [], .qget, PeerFits⟩
  | .hmm c ax (.acc n) blk fa fb => some ⟨c, true, .dev, none, some (blk, 5), [], .hmm ax n fa fb,
      MultiplyFits 256⟩
  | .hmmf c (.acc n) blk fa fb => some ⟨c, true, .dev, none, some (blk, 5), [], .hmmf n fa fb,
      MultiplyFits 64⟩
  | .hclr c fp (.acc n) => some ⟨c, true, .dev, none, none, [], .hclr fp n, fun _ => True⟩
  | .hacl c fp (.acc n) blk => some ⟨c, true, .dev, none, some (blk, 3), [], .hacl fp n,
      fun w => nth w 0 % 256 = 0 ∧ RecordFits (nth w 2)⟩
  | .hdrn c m sc (.acc n) blk fo => some ⟨c, true, sc, none, some (blk, 10), [], .hdrn m n fo, fun w =>
      (m.act = true → bitsAt (nth w 4) 23 8 ≠ 255 ∧
        (fCmp fmt32 .lt (nth w 4 % 2 ^ 32) (nth w 4 / 2 ^ 32)).1 = true ∧ nth w 3 % 64 = 0 ∧
        canonical (nth w 3) = true) ∧
      nth w 0 % 16 = 0 ∧ nth w 1 % 2 ^ 32 % 16 = 0 ∧
      (m.bias = true → nth w 2 % 64 = 0 ∧ canonical (nth w 2) = true) ∧
      (m.amax = true → nth w 5 % 4 = 0) ∧ nth w 6 % 64 = 0 ∧ nth w 7 % 64 = 0 ∧ canonical (nth w 6) = true ∧
      canonical (nth w 7) = true ∧ RecordFits (nth w 9)⟩
  | .bpack c blk fs => some ⟨c, true, .dev, none, some (blk, 5), [], .bpack fs, PackFits 256 4096⟩
  | .bunpk c blk fs => some ⟨c, true, .dev, none, some (blk, 5), [], .bunpk fs, PackFits 4096 256⟩
  | _ => none

/-- The values of an operand block, one register after another (15 R331). -/
def blockOf (g : Group) : Option (Src × Nat) → List Nat
  | none => []
  | some (a, n) => (List.range n).map fun i => (g.rdS (opPlus a.o i)).toNat

/-- The command that a row puts into its queue. -/
def EngRow.cmd (r : EngRow) (i : Instr) (s : State) (g : Group) : Cmd where
  id := s.nextId
  heddle := r.heddle
  gid := s.cur
  team := g.team
  i := i
  c := r.c
  pc := g.ctl.pc
  op := r.op
  sc := r.sc
  d := r.d
  blk := blockOf g r.blk
  code := if r.heddle then s.codeOf g.team else 0

/-- A command heads the commands of its engine that wait for acceptance, nothing keeps its group from
issuing, and its core's range-lock table is within its size. -/
structure Heads (s : State) (core : Nat) (c : Cmd) (g : Group) (t : Team) : Prop where
  head : (s.engCmds core c.heddle).find? (·.st == .queued) = some c
  group : s.group? c.gid = some g
  team : s.team? c.team = some t
  may : s.issuable c.gid { g with held := none } = true
  free : s.committing c.gid = false
  started : g.trc.started = true
  unlogged : g.trc.rec? = none
  skid : g.sys.skid = none
  stepping : g.sys.stepping = false
  room : (s.core core).locks.length ≤ 64

/-- A command names no range, no completion record and no task. -/
def Idle (c : Cmd) : Prop :=
  (c.op = .qput ∨ c.op = .qget) ∧ nth c.blk 3 = 0 ∧ nth c.blk 4 = 0 ∧ nth c.blk 5 = 0 ∧
    canonical (nth c.blk 2) = true

/-- Weft reaches a peer: the device is out of reduced service, and a port of the peer's PORTS is up (23 R481, R485). -/
def Reaches (s : State) (peer : Nat) : Prop :=
  s.boot.stage = 3 ∧ ∃ p < 8, (AMap.get 0 s.plat.wpeer peer).toNat.testBit p = true ∧
    (AMap.get 0 s.plat.link (4 + p)).toNat % 8 = 2

/-- The command that a core lists under a number. -/
def Named (s : State) (core id : Nat) (c : Cmd) : Prop := s.cmd? core id = some c ∧ c.id = id


/-! ## Trace and replay -/

/-- The least number of bytes that holds n, at most 8 (21 R437). -/
def leastBytes (n : Nat) : Nat := ((List.range 8).find? fun k => n < 256 ^ k).getD 8

/-- A packet in its stream: header byte, the difference to the last stamp in the fewest bytes, payload (21 R437). -/
def packetBytes (last : Nat) (p : Pkt) : List Byte :=
  let d := max last p.stamp - last
  [BitVec.ofNat 8 (p.ty * 8 + leastBytes d)] ++ leBytes (leastBytes d) d ++ p.body

/-- Nothing stands between a packet and its stream's buffer: no loss to report, no SYNC due (21 R441, R442). -/
structure PlainStream (now : Nat) (r : Stream) (p : Pkt) : Prop where
  drops : r.drops = 0
  due : r.syncDue = false
  clock : r.syncTus = 0 ∨ now < r.lastSync + 4000 * r.syncTus.toNat
  count : r.syncN = 0 ∨ r.sinceSync < r.syncN.toNat
  delta : max r.lastStamp p.stamp - r.lastStamp < 2 ^ 56

/-- The log of a stream is on and has room for any record (21 R451). -/
structure LogRoom (s : State) (g : Group) (h : Nat) (r : RplRec) : Prop where
  size : ∃ lg, (s.stream (s.tenantOf g)).logSize = some lg ∧ (s.stream (s.tenantOf g)).rplOff + 65600 ≤ 2 ^ lg
  team : (s.teamOf g).isSome
  grid : (s.gridOf g).isSome
  record : AMap.at? (s.stream (s.tenantOf g)).rplLog h = some r
  fresh : h < s.nextId


/-! ## The platform -/

/-- Vector 0 is signalled to the host (23 R477). -/
def told (s : State) : State := { s with plat := { s.plat with msix := 0 :: s.plat.msix } }

/-- An image passes: signature, a fused key that is not revoked, version (23 R479). -/
def Passes (s : State) (image : List Byte) : Prop :=
  Config.verifies (Config.imageKey image) (Config.imageBare image) (Config.imageSig image) = true ∧
  (∃ i < 4, i ∉ s.fuses.revoked ∧ s.fuses.keys[i]? = some (Config.hash (Config.imageKey image))) ∧
  s.fuses.rollback ≤ Config.imageVersion image

/-- What an image that has arrived makes of the machine, and vector 0 where BOOT_STAGE or BOOT_STAT has changed (23
R477, R479, R480). -/
def Booted (s t : State) (image : List Byte) (net : Bool) : Prop :=
  (Passes s image → t.boot = { s.boot with
      stage := 1, net := net, chunks := [], keyx := s.boot.keyx || decide (65536 ≤ s.fuses.boots)
      log := Config.hash (List.replicate 64 0 ++ Config.hash image), entries := [Config.hash image] } ∧
    t.fuses = { s.fuses with boots := if s.fuses.boots < 65536 then s.fuses.boots + 1 else s.fuses.boots } ∧
    t.plat.msix = 0 :: s.plat.msix) ∧
  (¬ Passes s image → t.boot = { s.boot with rej := true, chunks := [] } ∧ t.fuses = s.fuses ∧
    t.plat.msix = if s.boot.rej then s.plat.msix else 0 :: s.plat.msix) ∧
  t.mem = s.mem

/-- No segment of the repair table is bad in both copies (18 R410). -/
def Repaired (s : State) : Prop := ∀ seg, s.plat.bad0.has seg = true → s.plat.bad1.has seg = false

/-- Where a dirty value of a byte is held, its line is dirty in some cache. -/
def Marked (s : State) (k : Nat) : Prop :=
  AMap.at? s.dirty k = none ∨ (s.line (lineOf k)).l2d.isSome ∨ (s.line (lineOf k)).l3d = true ∨
    (s.line (lineOf k)).own.isSome

/-- MM_CKST takes a code and a state, with vector 0 where that is a change (23 R477, R487). -/
def ckDone (s t : State) (code state : Nat) : Prop :=
  t.plat.ckCode = code ∧ t.plat.ckState = state ∧
    t.plat.msix = if s.plat.ckCode = code ∧ s.plat.ckState = state then s.plat.msix else 0 :: s.plat.msix

/-- An operation has ended in u, and what was held is then performed in order. -/
def Released (s t u : State) : Prop :=
  u.plat.heldOps = s.plat.heldOps ∧
    (s.plat.heldOps = [] ∨ s.holds u.releaseHeld = false → t = u.releaseHeld) ∧
    u.releaseHeld = u.plat.heldOps.foldl State.access { u with plat := { u.plat with heldOps := [] } }

/-- The row that performs a host or peer access. -/
def HeldRow : HeldOp → Instr → Prop
  | .hostWrite pa bs, i => i = .hostPostedWrite pa bs
  | .hostRead pa n, i => i = .hostRead pa n
  | .peerWrite p va bs, i => p < 64 ∧ va < 2 ^ 64 ∧ i = .weftPeerWrite p (BitVec.ofNat 64 va) bs
  | .peerRead p va n, i => p < 64 ∧ va < 2 ^ 64 ∧ i = .weftPeerRead p (BitVec.ofNat 64 va) n


/-! ## Steps -/

/-- What stands between a group's turn and its instruction is absent: the words of the instruction are at hand
and leave the state u, and no stop, snapshot, failed commit, skid or breakpoint comes before it (02 R23, R35; 04
R57; 18 R393; 21 R449, R459). -/
structure FetchesPlain (s : State) (k : Nat) (g : Group) (w w1 : Nat) (u : State) : Prop where
  group : s.group? k = some g
  active : g.ctl.act ≠ 0
  stop : g.stopReq = none
  log : (s.stream (s.tenantOf g)).logSize = none
  failed : g.mem.failed = []
  pc : canonical g.ctl.pc.toNat = true
  skid : g.sys.skid = none
  words : ∃ x, s.fetchWord k g.ctl.pc = .ok (w, x) ∧ (bitAt w 0 = false → w1 = 0 ∧ u = x) ∧
    (bitAt w 0 = true → canonical (g.ctl.pc + 8).toNat = true ∧ x.fetchWord k (g.ctl.pc + 8) = .ok (w1, u))
  brk : s.brkAt (s.tenantOf g) g.ctl.pc = none

/-- The machine as a turn finds it: what the turn says of the clocks has passed. -/
def turned (s : State) : State :=
  match s.turns with
  | [] => s.pass 1
  | t :: rest => ({ s with turns := rest } : State).pass t.dt

/-- Worked words of the spec, class by class (02 to 22). -/
def controlWords : List (Nat × Instr) :=
  [(0x0138000000000000, .nop ⟨false, 7⟩),
   (0x020FFFFFD8000000, .bra ⟨false, 1⟩ (-5)),
   (0x0210000018000000, .bra ⟨false, 2⟩ 3),
   (0x0238000018000000, .bra ⟨false, 7⟩ 3),
   (0x033FFFFFE8280002, .bru ⟨false, 7⟩ .nz ⟨.s 5, false⟩ (-3)),
   (0x0638003000000000, .callx ⟨false, 7⟩ ⟨.v 6, false⟩),
   (0x0738000000000000, .ret),
   (0x0838000000000000, .join),
   (0x0A38100008000010, .plog ⟨false, 7⟩ (.p 2) (.p 0) (.p 1) 8),
   (0x0B38083800000006, .voteLeader ⟨false, 7⟩ (.p 1) (.p 7)),
   (0x0C38001018000002, .ipf ⟨false, 7⟩ true ⟨.s 2, false⟩ ⟨.s 3, false⟩),
   (0x0E38000000000002, .runaOn ⟨false, 7⟩)]

def integerWords : List (Nat × Instr) :=
  [(0x2038180810020100, .iadd ⟨false, 7⟩ ⟨false, false, .i32⟩ (.v 3) ⟨.v 1, false⟩ ⟨.v 2, true⟩),
   (0x203820200100C300, .iaddImm ⟨false, 7⟩ ⟨false, true, .b64⟩ (.s 4) ⟨.s 4, false⟩ 0x100),
   (0x2050382FFFFD8100, .iaddImm ⟨true, 2⟩ ⟨false, false, .i32⟩ (.v 7) ⟨.v 5, false⟩ (-3)),
   (0x283828081018402C, .lop ⟨false, 7⟩ false .b32 (.v 5) ⟨.v 1, false⟩ ⟨.v 2, false⟩ ⟨.v 3, false⟩ 0x96),
   (0x2A386058003EC300, .shrImm ⟨false, 7⟩ ⟨false, true, .b64⟩ (.s 12) ⟨.s 11, false⟩ 62),
   (0x32380820000A8108, .icmpImm ⟨false, 7⟩ ⟨false, false, .i32⟩ .lt (.p 1) ⟨.v 4, false⟩ 10),
   (0x3238100010000204, .icmp ⟨false, 7⟩ ⟨false, false, .n32⟩ .lt (.p 2) ⟨.v 0, false⟩ ⟨.v 2, false⟩),
   (0x353808015F904300, .movi ⟨false, 7⟩ ⟨false, true, .b64⟩ (.s 1) 0x15F90),
   (0x3638000000000200, .ident ⟨false, 7⟩ false .lane (.v 0)),
   (0x37BE16100080000A, .xlane ⟨false, 7⟩ true .xor .b32 (.x 2) ⟨.x 2, false⟩ (.imm 16)),
   (0x37BE1E100020000A, .xlane ⟨false, 7⟩ true .xor .b32 (.x 3) ⟨.x 2, false⟩ (.imm 4)),
   (0x3838501030180100, .lea ⟨false, 7⟩ ⟨false, false, .i32⟩ (.v 10) ⟨.v 2, false⟩ ⟨.v 6, false⟩ 3),
   (0x3938404800000622, .cvti ⟨false, 7⟩ ⟨false, false, .i16⟩ .i32 true (.v 8) ⟨.v 9, false⟩)]

def memoryWords : List (Nat × Instr) :=
  [(0x4008482000000100, .ld ⟨false, 1⟩ false .b16 false (.v 9) ⟨false, ⟨.v 4, false⟩, 0, none⟩),
   (0x40383017FFF88200, .ld ⟨false, 7⟩ false .b32 false (.v 6) ⟨true, ⟨.s 2, false⟩, (-8), none⟩),
   (0x40BE082000000100, .ld ⟨false, 7⟩ true .b16 false (.x 1) ⟨false, ⟨.v 4, false⟩, 0, none⟩),
   (0x40BE201000060100, .ld ⟨false, 7⟩ true .b16 false (.x 4) ⟨false, ⟨.v 2, false⟩, 6, none⟩),
   (0x4108403000000100, .st ⟨false, 1⟩ false .b16 ⟨.v 8, false⟩ ⟨false, ⟨.v 6, false⟩, 0, none⟩),
   (0x4138001002FF4200, .st ⟨false, 7⟩ false .b32 ⟨.v 0, false⟩ ⟨false, ⟨.v 2, false⟩, 0, some ⟨.v 0, 2, none, false⟩⟩),
   (0x4138201044FF4400, .st ⟨false, 7⟩ false .b128 ⟨.v 4, false⟩ ⟨false, ⟨.v 2, false⟩, 0, some ⟨.v 8, 4, none, false⟩⟩),
   (0x41BE281000000200, .st ⟨false, 7⟩ true .b32 ⟨.x 5, false⟩ ⟨false, ⟨.v 2, false⟩, 0, none⟩),
   (0x423840180040B200, .lds ⟨false, 7⟩ false .b32 false true true (.v 8) ⟨true, ⟨.s 3, false⟩, 64, none⟩),
   (0x443840400CFF7400, .ldr ⟨false, 7⟩ false .b128 false true true (.v 8) ⟨0, true, 0, some ⟨.v 1, 4, none, false⟩⟩),
   (0x453850102BFF5300, .str ⟨false, 7⟩ false .b64 true ⟨.v 10, false⟩ ⟨2, false, 0, some ⟨.v 5, 3, none, false⟩⟩),
   (0x4738002030400006, .stmap ⟨false, 7⟩ 3 ⟨.s 4, false⟩ ⟨.s 6, false⟩ ⟨.s 8, false⟩),
   (0x4938002028000002, .femFull ⟨false, 7⟩ ⟨.s 4, false⟩ ⟨.s 5, false⟩),
   (0x4A38480000000002, .ringq ⟨false, 7⟩ 1 (.s 9)),
   (0x4B38381018000002, .cwbMem ⟨false, 7⟩ (.s 7) ⟨.s 2, false⟩ ⟨.s 3, false⟩)]

def floatWords : List (Nat × Instr) :=
  [(0x60BE1E1E08000900, .fadd ⟨false, 7⟩ ⟨true, .ne, .f16⟩ (.x 3) ⟨.x 3, false⟩ ⟨.x 1, false⟩),
   (0x62384849FE008800, .fmulImm ⟨false, 7⟩ ⟨false, .ne, .f32⟩ (.v 9) ⟨.v 9, false⟩ 0x1FE00),
   (0x62BE160E08000900, .fmul ⟨false, 7⟩ ⟨true, .ne, .f16⟩ (.x 2) ⟨.x 1, false⟩ ⟨.x 1, false⟩),
   (0x6338200810181800, .fma ⟨false, 7⟩ ⟨false, .rz, .f32⟩ (.v 4) ⟨.v 1, false⟩ ⟨.v 2, false⟩ ⟨.v 3, false⟩),
   (0x6358484850480800, .fma ⟨true, 3⟩ ⟨false, .ne, .f32⟩ (.v 9) ⟨.v 9, false⟩ ⟨.v 10, false⟩ ⟨.v 9, false⟩),
   (0x67381009F8008808, .fcmpImm ⟨false, 7⟩ .f32 .lt (.p 2) ⟨.v 1, false⟩ 0x1F800),
   (0x6738184000008800, .fcmpImm ⟨false, 7⟩ .f32 .eq (.p 3) ⟨.v 8, false⟩ 0),
   (0x6838302800001110, .fcvt ⟨false, 7⟩ ⟨false, .rz, .i32⟩ .f32 false (.v 6) ⟨.v 5, false⟩ none),
   (0x6B58484000000800, .frsqs ⟨true, 3⟩ (.v 9) ⟨.v 8, false⟩),
   (0x7438A0A038000D00, .xacc ⟨false, 7⟩ .bf16x2 ⟨.v 20, false⟩ ⟨.v 7, false⟩)]

def approximateWords : List (Nat × Instr) :=
  [(0x80383E2800000000, .endorse ⟨false, 7⟩ .b32 (.v 7) ⟨.x 5, false⟩),
   (0x8038461000000000, .endorse ⟨false, 7⟩ .b32 (.v 8) ⟨.x 2, false⟩),
   (0x813818000000000C, .rail ⟨false, 7⟩ (.s 3) (some 6) none),
   (0x8238200000000000, .railq ⟨false, 7⟩ (.s 4)),
   (0x8338281000000000, .tolq ⟨false, 7⟩ (.s 5) ⟨.s 2, false⟩)]

def visibilityWords : List (Nat × Instr) :=
  [(0x9038000000000400, .cmt ⟨false, 7⟩ .sys false (.s 0)),
   (0x9038280000000800, .cmt ⟨false, 7⟩ .grp true (.s 5)),
   (0x9038580000000800, .cmt ⟨false, 7⟩ .grp true (.s 11)),
   (0x9038780000000300, .cmt ⟨false, 7⟩ .dev false (.s 15)),
   (0x9138301018000102, .abt ⟨false, 7⟩ .team (.s 6) (some (⟨.s 2, false⟩, ⟨.s 3, false⟩))),
   (0x9138402848000002, .abt ⟨false, 7⟩ .grp (.s 8) (some (⟨.s 5, false⟩, ⟨.s 9, false⟩))),
   (0x9238000000000300, .fence ⟨false, 7⟩ .dev),
   (0x933820100000A200, .lda ⟨false, 7⟩ .dev .b32 false (.v 4) ⟨true, ⟨.s 2, false⟩, 0, none⟩),
   (0x933840200000A200, .lda ⟨false, 7⟩ .dev .b32 false (.v 8) ⟨true, ⟨.s 4, false⟩, 0, none⟩),
   (0x9438380000000000, .bufq ⟨false, 7⟩ (.s 7))]

def atomicWords : List (Nat × Instr) :=
  [(0xA038482030003200, .atom ⟨false, 7⟩ .add .dev .n32 (some (.v 9)) ⟨.v 4, false⟩ ⟨.v 6, false⟩ none),
   (0xA038502030402310, .atom ⟨false, 7⟩ .cas .clu .b64 (some (.v 10)) ⟨.v 4, false⟩ ⟨.v 6, false⟩ (some ⟨.v 8, false⟩)),
   (0xA238002038003800, .xadd ⟨false, 7⟩ .dev .f32 ⟨.v 4, false⟩ ⟨.v 7, false⟩),
   (0xA438100000000006, .barv ⟨false, 7⟩ 3 (.s 2)),
   (0xA638280000000018, .tkt ⟨false, 7⟩ 12 (.s 5)),
   (0xA938301018203000, .park ⟨false, 7⟩ .dev (.s 6) ⟨.s 2, false⟩ ⟨.s 3, false⟩ ⟨.s 4, false⟩),
   (0xA938504048583000, .park ⟨false, 7⟩ .dev (.s 10) ⟨.s 8, false⟩ ⟨.s 9, false⟩ ⟨.s 11, false⟩)]

def taskWords : List (Nat × Instr) :=
  [(0xB038003000000006, .spawn ⟨false, 7⟩ 3 ⟨.v 6, false⟩),
   (0xB138000000000006, .binf ⟨false, 7⟩ 3),
   (0xB238281018000000, .tpostRec ⟨false, 7⟩ (.s 5) ⟨.s 2, false⟩ ⟨.s 3, false⟩),
   (0xB238281018000026, .tpostBin ⟨false, 7⟩ 3 (.s 5) ⟨.s 2, false⟩ ⟨.s 3, false⟩),
   (0xB338302838000000, .tdec ⟨false, 7⟩ (.s 6) ⟨.s 5, false⟩ ⟨.s 7, false⟩),
   (0xB438402800000000, .tq ⟨false, 7⟩ (.s 8) ⟨.s 5, false⟩),
   (0xB538687000000000, .lnch ⟨false, 7⟩ (.s 13) ⟨.s 14, false⟩)]

def engineWords : List (Nat × Instr) :=
  [(0xC038488020008304, .qcp ⟨false, 7⟩ (.ring 2) .dev (.s 9) ⟨.s 16, false⟩ ⟨.s 4, false⟩),
   (0xC1384880B0B80300, .qcpm ⟨false, 7⟩ (.s 9) ⟨.s 16, false⟩ ⟨.s 22, false⟩ ⟨.s 23, false⟩),
   (0xC338488000000300, .qcol ⟨false, 7⟩ .dev (.s 9) ⟨.s 16, false⟩),
   (0xC638384000000002, .qstatCmd ⟨false, 7⟩ (.s 7) ⟨.s 8, false⟩),
   (0xD238000000000010, .hclr ⟨false, 7⟩ true (.acc 0)),
   (0xD43800800000FB0A, .hdrn ⟨false, 7⟩ ⟨true, true, true, true, true, false⟩ .dev (.acc 0) ⟨.s 16, false⟩ 5),
   (0xD43810A00000F31A, .hdrn ⟨false, 7⟩ ⟨true, true, true, true, false, true⟩ .dev (.acc 2) ⟨.s 20, false⟩ 5),
   (0xD538008000000304, .bpack ⟨false, 7⟩ ⟨.s 16, false⟩ 2),
   (0xD73838000000000A, .fmtqSlot ⟨false, 7⟩ (.s 7) 5),
   (0xD738680000000010, .fmtqAcc ⟨false, 7⟩ (.s 13) 0)]

def systemWords : List (Nat × Instr) :=
  [(0xE03800000000000A, .trap ⟨false, 7⟩ 5),
   (0xE138000000000000, .rtt),
   (0xE138000000000002, .rttSkip),
   (0xE238281000140004, .srd ⟨false, 7⟩ 0x14 (.s 5) (some (.s 2))),
   (0xE238403800140004, .srd ⟨false, 7⟩ 0x14 (.s 8) (some (.s 7))),
   (0xE538000800000000, .sleep ⟨false, 7⟩ ⟨.s 1, false⟩),
   (0xE538002000000000, .sleep ⟨false, 7⟩ ⟨.s 4, false⟩),
   (0xE638000000000000, .spt ⟨false, 7⟩),
   (0xF03800200000000A, .tmark ⟨false, 7⟩ 5 ⟨.s 4, false⟩),
   (0xF138000000000000, .msmp ⟨false, 7⟩),
   (0xF238300000000000, .rmark ⟨false, 7⟩ (.s 6)),
   (0xF338380000000024, .pcnt ⟨false, 7⟩ (.s 7) 0x12),
   (0xF438401000000000, .vclk ⟨false, 7⟩ (.s 8) ⟨.s 2, false⟩)]

/-- Words the spec writes out in its worked encodings and programs, with what it says they are. -/
def specWords : List (Nat × Instr) :=
  controlWords ++ integerWords ++ memoryWords ++ floatWords ++ approximateWords ++ visibilityWords ++ atomicWords ++ taskWords ++ engineWords ++ systemWords

/-- 02 Table 2-10: the words that the table refuses, under a header with v=32, x=8 and s=8. -/
def specFates : List (Nat × Decoded) :=
  [(0x0000000000000000, .illegal), (0x0178000000000000, .illegal), (0x2038180810020101, .illegal),
   (0x2038180810020E00, .illegal), (0x2039400810020100, .illegal), (0x20381E1810020100, .type),
   (0x20381E4810020100, .illegal), (0xFF38000000000000, .illegal)]


end Sys2Proof.Claims

open Sys2Proof Sys2Proof.Machine Sys2Proof.Claims

/-- 05 R91: every arithmetic form writes its wrapped result, raises no flag and changes nothing else. -/
def Obligations.IntegerArithmetic : Prop := IntWrites arithRow

/-- 05 R92, R93, R94: `lop`, the shifts and the funnel shifts. -/
def Sys2Proof.Claims.LogicAndShifts : Prop := IntWrites shiftRow

/-- 05 R95, R96, R97: counts, bit fields and byte permutation. -/
def Sys2Proof.Claims.CountsAndFields : Prop := IntWrites fieldRow

/-- 05 R98; 04 R78, R79: `icmp`, `plog` and the votes that write a predicate. -/
def Obligations.PredicateResults : Prop := PredicateWrites predRow

/-- 05 R99 to R102, R105, R106; 04 R79; 08 R202, R208: select, move, constants, identity, addresses, conversions,
ballots and `endorse`, in their vector and scalar forms. -/
def Sys2Proof.Claims.MovesAndConversions : Prop := LaneWrites laneRow ∧ ScalarWrites scalarRow

/-- 05 R100, third row: `mov sD, vA` takes A of the lowest lane on, and waits on no other lane. -/
def Sys2Proof.Claims.MoveFromLowestLane : Prop :=
  ∀ (c : Ctl) (f : IForm) (d : Opd) (a : Src), f.scal = true → (Instr.mov c f false d a).wf = true →
  ∀ (s : State) (g : Group) (l : Nat) (ls : List Nat), Runs s g → g.on c = l :: ls →
    Usable g [⟨a.o, f.ty.regs, a.bang⟩] [l] → Fillable g [⟨d, 1, false⟩] (g.on c) →
    ∃ t h, exec (.mov c f false d a) s = .next t ∧ IssuedAs s t g h 8 (destCells d 1 (g.on c)) 0 ∧
      h.rdS d = BitVec.ofNat 64 (g.rdN a.o f.ty.regs l % 2 ^ f.ty.width)

/-- 05 R104: `xlane` moves A from active lanes only; it waits on A in the lanes it reads. -/
def Sys2Proof.Claims.LaneExchange : Prop :=
  ∀ (c : Ctl) (ax : Bool) (md : XMode) (ty : Ty) (d : Opd) (a : Src) (b : XArg),
  (Instr.xlane c ax md ty d a b).wf = true → ∀ (s : State) (g : Group), Runs s g →
    Usable g (match b with | .reg b => [⟨b.o, 1, b.bang⟩] | .imm _ => []) (g.on c) →
    let from_ (l : Nat) := xlaneLane md g l (match b with | .reg b => g.rd32 b.o l | .imm n => n)
    Usable g [⟨a.o, ty.regs, a.bang⟩] ((g.on c).map from_) →
    Fillable g [⟨d, ty.regs, false⟩] (g.on c) →
    ∃ t h, exec (.xlane c ax md ty d a b) s = .next t ∧
      IssuedAs s t g h 8 (destCells d ty.regs (g.on c)) 0 ∧
      ∀ l ∈ g.on c, h.rdN d ty.regs l = g.rdN a.o ty.regs (from_ l)

/-- 05 R107; 08 R193: the approximate forms of the compute column write, in each lane, some value that
agrees with the exact result above its low k bits, k from the team's rail code. -/
def Obligations.ApproximateIntegers : Prop :=
  ∀ i r, (arithRow i = some r ∨ shiftRow i = some r) → i.wf = true → r.f.ax = true →
  ∀ (s : State) (g : Group), Runs s g →
    Usable g (r.args.flatMap (Arg.use r.f.scal r.f.ty.regs)) (g.on r.c) →
    Fillable g [⟨r.d, 1, false⟩] (g.on r.c) →
    ∃ t h, exec i s = .next t ∧ IssuedAs s t g h 8 (destCells r.d 1 (g.on r.c)) 0 ∧
      ∀ l ∈ g.on r.c, ∃ v, v / 2 ^ kInt r.f.ty (s.codeOf g.team) =
          r.op (r.args.map (Arg.val false r.f.ty g l)) / 2 ^ kInt r.f.ty (s.codeOf g.team) ∧
        h.rdN r.d 1 l = intExt r.f.ty false v

/-- 04 R71 with R61: a branch reads its condition and checks its target for the group, whatever the guards (where no
lane is on, in the active lanes); one that no lane takes falls through, one that every active lane takes moves
PC, and one that some take pushes or widens a DIV entry and runs the taken lanes. -/
def Sys2Proof.Claims.Branches : Prop :=
  ∀ i c srcs taken tgt size, branchRow i = some (c, srcs, taken, tgt, size) → i.wf = true →
  ∀ (s : State) (g : Group), Runs s g → Untraced s →
    Usable g srcs (if g.on c = [] then lanesOf g.ctl.act else g.on c) → CodeAddr (tgt g.ctl.pc) →
    let on : Mask := if taken g then maskOf (g.on c) else 0
    let off : Mask := g.ctl.act &&& ~~~on
    let next : Word64 := g.ctl.pc + BitVec.ofNat 64 size
    (on = 0 → Moves i s g { g.ctl with pc := next }) ∧
    (on ≠ 0 → off = 0 → Moves i s g { g.ctl with pc := tgt g.ctl.pc }) ∧
    (on ≠ 0 → off ≠ 0 → RoomOnChip g →
      (∀ e rest, g.ctl.stack = e :: rest → e.kind = .div → e.pc = next →
        Moves i s g { g.ctl with
          pc := tgt g.ctl.pc, act := on
          stack := { e with pend := e.pend ||| off, restore := e.restore ||| g.ctl.act } :: rest }) ∧
      ((∀ e rest, g.ctl.stack = e :: rest → ¬ (e.kind = .div ∧ e.pc = next)) →
        Moves i s g { g.ctl with
          pc := tgt g.ctl.pc, act := on
          stack := ⟨next, off, g.ctl.act, 0, 0, .div⟩ :: g.ctl.stack }))

/-- 04 R72, R62: `brx` with one target moves PC; with several, the lanes that share the target of the lowest
active lane run first and the others pend in a BRX entry. -/
def Sys2Proof.Claims.IndexedBranch : Prop :=
  ∀ (c : Ctl) (a : Src), (Instr.brx c a).wf = true → ∀ (s : State) (g : Group), Runs s g → Untraced s →
    Usable g [⟨a.o, 2, a.bang⟩] (g.on c) →
    let tgt (l : Nat) : Word64 := if l ∈ g.on c then BitVec.ofNat 64 (g.rdN a.o 2 l) else g.ctl.pc + 8
    (∀ l ∈ g.on c, CodeAddr (tgt l)) →
    ∀ l ls, lanesOf g.ctl.act = l :: ls →
    ((∀ k ∈ ls, tgt k = tgt l) → Moves (.brx c a) s g { g.ctl with pc := tgt l }) ∧
    ((∃ k ∈ ls, tgt k ≠ tgt l) → RoomOnChip g → HoldsWord s g g.ctl.pc (.brx c a) →
      let m := maskOf (l :: ls.filter fun k => tgt k == tgt l)
      Moves (.brx c a) s g { g.ctl with
        pc := tgt l, act := m
        stack := ⟨0, g.ctl.act &&& ~~~m, g.ctl.act, g.ctl.pc, 0, .brx⟩ :: g.ctl.stack })

/-- 04 R73, R74: `call` enters one function with every calling lane, once its budget is read and fits;
the entry pushed returns to the next instruction. -/
def Sys2Proof.Claims.Calls : Prop :=
  ∀ (i : Instr) (c : Ctl) (u next : Word64) (s : State) (g : Group) (w : Nat),
    ((∃ off, i = .call c off ∧ u = g.ctl.pc + 8 * off.signExtend 64 ∧ next = g.ctl.pc + 8) ∨
     (∃ off, i = .callLong c off ∧ u = g.ctl.pc + off ∧ next = g.ctl.pc + 16)) →
    Runs s g → Untraced s → g.on c ≠ [] → CodeAddr u → RoomOnChip g →
    s.wordAt g u = some w → s.budgetFits g w = true →
    Moves i s g { g.ctl with
      pc := u + 8, act := maskOf (g.on c)
      stack := ⟨next, 0, g.ctl.act, 0, 0, .call⟩ :: g.ctl.stack }

/-- 04 R74: `callx` enters the partition of the lowest calling lane, and the others pend. -/
def Sys2Proof.Claims.IndexedCall : Prop :=
  ∀ (c : Ctl) (a : Src), (Instr.callx c a).wf = true → ∀ (s : State) (g : Group), Runs s g → Untraced s →
    Usable g [⟨a.o, 2, a.bang⟩] (g.on c) →
    let tgt (l : Nat) : Word64 := BitVec.ofNat 64 (g.rdN a.o 2 l)
    ∀ l ls, g.on c = l :: ls →
    (∀ k ∈ g.on c, CodeAddr (tgt k) ∧
      ∃ w, s.wordAt g (tgt k) = some w ∧ s.budgetFits g w = true) →
    RoomOnChip g → HoldsWord s g g.ctl.pc (.callx c a) →
    let m := maskOf (l :: ls.filter fun k => tgt k == tgt l)
    Moves (.callx c a) s g { g.ctl with
      pc := tgt l + 8, act := m
      stack := ⟨g.ctl.pc + 8, maskOf (g.on c) &&& ~~~m, g.ctl.act, g.ctl.pc, 0, .callx⟩ :: g.ctl.stack }

/-- 04 R75: `ret` with no lane pending pops the entry and resumes the lanes that have not exited behind the
call. -/
def Sys2Proof.Claims.Returns : Prop :=
  ∀ (s : State) (g : Group) (e : Entry) (rest : List Entry), Runs s g → Untraced s →
    g.ctl.stack = e :: rest → (e.kind = .call ∨ e.kind = .callx) →
    e.pend &&& ~~~g.ctl.ex = 0 → e.restore &&& ~~~g.ctl.ex ≠ 0 →
    Moves .ret s g { g.ctl with
      pc := e.pc, act := e.restore &&& ~~~g.ctl.ex, stack := rest }

/-- 04 R63, R76: `join` passes an empty stack and a call entry by; at a DIV entry it switches to the
pending path, and restores the lanes once none is pending elsewhere; at a BRX entry it runs the partition of the
lowest pending lane, passing over the lanes whose target is the join itself, and restores the lanes once no other
is pending. -/
def Sys2Proof.Claims.Joins : Prop :=
  ∀ (s : State) (g : Group), Runs s g → Untraced s → (g.ctl.stack = [] → g.ctl.deep = 0) →
    ((g.ctl.stack = [] ∨ (∃ e rest, g.ctl.stack = e :: rest ∧ (e.kind = .call ∨ e.kind = .callx))) →
      Moves .join s g { g.ctl with pc := g.ctl.pc + 8 }) ∧
    (∀ e rest, g.ctl.stack = e :: rest → e.kind = .div → e.pend &&& ~~~g.ctl.ex ≠ 0 → e.pc ≠ g.ctl.pc →
      Moves .join s g { g.ctl with
        pc := e.pc, act := e.pend &&& ~~~g.ctl.ex
        stack := { e with pend := 0, wait := BitVec.ofNat 61 (g.ctl.pc.toNat / 8) } :: rest }) ∧
    (∀ e rest, g.ctl.stack = e :: rest → e.kind = .div → (e.pend &&& ~~~g.ctl.ex = 0 ∨ e.pc = g.ctl.pc) →
      Moves .join s g { g.ctl with
        pc := g.ctl.pc + 8, act := e.restore &&& ~~~g.ctl.ex, stack := rest }) ∧
    (∀ e rest c a, g.ctl.stack = e :: rest → e.kind = .brx → (Instr.brx c a).wf = true →
      HoldsWord s g e.origin (.brx c a) →
      let p := e.pend &&& ~~~g.ctl.ex
      let tgt := indexedTarget g e.origin c a
      let run (q : Mask) (l : Nat) : Prop :=
        let m := maskOf ((lanesOf q).filter fun k => tgt k == tgt l)
        Moves .join s g { g.ctl with
          pc := tgt l, act := m
          stack := { e with pend := q &&& ~~~m, wait := BitVec.ofNat 61 (g.ctl.pc.toNat / 8) } :: rest }
      let others := maskOf ((lanesOf p).filter fun k => tgt k != g.ctl.pc)
      (others = 0 → Moves .join s g { g.ctl with
        pc := g.ctl.pc + 8, act := e.restore &&& ~~~g.ctl.ex, stack := rest }) ∧
      (∀ l ls, lanesOf p = l :: ls → tgt l ≠ g.ctl.pc → run p l) ∧
      (∀ l ls k ks, lanesOf p = l :: ls → tgt l = g.ctl.pc → lanesOf others = k :: ks → run others k))

/-- 04 R77: `exit` removes the lanes on from the mask and records them as exited; PC advances while lanes
remain. Where the last active lane exits, R64 Resume goes on at the first entry with a lane left: its pending path
or partition runs, or its lanes are restored; with none, the group waits for its commits, or ends. -/
def Sys2Proof.Claims.Exits : Prop :=
  ∀ (c : Ctl) (s : State) (g : Group), Runs s g → Untraced s →
    g.ctl.act &&& ~~~(maskOf (g.on c)) ≠ 0 →
    Moves (.exit c) s g { g.ctl with
      pc := g.ctl.pc + 8, act := g.ctl.act &&& ~~~(maskOf (g.on c)), ex := g.ctl.ex ||| maskOf (g.on c) }

/-- The same, where the last active lane exits. -/
def Sys2Proof.Claims.LastExits : Prop :=
  ∀ (c : Ctl) (s : State) (g : Group), Runs s g → Untraced s →
    g.on c ≠ [] → g.ctl.act &&& ~~~(maskOf (g.on c)) = 0 → g.ctl.stack.length ≤ 4096 →
    let ex := g.ctl.ex ||| maskOf (g.on c)
    let goes (ctl : Ctrl) : Prop := Moves (.exit c) s g { ctl with ex := ex }
    ((∀ e ∈ g.ctl.stack, Exhausted ex e) → g.ctl.deep = 0 →
      (s.committing s.cur = true → goes { g.ctl with act := 0, stack := [] }) ∧
      (s.committing s.cur = false → ∃ t h, exec (.exit c) s = .next t ∧ t.group? s.cur = some h ∧
        h.ended = true ∧ h.ctl.act = 0 ∧ h.ctl.stack = [] ∧ h.ctl.ex = ex ∧ h.mem = { ctlDep := h.mem.ctlDep } ∧
        CellsKept g h [] ∧ h.sys = g.sys ∧ Kept s t g ∧ t.pending = s.pending)) ∧
    (∀ gone e rest, g.ctl.stack = gone ++ e :: rest → (∀ x ∈ gone, Exhausted ex x) →
      let p := e.pend &&& ~~~ex
      (p ≠ 0 → e.kind = .div →
        goes { g.ctl with pc := e.pc, act := p, stack := { e with pend := 0 } :: rest }) ∧
      (∀ b a l ls i, lanesOf p = l :: ls → (e.kind = .brx ∧ i = .brx b a ∨ e.kind = .callx ∧ i = .callx b a) →
        i.wf = true → HoldsWord s g e.origin i →
        let tgt := indexedTarget g e.origin b a
        let m := maskOf (l :: ls.filter fun k => tgt k == tgt l)
        goes { g.ctl with
          pc := if e.kind = .callx then tgt l + 8 else tgt l, act := m
          stack := { e with pend := p &&& ~~~m } :: rest }) ∧
      (p = 0 ∨ e.kind = .call → e.restore &&& ~~~ex ≠ 0 →
        goes { g.ctl with
          pc := if e.kind = .div ∨ e.kind = .brx then BitVec.ofNat 64 (e.wait.toNat * 8 + 8) else e.pc
          act := e.restore &&& ~~~ex, stack := rest }))

/-- 04 R82, R83: `nop` only advances PC; `runa.on` and `runa.off` set the group's permission when some lane
is on, and `runa.on` is a `nop` where header flag 4 is 0. -/
def Obligations.NopAndRunAhead : Prop :=
  ∀ (c : Ctl) (s : State) (g : Group), Runs s g →
    (∃ t h, exec (.nop c) s = .next t ∧ IssuedAs s t g h 8 [] 0 ∧ h.runAhead = g.runAhead) ∧
    (∃ t h, exec (.runaOn c) s = .next t ∧ IssuedAs s t g h 8 [] 0 ∧
      h.runAhead = (if g.on c ≠ [] ∧ s.hdrFlag g 4 = true then true else g.runAhead)) ∧
    (∃ t h, exec (.runaOff c) s = .next t ∧ IssuedAs s t g h 8 [] 0 ∧
      h.runAhead = (if g.on c ≠ [] then false else g.runAhead))

/-! ## Operations of other units -/

/-- 04 R81; 06 R151, R152; 08 R211; 11 R258; 12 R277, R281, R283; 14 R321, R322; 21 R467: the group
operations that other units answer. With a lane on, the destination is empty from the issue on and the
operation is pending with what it read; with none, nothing happens but the issue.
A reading of the model in it: log 18. -/
def Obligations.OperationsStart : Prop :=
  ∀ i r, startRow i = some r → i.wf = true → ∀ (s : State) (g : Group), Runs s g →
    Usable g (r.srcs.map scalUse) (g.on r.c) → Fillable g (dstUse r.d) (g.on r.c) →
    ∃ t h, exec i s = .next t ∧
      (g.on r.c = [] → IssuedAs s t g h 8 [] 0) ∧
      (g.on r.c ≠ [] → ∃ p, p.op = r.op s g ∧ p.after = r.after s ∧
        StartedAs Kept (if r.soils then s.soil g.team else s) t g h 8
          (match r.d with | none => [] | some d => destCells d 1 (g.on r.c)) p)

/-- 06 R150; 11 R261, R262; 08 R210; 15 R352; 16 R379; 21 R465, R466: queries answered at issue.
A reading of the model in it: log 18. -/
def Obligations.QueriesAnswer : Prop :=
  ∀ (s : State) (g : Group) i r, queryRow s g i = some r → i.wf = true → Runs s g →
    Usable g r.srcs (g.on r.c) → Fillable g [⟨r.d, 1, false⟩] (g.on r.c) →
    ∃ t h, exec i s = .next t ∧ IssuedAs s t g h 8 (destCells r.d 1 (g.on r.c)) 0 ∧
      (g.on r.c ≠ [] → h.rdS r.d = BitVec.ofNat 64 (r.val s g 0))

/-- 18 R410: `cwb.mem` is not done while a write-back of its range is held. -/
def Sys2Proof.Claims.HeldWriteBack : Prop :=
  ∀ (s : State) (p : Pend) (g : Group) d base len, s.pend? p.id = some p → s.group? p.gid = some g → Untraced s →
    p.op = .cache d 1 base len → (s.cacheRange 1 g.core (s.tenantOf g) base len).2.2.1 = true →
    exec (.cacheOpDone p.id) s = .next s

/-- 04 R81; 06 R151, R152; 08 R211; 12 R281; 14 R321, R322: the event at which a pending operation answers
writes its status register, fills it, and ends the operation; the state beside that is the one the
operation itself leaves. `cwb.mem` is not done while a write-back of its range is held (18 R410). -/
def Obligations.OperationsAnswer : Prop := Sys2Proof.Claims.HeldWriteBack ∧
  ∀ (s : State) (p : Pend) (g : Group) e d w u, s.pend? p.id = some p → p.after = [] →
    s.group? p.gid = some g → g.shadow = none → Untraced s → (s.stream (s.tenantOf g)).rplLog = [] →
    (∃ n, d = .s n) → answerRow s p g = some (e, d, w, u) →
    ∃ t h x, exec e s = .next t ∧ u.group? p.gid = some x ∧ x = { g with fbuf := x.fbuf } ∧
      AnsweredAs u t p x h d w

/-! ## Memory accesses -/

/-- 06 R144, R116; 11 R241, R259, R260: a load that its checks allow leaves its destination empty and is pending, with
the address of every lane and the bytes it took at issue; it follows every access that a fence or an acquire of its
group still waits for, and the rest it reads at positions no earlier than those the group's view is bound to
(`State.viewLo`). No register value, no flag and no byte of memory changes. -/
def Sys2Proof.Claims.GlobalLoads : Prop :=
  ∀ i c ax w sx d m long sc size, loadRow i = some (c, ax, w, sx, d, m, long, sc, size) → i.wf = true →
  ∀ (s : State) (g : Group) (leaf : Nat → Leaf), Runs s g → Usable g (memUses m) (g.on c) →
    Fillable g [⟨d, w.regs, false⟩] (g.on c) → g.on c ≠ [] →
    Allowed s g true false ax w.bytes w.bytes (g.on c) (effAddr g m long) leaf →
    ∃ t h p acc half miss, exec i s = .next t ∧ p.op = .load d w sx ax acc sc half (polOf g m) miss ∧
      (acc.map fun a => (a.lane, a.va, a.keys, a.got)) = ((g.on c).map fun l =>
        (l, effAddr g m long l, laneKeys leaf (effAddr g m long) w.bytes l,
          (laneKeys leaf (effAddr g m long) w.bytes l).map (takeNow g (s.teamOf g) sc))) ∧
      (∀ e ∈ g.mem.fenIds, e ∈ p.after) ∧ (∀ a ∈ acc, VPos.le (s.viewLo g) a.lo) ∧
      StartedAs Beside s t g h size (destCells d w.regs (g.on c)) p ∧
      (∀ k, t.sees h k = s.sees g k)

/-- 06 R144; 11 R228, R229: when the data of a load has arrived, the destination of each lane whose bytes read
alike at every view position holds them, extended, and is full; the group's other registers, its PC and
its buffer are as before, and the load is pending no longer. While a load must follow others, nothing arrives. -/
def Sys2Proof.Claims.LoadArrival : Prop :=
  ∀ (s : State) (p : Pend) (g : Group) d w sx ax acc sc half pol miss evict, VecOpd d →
    s.pend? p.id = some p → p.op = .load d w sx ax acc sc half pol miss →
    (p.after ≠ [] → exec (.loadDataArrival p.id evict) s = .next s) ∧ (p.after = [] →
    s.group? p.gid = some g → g.shadow = none → Unwatched s g → MemOk s → (acc.map (·.lane)).Nodup →
    (∀ a ∈ acc, a.lane < 32 ∧ a.keys.length = w.bytes ∧ a.got.length = w.bytes) →
    ∃ t h, exec (.loadDataArrival p.id evict) s = .next t ∧ t.group? p.gid = some h ∧
      (∀ a ∈ acc, ∀ bs : List Byte, bs.length = w.bytes →
        (∀ j < w.bytes, TakesByte s g sc acc a j (bs.getD j 0)) → h.rdN d w.regs a.lane = extended w sx bs) ∧
      (∀ c ∈ destCells d w.regs (acc.map (·.lane)), c ∉ h.regs.empt) ∧
      CellsKept g h (destCells d w.regs (acc.map (·.lane))) ∧
      h.ctl = g.ctl ∧ h.sys = g.sys ∧ h.mem.buf = g.mem.buf ∧
      t.pending.map (·.id) = (s.pending.map (·.id)).filter (· != p.id))

/-- 06 R144, R122; 11 R228: a store that its checks and the buffer's size allow puts its bytes into the
group's buffer: at each byte a lane stores to, the highest lane's byte is what the group sees from then
on; every other byte of the buffer stays, and no register changes. Where the core's L1 has room for the lines
of its levels beside those it caches, nothing else changes; where it has not, a cached line leaves it (06 R125), which
changes no plain byte. Readings of the model in it: logs 22, 72. -/
def Obligations.GlobalStores : Prop :=
  ∀ i c ax w a m long size, storeRow i = some (c, ax, w, a, m, long, size) → i.wf = true →
  ∀ (s : State) (g : Group) (leaf : Nat → Leaf), Runs s g → Unwatched s g →
    Usable g (⟨a.o, w.regs, a.bang⟩ :: memUses m) (g.on c) → g.on c ≠ [] →
    let ea := effAddr g m long
    let buf := storeBytes s g a.o w (polOf g m) ((g.on c).map fun l => ⟨l, ea l, leaf l⟩) g.mem.buf
    Allowed s g false true ax w.bytes w.bytes (g.on c) ea leaf → heldLines buf ≤ 64 →
    (heldLines buf ≤ heldLines g.mem.buf ∨
      s.coreLines g.core + (heldLines buf - heldLines g.mem.buf) ≤ (s.core g.core).cl1 * 192) →
    ∃ t h, exec i s = .next t ∧ t.group? s.cur = some h ∧
      h.ctl = { g.ctl with pc := g.ctl.pc + BitVec.ofNat 64 size } ∧ CellsKept g h [] ∧ h.sys = g.sys ∧
      t.pending = s.pending ∧ (∀ k, k ≠ s.cur → t.group? k = s.group? k) ∧ t.clusters = s.clusters ∧ t.dev = s.dev ∧
      (∀ k, t.team? k = (s.team? k).map fun x => if k = g.team then { x with issued := x.issued + 1 } else x) ∧
      (∀ l ∈ g.on c, ∀ j < w.bytes,
        (∀ k ∈ g.on c, l < k → (leaf l).key (ea l) + j ∉ laneKeys leaf ea w.bytes k) →
        t.sees h ((leaf l).key (ea l) + j) = BitVec.ofNat 8 (g.rdN a.o w.regs l / 256 ^ j)) ∧
      (∀ k, (∀ l ∈ g.on c, k ∉ laneKeys leaf ea w.bytes l) →
        AMap.at? h.mem.buf k = AMap.at? g.mem.buf k ∧ (MemOk s → PlainByte s k → t.sees h k = s.sees g k)) ∧
      ((List.filter (fun e : Nat × Line => e.2.inCache (l1Id g.core)) s.lines).length +
          (s.setGroup s.cur { g with mem := { g.mem with buf := buf } }).coreLines g.core ≤ (s.core g.core).l1Cap →
        Beside s t g ∧ ∀ k, (∀ l ∈ g.on c, k ∉ laneKeys leaf ea w.bytes l) → t.sees h k = s.sees g k)

/-- 06 R145, R146: a scratchpad or ring load that its checks allow takes its bytes at issue, clears the full
bits of its granules with `.clr`, and leaves its destination empty until they arrive. -/
def Sys2Proof.Claims.ScratchpadLoads : Prop :=
  ∀ i c ax w sx fw clr d us, spLoadRow i = some (c, ax, w, sx, fw, clr, d, us) → i.wf = true →
  ∀ (s : State) (g : Group) (tm : Team) (ea : Nat → Nat), Runs s g → Unwatched s g → s.teamOf g = some tm →
    Usable g us (g.on c) → Fillable g [⟨d, w.regs, false⟩] (g.on c) → g.on c ≠ [] →
    (∀ l ∈ g.on c, spAddr tm g w.bytes l (ea l) i) → SpAllowed s g tm false ax fw w.bytes (g.on c) ea →
    ∃ t h p vals pois, exec i s = .next t ∧ p.op = .long 0 d w.regs vals pois ∧
      vals.map (·.1) = g.on c ∧
      (∀ e ∈ vals, (∀ j < w.bytes, Team.precise tm (ea e.1 + j) = true) →
        e.2 = extended w sx ((List.range w.bytes).map fun j => Team.spSees tm (ea e.1 + j))) ∧
      StartedAs Beside (if clr then s.modTeam g.team fun t =>
          { t with sp := { t.sp with full := t.sp.full.delAll ((g.on c).map fun l => ea l / 16) } } else s)
        t g h 8 (destCells d w.regs (g.on c)) p

/-- 06 R145, R146: a scratchpad or ring store outside the stash windows puts the bytes of each lane at its
address, the highest lane's where two meet, sets the full bits of its granules with `.set`, and leaves
every other byte of the scratchpad and every byte of global memory as it was. -/
def Sys2Proof.Claims.ScratchpadStores : Prop :=
  ∀ i c ax w set a us, spStoreRow i = some (c, ax, w, set, a, us) → i.wf = true →
  ∀ (s : State) (g : Group) (tm : Team) (ea : Nat → Nat), Runs s g → Unwatched s g → s.teamOf g = some tm →
    Usable g (⟨a.o, w.regs, a.bang⟩ :: us) (g.on c) → g.on c ≠ [] →
    (∀ l ∈ g.on c, spAddr tm g w.bytes l (ea l) i) → SpAllowed s g tm true ax false w.bytes (g.on c) ea →
    (∀ l ∈ g.on c, ∀ j < w.bytes, tm.windowAt (ea l + j) = none) →
    ∃ t h sp, exec i s = .next t ∧ t.group? s.cur = some h ∧
      h.ctl = { g.ctl with pc := g.ctl.pc + 8 } ∧ CellsKept g h [] ∧ h.sys = g.sys ∧ h.mem.buf = g.mem.buf ∧
      Beside (s.modTeam g.team fun x => { x with sp := sp }) t g ∧ t.pending = s.pending ∧
      (∀ l ∈ g.on c, ∀ j < w.bytes, (∀ k ∈ g.on c, l < k → ¬ (ea k ≤ ea l + j ∧ ea l + j < ea k + w.bytes)) →
        AMap.get 0 sp.bytes (ea l + j) = BitVec.ofNat 8 (g.rdN a.o w.regs l / 256 ^ j)) ∧
      (∀ b, (∀ l ∈ g.on c, ¬ (ea l ≤ b ∧ b < ea l + w.bytes)) →
        AMap.get 0 sp.bytes b = AMap.get 0 tm.sp.bytes b) ∧
      (∀ n, n ∈ sp.full ↔ n ∈ tm.sp.full ∨ (set = true ∧ ∃ l ∈ g.on c, n = ea l / 16))

/-- 06 R138, R148, R149: binding and unbinding a stash window, and marking granules empty or full and blocks
precise, change the team's windows and scratchpad as the entries say, and nothing else. A `fem` of no bytes does
nothing, at whatever address (a reading of the model: log 26). -/
def Sys2Proof.Claims.ScratchpadMarks : Prop :=
  (∀ (c : Ctl) (a b : Src) (s : State) (g : Group), Runs s g → Usable g [scalUse a, scalUse b] (g.on c) → sv g b = 0 →
    ∀ i ∈ [Instr.femEmpty c a b, .femFull c a b, .femAx c a b, .femPr c a b], i.wf = true →
      ∃ t h, exec i s = .next t ∧ IssuedAs s t g h 8 [] 0) ∧
  ∀ (s : State) (g : Group) (tm : Team) i c srcs ok f rng, markRow g i = some (c, srcs, ok, f, rng) →
    i.wf = true → Runs s g → s.teamOf g = some tm → Usable g (srcs.map scalUse) (g.on c) → g.on c ≠ [] →
    ok tm → (∀ r, rng = some r → s.lockMet g true true true r.1 r.2 = none) →
    ∃ t h, exec i s = .next t ∧ IssuedAs (s.modTeam g.team f) t g h 8 [] 0

/-- 06 R133, R149: `fem.ax` marks the blocks of its range approximate; where none of them was so already, every
byte of the scratchpad stays. -/
def Sys2Proof.Claims.ApproximateBlocks : Prop :=
  ∀ (c : Ctl) (a b : Src) (s : State) (g : Group) (tm : Team), (Instr.femAx c a b).wf = true → Runs s g →
    s.teamOf g = some tm → Usable g [scalUse a, scalUse b] (g.on c) → g.on c ≠ [] →
    let sp := sv g a
    let len := sv g b
    sp % 256 = 0 → len % 256 = 0 → sp + len ≤ tm.hdr.scratch → s.lockMet g true true true sp len = none →
    ∃ t h q, exec (.femAx c a b) s = .next t ∧
      IssuedAs (s.modTeam g.team fun x => { x with sp := q }) t g h 8 [] 0 ∧
      (∀ n, (AMap.at? q.ax n).isSome = ((AMap.at? tm.sp.ax n).isSome || (decide (sp ≤ 256 * n) && decide (256 * n < sp + len)))) ∧
      ((∀ n, sp ≤ 256 * n → 256 * n < sp + len → AMap.at? tm.sp.ax n = none) → q.bytes = tm.sp.bytes) ∧
      q.full = tm.sp.full

/-- 06 R147; 04 R80: a prefetch completes, also where an address has no translation, and changes no architectural
state: no register, no group, no team with its level and scratchpad, no cluster, no pending operation, no order, and
no plain byte of memory. It changes only lines, TLBs and counts of requests. Readings of the model in it: logs 18,
26. -/
def Obligations.Prefetches : Prop :=
  ∀ i c m long lvl size, ((i = .pf c lvl m ∧ long = none ∧ size = 8) ∨
      (∃ off, i = .pfLong c lvl m off ∧ long = some off ∧ size = 16)) → i.wf = true →
  ∀ (s : State) (g : Group), Runs s g → Untraced s → Usable g (memUses m) (g.on c) →
    (∀ l ∈ g.on c, effAddr g m long l % 32 = 0 ∧ canonical (effAddr g m long l) = true) →
    let u := s.prefetch g (some lvl) (polOf g m) ((g.on c).map (effAddr g m long))
    ∃ t h, exec i s = .next t ∧ After u t g h size ∧
      (∀ k, u.group? k = s.group? k) ∧ u.teams = s.teams ∧ u.clusters = s.clusters ∧ u.pending = s.pending ∧
      u.dev = s.dev ∧ u.cur = s.cur ∧
      (MemOk s → ∀ k, PlainByte s k → Typed s k → u.devByte k = s.devByte k ∧ t.sees h k = s.sees g k)

/-- 14 R316; 02 R27; 06 R132, R137; 12 R280, R281; 18 R415: a parked group becomes ready when what it waits
for has come about, with every register and its PC as they were, and not before. -/
def Obligations.GroupsWake : Prop :=
  ∀ (s : State) (core slot k : Nat) (g : Group) (w : Park) (P : Prop), s.groupAt core slot = some k →
    s.group? k = some g → MayRun s g → g.park = some w → cameAbout s g w = some P →
    (P → ∃ t h, exec (.groupWake core slot) s = .next t ∧ t.group? k = some h ∧ h.park = none ∧
      h.ctl = g.ctl ∧ h.regs = g.regs ∧ h.sys = g.sys ∧ h.mem.buf = g.mem.buf ∧
      (∀ j, j ≠ k → t.group? j = s.group? j) ∧ t.mem = s.mem ∧ t.teams = s.teams ∧ t.cores = s.cores) ∧
    (¬ P → exec (.groupWake core slot) s = .next s)

/-- 06 R114: when the page walk a group waits for is done, the group is no longer parked, its access finds
what the walk found, and a leaf stands in the core's TLB; the walk changes no plain byte of memory. -/
def Sys2Proof.Claims.WalksAnswer : Prop :=
  ∀ (s : State) (p : Pend) (g : Group) (n : Nat), s.pend? p.id = some p → p.op = .walk [n] →
    s.group? p.gid = some g → g.park = some (.walk p.id) → Untraced s →
    ∃ t h, exec (.walkDone p.id) s = .next t ∧ t.group? p.gid = some h ∧ h.park = none ∧
      AMap.at? h.mem.walked n = some ((s.dropPend p.id).walkRaw (s.tenantOf g) (n * 4096)).1 ∧
      (∀ l, ((s.dropPend p.id).walkRaw (s.tenantOf g) (n * 4096)).1 = .leaf l →
        AMap.at? (t.core g.core).tlb (tlbKey (n * 4096) l.lvl) = some l) ∧
      h.ctl = g.ctl ∧ h.regs = g.regs ∧ t.pending = s.pending.filter (·.id != p.id) ∧
      (MemOk s → ∀ k, PlainByte s k → t.devByte k = s.devByte k)

/-- 06 R141: invalidating a stash entry takes its clean bytes out of use and keeps its dirty ones; every other
entry and team stay as they are. -/
def Sys2Proof.Claims.StashInvalidation : Prop :=
  ∀ (s : State) (team n i : Nat) (tm : Team) (w : Window), s.team? team = some tm →
    AMap.at? tm.windows n = some w → (w.entry i).inv.isSome = true →
    ∃ t q v, exec (.stashInvalidate team n i) s = .next t ∧ t.team? team = some q ∧
      AMap.at? q.windows n = some v ∧ v.entry i = { w.entry i with valid := false, inv := none } ∧
      (∀ j, j ≠ i → v.entry j = w.entry j) ∧
      (∀ m, m ≠ n → AMap.at? q.windows m = AMap.at? tm.windows m) ∧ q.sp = tm.sp ∧ q.lvl = tm.lvl ∧
      (∀ k, k ≠ team → t.team? k = s.team? k) ∧ t = { s with teams := t.teams }

/-! ## Instruction lines -/

/-- 04 R57, R80, R81: an `ipf` of one line on a translated executable page makes the core hold it, and with `.l0`
the group's scheduler too; a fill gives a waiting group its line through its L0i and its fetch buffer, from L1i
where that holds it and else from memory; an `ipf` of no bytes and one on a page without X hold nothing
more. Readings of the model in it: logs 26, 27. -/
def Obligations.InstructionLines : Prop :=
  (∀ (c : Ctl) (l0 : Bool) (a b : Src) (s : State) (g : Group), (Instr.ipf c l0 a b).wf = true → Runs s g →
    Usable g [scalUse a, scalUse b] (g.on c) →
    let ns := linesIn (g.rdS a.o) (min (sv g b) 524288)
    let u := s.requestLines g.core (s.tenantOf g) ns
    Completes (exec (.ipf c l0 a b) s) (if g.on c = [] then s else
      if l0 = true then u.linesToL0 g.core (s.tenantOf g) (g.slot % 4) ns else u) 8 ∧
    (sv g b = 0 → linesIn (g.rdS a.o) (min (sv g b) 524288) = [])) ∧
  (∀ (s : State) (core tenant n : Nat) (l : Leaf), canonical (lineVa n) = true →
    (s.core core).l1i.at? n = none → s.tlbLookup core tenant (lineVa n) = some l →
    (entX l.e.toNat = true → (s.requestLines core tenant [n]).heldLine core tenant n =
      some (l.key (lineVa n), s.dev.pos)) ∧
    (entX l.e.toNat = false → s.requestLines core tenant [n] = s)) ∧
  (∀ (s : State) (core tenant sched n : Nat) (e : Nat × Nat), n < 2 ^ 56 → s.heldLine core tenant n = some e →
    ((s.linesToL0 core tenant sched [n]).core core).l0i.at? (l0Key sched n) = some e) ∧
  (∀ (s : State) (core n k : Nat) (g : Group) (l : Leaf), s.wanting core n = [k] →
    s.group? k = some g → n < 2 ^ 56 → s.tlbLookup core (s.tenantOf g) (lineVa n) = some l → entX l.e.toNat = true →
    s.l0Line g n = none →
    (∀ e, (s.core core).l1i.at? n = some e → e.1 = l.key (lineVa n) →
      exec (.fetchFill core n) s = .next ((s.fillL0i core (g.slot % 4) n e).arrive k e)) ∧
    ((s.core core).l1i.at? n = none →
      ∃ t h, exec (.fetchFill core n) s = .next t ∧ t.group? k = some h ∧ h.want = none ∧ h.ctl = g.ctl ∧
        h.regs = g.regs ∧ h.park = g.park ∧
        (t.core core).l0i.at? (l0Key (g.slot % 4) n) = some (l.key (lineVa n), s.dev.pos) ∧
        (g.want = some g.ctl.pc.toNat → g.ctl.pc.toNat % 8 = 0 → MemOk s →
          (∀ i < 256, PlainByte s (l.key (lineVa n) + i)) →
          h.fbuf.at? g.ctl.pc.toNat = some (leNat ((List.range 8).map fun i =>
            s.devByteAt s.dev.pos (l.key (lineVa n) + g.ctl.pc.toNat % 256 + i)))) ∧
        (∀ j, j ≠ k → t.group? j = s.group? j) ∧ t.pending = s.pending))

/-- 04 R68: after 256 instructions in shadow mode a group issues nothing further in it, and its registers
and the control it goes back to are untouched. -/
def Sys2Proof.Claims.ShadowLimit : Prop :=
  ∀ (s : State) (core slot k : Nat) (g : Group) (sh : Shadow), s.groupAt core slot = some k →
    s.group? k = some g → g.shadow = some sh → 256 ≤ sh.count →
    ∃ t, exec (.shadowLimitReached core slot) s = .next t ∧
      t.group? k = some { g with shadow := some { sh with issuing := false } } ∧
      (∀ j, j ≠ k → t.group? j = s.group? j) ∧ t = { s with groups := t.groups }

/-! ## Floating point -/

/-- 07 R167, R163, R182: sums, products, fused products, dot products and scalings write the exact result
rounded once, in their approximate forms a permissible value, and raise their flags. -/
def Sys2Proof.Claims.FloatArithmetic : Prop := FloatWrites arithFloatRow

/-- 07 R168, R169, R171 to R174, R180: minimum and maximum, moves, conversions, classes, parts, and
accumulation into X320. -/
def Sys2Proof.Claims.FloatSelection : Prop := FloatWrites otherFloatRow

/-- 07 R170: `fcmp` writes its relation in each lane on, -0 equal to +0, `ne` and `un` alone holding of a NaN;
only a signalling NaN raises a flag; pt discards the result. -/
def Sys2Proof.Claims.FloatComparison : Prop :=
  ∀ i c ty cc d srcs (y : Group → Nat → Nat), ((∃ a b, i = .fcmp c ty cc d a b ∧ srcs = [a, b] ∧ y = fv ty b) ∨
      (∃ a k, i = .fcmpImm c ty cc d a k ∧ srcs = [a] ∧ y = fun _ _ => fpImm ty k)) → i.wf = true →
  ∀ (s : State) (g : Group), Runs s g → Usable g (fuses ty srcs) (g.on c) →
    let x (l : Nat) : FV := (Fmt.of ty).read ((srcs.head?.map fun a => fv ty a g l).getD 0)
    let z (l : Nat) : FV := (Fmt.of ty).read (y g l)
    let fl : Fl := { nv := (g.on c).any fun l => (x l).isSig || (z l).isSig }
    Calm s g fl →
    ∃ t h n, exec i s = .next t ∧ d = .p n ∧ IssuedAs s t g h 8 (destCells d 1 (g.on c)) (BitVec.ofNat 5 fl.bits) ∧
      (∀ l, h.predAt 7 l = true) ∧ (n < 7 → ∀ l ∈ g.on c,
        let un := (x l).isNan || (z l).isNan
        let lt := (x l).lt false (z l)
        let gt := (z l).lt false (x l)
        h.predAt n l = match cc with
          | .eq => !un && !lt && !gt
          | .ne => un || lt || gt
          | .lt => !un && lt
          | .le => !un && !gt
          | .gt => !un && gt
          | .ge => !un && !lt
          | .un => un
          | .or => !un)

/-- 07 R181: `xrnd` writes the accumulator rounded to FP32, and with `.clr` zeroes it in the same step. -/
def Sys2Proof.Claims.AccumulatorRounding : Prop :=
  ∀ (c : Ctl) (md : Rm) (clr : Bool) (d : Opd) (acc : Src), (Instr.xrnd c md clr d acc).wf = true →
  ∀ (s : State) (g : Group), Runs s g → Usable g [⟨acc.o, 10, acc.bang⟩] (g.on c) →
    Fillable g [⟨d, 1, false⟩] (g.on c) →
    let val (l : Nat) := xRound md (xVal (g.rdN acc.o 10 l))
    let fl := raisedBy (g.on c) val
    Calm s g fl →
    ∃ t h, exec (.xrnd c md clr d acc) s = .next t ∧
      IssuedAs s t g h 8 (destCells d 1 (g.on c) ++ (if clr then destCells acc.o 10 (g.on c) else []))
        (BitVec.ofNat 5 fl.bits) ∧
      ∀ l ∈ g.on c, h.rdN d 1 l = (val l).1 % 2 ^ 32 ∧ (clr = true → h.rdN acc.o 10 l = 0)

/-- 07 R164, R166, R175 to R179, R183: a long-latency instruction raises its flags and leaves its destination
empty, with the results of its lanes pending; while a flag of its kernel may trap, it writes them at once. -/
def Sys2Proof.Claims.LongLatencyStart : Prop :=
  ∀ i c ty ax d srcs f, slowRow i = some (c, ty, ax, d, srcs, f) → i.wf = true →
  ∀ (s : State) (g : Group), Runs s g → Untraced s → Usable g (fuses ty srcs) (g.on c) →
    Fillable g [⟨d, fpRegs ty, false⟩] (g.on c) → g.on c ≠ [] →
    let res (l : Nat) := slowAt ty srcs f g l
    let fl := raisedBy (g.on c) fun l => ((res l).bits, (res l).fl)
    let exact := (g.on c).any fun l => (res l).exact
    Calm s g fl → (exact = true → s.exactHeld g < 4) →
    let b := if exact then s.modCore g.core fun k => k.count 0x1E 1 else s
    let good (l v : Nat) : Prop := if ax then permissible ty (kFp ty (s.codeOf g.team)) (res l).bits v
      else v = (res l).bits
    (s.arithMask g = 0 → ∃ t h p vals, exec i s = .next t ∧
      p.op = .long (if exact then 2 else 1) d (fpRegs ty) vals [] ∧ vals.map (·.1) = g.on c ∧
      (∀ e ∈ vals, good e.1 e.2) ∧
      StartedAs Kept b t { g with sys := { g.sys with fpsr := g.sys.fpsr ||| BitVec.ofNat 5 fl.bits } } h 8
        (destCells d (fpRegs ty) (g.on c)) p) ∧
    (s.arithMask g ≠ 0 → ∃ t h, exec i s = .next t ∧
      IssuedAs b t g h 8 (destCells d (fpRegs ty) (g.on c)) (BitVec.ofNat 5 fl.bits) ∧
      ∀ l ∈ g.on c, ∃ v, good l v ∧ h.rdN d (fpRegs ty) l = v % 2 ^ (32 * fpRegs ty))

/-- 07 R166: the result of a long-latency instruction is written, its destination becomes full, and the operation
is pending no longer; the group's other registers, its flags and its PC are as they were. -/
def Sys2Proof.Claims.LongLatencyResult : Prop :=
  ∀ (s : State) (p : Pend) (g : Group) k d n vals, s.pend? p.id = some p → p.op = .long k d n vals [] → k ≠ 0 →
    VecOpd d → s.group? p.gid = some g → g.shadow = none → (s.stream (s.tenantOf g)).rplLog = [] →
    (vals.map (·.1)).Nodup → (∀ e ∈ vals, e.1 < 32) →
    ∃ t h, exec (.longLatencyResult p.id) s = .next t ∧ t.group? p.gid = some h ∧
      (∀ e ∈ vals, h.rdN d n e.1 = e.2 % 2 ^ (32 * n)) ∧
      (∀ c ∈ destCells d n (vals.map (·.1)), c ∉ h.regs.empt) ∧
      CellsKept g h (destCells d n (vals.map (·.1))) ∧ h = { g with regs := h.regs } ∧
      t.pending = s.pending.filter (·.id != p.id) ∧ (∀ j, j ≠ p.gid → t.group? j = s.group? j) ∧
      t.mem = s.mem ∧ t.teams = s.teams ∧ t.cores = s.cores

/-- 07 R156, R161: in each format, reading an encoding that is not a NaN and rounding its value in any mode gives
the encoding back and raises no flag. -/
def Sys2Proof.Claims.RoundingKeepsValues : Prop :=
  ∀ (f : Fmt), f ∈ [fmt16, fmtBf, fmt32, fmt64] → ∀ (md : Rm) (x : Nat), x < 2 ^ f.width →
    (f.read x).isNan = false → f.roundV md (f.read x) = (x, {})

/-! ## The low rail -/

/-- 08 R188, R189, R209: `rail` leaves its destination empty and applies its code: towards a less accurate code
the team's REQ takes it at once; towards a more accurate one it is pending, unless the regulator has
settled at a code no less accurate; a regulator at rest away from its target begins to move by one code.
In reduced service the request stands and the status is written at once (R205). -/
def Sys2Proof.Claims.RailRequests : Prop :=
  (∀ (c : Ctl) (d : Opd) (code : Option Nat) (a : Option Src) (s : State) (g : Group),
    (Instr.rail c d code a).wf = true → Runs s g → Usable g ((a.map scalUse).toList) (g.on c) →
    Fillable g [⟨d, 1, false⟩] (g.on c) → g.on c ≠ [] →
    let n := railCode g code a
    (s.boot.stage = 3 → Completes (exec (.rail c d code a) s)
      ((s.await s.cur g ((⟨d, 1, false⟩ : Use).cells (g.on c)) (.rail d n)).applyRail g.team n) 8) ∧
    (s.boot.stage ≠ 3 → Completes (exec (.rail c d code a) s)
      ((s.applyRail g.team n).putS s.cur d ((s.applyRail g.team n).railStatus g)) 8)) ∧
  (∀ (s : State) (k n : Nat) (tm : Team), s.team? k = some tm → s.boot.stage = 3 → k ∈ (s.core tm.core).teams →
    ∃ q, (s.applyRail k n).team? k = some q ∧
      (tm.req.getD 7 ≤ n → q.req = some n ∧ q.reqPend = none) ∧
      (n < tm.req.getD 7 → (q.req = tm.req ∧ q.reqPend = some n) ∨
        (q.req = some n ∧ q.reqPend = none ∧ (s.core tm.core).reg.next = none ∧ (s.core tm.core).reg.pos ≤ n)) ∧
      let r := (s.core tm.core).reg
      let asked := if tm.req.getD 7 ≤ n then { tm with req := some n, reqPend := none } else { tm with reqPend := some n }
      let tgt := (s.setTeam k asked).railTarget tm.core
      ((s.applyRail k n).core tm.core).reg = if r.next = none ∧ r.pos ≠ tgt then
        { r with next := some (if r.pos < tgt then r.pos + 1 else r.pos - 1) } else r)

/-- 08 R189, R190, R209: the regulator moves one code at a time towards its target; when it stands there it
has settled, each pending request it meets becomes its team's REQ, and a `rail` whose code the team holds
receives its status. -/
def Sys2Proof.Claims.RegulatorMoves : Prop :=
  (∀ (s : State) (core n : Nat), (s.core core).reg.next = some n → n ≠ s.railTarget core →
    ∃ t, exec (.regulatorStep core) s = .next t ∧
      (t.core core).reg = { (s.core core).reg with
        pos := n, next := some (if n < s.railTarget core then n + 1 else n - 1) } ∧
      (∀ k, t.team? k = none ↔ s.team? k = none) ∧ t.pending = s.pending ∧ t.mem = s.mem) ∧
  (∀ (s : State) (core n k : Nat) (tm : Team), (s.core core).reg.next = some n → n = s.railTarget core →
    s.team? k = some tm → k ∈ (s.core core).teams →
    ∃ t q, exec (.regulatorSettle core) s = .next t ∧ (t.core core).reg = ⟨n, n, none⟩ ∧ t.team? k = some q ∧
      q.req = (match tm.reqPend with | some p => if n ≤ p then some p else tm.req | none => tm.req) ∧
      q.reqPend = (match tm.reqPend with | some p => if n ≤ p then none else some p | none => none) ∧
      (n ≤ q.req.getD 7 → q.railHold = false)) ∧
  (∀ (s : State) (core : Nat) (p : Pend) (g : Group) (tm : Team) d code, (s.core core).reg.next = none →
    s.pending = [p] → p.op = .rail d code → s.group? p.gid = some g → g.core = core → s.teamOf g = some tm →
    tm.req = some code → (∃ n, d = .s n) → g.shadow = none → (s.stream (s.tenantOf g)).rplLog = [] →
    ∃ t h, exec (.regulatorSettle core) s = .next t ∧ AnsweredAs s t p g h d (s.railStatus g))

/-! ## Visibility -/

/-- 11 R231, R256: `cmt` leaves its status register empty and is pending with the group's own bytes as they
are now, behind the group's earlier accesses and commits and what a fence held for it (R259); nothing has moved. -/
def Obligations.CommitsStart : Prop :=
  ∀ (c : Ctl) (sc : Scope) (excl : Bool) (d : Opd) (s : State) (g : Group) (tm : Team) (cl : Cluster),
    (Instr.cmt c sc excl d).wf = true → Runs s g → Fillable g [⟨d, 1, false⟩] (g.on c) →
    s.teamOf g = some tm → s.clusterOf g = some cl → s.noRoom g tm cl sc = none →
    (g.on c = [] → ∃ t h, exec (.cmt c sc excl d) s = .next t ∧ IssuedAs s t g h 8 [] 0) ∧
    (g.on c ≠ [] → ∃ t h p, exec (.cmt c sc excl d) s = .next t ∧
      p.op = .commit d sc excl (match sc with | .team => tm.lvl | .clu => [] | _ => g.mem.buf) false false 0 ∧
      (∀ q ∈ s.pending, q.gid = s.cur → (q.op.isAccess = true ∨ q.op.isCommit = true) →
        (q.id, Scope.grp) ∈ p.after) ∧ (∀ e ∈ s.heldAfter g, e ∈ p.after) ∧
      StartedAs Kept (match sc with | .grp => s | _ => s.soil g.team) t g h 8 (destCells d 1 (g.on c)) p)

/-- 11 R231, R232, R256: at its place a plain commit moves all its bytes to its target in one event, the lower
level's byte standing over the higher's; the levels below no longer hold them, bytes stored since it issued
stay in the buffer, the order counts one more, and but for `.sys` the status is written. A commit that must follow
others waits. A reading of the model in it: log 35. -/
def Obligations.CommitsPlace : Prop :=
  (∀ (s : State) (p : Pend) (g : Group) d sc excl snap a st, s.pend? p.id = some p → s.group? p.gid = some g →
    p.op = .commit d sc excl snap false a st → p.after ≠ [] → exec (.commitPlacement p.id) s = .next s) ∧
  ∀ (s : State) (p : Pend) (g : Group) (tm : Team) (cl : Cluster) d sc snap,
    CommitDue s p g tm cl d sc false snap →
    PreciseBytes snap → PreciseBytes tm.lvl → PreciseBytes cl.lvl →
    MemOk s → (sc ≠ .grp → sc ≠ .team → ∀ e ∈ commitBytes sc snap tm.lvl cl.lvl, keyCmp e.1 = 0) →
    let m := commitBytes sc snap tm.lvl cl.lvl
    let own := match sc with | .team | .clu => [] | _ => snap
    ∃ t h q v, exec (.commitPlacement p.id) s = .next t ∧ t.group? p.gid = some h ∧ t.team? g.team = some q ∧
      t.cluster? tm.cluster = some v ∧
      (∀ k, inLevel q.lvl k = match sc with
        | .grp => (held m k).orElse fun _ => inLevel tm.lvl k
        | .clu => inLevel tm.lvl k
        | _ => none) ∧
      (∀ k, inLevel v.lvl k = match sc with
        | .grp => inLevel cl.lvl k
        | .team => (held m k).orElse fun _ => inLevel cl.lvl k
        | _ => none) ∧
      (∀ k, PlainByte s k → t.devByte k = match sc with
        | .grp | .team => s.devByte k
        | _ => (held m k).getD (s.devByte k)) ∧
      (sc = .grp → ∀ k, t.devByte k = s.devByte k) ∧
      (∀ e, e ∈ h.mem.buf ↔ e ∈ g.mem.buf ∧ ∀ x, AMap.at? own e.1 = some x → x.tag < e.2.tag) ∧
      orderSeq t q v sc = orderSeq s tm cl sc + 1 ∧
      (sc ≠ .sys → (h.rdS d).toNat % 2 ^ 63 =
          orderSeq s tm cl sc % 2 ^ 24 * 2 ^ 32 + min m.length (2 ^ 32 - 1) ∧
        cellOf d 0 ∉ h.regs.empt ∧ CellsKept g h [cellOf d 0] ∧
        t.pending.map (·.id) = (s.pending.map (·.id)).filter (· != p.id)) ∧
      (sc = .sys → h.regs = g.regs ∧ t.pending.map (·.id) = s.pending.map (·.id)) ∧
      h.ctl = g.ctl ∧ h.sys = g.sys ∧ q.sp = tm.sp

/-- 11 R237, R256: an exclusive commit that would overlap a sibling's writes leaves every level, the buffer and
device-visible memory as they are, and its status says FAIL and OVL with the last number and no bytes. -/
def Sys2Proof.Claims.ExclusiveCommitsFail : Prop :=
  ∀ (s : State) (p : Pend) (g : Group) (tm : Team) (cl : Cluster) d sc snap,
    CommitDue s p g tm cl d sc true snap →
    (match sc with
      | .grp => overlaps tm.ord.stamps (p.gid + 1) g.mem.ref ((overlay snap []).map (·.1))
      | .team => overlaps cl.ord.stamps (g.team + 1) tm.ref (tm.lvl.map (·.1))
      | _ => overlaps s.dev.stamps (tm.cluster + 1) cl.ref ((commitBytes sc snap tm.lvl cl.lvl).map (·.1))) = true →
    ∃ t h q v, exec (.commitPlacement p.id) s = .next t ∧ t.group? p.gid = some h ∧ t.team? g.team = some q ∧
      t.cluster? tm.cluster = some v ∧ q = tm ∧ v.lvl = cl.lvl ∧ t.dirty = s.dirty ∧ t.mem = s.mem ∧
      h.mem.buf = g.mem.buf ∧
      h.rdS d = BitVec.ofNat 64 (2 ^ 63 + 2 ^ 62 + (orderSeq s tm cl sc + 2 ^ 24 - 1) % 2 ^ 24 * 2 ^ 32) ∧
      cellOf d 0 ∉ h.regs.empt ∧ CellsKept g h [cellOf d 0] ∧ h.ctl = g.ctl ∧
      t.pending.map (·.id) = (s.pending.map (·.id)).filter (· != p.id)

/-- 11 R231: a `cmt.sys` completes when every home has acknowledged; its status register becomes full. -/
def Sys2Proof.Claims.HomesAcknowledge : Prop :=
  ∀ (s : State) (p : Pend) (g : Group) d sc excl m st, s.pend? p.id = some p →
    p.op = .commit d sc excl m true false st → (∃ n, d = .s n) → s.group? p.gid = some g → g.shadow = none →
    Unwatched s g →
    ∃ t h, exec (.homeAcknowledge p.id) s = .next t ∧ t.group? p.gid = some h ∧ h.rdS d = st ∧
      cellOf d 0 ∉ h.regs.empt ∧ CellsKept g h [cellOf d 0] ∧ h.ctl = g.ctl ∧ h.sys = g.sys ∧
      h.mem.buf = g.mem.buf ∧ t.mem = s.mem ∧ t.dirty = s.dirty ∧ t.teams = s.teams ∧
      t.pending.map (·.id) = (s.pending.map (·.id)).filter (· != p.id)

/-- 11 R238, R239, R258: an abort at its place discards the bytes its form names, or those of them whose virtual
address lies in its range: of `.grp` the caller's buffer; of `.team` its team's level and the buffer of every group
of the team; of `.clu` the cluster's level, the level of every team of it and the buffer of every group of those; with
a buffer, what its commits in flight have taken of it. Device-visible memory, and every buffer and level it does not
name, stay, and its status is written. A reading of the model in it: log 35. -/
def Obligations.AbortsDiscard : Prop :=
  ∀ (s : State) (p : Pend) (g : Group) (tm : Team) (cl : Cluster) d sc range, s.pend? p.id = some p →
    p.op = .abort d sc range none → (∃ n, d = .s n) → s.group? p.gid = some g → s.teamOf g = some tm →
    s.clusterOf g = some cl → g.shadow = none → Unwatched s g → (sc = .grp ∨ sc = .team ∨ sc = .clu) →
    p.gid ∈ tm.groups → g.team ∈ cl.teams →
    let gone (h : Held) : Bool := match range with
      | none => true
      | some (b, n) => decide (b ≤ h.va) && decide (h.va < b + n)
    let group (k : Nat) : Prop := match sc with
      | .grp => k = p.gid
      | .team => k ∈ tm.groups
      | _ => ∃ j ∈ cl.teams, ∃ x, s.team? j = some x ∧ k ∈ x.groups
    let team (j : Nat) : Prop := match sc with
      | .grp => False
      | .team => j = g.team
      | _ => j ∈ cl.teams
    ∃ t h v, exec (.abortPlacement p.id) s = .next t ∧ t.group? p.gid = some h ∧
      t.cluster? tm.cluster = some v ∧
      (∀ k w, s.group? k = some w → ∃ x, t.group? k = some x ∧
        (group k → ∀ e, e ∈ x.mem.buf ↔ e ∈ w.mem.buf ∧ gone e.2 = false) ∧ (¬ group k → x = w) ∧
        (k ≠ p.gid → x.ctl = w.ctl ∧ x.regs = w.regs ∧ x.sys = w.sys ∧ x.park = w.park)) ∧
      (∀ j w, s.team? j = some w → ∃ q, t.team? j = some q ∧ q.sp = w.sp ∧ q.groups = w.groups ∧
        ∀ k, ((team j ∧ ∃ x, (k, x) ∈ w.lvl ∧ gone x = true) → AMap.at? q.lvl k = none) ∧
          (¬ (team j ∧ ∃ x, (k, x) ∈ w.lvl ∧ gone x = true) → AMap.at? q.lvl k = AMap.at? w.lvl k)) ∧
      (∀ q ∈ t.pending, ∀ d' sc' x m a st, q.op = .commit d' sc' x m false a st → sc' ≠ .team → group q.gid →
        ∀ e ∈ m, gone e.2 = false) ∧
      (∀ k, ((sc = .clu ∧ ∃ x, (k, x) ∈ cl.lvl ∧ gone x = true) → AMap.at? v.lvl k = none) ∧
        (¬ (sc = .clu ∧ ∃ x, (k, x) ∈ cl.lvl ∧ gone x = true) → AMap.at? v.lvl k = AMap.at? cl.lvl k)) ∧
      t.mem = s.mem ∧ t.dirty = s.dirty ∧ cellOf d 0 ∉ h.regs.empt ∧ CellsKept g h [cellOf d 0] ∧
      (h.rdS d).toNat / 2 ^ 62 = 0 ∧ h.ctl = g.ctl ∧ h.sys = g.sys ∧
      t.pending.map (·.id) = (s.pending.map (·.id)).filter (· != p.id)

/-- 11 R259, R242: a fence with a lane on holds later atomics and commits behind every access and commit of
the group that is outstanding, and later loads behind every access of it, within its scope; it writes
nothing else. What it holds is among the operations that the group's next atomic or commit waits for
(`State.heldAfter`: O12, O16), and the group's view begins, within its scope, where its earlier accesses have read
(`State.viewLo`: O43). A reading of the model in it: log 34. -/
def Obligations.FencesOrder : Prop :=
  ∀ (c : Ctl) (sc : Scope) (s : State) (g : Group), Runs s g →
    ∃ t h, exec (.fence c sc) s = .next t ∧ t.group? s.cur = some h ∧
      h.ctl = { g.ctl with pc := g.ctl.pc + 8 } ∧ CellsKept g h [] ∧ h.sys = g.sys ∧ h.mem.buf = g.mem.buf ∧
      Kept s t g ∧ t.pending = s.pending ∧
      (g.on c = [] → h.mem = g.mem) ∧
      (g.on c ≠ [] → h.mem.fen = g.mem.fen.join (g.mem.allp.within sc) ∧
        (∀ p ∈ s.pending, p.gid = s.cur → p.op.isAccess = true → (p.id, sc) ∈ h.mem.fenIds ∧ p.id ∈ h.mem.hold) ∧
        (∀ p ∈ s.pending, p.gid = s.cur → p.op.isCommit = true → p.id ∈ h.mem.hold) ∧
        (∀ p ∈ s.pending, p.gid = s.cur → (p.op.isAccess = true ∨ p.op.isCommit = true) →
          (p.id, Scope.team) ∈ t.heldAfter h) ∧
        VPos.le (g.mem.allp.within sc) (t.viewLo h))

/-! ## Atomics and synchronisation -/

/-- 12 R268 to R270, R275, R276: an atomic whose checks pass leaves its destination empty and is pending, one
word for each address its lanes name, with the lanes of a word in ascending order, behind what an acquire or a fence
of its group still waits for; no byte of memory and no register value changes. While the queue it would enter is full
it stalls at issue (R286). Readings of the model in it: logs 37, 74. -/
def Obligations.AtomicsStart : Prop :=
  ∀ i r, atomicRow i = some r → i.wf = true →
  ∀ (s : State) (g : Group) (tm : Team) (cl : Cluster) (leaf : Nat → Leaf), Runs s g → s.teamOf g = some tm →
    s.clusterOf g = some cl → Usable g r.srcs (g.on r.c) →
    Fillable g (match r.d with | none => [] | some d => [⟨d, r.k, false⟩]) (g.on r.c) → g.on r.c ≠ [] →
    Allowed s g true true false r.al r.w (g.on r.c) (g.rdN r.a.o 2) leaf →
    (∀ l ∈ g.on r.c, actsFar r.far r.sc = true → keyTier ((leaf l).key (g.rdN r.a.o 2 l)) ≠ 3) →
    s.carrying s.cur tm cl ((g.on r.c).map fun l => ⟨l, g.rdN r.a.o 2 l, leaf l⟩) r.w = none →
    (∀ m ∈ lowerLevels g tm cl r.sc, ∀ l ∈ g.on r.c,
      holdsGranule m ((leaf l).key (g.rdN r.a.o 2 l)) r.w = false) →
    let full := s.atomicFull g (actsFar r.far r.sc) ((g.on r.c).map fun l => ⟨l, g.rdN r.a.o 2 l, leaf l⟩)
    (full = true → ∃ t, exec i s = .next t ∧ t.group? s.cur = some { g with stall := 2 } ∧
      (∀ k, k ≠ s.cur → t.group? k = s.group? k) ∧ t.pending = s.pending ∧ t.teams = s.teams ∧ t.mem = s.mem ∧
      t.dirty = s.dirty) ∧
    (full = false → ∃ t h p ws, exec i s = .next t ∧ p.op = r.op ws ∧ (ws.map (·.key)).Nodup ∧
      (∀ x ∈ ws, x.lanes = r.lanesAt g leaf x.key) ∧
      (∀ l ∈ g.on r.c, ∃ x ∈ ws, x.key = (leaf l).key (g.rdN r.a.o 2 l)) ∧
      (∀ e ∈ g.mem.fenIds ++ s.heldAfter g, e ∈ p.after) ∧
      StartedAs Beside (if r.sc = .team ∨ r.sc = .grp then s else s.soil g.team) t g h 8
        (match r.d with | none => [] | some d => destCells d r.k (g.on r.c)) p)

/-- 12 R265, R270, R271, R276: performing a word of an atomic replaces it, at the level its scope names, by
what its lanes make of it in ascending order; with the last word each lane of a one-word `atom` receives
what the word held before its own operation. Every other byte and register is as before.
A reading of the model in it: log 38. -/
def Obligations.AtomicsPerform : Prop :=
  (∀ (s : State) (p : Pend) (g : Group) (tm : Team) (cl : Cluster) d op sc ty far ws (n : Nat) x old,
    Due s p g tm cl → p.op = .atom d op sc ty far ws [] → ws[n]? = some x → ty.isInt = true ∨ ty = .b32 ∨ ty = .b64 →
    MemOk s → WordReads s g tm sc x.key (ty.width / 8) old →
    let r := wordRule op ty old x.lanes
    ∃ t h, exec (.atomicPerform p.id n) s = .next t ∧ t.group? p.gid = some h ∧
      WordLeft s t g tm cl sc x.key (ty.width / 8) r.2 ∧ h.ctl = g.ctl ∧ h.sys = g.sys ∧ h.mem.buf = g.mem.buf ∧
      (ws.length ≠ 1 → h.regs = g.regs ∧ t.pending.map (·.id) = s.pending.map (·.id)) ∧
      (ws.length = 1 → t.pending.map (·.id) = (s.pending.map (·.id)).filter (· != p.id) ∧
        (d = none → h.regs = g.regs) ∧
        (∀ o, d = some o → VecOpd o → (x.lanes.map (·.1)).Nodup → (∀ e ∈ x.lanes, e.1 < 32) →
          CellsKept g h (destCells o ty.regs (x.lanes.map (·.1))) ∧
          (∀ c ∈ destCells o ty.regs (x.lanes.map (·.1)), c ∉ h.regs.empt) ∧
          ∀ e ∈ r.1, h.rdN o ty.regs e.1 = e.2 % 2 ^ (32 * ty.regs)))) ∧
  (∀ (s : State) (p : Pend) (g : Group) (tm : Team) (cl : Cluster) sc ty ws (n : Nat) x old pos,
    Due s p g tm cl → p.op = .xadd sc ty ws pos → ws[n]? = some x →
    MemOk s → WordReads s g tm sc x.key 40 old →
    ∃ t h, exec (.atomicPerform p.id n) s = .next t ∧ t.group? p.gid = some h ∧
      WordLeft s t g tm cl sc x.key 40 (xaddFold ty old x.lanes) ∧ h.regs = g.regs ∧ h.ctl = g.ctl ∧
      h.sys = g.sys ∧ h.mem.buf = g.mem.buf ∧
      t.pending.map (·.id) = (s.pending.map (·.id)).filter fun k => !(ws.length == 1 && k == p.id))

/-- 12 R277 to R281: `bari` sets a barrier's count and completes a phase that has all its arrivals; `barw` and
`tktw` pass once the phase or the ticket's turn has come and park the group until then; `tkts` advances
its counter's SERV. -/
def Sys2Proof.Claims.BarriersAndTickets : Prop :=
  (∀ (c : Ctl) (bar : Nat) (a : Src) (s : State) (g : Group) (tm : Team), (Instr.bari c bar a).wf = true →
    Runs s g → s.tracked g.team = none → s.teamOf g = some tm → Usable g [scalUse a] (g.on c) → g.on c ≠ [] →
    let b := tm.bar bar
    let n := if 1 ≤ sv g a ∧ sv g a ≤ 128 then sv g a else tm.groups.length
    (b.arr < n ∨ b.held = true → ∃ t h, exec (.bari c bar a) s = .next t ∧
      IssuedAs (s.setTeam g.team (tm.setBar bar { b with count := n })) t g h 8 [] 0) ∧
    (n ≤ b.arr → b.held = false → tm.ringOf bar = none → ∃ t h, exec (.bari c bar a) s = .next t ∧
      IssuedAs (s.setTeam g.team (tm.setBar bar
        { b with count := n, phase := b.phase + 1, arr := b.arr2, arr2 := 0 })) t g h 8 [] 0)) ∧
  (∀ (c : Ctl) (a : Src) (s : State) (g : Group), (Instr.barw c a).wf = true → Runs s g →
    Usable g [scalUse a] (g.on c) → g.on c ≠ [] →
    let bar := sv g a / 2 ^ 32 % 32
    let ph := BitVec.ofNat 32 (sv g a)
    let past := 1 ≤ (s.phaseOf g bar - ph).toNat ∧ (s.phaseOf g bar - ph).toNat ≤ 2 ^ 31
    (past → ∃ t h, exec (.barw c a) s = .next t ∧ IssuedAs s t g h 8 [] 0) ∧
    (¬ past → exec (.barw c a) s = .next (s.setGroup s.cur { g with park := some (.barw bar ph.toNat) }))) ∧
  (∀ (c : Ctl) (a : Src) (s : State) (g : Group), (Instr.tktw c a).wf = true → Runs s g →
    s.tracked g.team = none → Usable g [scalUse a] (g.on c) → g.on c ≠ [] →
    let n := sv g a / 2 ^ 32 % 64
    let k := BitVec.ofNat 32 (sv g a)
    let served := (s.servOf g n - k).toNat < 2 ^ 31
    (served → Completes (exec (.tktw c a) s) (s.setGroup s.cur { g with mem := { g.mem with
      fen := g.mem.fen.join ⟨s.clusterEnd g, 0⟩ } }) 8) ∧
    (¬ served → exec (.tktw c a) s = .next (s.setGroup s.cur { g with park := some (.tktw n k.toNat) }))) ∧
  (∀ (s : State) (p : Pend) (g : Group) (tm : Team) (cl : Cluster) (n j : Nat), Due s p g tm cl →
    p.op = .tkts n →
    ∃ t v, exec (.atomicPerform p.id j) s = .next t ∧ t.cluster? tm.cluster = some v ∧
      v.ticket n = { cl.ticket n with serv := (cl.ticket n).serv + 1, vc := (v.ticket n).vc } ∧
      (∀ m, m ≠ n → v.ticket m = cl.ticket m) ∧ v.lvl = cl.lvl ∧
      t.pending = s.pending.filter (·.id != p.id) ∧ t.groups = s.groups ∧ t.teams = s.teams ∧ t.mem = s.mem)

/-- 12 R278, R279; 06 R134, R136: an arrival is counted, and its token is the phase it belongs to; the last one
completes the phase, unless the ring it drives is full or empty, which holds it; while the next phase of
a held barrier is one short of complete, no arrival is counted. -/
def Sys2Proof.Claims.BarrierArrivals : Prop :=
  ∀ (s : State) (p : Pend) (g : Group) (tm : Team) (cl : Cluster) d bar, Due s p g tm cl →
    p.op = .barv d bar → (∃ n, d = .s n) →
    let b := tm.bar bar
    let answers (tm' : Team) (ph : BitVec 32) : Prop :=
      ∃ t h, exec (.barrierArrivalCounted p.id) s = .next t ∧
        AnsweredAs (s.setTeam g.team tm') t p g h d (bar * 2 ^ 32 + ph.toNat)
    (b.held = false → b.arr + 1 ≠ b.count → answers (tm.setBar bar { b with arr := b.arr + 1 }) b.phase) ∧
    (b.held = false → b.arr + 1 = b.count → ∀ tm', phaseDone tm bar = some tm' → answers tm' b.phase) ∧
    (b.held = true → b.arr2 + 1 ≠ b.count →
      answers (tm.setBar bar { b with arr2 := b.arr2 + 1 }) (b.phase + 1)) ∧
    (b.held = true → b.arr2 + 1 = b.count → exec (.barrierArrivalCounted p.id) s = .next s)

/-- 12 R282, R283: `park` whose checks pass leaves its destination empty and parks the group; its read registers
it in the core's park table where the word is the one expected, and ends it with 1 otherwise; its time
ends it with 2, and a `wake` that finds it with 0, and reports how many it woke.
A reading of the model in it: log 39. -/
def Obligations.ParksAndWakes : Prop :=
  (∀ (c : Ctl) (sc : Scope) (d : Opd) (a b e : Src) (s : State) (g : Group) (leaf : Nat → Leaf),
    (Instr.park c sc d a b e).wf = true → Runs s g → Usable g [scalUse a, scalUse b, scalUse e] (g.on c) →
    Fillable g [⟨d, 1, false⟩] (g.on c) → s.parksOf g.core < 128 → ∀ l ls, g.on c = l :: ls →
    Allowed s g true false false 8 8 (g.on c) (fun _ => sv g a) leaf →
    ∃ t h p, exec (.park c sc d a b e) s = .next t ∧
      p.op = .park d sc ((leaf l).key (sv g a)) (sv g a) (g.rdS b.o) (g.rdS e.o) ∧
      StartedAs Beside (if sc = .team ∨ sc = .grp then s else s.soil g.team) t { g with park := some .park } h 8
        (destCells d 1 (g.on c)) p) ∧
  (∀ (s : State) (p : Pend) (g : Group) (tm : Team) (cl : Cluster) d sc key va expect timeout (n : Nat)
    (bs : List Byte), Due s p g tm cl → MemOk s → p.op = .park d sc key va expect timeout → (∃ n, d = .s n) →
    g.park = some .park → bs.length = 8 →
    (let ks := (List.range 8).map (key + ·)
     ∀ j < 8, TakesByte s g (some sc) [] ⟨0, va, 0, p.lo, ks, ks.map fun k => AMap.at? g.mem.buf k⟩ j (bs.getD j 0)) →
    ∃ t h, exec (.atomicPerform p.id n) s = .next t ∧ t.group? p.gid = some h ∧ h.ctl = g.ctl ∧
      t.pending = s.pending.filter (·.id != p.id) ∧
      (leNat bs = expect.toNat → h.regs = g.regs ∧ h.park = some .park ∧
        ∃ x, (t.core g.core).parks = (s.core g.core).parks ++ [x] ∧ x.gid = p.gid ∧ x.sc = sc ∧ x.va = va ∧
          x.d = d ∧ x.deadline = if timeout = 0 then none else some (s.clk + timeout.toNat)) ∧
      (leNat bs ≠ expect.toNat → h.rdS d = 1 ∧ cellOf d 0 ∉ h.regs.empt ∧ CellsKept g h [cellOf d 0] ∧
        h.park = some .woken ∧ (t.core g.core).parks = (s.core g.core).parks)) ∧
  (∀ (s : State) (core slot k : Nat) (g : Group) (x : ParkEnt) (n : Nat), s.groupAt core slot = some k →
    s.group? k = some g → g.park = some .park → (s.stream (s.tenantOf g)).rplLog = [] → Untraced s →
    (s.core core).parks.find? (fun e => e.gid == k) = some x → x.deadline = some n → n ≤ s.clk →
    (∃ m, x.d = .s m) →
    ∃ t h, exec (.parkTimeout core slot) s = .next t ∧ t.group? k = some h ∧ h.rdS x.d = 2 ∧
      cellOf x.d 0 ∉ h.regs.empt ∧ CellsKept g h [cellOf x.d 0] ∧ h.park = some .woken ∧ h.ctl = g.ctl ∧
      (t.core core).parks = (s.core core).parks.filter (fun e => e.ord != x.ord) ∧
      (∀ j, j ≠ k → t.group? j = s.group? j)) ∧
  (∀ (s : State) (p : Pend) (g h₀ : Group) (tm : Team) (cl : Cluster) d sc va lim (n : Nat) (x : ParkEnt),
    Due s p g tm cl → p.op = .wake d sc va lim → (∃ m, d = .s m) → s.parkedOn g sc va = [x] → x.gid ≠ p.gid →
    s.group? x.gid = some h₀ → h₀.park = some .park → h₀.team = g.team → (∃ m, x.d = .s m) →
    ∃ t h w, exec (.atomicPerform p.id n) s = .next t ∧ t.group? p.gid = some h ∧ h.rdS d = 1 ∧
      cellOf d 0 ∉ h.regs.empt ∧ CellsKept g h [cellOf d 0] ∧
      t.group? x.gid = some w ∧ w.rdS x.d = 0 ∧ cellOf x.d 0 ∉ w.regs.empt ∧ CellsKept h₀ w [cellOf x.d 0] ∧
      w.park = some .woken ∧ w.ctl = h₀.ctl ∧
      (∀ core, (t.core core).parks = (s.core core).parks.filter (fun e => e.ord != x.ord)))

/-! ## Traps -/

/-- 18 R393 to R398, R409, R412; 02 R27; 06 R116; 07 R164: the traps, each of its lanes, cause and
addresses: `trap` and `brkp` always, with TRAP_EPC behind them; an empty source with empty action 1; a
poisoned source, of a load with the addresses of its lanes (R397); a misaligned and a non-canonical load; `rtt` at U;
and, in the native mode, an enabled floating-point flag, which leaves the destination unwritten. -/
def Sys2Proof.Claims.TrapsTaken : Prop :=
  ∀ (s : State) (g : Group) (tm : Team), Runs s g →
  (∀ (c : Ctl) (n : Nat), (Instr.trap c n).wf = true → HasHandler s g tm 10 → g.on c ≠ [] →
    ∃ t, exec (.trap c n) s = .next t ∧
      Entered s t g tm (.trap c n) ⟨10, 0, maskOf (g.on c), 0, 0, n⟩ (g.ctl.pc + 8) g.sys.fpsr) ∧
  (∀ (c : Ctl) (n : Nat), (Instr.brkp c n).wf = true → HasHandler s g tm 9 → g.on c ≠ [] →
    ∃ t, exec (.brkp c n) s = .next t ∧
      Entered s t g tm (.brkp c n) ⟨9, 0, maskOf (g.on c), 0, 0, n⟩ (g.ctl.pc + 8) g.sys.fpsr) ∧
  (∀ (c : Ctl) (f : IForm) (d : Opd) (a b : Src), (Instr.iadd c f d a b).wf = true → HasHandler s g tm 5 →
    let u : Use := ⟨a.o, if f.scal then 1 else f.ty.regs, a.bang⟩
    let bad := (g.on c).filter fun l => !(g.emptyCells u [l]).isEmpty
    a.bang = true → bad ≠ [] → ∃ t, exec (.iadd c f d a b) s = .next t ∧
      Entered s t g tm (.iadd c f d a b) ⟨5, 0, maskOf bad, 0, 0, 0⟩ g.ctl.pc g.sys.fpsr) ∧
  (∀ (c : Ctl) (f : IForm) (d : Opd) (a b : Src), (Instr.iadd c f d a b).wf = true → HasHandler s g tm 15 →
    let k := if f.scal then 1 else f.ty.regs
    let us : List Use := [⟨a.o, k, a.bang⟩, ⟨b.o, k, b.bang⟩]
    let bad := (g.on c).filter fun l => us.any fun u => !(lanesIn g.regs.pois u [l]).isEmpty
    Fillable g us (g.on c) → Fillable g [⟨d, k, false⟩] (g.on c) → bad ≠ [] →
    ∃ t, exec (.iadd c f d a b) s = .next t ∧
      Entered s t g tm (.iadd c f d a b) ⟨15, 0, maskOf bad, 0, 0, 0⟩ g.ctl.pc g.sys.fpsr) ∧
  (∀ i c ax w sx d m long sc size, loadRow i = some (c, ax, w, sx, d, m, long, sc, size) → i.wf = true →
    Fillable g (memUses m) (g.on c) → Fillable g [⟨d, w.regs, false⟩] (g.on c) → HasHandler s g tm 15 →
    let bad := (g.on c).filter fun l => (memUses m).any fun u => !(lanesIn g.regs.pois u [l]).isEmpty
    let eas := bad.map fun l => (l, effAddr g m long l)
    ∀ x xs, eas = x :: xs → ∃ t, exec i s = .next t ∧
      Entered s t g tm i ⟨15, 0, maskOf bad, x.2, ((x :: xs).getLast (by simp)).2, 0⟩ g.ctl.pc g.sys.fpsr) ∧
  (∀ i c ax w sx d m long sc size, loadRow i = some (c, ax, w, sx, d, m, long, sc, size) → i.wf = true →
    Usable g (memUses m) (g.on c) → Fillable g [⟨d, w.regs, false⟩] (g.on c) →
    let eas := (g.on c).map fun l => (l, effAddr g m long l)
    let off := eas.filter fun e => e.2 % w.bytes != 0
    let out := eas.filter fun e => canonical e.2 == false
    (HasHandler s g tm 3 → ∀ x xs, off = x :: xs → ∃ t, exec i s = .next t ∧
      Entered s t g tm i ⟨3, 0, maskOf (off.map (·.1)), x.2, ((x :: xs).getLast (by simp)).2, 0⟩ g.ctl.pc
        g.sys.fpsr) ∧
    (HasHandler s g tm 2 → off = [] → ∀ x xs, out = x :: xs → ∃ t, exec i s = .next t ∧
      Entered s t g tm i ⟨2, 0, maskOf (out.map (·.1)), x.2, ((x :: xs).getLast (by simp)).2, 0⟩ g.ctl.pc
        g.sys.fpsr)) ∧
  (HasHandler s g tm 0 → ∃ t, exec .rtt s = .next t ∧
    Entered s t g tm .rtt ⟨0, 1, maskOf (g.on .always), 0, 0, 0⟩ g.ctl.pc g.sys.fpsr) ∧
  (∀ i r, arithFloatRow i = some r → i.wf = true → HasHandler s g tm 11 → s.queueMode g = false →
    Usable g r.srcs (g.on r.c) → Fillable g [⟨r.d, r.k, false⟩] (g.on r.c) →
    let fl := raisedBy (g.on r.c) (r.val g)
    let bad := (g.on r.c).filter fun l => (r.val g l).2.bits &&& s.arithMask g != 0
    bad ≠ [] → ∃ t, exec i s = .next t ∧
      Entered s t g tm i ⟨11, 0, maskOf bad, 0, 0, fl.bits⟩ g.ctl.pc (g.sys.fpsr ||| BitVec.ofNat 5 fl.bits))

/-- 18 R396: where TRAP_TBASE is 0 the group does not enter H; its team stays halted for the service agent,
which is signalled. -/
def Sys2Proof.Claims.AgentTraps : Prop :=
  ∀ (c : Ctl) (n : Nat) (s : State) (g : Group) (tm : Team), (Instr.trap c n).wf = true → Runs s g →
    Untraced s → s.teamOf g = some tm → tm.halted = false → (tm.treat == .save) = false →
    g.sys.high = false → tm.tbase = 0 → g.on c ≠ [] →
    ∃ t h q, exec (.trap c n) s = .next t ∧ t.group? s.cur = some h ∧ t.team? g.team = some q ∧
      h.sys = { g.sys with ld := h.sys.ld, epc := g.ctl.pc + 8, gpc := g.ctl.pc, gst := 0x10 } ∧
      h.ctl = { g.ctl with pc := g.ctl.pc + 8 } ∧
      DetailIs h.sys.ld (.trap c n) ⟨10, 0, maskOf (g.on c), 0, 0, n⟩ g.ctl.pc false ∧ CellsKept g h [] ∧
      q = { tm with halted := true, trapper := some s.cur, agent := true, issued := q.issued } ∧
      SiblingsHalted s t tm ∧ t.plat = (s.signal (65 + s.tenantOf g) (some (s.tenantOf g))).plat ∧
      t.mem = s.mem

/-- 18 R394, R413: at H, `rtt` returns to U at TRAP_EPC and `rtt.skip` behind the instruction there, and the
halt of the team is released: every group of it may run again where it stands. -/
def Obligations.TrapReturns : Prop :=
  ∀ (s : State) (g : Group) (tm : Team) (i : Instr) (pc : Word64), Runs s g → Untraced s →
    s.teamOf g = some tm → g.sys.high = true → g.sys.step = false → s.cur ∈ tm.groups →
    (s.queueMode g = true → ∀ k ∈ tm.groups, ∀ w, s.group? k = some w → w.sys.pendTrap = none) →
    ((i = .rtt ∧ pc = g.sys.epc) ∨ (i = .rttSkip ∧ ∃ w, s.wordAt g g.sys.epc = some w ∧
      pc = g.sys.epc + (if bitAt w 0 then 16 else 8))) → CodeAddr g.sys.epc → CodeAddr pc →
    ∃ t h q, exec i s = .next t ∧ t.group? s.cur = some h ∧ t.team? g.team = some q ∧
      h.ctl = { g.ctl with pc := pc } ∧ h.sys = { g.sys with high := false, stopped := false } ∧
      CellsKept g h [] ∧ h.mem.buf = g.mem.buf ∧
      q = { tm with halted := false, trapper := none, agent := false, issued := q.issued } ∧
      (∀ k ∈ tm.groups, k ≠ s.cur → t.group? k = (s.group? k).map fun w =>
        { w with sys := { w.sys with stopped := false, skid := none } }) ∧
      (∀ k, k ∉ tm.groups → t.group? k = s.group? k) ∧ t.mem = s.mem ∧ t.pending = s.pending

/-- 18 R390, R391, R414, R417; 07 R163; 21 R435, R436: a permitted `srd` writes the register's value to its
destination; a permitted `swr` changes that register and nothing else. A reading of the model in it: log 31. -/
def Obligations.SpecialRegisters : Prop :=
  (∀ (c : Ctl) (n : Nat) (d : Opd) (ix : Option Opd) (s : State) (g : Group), (Instr.srd c n d ix).wf = true →
    Runs s g → Usable g (indexUse ix) (g.on c) → Fillable g [⟨d, 1, false⟩] (g.on c) → g.on c ≠ [] →
    let j := ix.map fun o => (g.rdS o).toNat
    sregCause g.sys.high false n j = none → (n = 0 → s.floatPending s.cur = false) →
    (n ≠ 0x502 → ∃ t h, exec (.srd c n d ix) s = .next t ∧ IssuedAs s t g h 8 (destCells d 1 (g.on c)) 0 ∧
      ∀ v, sregRule s g n (j.getD 0) = some v → h.rdS d = BitVec.ofNat 64 v) ∧
    (n = 0x502 → let r := s.stream (s.tenantOf g)
      Completes (exec (.srd c n d ix) s) ((s.setGroup s.cur { g with mem := { g.mem with
        fen := g.mem.fen.join ⟨s.clusterEnd g, s.dev.pos⟩ } }).putS s.cur d
          (r.rptr.toNat * 2 ^ 32 + r.wptr.toNat)) 8)) ∧
  (∀ (c : Ctl) (n : Nat) (ix : Option Opd) (a : Src) (s : State) (g : Group), (Instr.swr c n ix a).wf = true →
    Runs s g → Usable g (indexUse ix ++ [scalUse a]) (g.on c) → g.on c ≠ [] →
    let j := ix.map fun o => (g.rdS o).toNat
    let w := g.rdS a.o
    sregCause g.sys.high true n j = none → (n = 0 → s.floatPending s.cur = false) →
    (n = 0x700 → w.toNat % 1024 = 0) →
    (∀ u, localWrite s g n w = some u → Completes (exec (.swr c n ix a) s) u 8) ∧
    (localWrite s g n w = none → ∃ q, StreamWritten s.time (s.stream (s.tenantOf g)) q n (j.getD 0) w ∧
      Completes (exec (.swr c n ix a) s) (withStream s (s.tenantOf g) n q) 8))

/-- 18 R393, R402, R415, R416: `sleep` parks the group for its clocks and expires when they have passed; a
sibling may stop before its skid is used up; `spt` and the end of a safe-point window stop a group that a
save has asked. -/
def Obligations.SleepsAndStops : Prop :=
  (∀ (c : Ctl) (a : Src) (s : State) (g : Group), (Instr.sleep c a).wf = true → Runs s g →
    Usable g [scalUse a] (g.on c) → g.on c ≠ [] →
    let n := sv g a % 2 ^ 32
    (n = 0 → ∃ t h, exec (.sleep c a) s = .next t ∧ IssuedAs s t g h 8 [] 0) ∧
    (n ≠ 0 → Completes (exec (.sleep c a) s) (s.setGroup s.cur { g with park := some (.sleep n) }) 8)) ∧
  (∀ (s : State) (core slot k n : Nat) (g : Group), s.groupAt core slot = some k → s.group? k = some g →
    MayRun s g → g.park = some (.sleep n) →
    (n = 0 → ∃ t h, exec (.sleepExpiry core slot) s = .next t ∧ t.group? k = some h ∧ h.park = none ∧
      h.ctl = g.ctl ∧ h.regs = g.regs ∧ h.sys = g.sys ∧ (∀ j, j ≠ k → t.group? j = s.group? j) ∧
      t.mem = s.mem ∧ t.teams = s.teams) ∧
    (n ≠ 0 → exec (.sleepExpiry core slot) s = .next s)) ∧
  (∀ (s : State) (core slot k n : Nat) (g : Group), s.groupAt core slot = some k → s.group? k = some g →
    Untraced s → g.held = none → g.sys.skid = some n →
    ∃ t, exec (.siblingStop core slot) s = .next t ∧ t = { s with groups := t.groups } ∧
      t.group? k = some { g with sys := { g.sys with
        stopped := true, skid := none, gpc := g.ctl.pc, gst := BitVec.ofNat 8 (8 - n) } } ∧
      (∀ j, j ≠ k → t.group? j = s.group? j)) ∧
  (∀ (c : Ctl) (s : State) (g : Group), Runs s g → Untraced s → g.on c ≠ [] →
    (g.stopReq = none → ∃ t h, exec (.spt c) s = .next t ∧ IssuedAs s t g h 8 [] 0) ∧
    (g.stopReq.isSome = true → g.held = none → ∃ t h, exec (.spt c) s = .next t ∧ t.group? s.cur = some h ∧
      h.ctl = { g.ctl with pc := g.ctl.pc + 8 } ∧ h.frozen = true ∧ h.fbuf = [] ∧ h.stopReq = none ∧ h.live = none ∧
      CellsKept g h [] ∧ h.sys = g.sys ∧ h.mem = g.mem ∧ Kept s t g ∧ t.pending = s.pending)) ∧
  (∀ (s : State) (core slot k n : Nat) (g : Group), s.groupAt core slot = some k → s.group? k = some g →
    Untraced s → g.held = none → g.shadow = none → g.trc.rec? = none → g.stopReq = some n →
    (n + 20000 ≤ s.clk → ∃ t, exec (.safepointWindowExpiry core slot) s = .next t ∧
      t.group? k = some { g with frozen := true, stopReq := none, want := none, fbuf := [], live := none } ∧
      (∀ j, j ≠ k → t.group? j = s.group? j) ∧ t = { s with groups := t.groups }) ∧
    (s.clk < n + 20000 → exec (.safepointWindowExpiry core slot) s = .next s))

/-! ## Pre-emption -/

/-- 18 R399 to R402, R494: a slice that ends only counts as done while no launch waits for the core, and
otherwise pre-empts the clusters there; `PRE_REQ` with ALL pre-empts the tenant's; a drain that outlasts
its budget is saved. -/
def Sys2Proof.Claims.Preemption : Prop :=
  (∀ (s : State) (core cid tid : Nat) (c : Cluster) (t : Team) (gr : Grid), (s.core core).teams ≠ [] →
    (s.core core).sliceDone = true ∨ (s.core core).sliceStart + s.realClocks (s.sliceEff core) ≤ s.clk →
    let u := s.modCore core fun k => { k with sliceDone := true }
    (u.waitsFor core = false → Untraced s → exec (.sliceExpiry core) s = .next u) ∧
    (u.waitsFor core = true → u.clustersOn core = [cid] → OneTeam u cid tid c t gr →
      ∃ v, exec (.sliceExpiry core) s = .next v ∧ Preempted u v cid tid c t gr)) ∧
  (∀ (s : State) (tenant tid : Nat) (c : Cluster) (t : Team) (gr : Grid), s.teams = [(tid, t)] →
    OneTeam s t.cluster tid c t gr → gr.rcd.tenant = tenant % 64 → t.agent = false → s.boot.stage ≠ 0 →
    ∃ v, exec (.preReqAll tenant) s = .next v ∧ Preempted s v t.cluster tid c t gr) ∧
  (∀ (s : State) (tid d : Nat) (t : Team), s.team? tid = some t → t.treat = .drain d → d ≤ s.clk →
    t.retired = false → Untraced s →
    ∃ v, exec (.drainBudgetExpiry tid) s = .next v ∧
      (∀ slot, (s.tenant (s.teamTenant t)).freeSlots 1 = some [slot] →
        (∃ q, v.team? tid = some q ∧ q = { t with treat := .save, ctxSlot := some slot, gate := false }) ∧
        drainOver v t.core = true) ∧
      ((s.tenant (s.teamTenant t)).freeSlots 1 = none →
        v.team? tid = some { t with treat := .no } ∧ noSlot v t.core = true ∧ v.groups = s.groups))

/-- 18 R401 to R405: a cluster whose team has stopped and completed everything leaves its core with its
context kept; restored, it stands on the core its placement gives, with every register, level and
scratchpad byte as saved. Readings of the model in it: logs 58, 59. -/
def Obligations.SavesAndRestores : Prop :=
  (∀ (s : State) (cid tid : Nat) (c : Cluster) (t : Team), s.cluster? cid = some c → c.teams = [tid] →
    s.team? tid = some t → Stopped s tid t →
    ∃ v q, exec (.saveReported cid) s = .next v ∧ v.team? tid = some q ∧ q.resident = false ∧ q.treat = .no ∧
      q.lvl = t.lvl ∧ q.sp = t.sp ∧ q.ctxSlot = t.ctxSlot ∧ tid ∉ (v.core t.core).teams ∧ v.mem = s.mem ∧
      ∀ k ∈ t.groups, v.group? k = (s.group? k).map fun g => { g with frozen := !g.ended, stopReq := none }) ∧
  (∀ (s : State) (cid tid o : Nat) (c : Cluster) (t : Team) (gr : Grid), s.cluster? cid = some c →
    s.grid? c.grid = some gr → c.teams = [tid] → s.team? tid = some t → t.resident = false → t.retired = false →
    t.bin = none → t.agent = false → t.trapper = none → s.launchHold = false → Untraced s →
    (∀ p ∈ s.pending, p.gid ∉ t.groups) →
    let p : Shape := ⟨gr.rcd.w, gr.rcd.h, gr.rcd.g, gr.rcd.fit, some 1⟩
    s.pickOrigin s.siteUse p (needOf gr.rcd gr.hdr gr.binTab) gr.rcd.seed c.index = some o →
    let core := s.coreOfPsi ((s.rectSites p o).getD t.index 0)
    ∃ v q, exec (.teamRestore cid) s = .next v ∧ v.team? tid = some q ∧ q.resident = true ∧ q.core = core ∧
      q.ctxSlot = none ∧ q.gate = true ∧ (∀ k, inLevel q.lvl k = inLevel t.lvl k) ∧ q.sp.bytes = t.sp.bytes ∧
      q.sp.full = t.sp.full ∧ tid ∈ (v.core core).teams ∧ v.mem = s.mem ∧
      ∀ k ∈ t.groups, ∀ g, s.group? k = some g → g.ended = false → g.live = none →
        ∃ h, v.group? k = some h ∧ h.core = core ∧ h.frozen = false ∧ h.regs = g.regs ∧ h.ctl = g.ctl ∧
          h.sys = g.sys ∧ h.park = g.park ∧ (∀ j, inLevel h.mem.buf j = inLevel g.mem.buf j))

/-- 18 R396: `PRE_REQ` with END and ALL 0 saves a team halted for the agent, to be restored running; with END
it ends the team's groups, each once its commits in progress have completed (11 R251), and the halt is over. -/
def Sys2Proof.Claims.AgentRequests : Prop :=
  ∀ (s : State) (tenant tid : Nat) (t : Team), s.agentTeams (tenant % 64) = [(tid, t)] → s.team? tid = some t →
    Untraced s → s.boot.stage ≠ 0 →
    (∀ slot, t.resident = true → t.treat = .no → (s.tenant (tenant % 64)).freeSlots 1 = some [slot] →
      ∃ v, exec (.preReqSaveHalted tenant) s = .next v ∧
        SaveBegun s v tid slot (tenant % 64) t
          ((((s.cluster? t.cluster).bind fun c => s.grid? c.grid).map (·.rcd.side)).getD false) true) ∧
    (∃ v q, exec (.preReqEnd tenant) s = .next v ∧ v.team? tid = some q ∧ q.halted = false ∧ q.agent = false ∧
      q.trapper = none ∧ q.treat = .no ∧ (∀ k ∈ t.groups, ∀ g, s.group? k = some g → g.ended = false →
        (s.committing k = false → ∃ h, v.group? k = some h ∧ h.ended = true ∧ h.mem = {}) ∧
        (s.committing k = true → ∃ h, v.group? k = some h ∧ h.ended = false ∧ h.ctl.act = 0 ∧ h.ctl.stack = [] ∧
          h.mem = g.mem ∧ h.sys.stopped = false)) ∧
      ((∀ k ∈ t.groups, ∀ g, s.group? k = some g → g.trc.rec? = none) → v.mem = s.mem))

/-! ## Tasks and launches -/

/-- 14 R309, R310, R319, R320, R324: `spawn` puts the lanes on into the bin, or stalls while it has no room;
`binf` forces a bin that is not empty; its timer fires it; a bin that may launch starts one group with the
arguments of its first 32 lanes; `yield` makes the group the youngest. A reading of the model in it: log 44. -/
def Obligations.BinsAndYields : Prop :=
  (∀ (c : Ctl) (bin : Nat) (a : Src) (s : State) (g : Group), (Instr.spawn c bin a).wf = true → Runs s g →
    Usable g [⟨a.o, 2, a.bang⟩] (g.on c) → g.on c ≠ [] →
    let b := s.bin g.core bin
    let b' : Bin := { b with
      lanes := b.lanes ++ (g.on c).map fun l => BitVec.ofNat 64 (g.rdN a.o 2 l)
      deadline := if b.lanes.isEmpty then b.entry.map fun e => s.clk + e.2 else b.deadline }
    (b.lanes.length + (g.on c).length ≤ 64 → Completes (exec (.spawn c bin a) s)
      ((s.modCore g.core fun k => { k with bins := AMap.set k.bins bin b' }).soil g.team) 8) ∧
    (64 < b.lanes.length + (g.on c).length →
      exec (.spawn c bin a) s = .next (s.setGroup s.cur { g with stall := 2 }))) ∧
  (∀ (c : Ctl) (bin : Nat) (s : State) (g : Group), (Instr.binf c bin).wf = true → Runs s g → g.on c ≠ [] →
    let b := s.bin g.core bin
    Completes (exec (.binf c bin) s) ((s.modCore g.core fun k => { k with
      bins := AMap.set k.bins bin { b with forced := b.forced || !b.lanes.isEmpty } }).soil g.team) 8) ∧
  (∀ (s : State) (core bin d : Nat), (s.bin core bin).deadline = some d → (s.bin core bin).lanes ≠ [] →
    (d ≤ s.clk → exec (.binTimerExpiry core bin) s = .next (s.modCore core fun k => { k with
      bins := AMap.set k.bins bin { (s.bin core bin) with fired := true } })) ∧
    (s.clk < d → exec (.binTimerExpiry core bin) s = .next s)) ∧
  (∀ (s : State) (core bin : Nat) (h : Header) (gr : Grid) (e : Nat × Nat), s.binReady core bin = some (h, gr) →
    (s.bin core bin).entry = some e → Untraced s → (∀ p ∈ s.pending, ∀ d n, p.op ≠ .rail d n) →
    let b := s.bin core bin
    let args := b.lanes.take 32
    ∃ t k g q, exec (.binLaunch core bin) s = .next t ∧ t.group? k = some g ∧ t.team? g.team = some q ∧
      g.core = core ∧ g.ctl.pc = BitVec.ofNat 64 e.1 ∧
      g.ctl.act = maskOf (List.range args.length) ∧ g.ctl.stack = [] ∧
      (∀ l < args.length, g.rdN (.v 0) 2 l = (args.getD l 0).toNat) ∧
      g.rdS (.s 0) = gr.rcd.arg ∧ g.rdS (.s 1) = BitVec.ofNat 64 gr.addr ∧
      q.core = core ∧ q.hdr = h ∧ q.groups = [k] ∧ q.bin = some (bin, args) ∧ g.team ∈ (t.core core).teams ∧
      (s.bin core bin).lanes = args ++ (t.bin core bin).lanes) ∧
  (∀ (c : Ctl) (s : State) (g : Group), Runs s g → g.on c ≠ [] → Completes (exec (.yield c) s)
    (s.setGroup s.cur { g with age := s.clk, yieldAt := s.clk + 1 }) 8)

/-- 14 R295 to R306, R314, R322; 11 R251: a ready task starts its launch or joins its bin; the Treadle takes
the head of the device queue and places the next cluster where Pick gives room for all its teams, or lets
it wait; a team retires when all it did is over, and a grid completes once.
Readings of the model in it: logs 43, 46. -/
def Obligations.Launching : Prop :=
  (∀ (s : State) (die idx : Nat) (t : Task), s.task (die * 65536 + idx % 65536) = t → t.st = .ready → Untraced s →
    let k := die * 65536 + idx % 65536
    (∀ l, t.bin = none → t.launch = some l → l.refused = 0 → exec (.taskDispatch die idx) s = .next
      (let u := s.setTask k { gen := t.gen }; { u with trd := { u.trd with devq := u.trd.devq ++ [l] } })) ∧
    (∀ b e x, t.bin = some b → s.binBound t.core b = some e → t.binEntry = some x → e.1 = x.1 →
      let y := s.bin t.core b
      y.lanes.length < 64 → exec (.taskDispatch die idx) s = .next ((s.modCore t.core fun q => { q with
        bins := AMap.set q.bins b { y with
          lanes := y.lanes ++ [t.payload]
          deadline := if y.lanes.isEmpty then y.entry.map fun e => s.clk + e.2 else y.deadline } }).setTask k
            { gen := t.gen }))) ∧
  (∀ (s : State) (l : Launch) (rest : List Launch) (r : Record) (h : Header), s.launchHold = false →
    s.trd.queues = [] → s.trd.devq = l :: rest → AMap.at? s.trd.taken 256 = none → l.rcd = some r →
    l.hdr = some h → r.prio < 4 → Untraced s →
    ∃ t n gr, exec .selectLaunch s = .next t ∧ t.grid? n = some gr ∧ gr.lno = l.lno ∧ gr.addr = l.addr ∧
      gr.rcd = r ∧ gr.hdr = h ∧ gr.queue = 256 ∧ gr.next = 0 ∧ gr.clusters = [] ∧ gr.done = false ∧
      gr.readFrom = l.readFrom ∧ AMap.at? t.trd.taken 256 = some n ∧ t.trd.devq = s.trd.devq ∧
      t.groups = s.groups ∧ t.mem = s.mem) ∧
  (∀ (s : State) (lno id : Nat) (gr : Grid), s.gridOfLno lno = some (id, gr) → s.grid? id = some gr →
    s.launchHold = false →
    (gr.waiting = false → PlacesNext (.clusterPlace lno) s id gr) ∧
    (gr.waiting = true → gr.retry = true → PlacesNext (.clusterRetry lno) s id gr)) ∧
  (∀ (s : State) (tid : Nat) (tm : Team) (cl : Cluster), s.team? tid = some tm → s.cluster? tm.cluster = some cl →
    tm.retired = false → s.teamOver tid tm = true → cl.teams = [tid] → Untraced s →
    ∃ t q c, exec (.teamRetire tid) s = .next t ∧ t.team? tid = some q ∧ q.retired = true ∧ q.resident = false ∧
      q.lvl = [] ∧ q.groups = [] ∧ t.cluster? tm.cluster = some c ∧ c.lvl = [] ∧ tid ∉ (t.core tm.core).teams ∧
      (∀ k ∈ tm.groups, t.group? k = none) ∧ t.mem = s.mem ∧ t.dirty = s.dirty ∧
      ∀ k g, k ∉ tm.groups → s.group? k = some g → g.core ≠ tm.core → t.group? k = some g) ∧
  (∀ (s : State) (lno id : Nat) (gr : Grid), s.gridOfLno lno = some (id, gr) → s.grid? id = some gr →
    s.gridOver gr = true → Untraced s → gr.rcd.crec = 0 → gr.rcd.ctask = 0 →
    exec (.gridComplete lno) s = .next (s.modGrid id fun g => { g with done := true }))

/-! ## Registers of the service agent; errors -/

/-- 06 R114, R118, R120; 08 R187; 14 R298; 18 Table 18-1; 21 R435, R436; 23 R474, R475: what writes of the
service agent's registers do, by their own rows and through the window; writes that a rule ignores or
rejects only count; in S0 they change nothing. Readings of the model in it: logs 61, 62. -/
def Obligations.AgentWrites : Prop :=
  (∀ (s : State) (t : Nat) (w : Word64) (seq : BitVec 56), s.boot.stage = 0 →
    ∀ i ∈ [Instr.mmFrespResume t seq, .mmFrespFail t seq, .mmInv t w, .mmFqbaseWrite t w, .mmFqptrHeadWrite t w,
      .trdQptrTailWrite t w, .trdQctlWrite t w, .railSharedWrite w, .svCtlWrite t w, .svBaseWrite t w,
      .svPtrWrite t w, .svRplWrite t w, .svRplgo t w, .preReqSaveHalted t, .preReqEnd t, .preReqAll t,
      .mmCkptCheckpoint w, .mmCkptRestore w, .mmCkptBadOp t], exec i s = .next s) ∧
  (∀ (s : State) (t : Nat) (seq : BitVec 56), Untraced s → s.boot.stage ≠ 0 →
    Answers (.mmFrespResume t seq) s (t % 64) seq.toNat false ∧
    Answers (.mmFrespFail t seq) s (t % 64) seq.toNat true) ∧
  (∀ (s : State) (t : Nat) (w : Word64),
    let v := w.toNat
    (bitsAt v 0 6 ≤ 45 ∧ bitsAt v 6 6 = 0 ∧ bitsAt v 57 7 = 0 → s.boot.stage ≠ 0 → ∃ u, exec (.mmInv t w) s = .next u ∧
      u.tenant (t % 64) = { s.tenant (t % 64) with inv := w, invDone := false } ∧
      (∀ core, (s.core core).sliceTenant = some (t % 64) → ∀ n l, (tlbKey (n * 4096) 0, l) ∈ (u.core core).tlb →
        n < 2 ^ 45 → ¬ (bitsAt v 12 45 ≤ n ∧ n < bitsAt v 12 45 + 2 ^ bitsAt v 0 6)) ∧ u.mem = s.mem) ∧
    (45 < bitsAt v 0 6 ∨ bitsAt v 6 6 ≠ 0 ∨ bitsAt v 57 7 ≠ 0 → exec (.mmInv t w) s = .next s)) ∧
  (∀ (s : State) (t : Nat), (s.invReady (t % 64) = true → ∃ u, exec (.invalidationDone t) s = .next u ∧
      u.tenant (t % 64) = { s.tenant (t % 64) with invDone := true } ∧ u.mem = s.mem) ∧
    (s.invReady (t % 64) = false → exec (.invalidationDone t) s = .next s)) ∧
  (∀ i n t w (s : State), agentRow i = some (n, t, w) → s.boot.stage ≠ 0 → ∃ x, tenantWritten (s.tenant t) n w = some x ∧
    exec i s = .next (withTenant s t x)) ∧
  (∀ (s : State) (q : Nat) (w : Word64), s.boot.stage ≠ 0 →
    let x := s.queue (q % 256)
    let tail := BitVec.ofNat 32 w.toNat
    ((tail - x.head).toNat ≤ 2 ^ bitsAt x.ctl.toNat 8 4 → exec (.trdQptrTailWrite q w) s =
      .next (s.modQueue (q % 256) fun x => { x with tail := tail })) ∧
    (2 ^ bitsAt x.ctl.toNat 8 4 < (tail - x.head).toNat → exec (.trdQptrTailWrite q w) s =
      .next { s with trd := { s.trd with ignored := s.trd.ignored + 1 } }) ∧
    exec (.trdQctlWrite q w) s = .next (s.modQueue (q % 256) fun x =>
      if x.head = x.tail then { x with ctl := w &&& 0xFFFFFFFFFFFFFFBF } else x)) ∧
  (∀ (s : State) (w : Word64), s.boot.stage ≠ 0 → ∃ t, exec (.railSharedWrite w) s = .next t ∧ t.l2c = bitsAt w.toNat 0 3 ∧
    t.l3c = bitsAt w.toNat 4 3 ∧ t.mem = s.mem ∧ t.dirty = s.dirty ∧ t.teams = s.teams ∧ t.groups = s.groups) ∧
  (∀ i n t w (s : State), selvageRow i = some (n, t, w) → s.boot.stage ≠ 0 →
    ∃ q, StreamWritten s.time (s.stream t) q n 0 w ∧
    exec i s = .next (withStream s t n q)) ∧
  (∀ (s : State) (n i : Nat) (w : Word64), s.boot.stage ≠ 0 → i < 64 → ∀ x, tenantWritten (s.tenant i) n w = some x →
    exec (.specialRegisterWrite (n * 65536 + 8 * i) w) s = .next (withTenant s i x)) ∧
  (∀ (s : State) (off : Nat) (w : Word64), off % 8 ≠ 0 → exec (.specialRegisterWrite off w) s =
    .next { s with plat := { s.plat with werr := s.plat.werr + 1 } })

/-- 18 R409, R410; 23 R490: a correctable error is counted; an uncorrectable one poisons its byte or register,
in memory and caches, scratchpads, buffers, levels and tiles, but not approximate data and x-registers, which carry
no code; a bad segment of one copy of the repair table is recorded, in both it is counted, and a rebuild makes it
good. A reading of the model in it: log 32. -/
def Obligations.StorageErrors : Prop :=
  (∀ s : State, exec .eccCorrectable s =
    .next { s with plat := { s.plat with eccCorr := s.plat.eccCorr + 1 } }) ∧
  (∀ (s : State) (pa : Nat), let l := s.line (lineOf pa)
    ((l.cached = false ∨ l.tol = false) → exec (.eccUncorrectable (.memory pa)) s =
      .next { s with pois := NSet.add s.pois pa }) ∧
    (l.cached = true → l.tol = true → exec (.eccUncorrectable (.memory pa)) s = .next s)) ∧
  (∀ (s : State) (core slot lane n k : Nat) (g : Group), atSlot s core slot k g → n < 64 → lane < 32 →
    exec (.eccUncorrectable (.vreg core slot lane n)) s =
      .next (s.setGroup k (poisonedAt g (cellOf (.v n) lane))) ∧
    exec (.eccUncorrectable (.sreg core slot n)) s = .next (s.setGroup k (poisonedAt g (cellOf (.s n) 0))) ∧
    exec (.eccUncorrectable (.xreg core slot lane n)) s = .next s) ∧
  (∀ (s : State) (team a : Nat) (t : Team), s.team? team = some t →
    (t.blockAx a = false → exec (.eccUncorrectable (.scratch team a)) s =
      .next (s.setTeam team { t with sp := { t.sp with pois := NSet.add t.sp.pois a } })) ∧
    (t.blockAx a = true → ∃ u, exec (.eccUncorrectable (.scratch team a)) s = .next u ∧ u.team? team = some t) ∧
    (∀ acc e, acc < t.hdr.acc → e < 16384 → twApx (t.tword acc) = false →
      exec (.eccUncorrectable (.tile team acc e)) s =
        .next (s.setTeam team { t with tpois := NSet.add t.tpois (16384 * acc + e) })) ∧
    (∀ acc e, twApx (t.tword acc) = true → ∃ u, exec (.eccUncorrectable (.tile team acc e)) s = .next u ∧
      u.team? team = some t) ∧
    (∀ key, ∃ q, exec (.eccUncorrectable (.teamLevel team key)) s = .next (s.setTeam team { t with lvl := q }) ∧
      Struck t.lvl q key)) ∧
  (∀ (s : State) (core slot k key : Nat) (g : Group), atSlot s core slot k g → ∃ q,
    exec (.eccUncorrectable (.groupBuffer core slot key)) s =
      .next (s.setGroup k { g with mem := { g.mem with buf := q } }) ∧ Struck g.mem.buf q key) ∧
  (∀ (s : State) (id key : Nat) (c : Cluster), s.cluster? id = some c → ∃ q,
    exec (.eccUncorrectable (.clusterLevel id key)) s =
      .next { s with clusters := AMap.set s.clusters id { c with lvl := q } } ∧
      Struck c.lvl q key) ∧
  (∀ (s : State) (seg : Nat), seg < 49152 →
    (s.plat.bad1.has seg = false → exec (.repairTableError 0 seg) s = .next { s with plat := { s.plat with
      bad0 := NSet.add s.plat.bad0 seg } }) ∧
    (s.plat.bad0.has seg = false → exec (.repairTableError 1 seg) s = .next { s with plat := { s.plat with
      bad1 := NSet.add s.plat.bad1 seg } }) ∧
    (∃ t, exec (.repairTableDoubleFault seg) s = .next t ∧ t.plat.bad0 = NSet.add s.plat.bad0 seg ∧
      t.plat.bad1 = NSet.add s.plat.bad1 seg ∧
      (s.plat.bad0.has seg = false ∨ s.plat.bad1.has seg = false →
        bitsAt (AMap.get 0 t.plat.hbmst (seg / 4096)).toNat 8 8 =
          min 255 (bitsAt (AMap.get 0 s.plat.hbmst (seg / 4096)).toNat 8 8 + 1)) ∧ t.mem = s.mem) ∧
    (s.plat.bad0.has seg = true ∨ s.plat.bad1.has seg = true → ∃ t, exec (.repairTableRebuilt seg) s = .next t ∧
      t.plat.bad0 = NSet.del s.plat.bad0 seg ∧ t.plat.bad1 = NSet.del s.plat.bad1 seg ∧
      bitsAt (AMap.get 0 t.plat.hbmst (seg / 4096)).toNat 0 8 =
        min 255 (bitsAt (AMap.get 0 s.plat.hbmst (seg / 4096)).toNat 0 8 + 1) ∧ t.mem = s.mem ∧
      t.plat.msix = 0 :: s.plat.msix))

/-! ## The engines -/

/-- 15 R328, R331, R343 to R351; 16 R357: an instruction for the Quill or the Heddle reads its block at
issue and puts its command last into the queue, where its group stays until the command is accepted; a
full queue stalls the group; with no lane on it does nothing. Readings of the model in it: logs 18, 47. -/
def Obligations.EngineCommandsQueue : Prop :=
  ∀ (s : State) (g : Group) i r, engRow s g i = some r → i.wf = true → Runs s g →
    Usable g ((match r.blk with | none => [] | some (a, n) => [⟨a.o, n, a.bang⟩]) ++ r.more) (g.on r.c) →
    Fillable g (dstUse r.d) (g.on r.c) → r.fits (blockOf g r.blk) →
    (g.on r.c = [] → ∃ t h, exec i s = .next t ∧ IssuedAs s t g h 8 [] 0) ∧
    (g.on r.c ≠ [] → 16 ≤ (s.engCmds g.core r.heddle).length →
      exec i s = .next (s.setGroup s.cur { g with stall := 2 })) ∧
    (g.on r.c ≠ [] → (s.engCmds g.core r.heddle).length < 16 → ∃ t, exec i s = .next t ∧
      t.group? s.cur = some { g with held := some s.nextId } ∧ (∀ k, k ≠ s.cur → t.group? k = s.group? k) ∧
      t.core g.core = { s.core g.core with cmds := (s.core g.core).cmds ++ [r.cmd i s g] } ∧
      (∀ k, k ≠ g.core → t.core k = s.core k) ∧
      t = { s with groups := t.groups, cores := t.cores, nextId := s.nextId + 1 })

/-- 15 R328, R329, R351; 16 R357, R371: acceptance of the oldest queued command: a transfer of no bytes, and
`hclr`. The command takes its team's next number of its engine and the time, the group moves past the
instruction, and a Quill command's number is written. -/
def Obligations.CommandsAccepted : Prop :=
  ∀ (s : State) (core : Nat) (c : Cmd) (g : Group) (t : Team), Heads s core c g t → Untraced s →
    (∀ n, c.heddle = false → Idle c → c.d = some (.s n) → ∃ u h x, exec (.quillAccept core) s = .next u ∧
      u.group? c.gid = some h ∧ h.held = none ∧ h.ctl = { g.ctl with pc := c.pc + 8 } ∧
      h.rdS (.s n) = BitVec.ofNat 64 t.qcount ∧ CellsKept g h [cellOf (.s n) 0] ∧
      (u.core core).cmds = ((s.core core).cmds.filter fun y => y.id != c.id) ++
        [{ c with st := .accepted, no := t.qcount % 2 ^ 32, since := s.clk, lo := x }] ∧
      (u.core core).locks = (s.core core).locks ∧
      (u.team? c.team).map (fun y => (y.qcount, y.hcount)) = some ((t.qcount + 1) % 2 ^ 32, t.hcount) ∧
      u = { s with groups := u.groups, cores := u.cores, teams := u.teams }) ∧
    (∀ fp n, c.heddle = true → c.op = .hclr fp n → c.d = none → ∃ u h x, exec (.heddleAccept core) s = .next u ∧
      u.group? c.gid = some h ∧ h.held = none ∧ h.ctl = { g.ctl with pc := c.pc + 8 } ∧ CellsKept g h [] ∧
      (u.core core).cmds = ((s.core core).cmds.filter fun y => y.id != c.id) ++
        [{ c with st := .accepted, no := t.hcount % 2 ^ 32, since := s.clk, lo := x }] ∧
      (u.core core).locks = (s.core core).locks ∧
      (u.team? c.team).map (fun y => (y.qcount, y.hcount)) = some (t.qcount, (t.hcount + 1) % 2 ^ 32) ∧
      u = { s with groups := u.groups, cores := u.cores, teams := u.teams })

/-- 15 R328, R334, R337, R340, R351; 16 R358, R364, R371: the oldest accepted Quill command begins when
fewer than eight run (a transfer by its sectors, ending TIMEOUT at once where its peer is not configured);
a Heddle command begins in its unit; a granule of fill lands in the scratchpad and becomes full; a command
whose data phase is over releases its ranges and leaves its status, and `hclr` its cleared tile.
Readings of the model in it: logs 49, 51. -/
def Obligations.CommandsRun : Prop :=
  (∀ (s : State) (core : Nat) (c : Cmd), (s.engCmds core false).find? (·.st == .accepted) = some c →
    ((s.engCmds core false).filter (·.st == .running)).length < 8 → c.bad = false → c.status = 0 →
    (c.op = .qput ∨ c.op = .qget) →
    exec (.quillDataPhaseStart core c.id) s = .next (s.setCmd core (
      if nth c.blk 3 = 0 then { c with st := .running }
      else if bitAt (AMap.get 0 s.plat.wpeer (nth c.blk 0 % 64)).toNat 63 = false then
        { c with st := .running, status := 2 }
      else { c with st := .running
                    work := sectorsIn (nth c.blk (if c.op = .qput then 1 else 2)) (nth c.blk 3) }))) ∧
  (∀ (s : State) (core n : Nat) (fp : Bool) (c : Cmd) (t : Team), Named s core c.id c → s.team? c.team = some t →
    c.heddle = true → c.op = .hclr fp n → c.bad = false → c.status = 0 → c.fault = none → c.st = .accepted →
    (∀ x ∈ ((s.engCmds core true).filter (·.st != .queued)).takeWhile (·.id != c.id), x.op.drains = true ∧
      (x.team ≠ c.team ∨ x.op.tile ≠ some n)) →
    exec (.heddleCommandStart core c.id) s = .next (s.setCmd core { c with st := .running, work := [] })) ∧
  (∀ (s : State) (core x u : Nat) (c : Cmd) (t : Team) (f : Nat → Byte), Named s core c.id c →
    s.team? c.team = some t → c.heddle = false → c.st = .running → c.fault = none → c.work = [u] →
    c.op = .qcp .sp false x →
    let b := c.boxOf (((s.group? c.gid).map s.slotsOf).getD [])
    let a := c.base + rotate b.l.rot (16 * u)
    (∀ i < 16, b.source (16 * u + i) = .fill (f i)) → t.blockAx a = false → t.windowAt a = none →
    ∃ z q, exec (.engineSectorComplete core false c.id) s = .next z ∧ z.team? c.team = some q ∧
      (∀ i < 16, AMap.get 0 q.sp.bytes (a + i) = f i) ∧
      (∀ k, (k < a ∨ a + 16 ≤ k) → AMap.get 0 q.sp.bytes k = AMap.get 0 t.sp.bytes k) ∧
      (∀ k, k ∈ q.sp.full ↔ k = a / 16 ∨ k ∈ t.sp.full) ∧
      z.cmd? core c.id = some { c with work := [], bytes := c.bytes + 16, blocks := NSet.add c.blocks (a / 256) } ∧
      (∀ k, k ≠ c.team → z.team? k = s.team? k) ∧ z.mem = s.mem ∧ z.groups = s.groups) ∧
  (∀ (s : State) (core : Nat) (c : Cmd) (t : Team), Named s core c.id c → s.team? c.team = some t → Untraced s →
    c.heddle = false → c.st = .running → c.fault = none → c.work = [] → c.left = [] → Idle c →
    ∃ u q, exec (.quillComplete core c.id) s = .next u ∧
      (u.core core).cmds = (s.core core).cmds.filter (fun y => y.id != c.id) ∧
      (u.core core).locks = (s.core core).locks.filter (fun k => k.cmd != c.id) ∧
      u.team? c.team = some q ∧ q = { t with outcomes := ((c.no, c.status) :: t.outcomes).take 256 } ∧
      u = { s with cores := u.cores, teams := u.teams }) ∧
  (∀ (s : State) (core n : Nat) (fp : Bool) (c : Cmd) (t : Team), Named s core c.id c → s.team? c.team = some t →
    Untraced s → c.heddle = true → c.st = .running → c.fault = none → c.work = [] → c.status = 0 → c.noRec = false →
    c.op = .hclr fp n → (∀ p ∈ s.pending, ∀ d a, p.op ≠ .fmtq d a) →
    ∃ u q, exec (.heddleComplete core c.id) s = .next u ∧
      (u.core core).cmds = (s.core core).cmds.filter (fun y => y.id != c.id) ∧
      (u.core core).locks = (s.core core).locks.filter (fun k => k.cmd != c.id) ∧
      u.team? c.team = some q ∧ (∀ i < 16384, AMap.get 0 q.tiles (16384 * n + i) = 0) ∧
      (∀ k, (k < 16384 * n ∨ 16384 * n + 16384 ≤ k) → AMap.get 0 q.tiles k = AMap.get 0 t.tiles k) ∧
      AMap.get 0 q.tstate n = BitVec.ofNat 64 (bit fp * 2 ^ 16) ∧ (∀ k ∈ q.tpois, k / 16384 ≠ n) ∧
      q = { t with tiles := q.tiles, tstate := q.tstate, tpois := q.tpois } ∧ u = { s with cores := u.cores, teams := u.teams })

/-- 15 R346, R348, R350, R351; 23 R481, R485: a multicast tile that reaches a receiver is refused where its gate is
closed or a granule is not empty, and is registered for landing where nothing refuses it; what a rank that Weft
reaches sends goes to the first command of its (GROUP, SEQ) that has not heard from it, and is recorded, an
acknowledgement without data at a rank that is not the root of a reduce; the release lets DST be written; a
collective whose TIMEOUT has expired or whose peer failed, and a transfer whose link is lost or whose second is over,
end with STATUS TIMEOUT. A reading of the model in it: log 52. -/
def Obligations.CommandsMeetOthers : Prop :=
  (∀ (s : State) (core team x m : Nat) (c : Cmd) (t0 t : Team) (tid : Nat), Named s core c.id c →
    c.op = .qmc x m → s.team? c.team = some t0 → c.st = .running → team ∈ c.left → c.work = [] →
    s.teamIn t0.cluster team = some (tid, t) →
    let b := c.boxOf (((s.group? c.gid).map s.slotsOf).getD [])
    ((t.gate = false ∨ ∃ q < b.bytes / 16, (c.base + rotate b.l.rot (16 * q)) / 16 ∈ t.sp.full) →
      exec (.mcastReceive core c.id team) s =
        .next (s.setCmd core { c with left := NSet.del c.left team, mask := c.mask + 2 ^ team })) ∧
    (s.refuses c b tid t = false → (∀ q k, AMap.at? c.data q = some k → k.ax = false) →
      (∀ a, t.blockAx a = false) → ∃ u n, exec (.mcastReceive core c.id team) s = .next u ∧
        (u.core t.core).locks = (s.core t.core).locks ++
          [⟨n, c.id, false, true, tid, c.base, rotSpan b.l.rot b.bytes⟩] ∧
        u.cmd? core c.id = some { c with
          left := NSet.del c.left team
          work := (List.range (b.bytes / 16)).map fun q => (team + 1) * 2 ^ 32 + q } ∧
        u.teams = s.teams ∧ u.mem = s.mem ∧ u.groups = s.groups)) ∧
  (∀ (s : State) (core rank : Nat) (c : Cmd) (bs : List Byte), Named s core c.id c → c.op = .qcol →
    c.bad = false → c.writes = false → c.st ≠ .queued → rank < (collOf c.rcd).npeer → rank ≠ (collOf c.rcd).rank →
    c.mask.testBit rank = false →
    (∀ e ∈ s.cores, ∀ x ∈ e.2.cmds, x.id < c.id → x.op = .qcol → x.st ≠ .queued → x.bad = false →
      x.mask.testBit rank = false → (collOf x.rcd).grp = (collOf c.rcd).grp → (collOf x.rcd).seq ≠ (collOf c.rcd).seq) →
    let k := collOf c.rcd
    let peer := (AMap.get 0 s.plat.wgrp (64 * k.grp + rank)).toNat % 64
    let size := if (k.op = 1 ∧ k.rank ≠ k.root) ∨ (k.op = 2 ∧ rank ≠ k.root) then 0
      else k.count * [4, 2, 2, 4, 8, 1].getD k.ty 1
    (Reaches s peer → bs.length = size →
      exec (.collectiveContributionArrival core c.id rank bs true) s = .next (s.setCmd core { c with
        mask := c.mask + 2 ^ rank, left := NSet.del c.left rank, heard := AMap.set c.heard rank bs })) ∧
    (Reaches s peer → ∀ agree, (agree = false ∨ bs.length ≠ size) →
      exec (.collectiveContributionArrival core c.id rank bs agree) s =
        .next (s.setCmd core { c with failed := true })) ∧
    (¬ Reaches s peer → ∀ agree, exec (.collectiveContributionArrival core c.id rank bs agree) s = .next s)) ∧
  (∀ (s : State) (core : Nat) (c : Cmd), Named s core c.id c → c.op = .qcol → c.st = .running → c.status = 0 →
    c.writes = false →
    (c.failed = false → c.work = [] → c.left = [] → exec (.collectiveRelease core c.id) s =
      .next (s.setCmd core { c with
        writes := true, work := sectorsIn (collOf c.rcd).dst (collOf c.rcd).taken })) ∧
    (c.left ≠ [] → exec (.collectiveRelease core c.id) s = .next s) ∧
    let us := if (collOf c.rcd).timeout = 0 then 1000000 else (collOf c.rcd).timeout
    ((c.failed = true ∨ c.since + s.realClocks (1000 * us) ≤ s.clk) → ∃ u,
      exec (.collectiveTimeout core c.id) s = .next u ∧ u.cmd? core c.id = some { c with
        status := 2, work := [], left := [], pins := [], hpins := [], heard := [], data := [], fault := none } ∧
      u = { s with cores := u.cores }) ∧
    (c.failed = false → s.clk < c.since + s.realClocks (1000 * us) →
      exec (.collectiveTimeout core c.id) s = .next s)) ∧
  (∀ (s : State) (core : Nat) (c : Cmd), Named s core c.id c → (c.op = .qput ∨ c.op = .qget) → c.st = .running →
    c.status = 0 → c.work ≠ [] →
    let up := Reaches s (nth c.blk 0 % 64)
    ((¬ up ∨ c.since + s.realClocks 1000000000 ≤ s.clk) → ∃ u,
      exec (.peerTransferTimeout core c.id) s = .next u ∧ u.cmd? core c.id = some { c with
        status := 2, work := [], left := [], pins := [], hpins := [], fault := none } ∧
      u = { s with cores := u.cores }) ∧
    (up → s.clk < c.since + s.realClocks 1000000000 → exec (.peerTransferTimeout core c.id) s = .next s))

/-! ## Trace and replay -/

/-- 21 R438, R449, R463 to R465: `tmark` puts a TMARK packet of its group, PC, number and value into the
core's FIFO when the stream records marks, and only that; `msmp` arms a memory sample; `rmark` answers the
interval's number while the log is on. A reading of the model in it: log 11. -/
def Obligations.MarksAndSamples : Prop :=
  (∀ (c : Ctl) (n : Nat) (a : Src) (s : State) (g : Group), (Instr.tmark c n a).wf = true → Runs s g →
    Usable g [scalUse a] (g.on c) →
    ((g.on c = [] ∨ s.traces (s.tenantOf g) 8 = false) →
      ∃ t h, exec (.tmark c n a) s = .next t ∧ IssuedAs s t g h 8 [] 0) ∧
    (g.on c ≠ [] → s.traces (s.tenantOf g) 8 = true → BitVec.ofNat 32 (g.ctl.pc.toNat / 2 ^ 32) = g.trc.hi →
      (s.core g.core).dropped.at? (s.tenantOf g) = none → (s.core g.core).fifoUsed + 17 ≤ 16384 →
      ∃ t h, exec (.tmark c n a) s = .next t ∧ t.group? s.cur = some h ∧
        h.ctl = { g.ctl with pc := g.ctl.pc + 8 } ∧ CellsKept g h [] ∧ h.sys = g.sys ∧
        (t.core g.core).fifo = (s.core g.core).fifo ++ [⟨s.tenantOf g, s.dieTime (s.dieOf g.core), s.dieOf g.core,
          8 * g.core + g.slot % 4, 0x0A, s.gidBytes g ++ leBytes 4 g.ctl.pc.toNat ++
            (leBytes 1 n ++ leBytes 8 (sv g a))⟩] ∧ t.mem = s.mem ∧ t.streams = s.streams)) ∧
  (∀ (c : Ctl) (s : State) (g : Group), (Instr.msmp c).wf = true → Runs s g →
    ∃ t h, exec (.msmp c) s = .next t ∧ IssuedAs s t g h 8 [] 0 ∧ (g.on c ≠ [] → h.trc.msmp = true) ∧
      (g.on c = [] → h.trc.msmp = g.trc.msmp)) ∧
  (∀ (c : Ctl) (d : Opd) (s : State) (g : Group), (Instr.rmark c d).wf = true → Runs s g →
    Fillable g [⟨d, 1, false⟩] (g.on c) → ((s.stream (s.tenantOf g)).logSize).isSome →
    ∃ t h, exec (.rmark c d) s = .next t ∧ IssuedAs s t g h 8 (destCells d 1 (g.on c)) 0 ∧
      (g.on c ≠ [] → h.rdS d = BitVec.ofNat 64 g.trc.interval ∧ h.trc.byMark = true))

/-- 21 R433, R436, R437, R441 to R443: the packet that stands first is written at WPTR once every source has
passed its stamp; without room it waits in a lossless stream and is dropped and counted in another; after
the interval of SV_SYNC a SYNC is due; a source's report carries its packets to the aggregation.
A reading of the model in it: log 55. -/
def Obligations.StreamsAreWritten : Prop :=
  (∀ (s : State) (p : Pkt) (rest : List Pkt), let r := s.stream 64
    firstPkt r.queue = some (p, rest) → s.passed 64 p.stamp = true → PlainStream s.time r p →
    let bs := packetBytes r.lastStamp p
    let base := r.base.toNat / 64 * 64 + r.wptr.toNat % 2 ^ bitsAt r.base.toNat 0 5
    bs.length ≤ 2 ^ bitsAt r.base.toNat 0 5 - (r.wptr - r.rptr).toNat →
    r.wptr.toNat % 2 ^ bitsAt r.base.toNat 0 5 + bs.length ≤ 2 ^ bitsAt r.base.toNat 0 5 →
    base + bs.length ≤ s.tierSize 0 → base + bs.length ≤ 2 ^ 52 →
    ∃ t, exec (.traceAggregationRelease 64) s = .next t ∧
      t.stream 64 = { r with queue := rest, wptr := r.wptr + BitVec.ofNat 32 bs.length,
                             lastStamp := max r.lastStamp p.stamp, written := (r.written + 1) % 2 ^ 32,
                             sinceSync := r.sinceSync + 1, fresh := false } ∧
      (MemOk s → (∀ i, (h : i < bs.length) → PlainByte s (base + i) → t.devByte (base + i) = bs[i]) ∧
        ∀ k, (k < base ∨ base + bs.length ≤ k) → PlainByte s k → t.devByte k = s.devByte k) ∧
      t.groups = s.groups ∧ t.clusters = s.clusters ∧
      ∀ k q, s.team? k = some q → ∃ v, t.team? k = some v ∧ v.lvl = q.lvl ∧ v.sp = q.sp) ∧
  (∀ (s : State) (n : Nat) (p : Pkt) (rest : List Pkt), let r := s.stream n
    firstPkt r.queue = some (p, rest) →
    (s.passed n p.stamp = false → exec (.traceAggregationRelease n) s = .next s) ∧
    (s.passed n p.stamp = true → PlainStream s.time r p →
      2 ^ bitsAt r.base.toNat 0 5 - (r.wptr - r.rptr).toNat < (packetBytes r.lastStamp p).length →
      (r.ctl.toNat.testBit 1 = true → exec (.traceAggregationRelease n) s = .next s) ∧
      (r.ctl.toNat.testBit 1 = false → exec (.traceAggregationRelease n) s = .next (s.modStream n fun r =>
        { r with queue := rest, lostCnt := r.lostCnt + 1, drops := 1, dropStamp := p.stamp })))) ∧
  (∀ (s : State) (n : Nat), let r := s.stream n
    (r.ctl.toNat.testBit 0 = true → r.syncTus ≠ 0 → r.lastSync + 4000 * r.syncTus.toNat ≤ s.time →
      exec (.syncIntervalExpiry n) s = .next (s.modStream n fun r => { r with syncDue := true })) ∧
    ((r.ctl.toNat.testBit 0 = false ∨ r.syncTus = 0 ∨ s.time < r.lastSync + 4000 * r.syncTus.toNat) →
      exec (.syncIntervalExpiry n) s = .next s)) ∧
  (∀ (s : State) (n src : Nat), let ps := s.unread n src
    (ps ≠ [] → (s.stream n).blocked s.time = true → exec (.idleStampReport n src) s = .next s) ∧
    ((ps = [] ∨ (s.stream n).blocked s.time = false) →
      ∃ t, exec (.idleStampReport n src) s = .next t ∧
        t.stream n = { s.stream n with
          queue := (s.stream n).queue ++ ps
          heard := AMap.put 0 (s.stream n).heard src (s.dieTime (s.sourceDie src) - 1) } ∧
        t.unread n src = [] ∧ (∀ m j, (m ≠ n ∨ j ≠ src) → t.unread m j = s.unread m j) ∧
        (∀ k, k ≠ n → t.stream k = s.stream k) ∧ t.groups = s.groups ∧ t.teams = s.teams ∧ t.mem = s.mem))

/-- 21 R449, R451, R452: after 2^16 instructions an interval ends, and the next begins with a snapshot of the
group; SV_RPLGO of a record's handle starts a group from its snapshot, with the log's values, on one core
that may take it. A reading of the model in it: log 53. -/
def Obligations.IntervalsAndReplay : Prop :=
  (∀ (s : State) (core slot k : Nat) (g : Group), atSlot s core slot k g →
    ((g.trc.rec? = none ∨ g.trc.inInterval < 2 ^ 16) → exec (.replayIntervalBoundary core slot) s = .next s) ∧
    (∀ h r, g.trc.rec? = some h → 2 ^ 16 ≤ g.trc.inInterval → g.trc.replay = none → LogRoom s g h r → Untraced s →
      (∀ p ∈ s.pending, p.gid ≠ k) →
      ∃ t x n q, exec (.replayIntervalBoundary core slot) s = .next t ∧ t.group? k = some x ∧
        x.trc.interval = (g.trc.interval + 1) % 2 ^ 32 ∧ x.trc.inInterval = 0 ∧ x.trc.rec? = some n ∧
        x.regs = g.regs ∧ x.ctl = g.ctl ∧ x.sys = g.sys ∧ x.mem = g.mem ∧
        AMap.at? (t.stream (s.tenantOf g)).rplLog n = some q ∧ q.int = g.trc.interval ∧ q.snap.regs = g.regs ∧
        q.snap.ctl = g.ctl ∧ q.off = (s.stream (s.tenantOf g)).rplOff ∧
        AMap.at? (t.stream (s.tenantOf g)).rplLog h = some { r with count := g.trc.inInterval })) ∧
  (∀ (s : State) (n : Nat) (w : Word64) (bs : List Byte) (r : RplRec), n < 64 → s.boot.stage ≠ 0 →
    (s.readVirt n w.toNat 24).1 = some bs →
    let u := (s.readVirt n w.toNat 24).2
    AMap.at? (s.stream n).rplLog (leNat (bs.drop 16)) = some r → Untraced u →
    let cores := u.replayCores (needOf { r.rcd with tenant := n, crec := 0, ctask := 0 } { r.hdr with bins := 0 } [])
    (cores = [] → exec (.svRplgo n w) s = .next u) ∧
    (cores ≠ [] → ∃ t k g, exec (.svRplgo n w) s = .next t ∧ t.group? k = some g ∧ g.ctl = r.snap.ctl ∧
      g.regs = r.snap.regs ∧ g.trc.replay = some (r.vals, r.count, r.int) ∧ g.core ∈ cores ∧ g.park = none ∧
      g.ended = false))

/-! ## The platform -/

/-- 23 R477 to R481, R483, R488, R490; 14 R493; 11 R247: power is lost and comes back; an image comes from the mailbox
or the network and passes or is rejected; after 30 s the ROM turns to the other source; the stages go on to S2, with
launch numbers from 0, and S3, with every port up; HOLD2 keeps S2; reports and log entries are answered. That
tier 3 keeps its bytes without power, that a byte of tier 2 not yet reported persistent may come back as before,
that a training may fail, and that HOLD2 gives up a transition that has begun, are the model's reading (logs 10, 64,
77). That a lost byte of memory reads as 0 (the clauses on `Memory.read t.mem k`) is the model's choice (log 5), and
that waiting grids are tried again at S3 (`retry := true`) is its reading (log 46). Readings of the model in it: logs
5, 10, 46, 64, 67, 77. -/
def Obligations.PowerAndBoot : Prop :=
  (∀ s : State, ∃ t, exec .lossOfPower s = .next t ∧ t.boot.powered = false ∧ t.boot.stage = 0 ∧
    t.boot.thsd = false ∧ t.groups = [] ∧ t.teams = [] ∧ t.clusters = [] ∧ t.grids = [] ∧ t.lines = [] ∧
    t.dirty = [] ∧ t.fuses = s.fuses ∧ (∀ k < 2 * 2 ^ 52, Memory.read t.mem k = 0) ∧
    (∀ k, 2 * 2 ^ 52 ≤ k → (∀ b, s.plat.ckRun = some (1, b) → k ≠ 2 * 2 ^ 52 + b + 24) →
      Memory.read t.mem k = Memory.read s.mem k ∨ ∃ e ∈ s.volat, e.1 = k ∧ Memory.read t.mem k ∈ e.2) ∧
    (∀ b, s.plat.ckRun = some (1, b) → Memory.read t.mem (2 * 2 ^ 52 + b + 24) = 0)) ∧
  (∀ s : State, (s.boot.powered = false → exec .powerGood s = .next { s with boot := { s.boot with
      powered := true, fromNet := s.fuses.netFirst, since := s.clk, keyx := decide (65536 ≤ s.fuses.boots) } }) ∧
    (s.boot.powered = true → exec .powerGood s = .next s)) ∧
  (∀ (s : State) (bs : List Byte), bs.length ≤ 2 ^ 20 → s.boot.stage = 0 → s.boot.fromNet = false →
    exec (.mailboxImageChunk bs false) s = .next { s with boot := { s.boot with chunks := s.boot.chunks ++ bs } } ∧
    ∃ t, exec (.mailboxImageChunk bs true) s = .next t ∧ Booted s t (s.boot.chunks ++ bs) false) ∧
  (∀ (s : State) (image : List Byte), (s.boot.stage = 0 → s.boot.fromNet = true →
      ∃ t, exec (.networkImageFetched image) s = .next t ∧ Booted s t image true) ∧
    ((s.boot.stage ≠ 0 ∨ s.boot.fromNet = false) → exec (.networkImageFetched image) s = .next s)) ∧
  (∀ s : State,
    (s.boot.stage = 0 → s.boot.since + s.realClocks 30000000000 ≤ s.clk → exec .bootSourceTimeout s =
      .next { s with boot := { s.boot with fromNet := !s.boot.fromNet, since := s.clk, chunks := [] } }) ∧
    ((s.boot.stage ≠ 0 ∨ s.clk < s.boot.since + s.realClocks 30000000000) →
      exec .bootSourceTimeout s = .next s) ∧
    (s.boot.stage = 1 → exec .s1Complete s = .next (told { s with
      boot := { s.boot with stage := 2 }, trd := { s.trd with lno := 0 } })) ∧
    (s.boot.stage ≠ 1 → exec .s1Complete s = .next s)) ∧
  (∀ s : State, (s.boot.stage ≠ 2 ∨ s.boot.hbmf = true) → exec .s2ToS3Transition s = .next s) ∧
  (∀ s : State, s.boot.stage = 2 → s.boot.hbmf = false →
    let ready (t : State) := ∀ i < 12, bitAt (AMap.get 0 t.plat.hbmst i).toNat 63 = true
    (s.boot.trans = none → ∃ t, exec .s2ToS3Transition s = .next t ∧ t.boot.stage = 2 ∧ t.mem = s.mem ∧
      t.groups = s.groups ∧ (t.boot.hbmf = true ∨ ready t) ∧ (ready s → t.boot.hbmf = false) ∧
      (t.boot.trans = if t.boot.hbmf = true ∨ s.boot.hold2 = true then none else some s.clk)) ∧
    (∀ c, s.boot.trans = some c →
      s.boot.hold2 = true ∨ (∃ e ∈ s.teams, e.2.resident = true ∧ e.2.retired = false) →
      exec .s2ToS3Transition s = .next s) ∧
    (∀ c, s.boot.trans = some c → s.boot.hold2 = false →
      (∀ e ∈ s.teams, e.2.resident = true → e.2.retired = true) → Untraced s →
      ∃ t, exec .s2ToS3Transition s = .next t ∧ t.boot.stage = 3 ∧ t.boot.trans = none ∧ t.boot.s3w = false ∧
        t.plat.msix = 0 :: s.plat.msix ∧ t.l2tlb = [] ∧
        (∀ k, (t.core k).tlb = [] ∧ (t.core k).l1i = [] ∧ (t.core k).l0i = []) ∧
        (∀ p, 1 ≤ p → p < 12 → (AMap.get 0 t.plat.link p).toNat % 8 = 2) ∧
        (∀ k gr, s.grid? k = some gr → gr.waiting = true → t.grid? k = some { gr with retry := true }) ∧
        (MemOk s → ∀ k, PlainByte s k → t.devByte k = s.devByte k))) ∧
  (∀ (s : State) (w : Word64), let row := Instr.specialRegisterWrite (2 ^ 28 + 0x018) w
    ((s.boot.trans = none ∨ bitAt w.toNat 0 = false) →
      exec row s = .next { s with boot := { s.boot with hold2 := bitAt w.toNat 0 } }) ∧
    (∀ c, s.boot.trans = some c → bitAt w.toNat 0 = true → ∃ t, exec row s = .next t ∧
      t.boot = { s.boot with hold2 := true, trans := none, s3w := false } ∧ t.groups = s.groups ∧ t.mem = s.mem)) ∧
  (∀ (s : State) (c : Nat), s.boot.trans = some c → Untraced s →
    (s.clk < c + s.realClocks 100000000 → exec .s3RetireTimeout s = .next s) ∧
    (c + s.realClocks 100000000 ≤ s.clk → ∃ t, exec .s3RetireTimeout s = .next t ∧ t.boot.stage = s.boot.stage ∧
      t.boot.trans = s.boot.trans ∧ (t.boot.s3w = true ↔
        ∃ e ∈ t.teams, e.2.resident = true ∧ e.2.retired = false ∧ e.2.treat = .no))) ∧
  (∀ (s : State) (nonce : List Byte), nonce.length = 32 →
    ((s.boot.stage = 0 ∨ s.boot.keyx = true ∨ 1024 ≤ s.boot.reports) →
      exec (.attestationReport nonce) s = .next { s with plat := { s.plat with replies := [] :: s.plat.replies } }) ∧
    (s.boot.stage ≠ 0 → s.boot.keyx = false → s.boot.reports < 1024 →
      let b := nonce ++ s.boot.log ++ leBytes 4 s.fuses.boots ++ leBytes 1 s.boot.stage ++
        ((List.range 4).flatMap fun d => leBytes 8 (s.hmap d)) ++ leBytes 8 (s.dieTime 4) ++
        Config.certificate s.fuses.boots
      exec (.attestationReport nonce) s = .next { s with
        boot := { s.boot with reports := s.boot.reports + 1 }
        plat := { s.plat with replies := (b ++ Config.sign s.fuses.boots b) :: s.plat.replies } })) ∧
  (∀ s : State, exec .logEntries s =
    .next { s with plat := { s.plat with replies := s.boot.entries.flatten :: s.plat.replies } })

/-- 11 R247; 15 R351; 23 R474, R476, R481, R484, R485, R488; 06 R115: host accesses of device memory are events of the
device order and reads at one position of it, none before the last `cmt.sys` that has completed, or accesses of the
window, and are held during a checkpoint, with the window writes behind them; a peer's, while Weft reaches it, reach
the pages of the tenant that serves it; a snoop takes a tier-3 line out of the caches. A host address is taken
as a device physical one. Readings of the model in it: logs 62, 63, 66. -/
def Obligations.HostAndPeers : Prop :=
  (∀ (s : State) (pa : Nat) (bs : List Byte), pa + bs.length ≤ s.tierSize 0 → pa + bs.length ≤ 2 ^ 52 → bs ≠ [] →
    2 ≤ s.boot.stage →
    (s.plat.ckState ≠ 1 → ∃ t, exec (.hostPostedWrite pa bs) s = .next t ∧
      (MemOk s → (∀ i, (h : i < bs.length) → PlainByte s (pa + i) → t.devByte (pa + i) = bs[i]) ∧
        ∀ k, (k < pa ∨ pa + bs.length ≤ k) → PlainByte s k → t.devByte k = s.devByte k) ∧
      t.dev.pos = s.dev.pos + 1 ∧ t.groups = s.groups ∧ t.clusters = s.clusters ∧
      ∀ k q, s.team? k = some q → ∃ v, t.team? k = some v ∧ v.lvl = q.lvl ∧ v.sp = q.sp) ∧
    (s.plat.ckState = 1 → exec (.hostPostedWrite pa bs) s = .next { s with plat := { s.plat with
      heldOps := s.plat.heldOps ++ [.hostWrite pa bs] } })) ∧
  (∀ (s : State) (pa n : Nat), pa < 2 ^ 52 → pa + n ≤ 2 ^ 52 →
    (s.plat.ckState ≠ 1 → 2 ≤ s.boot.stage → pa + n ≤ s.tierSize 0 → MemOk s → Repaired s →
      (∀ i < n, PlainByte s (pa + i) ∧ s.pois.has (pa + i) = false) →
      ∃ t d, exec (.hostRead pa n) s = .next t ∧ s.sysDone ≤ d ∧
        t.plat.replies = ((List.range n).map fun i => s.devByteAt d (pa + i)) :: s.plat.replies ∧
        (∀ k, PlainByte s k → t.devByte k = s.devByte k) ∧ t.groups = s.groups ∧ t.teams = s.teams) ∧
    (s.plat.ckState ≠ 1 → s.boot.stage < 2 ∨ s.tierSize 0 < pa + n → exec (.hostRead pa n) s =
      .next { s with plat := { s.plat with replies := [] :: s.plat.replies } }) ∧
    (s.plat.ckState = 1 → exec (.hostRead pa n) s = .next { s with plat := { s.plat with
      heldOps := s.plat.heldOps ++ [.hostRead pa n] } })) ∧
  (∀ (s : State) (off : Nat) (w : Word64), off % 8 = 0 →
    let waits := ∃ pa bs, HeldOp.hostWrite pa bs ∈ s.plat.heldOps
    (¬ waits → exec (.hostPostedWrite (2 ^ 52 + off) (leBytes 8 w.toNat)) s =
      exec (.specialRegisterWrite off w) s) ∧
    (waits → exec (.hostPostedWrite (2 ^ 52 + off) (leBytes 8 w.toNat)) s = .next { s with plat := { s.plat with
      heldOps := s.plat.heldOps ++ [.hostWrite (2 ^ 52 + off) (leBytes 8 w.toNat)] } }) ∧
    ∃ v u, s.windowRead off = (v, u) ∧ exec (.hostRead (2 ^ 52 + off) 8) s =
      .next { u with plat := { u.plat with replies := leBytes 8 v.toNat :: u.plat.replies } }) ∧
  (∀ (s : State) (peer tn : Nat) (va : Word64) (bs : List Byte) (keys : List Nat) (u : State),
    s.plat.ckState ≠ 1 → bs ≠ [] → bitAt (AMap.get 0 s.plat.wpeer (peer % 64)).toNat 63 = true →
    Reaches s (peer % 64) → bitsAt (AMap.get 0 s.plat.wpeer (peer % 64)).toNat 8 6 = tn →
    s.peerKeys tn va.toNat bs.length true = (0, keys, u) → keys.Nodup → keys.length = bs.length →
    ∃ t, exec (.weftPeerWrite peer va bs) s = .next t ∧ t.plat.replies = [0] :: u.plat.replies ∧
      (MemOk u → (∀ i, (h : i < bs.length) → (k : i < keys.length) → PlainByte u keys[i] → t.devByte keys[i] = bs[i]) ∧
        ∀ k, k ∉ keys → PlainByte u k → t.devByte k = u.devByte k) ∧ t.groups = u.groups) ∧
  (∀ (s : State) (peer tn st : Nat) (va : Word64) (bs : List Byte) (keys : List Nat) (u : State),
    s.plat.ckState ≠ 1 → bitAt (AMap.get 0 s.plat.wpeer (peer % 64)).toNat 63 = true → Reaches s (peer % 64) →
    bitsAt (AMap.get 0 s.plat.wpeer (peer % 64)).toNat 8 6 = tn → st ≠ 0 →
    let answer := Host.Outcome.next { u with plat := { u.plat with replies := [BitVec.ofNat 8 st] :: u.plat.replies } }
    (s.peerKeys tn va.toNat bs.length true = (st, keys, u) → exec (.weftPeerWrite peer va bs) s = answer) ∧
    (s.peerKeys tn va.toNat bs.length false = (st, keys, u) →
      exec (.weftPeerRead peer va bs.length) s = answer)) ∧
  (∀ (s : State) (peer n : Nat) (va : Word64) (bs : List Byte), s.plat.ckState ≠ 1 →
    (bitAt (AMap.get 0 s.plat.wpeer (peer % 64)).toNat 63 = false ∨ ¬ Reaches s (peer % 64)) →
    exec (.weftPeerWrite peer va bs) s = .next s ∧ exec (.weftPeerRead peer va n) s = .next s) ∧
  (∀ (s : State) (peer tn : Nat) (va : Word64) (n : Nat) (keys : List Nat) (u : State),
    s.plat.ckState ≠ 1 → bitAt (AMap.get 0 s.plat.wpeer (peer % 64)).toNat 63 = true → Reaches s (peer % 64) →
    bitsAt (AMap.get 0 s.plat.wpeer (peer % 64)).toNat 8 6 = tn → s.peerKeys tn va.toNat n false = (0, keys, u) →
    MemOk u → Repaired u → (∀ k ∈ keys, PlainByte u k ∧ u.pois.has k = false) →
    ∃ t d, exec (.weftPeerRead peer va n) s = .next t ∧ boundAt s.dev.evs s.clk ≤ d ∧
      t.plat.replies = (0 :: keys.map (u.devByteAt d)) :: u.plat.replies ∧
      (∀ k, PlainByte u k → t.devByte k = u.devByte k) ∧ t.groups = u.groups) ∧
  (∀ (s : State) (line : Nat) (inval : Bool), let n := 3 * 2 ^ 44 + line % 2 ^ 44
    ((s.line n).cached = false → exec (.cxlCacheSnoop line inval) s = .next s) ∧
    ((s.line n).cached = true → MemOk s → ∃ t, exec (.cxlCacheSnoop line inval) s = .next t ∧
      (inval = true → (t.line n).cached = false) ∧ (t.line n).own = none ∧ (t.line n).l2d = none ∧
      (∀ k, PlainByte s k → t.devByte k = s.devByte k) ∧ t.groups = s.groups))

/-- 23 R487, R488, R477: a checkpoint or a restore starts where nothing stands in its way, and MM_CKST says why not
where something does, without effect on one that runs; a checkpoint writes back every dirty line and leaves the image
of the HBM behind a head in tier 2, a restore brings it back, unless a CXL error ends it with code 3; what was held is
then performed, in order, each as its own row performs it. That an error is free, and what it leaves, and code 1 for
a wrong stage, are the model's choice (logs 65, 78). Readings of the model in it: logs 65, 78. -/
def Obligations.CheckpointsAndRestores : Prop :=
  (∀ (s : State) (w : Word64), s.boot.stage ≠ 0 →
    let base := w.toNat / 2 ^ 30 * 2 ^ 30
    let busy := s.boot.stage ≠ 3 ∨ s.occupied = true ∨ s.plat.ckState = 1
    let as (u : State) (code state : Nat) (run : Option (Nat × Nat)) := ckDone s u code state ∧ u.plat.ckRun = run
    ∃ t r, exec (.mmCkptCheckpoint w) s = .next t ∧ exec (.mmCkptRestore w) s = .next r ∧
      t.plat.ckpt = BitVec.ofNat 64 (base + 2) ∧ r.plat.ckpt = BitVec.ofNat 64 (base + 4) ∧
      (busy → as t 1 s.plat.ckState s.plat.ckRun ∧ as r 1 s.plat.ckState s.plat.ckRun) ∧
      (¬ busy → s.tierSize 2 < base + 4096 + 768 * 2 ^ 30 → as t 2 s.plat.ckState s.plat.ckRun) ∧
      (¬ busy → base + 4096 + 768 * 2 ^ 30 ≤ s.tierSize 2 → as t 0 1 (some (1, base))) ∧
      (¬ busy → s.headCode base = 0 → as r 0 1 (some (2, base))) ∧
      (¬ busy → s.headCode base ≠ 0 → as r (s.headCode base) s.plat.ckState s.plat.ckRun) ∧
      t.mem = s.mem ∧ r.mem = s.mem ∧ t.groups = s.groups ∧ r.groups = s.groups) ∧
  (∀ (s : State) (op : Nat), s.boot.stage ≠ 0 → ∃ t, exec (.mmCkptBadOp op) s = .next t ∧
    ckDone s t 6 s.plat.ckState ∧ t.plat.ckRun = s.plat.ckRun ∧ t.mem = s.mem ∧ t.groups = s.groups) ∧
  (∀ (s : State) (base : Nat), s.plat.ckRun = some (1, base) → s.plat.ckState = 1 → MemOk s → Repaired s →
    base + 4096 + 768 * 2 ^ 30 ≤ 2 ^ 52 → ∃ t u, exec .checkpointComplete s = .next t ∧ Released s t u ∧
      (ckDone s u 0 2 ∨ ckDone s u 3 2) ∧ u.plat.ckRun = none ∧ u.groups = s.groups ∧
      (∀ k < 768 * 2 ^ 30, PlainByte s k → Marked s k →
        Memory.read u.mem (2 * 2 ^ 52 + base + 4096 + k) = s.devByte k) ∧
      (u.plat.ckCode = 0 → Memory.read u.mem (2 * 2 ^ 52 + base + 24) = 1 ∧ ∀ i < 8,
        Memory.read u.mem (2 * 2 ^ 52 + base + i) = BitVec.ofNat 8 (Config.ckptMagic.toNat / 256 ^ i)) ∧
      ∀ k, (k < 2 * 2 ^ 52 + base ∨ 2 * 2 ^ 52 + base + 4096 + 768 * 2 ^ 30 ≤ k) → PlainByte s k →
        u.devByte k = s.devByte k) ∧
  (∀ (s : State) (base : Nat), s.plat.ckRun = some (2, base) → s.plat.ckState = 1 → MemOk s → Repaired s →
    base + 4096 + 768 * 2 ^ 30 ≤ 2 ^ 52 → ∃ t u, exec .ckptRestoreComplete s = .next t ∧ Released s t u ∧
      u.plat.ckRun = none ∧
      ((ckDone s u 0 2 ∧ u.l2tlb = [] ∧ (∀ k, (u.core k).tlb = [] ∧ (u.core k).l1i = [] ∧ (u.core k).l0i = []) ∧
        (∀ k < 768 * 2 ^ 30, let a := 2 * 2 ^ 52 + base + 4096 + k
          PlainByte s a → Marked s a → u.devByte k = s.devByte a) ∧
        ∀ k, keyTier k ≠ 0 → PlainByte s k → u.devByte k = s.devByte k) ∨
      (ckDone s u 3 2 ∧ u.mem = s.mem ∧ u.lines = s.lines ∧ u.dirty = s.dirty ∧ u.groups = s.groups))) ∧
  (∀ s : State, (∀ b, s.plat.ckRun ≠ some (1, b)) → exec .checkpointComplete s = .next s) ∧
  (∀ s : State, (∀ b, s.plat.ckRun ≠ some (2, b)) → exec .ckptRestoreComplete s = .next s) ∧
  (∀ (a : HeldOp) (i : Instr) (s : State), HeldRow a i → s.holds (s.access a) = false →
    exec i s = .next (s.access a))

/-- 23 R477, R481, R486, R489, R491; 21 R432, R442, Table 21-5: whichever row brings it, a sensor at 95, 105 or 115 °C
warns, stops launches or powers the module off; the hold clears below 100 °C; a link's state, with vector 0 where it
changes, the clock's discipline and refresh are recorded. That a port other than host port 0 takes no state below S3 is
the model's reading of R481 and R483 (log 66), and that waiting grids are tried again when the hold clears
(`retry := true`) is its reading too (log 46). Readings of the model in it: logs 46, 66. -/
def Obligations.Environment : Prop :=
  (∀ (s : State) (n : Nat) (x : BitVec 16), Untraced s →
    ∀ i ∈ [Instr.thermalWarn n x, .thermalHold n x, .thermalShutdown n x], ∃ t, exec i s = .next t ∧
      (1840 ≤ x.toInt → t.boot.powered = false ∧ t.boot.thsd = true ∧ t.groups = [] ∧ t.fuses = s.fuses) ∧
      (x.toInt < 1840 → t.boot = s.boot ∧ (∀ k, AMap.get 0 t.plat.temp k =
          if k = n % 18 then x else AMap.get 0 s.plat.temp k) ∧
        (t.plat.warn = true ↔ s.plat.warn = true ∨ 1520 ≤ x.toInt) ∧
        (t.plat.hold = true ↔ 1680 ≤ x.toInt ∨
          (s.plat.hold = true ∧ ∃ j < 18, 1600 ≤ (AMap.get 0 t.plat.temp j).toInt))) ∧
      (x.toInt < 1680 → t.groups = s.groups ∧ t.mem = s.mem)) ∧
  (∀ s : State, ∃ t, exec .thermalHoldClear s = .next t ∧ t.plat.hold = false ∧
    (∀ i < 18, (AMap.get 0 t.plat.temp i).toInt < 1600) ∧ (s.plat.hold = true → ∀ k gr, s.grid? k = some gr →
      gr.waiting = true → t.grid? k = some { gr with retry := true }) ∧ t.groups = s.groups ∧ t.mem = s.mem) ∧
  (∀ (s : State) (port st wd rate : Nat), let p := port % 14
    (4 < st ∨ (1 ≤ p ∧ p < 12 ∧ s.boot.stage ≠ 3) → exec (.linkStateChange port st wd rate) s = .next s) ∧
    (st ≤ 4 → ¬ (1 ≤ p ∧ p < 12 ∧ s.boot.stage ≠ 3) →
      let m := AMap.put 0 s.plat.link p (BitVec.ofNat 16 (rate % 256 * 256 + wd % 32 * 8 + st))
      ∃ t, exec (.linkStateChange port st wd rate) s = .next t ∧ t.plat.link = m ∧
        t.plat.msix = (if m = s.plat.link then s.plat.msix else 0 :: s.plat.msix) ∧ t.groups = s.groups ∧
        t.teams = s.teams ∧ t.mem = s.mem)) ∧
  (∀ (s : State) (ofs : Word32) (lock : Bool) (stamp : Word64),
    (s.plat.ptpPort = 15 → exec (.ptpSyncMessage ofs lock stamp) s = .next s) ∧
    (s.plat.ptpPort ≠ 15 → exec (.ptpSyncMessage ofs lock stamp) s = .next { s with
      plat := { s.plat with ptpOfs := ofs, ptpLock := lock, ptpMsgs := s.plat.ptpMsgs + 1 }
      time9 := if lock then stamp.toNat * 9 else s.time9 })) ∧
  (∀ (s : State) (mc ev : Nat) (i : Instr), (ev = 0 ∧ i = .refreshBegin mc) ∨ (ev = 1 ∧ i = .refreshEnd mc) →
    let k := mc % 768
    let die := 4 + k / 384
    let src := 1152 + 8 * die + 3
    let queue (u : State) (n : Nat) := u.plat.stn.filter fun p => p.stream == n && p.src == src
    ∃ t, exec i s = .next t ∧
      t = { s with streams := t.streams, plat := { s.plat with stn := t.plat.stn, stnDrops := t.plat.stnDrops } } ∧
      ∀ n < 65, (s.traces n 7 = false → queue t n = queue s n ∧ t.stream n = s.stream n) ∧
        (s.traces n 7 = true → (queue s n).length ≤ Config.stationRoom →
          s.plat.stnDrops.at? (65 * src + n) = none → t.stream n = s.stream n ∧
            queue t n = queue s n ++ [⟨n, s.dieTime die, die, src, 0x14,
              leBytes 2 (12288 + k % 4096) ++ leBytes 1 ev ++ leBytes 4 0⟩]) ∧
        (s.traces n 7 = true → Config.stationRoom < (queue s n).length → queue t n = queue s n ∧
          t.stream n = { s.stream n with lostCnt := (s.stream n).lostCnt + 1 }))

/-! ## Statements over several instructions of one kind -/

/-- 05 R92 to R97: logic, shifts, counts, bit fields and byte permutation. -/
def Obligations.ShiftsAndFields : Prop :=
  Sys2Proof.Claims.LogicAndShifts ∧ Sys2Proof.Claims.CountsAndFields

/-- 05 R99 to R106; 04 R79; 08 R202, R208: moves, constants, selections, conversions, ballots, `endorse` and lane
exchanges. -/
def Obligations.MovesAndExchanges : Prop :=
  Sys2Proof.Claims.MovesAndConversions ∧ Sys2Proof.Claims.MoveFromLowestLane ∧ Sys2Proof.Claims.LaneExchange

/-- 04 R61, R62, R71, R72: branches, direct and through a register. A reading of the model in it: log 19. -/
def Obligations.BranchesMove : Prop :=
  Sys2Proof.Claims.Branches ∧ Sys2Proof.Claims.IndexedBranch

/-- 04 R73 to R75: calls, direct and through a register, and returns. -/
def Obligations.CallsAndReturns : Prop :=
  Sys2Proof.Claims.Calls ∧ Sys2Proof.Claims.IndexedCall ∧ Sys2Proof.Claims.Returns

/-- 04 R63, R64, R76, R77: `join` and `exit`. -/
def Obligations.JoinsAndExits : Prop :=
  Sys2Proof.Claims.Joins ∧ Sys2Proof.Claims.Exits ∧ Sys2Proof.Claims.LastExits

/-- 06 R144, R116; 11 R228, R229, R260: global loads and the arrival of their data.
A reading of the model in it: log 34. -/
def Obligations.GlobalLoadsArrive : Prop :=
  Sys2Proof.Claims.GlobalLoads ∧ Sys2Proof.Claims.LoadArrival

/-- 06 R145, R146: scratchpad and ring loads and stores. -/
def Obligations.ScratchpadAccesses : Prop :=
  Sys2Proof.Claims.ScratchpadLoads ∧ Sys2Proof.Claims.ScratchpadStores

/-- 06 R133, R138, R148, R149: stash windows, marks and types of the scratchpad.
A reading of the model in it: log 26. -/
def Obligations.ScratchpadStates : Prop :=
  Sys2Proof.Claims.ScratchpadMarks ∧ Sys2Proof.Claims.ApproximateBlocks

/-- 06 R114, R141; 04 R68: page walks, stash invalidations, the end of shadow issue. -/
def Obligations.MemorySystemSteps : Prop :=
  Sys2Proof.Claims.WalksAnswer ∧ Sys2Proof.Claims.StashInvalidation ∧ Sys2Proof.Claims.ShadowLimit

/-- 07 R163, R167 to R174, R180, R182: arithmetic, selection and comparison. -/
def Obligations.FloatingPoint : Prop :=
  Sys2Proof.Claims.FloatArithmetic ∧ Sys2Proof.Claims.FloatSelection ∧ Sys2Proof.Claims.FloatComparison

/-- 07 R164, R166, R175 to R179, R183: the operations whose result comes later.
A reading of the model in it: log 25. -/
def Obligations.LongLatencyOperations : Prop :=
  Sys2Proof.Claims.LongLatencyStart ∧ Sys2Proof.Claims.LongLatencyResult

/-- 07 R156, R161, R181: `xrnd` rounds the accumulator once, and rounding keeps a representable value. -/
def Obligations.RoundingAndAccumulators : Prop :=
  Sys2Proof.Claims.AccumulatorRounding ∧ Sys2Proof.Claims.RoundingKeepsValues

/-- 08 R188 to R190, R205, R209: `rail` and the regulator. A reading of the model in it: log 40. -/
def Obligations.RailsMove : Prop :=
  Sys2Proof.Claims.RailRequests ∧ Sys2Proof.Claims.RegulatorMoves

/-- 11 R231, R237, R256: an exclusive commit that meets a sibling's writes, and the acknowledgement of the homes. -/
def Obligations.CommitsEnd : Prop :=
  Sys2Proof.Claims.ExclusiveCommitsFail ∧ Sys2Proof.Claims.HomesAcknowledge

/-- 12 R277 to R281; 06 R134, R136: barriers and tickets. -/
def Obligations.BarriersComplete : Prop :=
  Sys2Proof.Claims.BarriersAndTickets ∧ Sys2Proof.Claims.BarrierArrivals

/-- 18 R393 to R398, R409, R412; 02 R27; 06 R116; 07 R164: traps with a handler and without.
Readings of the model in it: logs 20, 28, 29, 30. -/
def Obligations.TrapsEnter : Prop :=
  Sys2Proof.Claims.TrapsTaken ∧ Sys2Proof.Claims.AgentTraps

/-- 18 R396, R399 to R402, R494: pre-emption and the requests of the service agent.
Readings of the model in it: logs 59, 60. -/
def Obligations.PreemptionAndRequests : Prop :=
  Sys2Proof.Claims.Preemption ∧ Sys2Proof.Claims.AgentRequests

/-! ## Encoding, steps and what every step keeps -/

/-- 02 R35 to R39: DecodeCheck accepts the word of every well-formed instruction, under the largest header and a
general group, as that instruction, every operand and every field at every value its entry takes; and
whatever it accepts under any header has the encoding it was read from. -/
def Obligations.CodesRoundTrip : Prop :=
  (∀ i : Instr, i.wf = true → ∀ w w1, i.encode = some (w, w1) →
    w < 2 ^ 64 ∧ bitAt w 0 = w1.isSome ∧ decode .max w (w1.getD 0) = .ok i) ∧
  (∀ (k : DecCtx) (w w1 : Nat) (i : Instr), decode k w w1 = .ok i →
    i.encode = some (w, none) ∨ i.encode = some (w, some w1))

/-- 02 R24 to R38 and the encoding tables of every class: the words that the spec writes out decode to the
instructions it gives for them (a sanity statement), and the words of Table 2-10 are refused as it says. -/
def Obligations.SpecWordsDecode : Prop :=
  (∀ e ∈ specWords, decode .max e.1 0 = .ok e.2) ∧
  ∀ e ∈ specFates, decode ⟨32, 8, 8, 0, 0, .general⟩ e.1 0 = e.2

/-- 02 R35; 04 R57, R58: a group reads the word at an address from its fetch buffer, or, next in order, from its L0i
where its core translates the line, as memory was when the line was filled; after a transfer of control it asks
for it. When a group's turn comes and the words at its PC decode to an instruction, the step is that
instruction's execution by that group; a named event of the oracle, and an event the machine chooses, is
the execution of its row. Which turn comes next is the model's oracle (log 4). -/
def Obligations.StepRunsDecoded : Prop :=
  (∀ (s : State) (k : Nat) (g : Group) (va : Word64), s.group? k = some g →
    let n := va.toNat / 256
    (∀ w, g.fbuf.at? va.toNat = some w → s.fetchWord k va = .ok (w, s)) ∧
    (g.fbuf.at? va.toNat = none → g.fbuf.at? (va - 8).toNat = none →
      s.fetchWord k va = .error (s.setGroup k { g with want := some va.toNat })) ∧
    (∀ (l : Leaf) (p : Nat), g.fbuf.at? va.toNat = none → (g.fbuf.at? (va - 8).toNat).isSome →
      s.tlbLookup g.core (s.tenantOf g) (lineVa n) = some l → entX l.e.toNat = true →
      s.l0Line g n = some (l.key (lineVa n), p) → ∃ h, s.fetchWord k va = .ok (leNat ((List.range 8).map fun i =>
        s.devByteAt p (l.key (lineVa n) + (va.toNat % 256 + i) % 256)), s.setGroup k h) ∧
        h = { g with fbuf := h.fbuf })) ∧
  (∀ (s v : State) (k w w1 : Nat) (g : Group) (i : Instr),
    (∀ t rest, s.turns = t :: rest → ∀ j, t.ev = some j → isEvent j = false) →
    (turned s).dark none = false → (turned s).move = (.issue k, v) → ∀ u, FetchesPlain (v.tried k) k g w w1 u →
    decode (u.decCtx g) w w1 = .ok i → step s = exec i { u with cur := k }) ∧
  (∀ (s v : State) (i : Instr), (∀ t rest, s.turns = t :: rest → ∀ j, t.ev = some j → isEvent j = false) →
    (turned s).dark none = false → (turned s).move = (.ev i, v) → step s = exec i v) ∧
  (∀ (s : State) (t : Turn) (rest : List Turn) (i : Instr), s.turns = t :: rest → t.ev = some i → isEvent i = true →
    (turned s).dark (some i) = false → step s = exec i (turned s)) ∧
  (∀ s : State, s.boot.powered = false → s.turns = [] → step s = .fault .unpowered)

/-- 18 Table 18-1; 21 Table 21-3; 08 Table 8-2; 23 R478, Table 23-4: the machine right after reset: stage S0,
nothing resident, queued or pending, the registers at the values their tables give. Zero for the registers
that the tables give no value is the model's choice (logs 5 to 7). -/
def Obligations.ResetValues : Prop :=
  let r := State.reset
  r.boot.stage = 0 ∧ r.boot.powered = true ∧ r.boot.hold2 = false ∧ r.boot.rej = false ∧ r.boot.hbmf = false ∧
  r.groups = [] ∧ r.teams = [] ∧ r.clusters = [] ∧ r.grids = [] ∧ r.pending = [] ∧ r.faults = [] ∧ r.clk = 0 ∧
  r.l2c = 0 ∧ r.l3c = 0 ∧
  (∀ t, (r.tenant t).tslice = 2000000 ∧ (r.tenant t).drain = 224 ∧ (r.tenant t).budget = 200000 ∧
    (r.tenant t).invDone = true ∧ (r.tenant t).fqtail = 0 ∧ (r.tenant t).fqhead = 0) ∧
  (∀ n, (r.stream n).ctl = 0 ∧ (r.stream n).base = 6 ∧ (r.stream n).rptr = 0 ∧ (r.stream n).wptr = 0 ∧
    (r.stream n).syncN = 256 ∧ (r.stream n).syncTus = 0 ∧ (r.stream n).msmp = 0 ∧ (r.stream n).rpl = 0 ∧
    (r.stream n).race = 0 ∧ (r.stream n).lostCnt = 0 ∧ (r.stream n).attach = false ∧ (r.stream n).brk = []) ∧
  (∀ q, (r.queue q).head = 0 ∧ (r.queue q).tail = 0) ∧
  (∀ c, (r.core c).teams = [] ∧ (r.core c).cmds = [] ∧ (r.core c).locks = [] ∧ (r.core c).parks = [] ∧
    (r.core c).tlb = [] ∧ (r.core c).l1i = [] ∧ (r.core c).fifo = []) ∧
  r.plat.wsel = 0 ∧ r.plat.werr = 0 ∧ r.plat.svc = 0 ∧ r.plat.ptpPort = 0 ∧ r.plat.ckpt = 0 ∧ r.plat.ckState = 0 ∧
  r.plat.hold = false ∧ r.plat.warn = false ∧ r.plat.wpeer = [] ∧ r.plat.wgrp = [] ∧
  (∀ a, Memory.read r.mem a = 0)

/-- Memory after reset is in its canonical form (the form is the model's). A reading of the model in it: log 2. -/
def Obligations.MemoryAtReset : Prop := MemOk State.reset

/-- No step leaves backing memory out of its canonical form or a byte listed twice among those not yet written
back: reads of a byte have one answer, and equal memories are equal data, in every state a step can reach
from one where this holds (06 R110, R122; 08 R199; 23 R487, R488: write-back, truncation, checkpoint,
restore and loss of power are the operations that write backing memory). The form is the model's.
A reading of the model in it: log 2. -/
def Obligations.StepsKeepMemory : Prop :=
  ∀ s t : State, MemOk s → step s = .next t → MemOk t
end

