-- ==== Sys2Proof/Laws/Store.lean ====
section
/-!
SUPPORT. Sparse maps and sets: a read after a write, canonical form, and that every memory operation
keeps it.
-/
namespace Sys2Proof.Machine

variable {α : Type}

/-! ## Reading after writing -/

@[simp] theorem AMap.at?_nil (k : Nat) : AMap.at? ([] : AMap α) k = none := rfl

theorem AMap.at?_cons (e : Nat × α) (m : AMap α) (k : Nat) :
    AMap.at? (e :: m) k = if e.1 = k then some e.2 else AMap.at? m k := by
  by_cases h : e.1 = k
  · simp [AMap.at?, List.find?, h]
  · have : (e.1 == k) = false := by simpa using h
    simp [AMap.at?, List.find?, h, this]

theorem AMap.at?_del (m : AMap α) (k j : Nat) :
    AMap.at? (AMap.del m k) j = if j = k then none else AMap.at? m j := by
  induction m with
  | nil => simp [AMap.del]
  | cons e m ih =>
    by_cases he : e.1 = k
    · have : AMap.del (e :: m) k = AMap.del m k := by simp [AMap.del, he]
      rw [this, ih, AMap.at?_cons]
      by_cases hj : j = k
      · simp [hj]
      · simp [hj, show ¬ e.1 = j from fun h => hj (h ▸ he)]
    · have : AMap.del (e :: m) k = e :: AMap.del m k := by simp [AMap.del, he]
      rw [this, AMap.at?_cons, AMap.at?_cons, ih]
      by_cases hj : e.1 = j
      · simp [hj, show ¬ j = k from fun h => he (hj.trans h)]
      · simp [hj]

theorem AMap.at?_place (m : AMap α) (k j : Nat) (v : α) (h : AMap.at? m k = none) :
    AMap.at? (AMap.place k v m) j = if j = k then some v else AMap.at? m j := by
  induction m with
  | nil => simp [AMap.place, AMap.at?_cons, eq_comm]
  | cons e m ih =>
    rw [AMap.at?_cons] at h
    by_cases he : e.1 = k
    · simp [he] at h
    · rw [if_neg he] at h
      unfold AMap.place
      split
      · rw [AMap.at?_cons]; simp only [eq_comm]
      · rw [AMap.at?_cons, AMap.at?_cons, ih h]
        by_cases hj : e.1 = j
        · simp [hj, show ¬ j = k from fun x => he (hj.trans x)]
        · simp [hj]

/-- What a listed key reads as after `set`. -/
theorem AMap.at?_set (m : AMap α) (k j : Nat) (v : α) :
    AMap.at? (AMap.set m k v) j = if j = k then some v else AMap.at? m j := by
  unfold AMap.set
  rw [AMap.at?_place _ _ _ _ (by simp [AMap.at?_del]), AMap.at?_del]
  split <;> simp_all

@[simp] theorem AMap.at?_set_self (m : AMap α) (k : Nat) (v : α) :
    AMap.at? (AMap.set m k v) k = some v := by simp [AMap.at?_set]

theorem AMap.at?_set_ne (m : AMap α) (k j : Nat) (v : α) (h : j ≠ k) :
    AMap.at? (AMap.set m k v) j = AMap.at? m j := by simp [AMap.at?_set, h]

/-- What a key reads as after `put`: the new value, or what it read as before. -/
theorem AMap.get_put [DecidableEq α] (d : α) (m : AMap α) (k j : Nat) (v : α) :
    AMap.get d (AMap.put d m k v) j = if j = k then v else AMap.get d m j := by
  unfold AMap.put AMap.get
  split
  · rename_i hv
    rw [AMap.at?_del]; split <;> simp [hv]
  · rw [AMap.at?_set]; split <;> simp

@[simp] theorem AMap.get_put_self [DecidableEq α] (d : α) (m : AMap α) (k : Nat) (v : α) :
    AMap.get d (AMap.put d m k v) k = v := by simp [AMap.get_put]

theorem AMap.get_put_ne [DecidableEq α] (d : α) (m : AMap α) (k j : Nat) (v : α) (h : j ≠ k) :
    AMap.get d (AMap.put d m k v) j = AMap.get d m j := by simp [AMap.get_put, h]

/-! ## Canonical form -/

/-- Canonical form, said of all pairs and all entries. -/
theorem AMap.wf_iff [DecidableEq α] (d : α) (m : AMap α) :
    AMap.wf d m = true ↔ m.Pairwise (fun a b => a.1 < b.1) ∧ ∀ e ∈ m, e.2 ≠ d := by
  induction m with
  | nil => simp [AMap.wf]
  | cons e m ih =>
    cases m with
    | nil => simp [AMap.wf]
    | cons f m =>
      simp only [AMap.wf, Bool.and_eq_true, bne_iff_ne, decide_eq_true_eq, ih]
      constructor
      · rintro ⟨⟨h1, h2⟩, h3, h4⟩
        refine ⟨List.pairwise_cons.2 ⟨?_, h3⟩, ?_⟩
        · intro a ha
          rcases List.mem_cons.1 ha with rfl | ha
          · exact h2
          · exact Nat.lt_trans h2 ((List.pairwise_cons.1 h3).1 a ha)
        · intro a ha
          rcases List.mem_cons.1 ha with rfl | ha
          · exact h1
          · exact h4 a ha
      · rintro ⟨h1, h2⟩
        have h3 := List.pairwise_cons.1 h1
        exact ⟨⟨h2 e (by simp), h3.1 f (by simp)⟩, h3.2, fun a ha => h2 a (by simp_all)⟩

theorem AMap.del_pairwise (m : AMap α) (k : Nat) (h : m.Pairwise fun a b => a.1 < b.1) :
    (AMap.del m k).Pairwise fun a b => a.1 < b.1 := h.filter _

theorem AMap.mem_place (k : Nat) (v : α) (m : AMap α) (e : Nat × α) :
    e ∈ AMap.place k v m ↔ e = (k, v) ∨ e ∈ m := by
  induction m with
  | nil => simp [AMap.place]
  | cons f m ih =>
    unfold AMap.place
    split
    · simp
    · simp only [List.mem_cons, ih]
      constructor
      · rintro (h | h | h)
        · exact .inr (.inl h)
        · exact .inl h
        · exact .inr (.inr h)
      · rintro (h | h | h)
        · exact .inr (.inl h)
        · exact .inl h
        · exact .inr (.inr h)

theorem AMap.place_pairwise (k : Nat) (v : α) (m : AMap α) (h : m.Pairwise fun a b => a.1 < b.1)
    (hk : ∀ e ∈ m, e.1 ≠ k) : (AMap.place k v m).Pairwise fun a b => a.1 < b.1 := by
  induction m with
  | nil => simp [AMap.place]
  | cons f m ih =>
    have h2 := List.pairwise_cons.1 h
    unfold AMap.place
    split
    · rename_i hlt
      refine List.pairwise_cons.2 ⟨fun e he => ?_, h⟩
      rcases List.mem_cons.1 he with rfl | he
      · exact hlt
      · exact Nat.lt_trans hlt (h2.1 e he)
    · rename_i hlt
      refine List.pairwise_cons.2 ⟨fun e he => ?_, ih h2.2 fun e he => hk e (by simp [he])⟩
      rcases (AMap.mem_place k v m e).1 he with rfl | he
      · have := hk f (by simp)
        show f.1 < k
        omega
      · exact h2.1 e he

/-- `put` keeps canonical form. -/
theorem AMap.put_wf [DecidableEq α] (d : α) (m : AMap α) (k : Nat) (v : α)
    (h : AMap.wf d m = true) : AMap.wf d (AMap.put d m k v) = true := by
  rw [AMap.wf_iff] at h ⊢
  unfold AMap.put
  split
  · exact ⟨AMap.del_pairwise _ _ h.1, fun e he => h.2 e (List.mem_filter.1 he).1⟩
  · rename_i hv
    refine ⟨AMap.place_pairwise _ _ _ (AMap.del_pairwise _ _ h.1) fun e he => ?_, fun e he => ?_⟩
    · simpa using (List.mem_filter.1 he).2
    · rcases (AMap.mem_place _ _ _ _).1 he with rfl | he
      · exact hv
      · exact h.2 e (List.mem_filter.1 he).1

theorem AMap.filter_wf [DecidableEq α] (d : α) (m : AMap α) (p : Nat × α → Bool)
    (h : AMap.wf d m = true) : AMap.wf d (m.filter p) = true := by
  rw [AMap.wf_iff] at h ⊢
  exact ⟨h.1.filter _, fun e he => h.2 e (List.mem_filter.1 he).1⟩

/-! ## Memory -/

/-- Writing a byte keeps the canonical form of memory. -/
theorem Memory.write_wf (m : List Host.Cell) (a : Nat) (b : Byte) (h : Memory.wf m = true) :
    Memory.wf (Memory.write m a b) = true := AMap.put_wf _ _ _ _ h

theorem Memory.filter_wf (m : List Host.Cell) (p : Host.Cell → Bool) (h : Memory.wf m = true) :
    Memory.wf (m.filter p) = true := AMap.filter_wf _ _ _ h

theorem Memory.foldl_wf {β : Type} (f : List Host.Cell → β → List Host.Cell)
    (hf : ∀ m b, Memory.wf m = true → Memory.wf (f m b) = true) (l : List β) (m : List Host.Cell)
    (h : Memory.wf m = true) : Memory.wf (l.foldl f m) = true := by
  induction l generalizing m with
  | nil => exact h
  | cons b l ih => exact ih _ (hf m b h)

/-- A byte reads as it was written, and every other byte as before. -/
theorem Memory.read_write (m : List Host.Cell) (a c : Nat) (b : Byte) :
    Memory.read (Memory.write m a b) c = if c = a then b else Memory.read m c :=
  AMap.get_put _ _ _ _ _

/-! ## Sets -/

theorem NSet.has_iff (s : NSet) (n : Nat) : NSet.has s n = true ↔ n ∈ s := by
  simp [NSet.has]

theorem NSet.mem_place (s : NSet) (n k : Nat) : k ∈ NSet.place n s ↔ k = n ∨ k ∈ s := by
  induction s with
  | nil => simp [NSet.place]
  | cons a s ih =>
    unfold NSet.place
    split
    · simp
    · simp only [List.mem_cons, ih]
      constructor
      · rintro (h | h | h)
        · exact .inr (.inl h)
        · exact .inl h
        · exact .inr (.inr h)
      · rintro (h | h | h)
        · exact .inr (.inl h)
        · exact .inl h
        · exact .inr (.inr h)

theorem NSet.mem_add (s : NSet) (n k : Nat) : k ∈ NSet.add s n ↔ k = n ∨ k ∈ s := by
  unfold NSet.add NSet.del
  rw [NSet.mem_place]
  simp only [List.mem_filter, bne_iff_ne, ne_eq]
  constructor
  · rintro (h | h)
    · exact .inl h
    · exact .inr h.1
  · rintro (h | h)
    · exact .inl h
    · by_cases hk : k = n
      · exact .inl hk
      · exact .inr ⟨h, by simpa using hk⟩

theorem NSet.mem_del (s : NSet) (n k : Nat) : k ∈ NSet.del s n ↔ k ∈ s ∧ k ≠ n := by
  simp [NSet.del]

theorem NSet.mem_addAll (s : NSet) (ns : List Nat) (k : Nat) :
    k ∈ NSet.addAll s ns ↔ k ∈ ns ∨ k ∈ s := by
  unfold NSet.addAll
  induction ns generalizing s with
  | nil => simp
  | cons n ns ih =>
    rw [List.foldl_cons, ih, NSet.mem_add, List.mem_cons]
    constructor
    · rintro (h | h | h)
      · exact .inl (.inr h)
      · exact .inl (.inl h)
      · exact .inr h
    · rintro ((h | h) | h)
      · exact .inr (.inl h)
      · exact .inl h
      · exact .inr (.inr h)

end Sys2Proof.Machine
end

