-- ==== Sys2Proof/Laws/Registers.lean ====
section
/-!
SUPPORT. Lanes and registers: which lanes a mask names, and what a register write changes.
-/
namespace Sys2Proof.Machine

/-! ## Lanes -/

theorem mem_lanesOf (m : Mask) (l : Nat) : l ∈ lanesOf m ↔ l < 32 ∧ m.toNat.testBit l = true := by
  simp [lanesOf]

theorem lanesOf_nodup (m : Mask) : (lanesOf m).Nodup := List.nodup_range.filter _

theorem one_shift_getLsbD (l i : Nat) (hi : i < 32) : (1#32 <<< l).getLsbD i = decide (i = l) := by
  simp only [BitVec.getLsbD_shiftLeft]
  by_cases hl : i < l
  · simp [hl, show i ≠ l by omega]
  · by_cases h : i = l
    · subst h; simp [hi]
    · have : i - l ≠ 0 := by omega
      simp [BitVec.getLsbD_one, this, h]

theorem getLsbD_fold (ls : List Nat) (m : Mask) (i : Nat) (hi : i < 32) :
    (ls.foldl (fun m l => m ||| (1#32 <<< l)) m).getLsbD i = (m.getLsbD i || decide (i ∈ ls)) := by
  induction ls generalizing m with
  | nil => simp
  | cons l ls ih =>
    rw [List.foldl_cons, ih]
    rw [BitVec.getLsbD_or, one_shift_getLsbD _ _ hi]
    by_cases h : i = l <;> simp [h]

theorem testBit_maskOf (ls : List Nat) (i : Nat) (hi : i < 32) :
    (maskOf ls).toNat.testBit i = decide (i ∈ ls) := by
  have := getLsbD_fold ls 0 i hi
  unfold maskOf
  rw [BitVec.testBit_toNat, this]
  simp

theorem mem_lanesOf_maskOf (ls : List Nat) (l : Nat) : l ∈ lanesOf (maskOf ls) ↔ l < 32 ∧ l ∈ ls := by
  rw [mem_lanesOf]
  constructor
  · rintro ⟨h, hb⟩; rw [testBit_maskOf _ _ h] at hb; exact ⟨h, by simpa using hb⟩
  · rintro ⟨h, hb⟩; rw [testBit_maskOf _ _ h]; exact ⟨h, by simpa using hb⟩

theorem lanesOf_maskOf (m : Mask) (p : Nat → Bool) :
    lanesOf (maskOf ((lanesOf m).filter p)) = (lanesOf m).filter p := by
  conv => lhs; unfold lanesOf
  conv => rhs; unfold lanesOf
  rw [List.filter_filter]
  refine List.filter_congr fun l hl => ?_
  have hl : l < 32 := by simpa using hl
  rw [testBit_maskOf _ _ hl]
  simp [hl]

/-- The lanes an instruction acts on (02 R26). -/
theorem mem_on (g : Group) (c : Ctl) (l : Nat) :
    l ∈ g.on c ↔ l < 32 ∧ g.ctl.act.toNat.testBit l = true ∧ g.predAt c.pg l ≠ c.neg := by
  unfold Group.on Group.onLanes
  rw [lanesOf_maskOf]
  simp [mem_lanesOf, and_assoc]

theorem on_nodup (g : Group) (c : Ctl) : (g.on c).Nodup := lanesOf_nodup _

theorem lanesOf_maskOf_on (g : Group) (c : Ctl) : lanesOf (maskOf (g.on c)) = g.on c := by
  unfold Group.on Group.onLanes
  rw [lanesOf_maskOf, lanesOf_maskOf]

theorem on_lt (g : Group) (c : Ctl) (l : Nat) (h : l ∈ g.on c) : l < 32 := ((mem_on g c l).1 h).1

/-! ## One write -/

/-- What a write of one register changes of the other cells. -/
theorem put_cell_ne (r : Regs) (o : Opd) (l w c : Nat) (_ : l < 32) (hc : c ≠ cellOf o l) :
    (r.put o l w).cell c = r.cell c ∧ (c ∈ (r.put o l w).empt ↔ c ∈ r.empt) ∧
      (c ∈ (r.put o l w).pois ↔ c ∈ r.pois) := by
  have hmarks : ∀ s : NSet, c ∈ NSet.del s (cellOf o l) ↔ c ∈ s := fun s => by simp [NSet.mem_del, hc]
  cases o with
  | v n =>
    refine ⟨?_, hmarks _, hmarks _⟩
    simp only [cellOf] at hc
    simp only [Regs.put, Regs.cell, AMap.get_put, hc, if_false]
  | x n =>
    refine ⟨?_, hmarks _, hmarks _⟩
    simp only [cellOf] at hc
    simp only [Regs.put, Regs.cell, AMap.get_put]
    split
    · rfl
    · split
      · rw [if_neg (by omega)]
      · rfl
  | s n =>
    refine ⟨?_, hmarks _, hmarks _⟩
    simp only [cellOf] at hc
    simp only [Regs.put, Regs.cell, AMap.get_put]
    split
    · rfl
    · split
      · rfl
      · split
        · rw [if_neg (by omega)]
        · rfl
  | p n =>
    simp only [Regs.put]
    split
    · exact ⟨rfl, hmarks _, hmarks _⟩
    · refine ⟨?_, hmarks _, hmarks _⟩
      simp only [cellOf] at hc
      simp only [Regs.cell, AMap.get_put]
      split
      · rfl
      · split
        · rfl
        · split
          · rfl
          · by_cases hn : (c - 8256) / 32 = n
            · have hj : (c - 8256) % 32 ≠ l := by omega
              have hj2 : (c - 8256) % 32 < 32 := Nat.mod_lt _ (by decide)
              simp only [hn, if_true]
              refine congrArg bit ?_
              rw [BitVec.testBit_toNat, BitVec.testBit_toNat]
              have hb : (1#32 <<< l).getLsbD ((c - 8256) % 32) = false := by
                rw [one_shift_getLsbD _ _ hj2, decide_eq_false hj]
              split
              · simp [hb]
              · simp only [BitVec.getLsbD_and, BitVec.getLsbD_not, hb, hj2, Bool.not_false, decide_true,
                  Bool.and_true]
            · rw [if_neg hn]
  | acc n => exact ⟨rfl, hmarks _, hmarks _⟩

theorem put_full (r : Regs) (o : Opd) (l w : Nat) :
    cellOf o l ∉ (r.put o l w).empt ∧ cellOf o l ∉ (r.put o l w).pois := by
  have hm : ∀ s : NSet, cellOf o l ∉ NSet.del s (cellOf o l) := fun s h => ((NSet.mem_del _ _ _).1 h).2 rfl
  cases o <;> simp only [Regs.put] <;> (try split) <;> exact ⟨hm _, hm _⟩

/-! ## Several registers, several lanes -/

/-- Cells outside a list are kept by a write. -/
def RegsKept (r q : Regs) (cells : List Nat) : Prop :=
  ∀ c, c ∉ cells → q.cell c = r.cell c ∧ (c ∈ q.empt ↔ c ∈ r.empt) ∧ (c ∈ q.pois ↔ c ∈ r.pois)

theorem RegsKept.rfl' (r : Regs) (cells : List Nat) : RegsKept r r cells :=
  fun _ _ => ⟨rfl, Iff.rfl, Iff.rfl⟩

theorem RegsKept.trans {r q p : Regs} {cells : List Nat} (h : RegsKept r q cells) (k : RegsKept q p cells) :
    RegsKept r p cells := fun c hc =>
  ⟨(k c hc).1.trans (h c hc).1, (k c hc).2.1.trans (h c hc).2.1, (k c hc).2.2.trans (h c hc).2.2⟩

theorem RegsKept.mono {r q : Regs} {a b : List Nat} (h : RegsKept r q a) (hs : ∀ c ∈ a, c ∈ b) :
    RegsKept r q b := fun c hc => h c fun x => hc (hs c x)

theorem put_kept (r : Regs) (o : Opd) (l w : Nat) (hl : l < 32) : RegsKept r (r.put o l w) [cellOf o l] :=
  fun c hc => put_cell_ne r o l w c hl (by simpa using hc)

theorem putN_kept (r : Regs) (o : Opd) (k l w : Nat) (hl : l < 32) :
    RegsKept r (r.putN o k l w) (destCells o k [l]) := by
  induction k with
  | zero => exact RegsKept.rfl' _ _
  | succ k ih =>
    unfold Regs.putN
    refine (ih.mono fun c hc => ?_).trans ((put_kept _ _ _ _ hl).mono fun c hc => ?_)
    · simp only [destCells, List.mem_flatMap, List.mem_range] at hc ⊢
      obtain ⟨i, hi, h⟩ := hc
      exact ⟨i, by omega, h⟩
    · simp only [destCells, List.mem_flatMap, List.mem_range]
      exact ⟨k, by omega, by simpa using hc⟩

theorem destCells_mono (o : Opd) (k : Nat) (a b : List Nat) (h : ∀ l ∈ a, l ∈ b) :
    ∀ c ∈ destCells o k a, c ∈ destCells o k b := by
  intro c hc
  simp only [destCells, List.mem_flatMap, List.mem_map] at hc ⊢
  obtain ⟨i, hi, l, hl, h2⟩ := hc
  exact ⟨i, hi, l, h l hl, h2⟩

/-- A fold of lane writes keeps every cell of other lanes and registers. -/
theorem foldl_putN_kept {β : Type} (o : Opd) (k : Nat) (f g : β → Nat) (es : List β) (ls : List Nat)
    (hl : ∀ e ∈ es, f e ∈ ls) (h32 : ∀ l ∈ ls, l < 32) (r : Regs) :
    RegsKept r (es.foldl (fun r e => r.putN o k (f e) (g e)) r) (destCells o k ls) := by
  induction es generalizing r with
  | nil => exact RegsKept.rfl' _ _
  | cons e es ih =>
    rw [List.foldl_cons]
    refine RegsKept.trans ?_ (ih (fun x hx => hl x (by simp [hx])) _)
    have he := hl e (by simp)
    exact (putN_kept r o k (f e) (g e) (h32 _ he)).mono
      (destCells_mono _ _ _ _ fun l hl => by simp at hl; exact hl ▸ he)

/-- Reading one register of a lane back. -/
theorem rd32_put (r : Regs) (g : Group) (o : Opd) (i j l a w : Nat) (ho : (∃ n, o = .v n) ∨ ∃ n, o = .x n)
    (hl : l < 32) (ha : a < 32) :
    ({ g with regs := r.put (opPlus o i) l w } : Group).rd32 (opPlus o j) a =
      if i = j ∧ l = a then w % 2 ^ 32 else ({ g with regs := r } : Group).rd32 (opPlus o j) a := by
  rcases ho with ⟨n, rfl⟩ | ⟨n, rfl⟩ <;>
  · simp only [Group.rd32, opPlus, Regs.put, AMap.get_put]
    by_cases h : i = j ∧ l = a
    · obtain ⟨rfl, rfl⟩ := h; simp
    · rw [if_neg (by omega), if_neg h]

theorem rd32_putN (r : Regs) (g : Group) (o : Opd) (k j l a w : Nat)
    (ho : (∃ n, o = .v n) ∨ ∃ n, o = .x n) (hl : l < 32) (ha : a < 32) :
    ({ g with regs := r.putN o k l w } : Group).rd32 (opPlus o j) a =
      if j < k ∧ l = a then w / 2 ^ (32 * j) % 2 ^ 32
      else ({ g with regs := r } : Group).rd32 (opPlus o j) a := by
  induction k with
  | zero => simp [Regs.putN]
  | succ k ih =>
    unfold Regs.putN
    rw [rd32_put _ _ _ _ _ _ _ _ ho hl ha, ih]
    by_cases h : k = j ∧ l = a
    · obtain ⟨rfl, rfl⟩ := h; simp
    · rw [if_neg h]
      by_cases h2 : j < k ∧ l = a
      · rw [if_pos h2, if_pos ⟨by omega, h2.2⟩]
      · rw [if_neg h2, if_neg (by omega)]

theorem rdN_congr (g h : Group) (o : Opd) (k l : Nat)
    (hh : ∀ j < k, g.rd32 (opPlus o j) l = h.rd32 (opPlus o j) l) : g.rdN o k l = h.rdN o k l := by
  induction k with
  | zero => rfl
  | succ k ih =>
    unfold Group.rdN
    rw [ih fun j hj => hh j (by omega), hh k (by omega)]

/-- Registers hold a number split into words of 32 bits. -/
theorem rdN_words (g : Group) (o : Opd) (k l w : Nat)
    (hh : ∀ j < k, g.rd32 (opPlus o j) l = w / 2 ^ (32 * j) % 2 ^ 32) : g.rdN o k l = w % 2 ^ (32 * k) := by
  induction k with
  | zero => simp [Group.rdN, Nat.mod_one]
  | succ k ih =>
    unfold Group.rdN
    rw [ih fun j hj => hh j (by omega), hh k (by omega)]
    rw [show 32 * (k + 1) = 32 * k + 32 by omega, Nat.pow_add, Nat.mod_mul]

/-- Reading a destination back after the lanes of a list have been written. -/
theorem rdN_foldl_putN {β : Type} (o : Opd) (k : Nat) (f g : β → Nat) (es : List β) (gr : Group)
    (ho : (∃ n, o = .v n) ∨ ∃ n, o = .x n) (h32 : ∀ e ∈ es, f e < 32) (hn : (es.map f).Nodup)
    (e : β) (he : e ∈ es) (r : Regs) :
    ({ gr with regs := es.foldl (fun r e => r.putN o k (f e) (g e)) r } : Group).rdN o k (f e) =
      g e % 2 ^ (32 * k) := by
  have step : ∀ (es : List β) (r : Regs), (∀ x ∈ es, f x < 32) → (∀ x ∈ es, f x ≠ f e) → ∀ j,
      ({ gr with regs := es.foldl (fun r e => r.putN o k (f e) (g e)) r } : Group).rd32 (opPlus o j) (f e) =
      ({ gr with regs := r } : Group).rd32 (opPlus o j) (f e) := by
    intro es
    induction es with
    | nil => intros; rfl
    | cons x es ih =>
      intro r h1 h2 j
      rw [List.foldl_cons, ih _ (fun y hy => h1 y (by simp [hy])) (fun y hy => h2 y (by simp [hy])),
        rd32_putN _ _ _ _ _ _ _ _ ho (h1 x (by simp)) (h32 e he), if_neg]
      exact fun h => h2 x (by simp) h.2
  induction es generalizing r with
  | nil => simp at he
  | cons x es ih =>
    rw [List.map_cons, List.nodup_cons] at hn
    rw [List.foldl_cons]
    rcases List.mem_cons.1 he with rfl | he'
    · refine rdN_words _ _ _ _ _ fun j hj => ?_
      rw [step es _ (fun y hy => h32 y (by simp [hy])) (fun y hy h =>
        hn.1 (List.mem_map.2 ⟨y, hy, h⟩)), rd32_putN _ _ _ _ _ _ _ _ ho (h32 _ he) (h32 _ he), if_pos ⟨hj, rfl⟩]
    · exact ih (fun y hy => h32 y (by simp [hy])) hn.2 he' _

theorem foldl_putN_full {β : Type} (o : Opd) (k : Nat) (f g : β → Nat) (es : List β) (r : Regs)
    (h32 : ∀ e ∈ es, f e < 32) :
    ∀ c ∈ destCells o k (es.map f), c ∉ (es.foldl (fun r e => r.putN o k (f e) (g e)) r).empt ∧
      c ∉ (es.foldl (fun r e => r.putN o k (f e) (g e)) r).pois := by
  have put1 : ∀ (r : Regs) (o : Opd) (l w c : Nat), l < 32 → (c ∉ r.empt ∧ c ∉ r.pois) →
      c ∉ (r.put o l w).empt ∧ c ∉ (r.put o l w).pois := by
    intro r o l w c hl hc
    by_cases h : c = cellOf o l
    · subst h; exact put_full _ _ _ _
    · have := put_cell_ne r o l w c hl h
      exact ⟨fun x => hc.1 (this.2.1.1 x), fun x => hc.2 (this.2.2.1 x)⟩
  have putk : ∀ (k : Nat) (r : Regs) (l w c : Nat), l < 32 → (c ∉ r.empt ∧ c ∉ r.pois) →
      c ∉ (r.putN o k l w).empt ∧ c ∉ (r.putN o k l w).pois := by
    intro k
    induction k with
    | zero => intros; assumption
    | succ k ih => intro r l w c hl hc; exact put1 _ _ _ _ _ hl (ih _ _ _ _ hl hc)
  have putd : ∀ (k : Nat) (r : Regs) (l w c : Nat), l < 32 → c ∈ destCells o k [l] →
      c ∉ (r.putN o k l w).empt ∧ c ∉ (r.putN o k l w).pois := by
    intro k
    induction k with
    | zero => intro r l w c _ hc; simp [destCells] at hc
    | succ k ih =>
      intro r l w c hl hc
      unfold Regs.putN
      by_cases h : c ∈ destCells o k [l]
      · exact put1 _ _ _ _ _ hl (ih r l w c hl h)
      · simp only [destCells, List.mem_flatMap, List.mem_range, List.map_cons, List.map_nil,
          List.mem_singleton, not_exists, not_and] at h hc
        obtain ⟨i, hi, hc⟩ := hc
        have : i = k := by
          rcases Nat.lt_or_ge i k with h2 | h2
          · exact absurd hc (h i h2)
          · omega
        subst this; subst hc
        exact put_full _ _ _ _
  have keep : ∀ (es : List β) (r : Regs) (c : Nat), (∀ e ∈ es, f e < 32) → (c ∉ r.empt ∧ c ∉ r.pois) →
      c ∉ (es.foldl (fun r e => r.putN o k (f e) (g e)) r).empt ∧
      c ∉ (es.foldl (fun r e => r.putN o k (f e) (g e)) r).pois := by
    intro es
    induction es with
    | nil => intros; assumption
    | cons e es ih =>
      intro r c h32 hc
      exact ih _ _ (fun x hx => h32 x (by simp [hx])) (putk _ _ _ _ _ (h32 e (by simp)) hc)
  induction es generalizing r with
  | nil => intro c hc; simp [destCells] at hc
  | cons e es ih =>
    intro c hc
    by_cases h : c ∈ destCells o k (es.map f)
    · exact ih _ (fun x hx => h32 x (by simp [hx])) c h
    · have h2 : c ∈ destCells o k [f e] := by
        simp only [destCells, List.mem_flatMap, List.mem_range, List.mem_map, List.map_cons,
          List.mem_cons] at hc h ⊢
        obtain ⟨i, hi, hc⟩ := hc
        refine ⟨i, hi, ?_⟩
        rcases hc with hc | hc
        · exact .inl hc
        · exact absurd ⟨i, hi, hc⟩ h
      exact keep es _ c (fun x hx => h32 x (by simp [hx])) (putd k r _ _ c (h32 e (by simp)) h2)

end Sys2Proof.Machine
end

