-- ==== Sys2Proof/Laws/State.lean ====
section
/-!
SUPPORT. One lemma per field per update of the state's collections, and what each collection reads as
after an update of it.
-/
namespace Sys2Proof.Machine

/-! `setCore` -/

@[simp] theorem setCore_cur (s : State) (c : Nat) (k : Core) : (s.setCore c k).cur = s.cur := rfl
@[simp] theorem setCore_turns (s : State) (c : Nat) (k : Core) : (s.setCore c k).turns = s.turns := rfl
@[simp] theorem setCore_freeCount (s : State) (c : Nat) (k : Core) : (s.setCore c k).freeCount = s.freeCount := rfl
@[simp] theorem setCore_nextId (s : State) (c : Nat) (k : Core) : (s.setCore c k).nextId = s.nextId := rfl
@[simp] theorem setCore_clk (s : State) (c : Nat) (k : Core) : (s.setCore c k).clk = s.clk := rfl
@[simp] theorem setCore_time9 (s : State) (c : Nat) (k : Core) : (s.setCore c k).time9 = s.time9 := rfl
@[simp] theorem setCore_fuses (s : State) (c : Nat) (k : Core) : (s.setCore c k).fuses = s.fuses := rfl
@[simp] theorem setCore_installed (s : State) (c : Nat) (k : Core) : (s.setCore c k).installed = s.installed := rfl
@[simp] theorem setCore_mem (s : State) (c : Nat) (k : Core) : (s.setCore c k).mem = s.mem := rfl
@[simp] theorem setCore_dirty (s : State) (c : Nat) (k : Core) : (s.setCore c k).dirty = s.dirty := rfl
@[simp] theorem setCore_kept (s : State) (c : Nat) (k : Core) : (s.setCore c k).kept = s.kept := rfl
@[simp] theorem setCore_volat (s : State) (c : Nat) (k : Core) : (s.setCore c k).volat = s.volat := rfl
@[simp] theorem setCore_pois (s : State) (c : Nat) (k : Core) : (s.setCore c k).pois = s.pois := rfl
@[simp] theorem setCore_spills (s : State) (c : Nat) (k : Core) : (s.setCore c k).spills = s.spills := rfl
@[simp] theorem setCore_lines (s : State) (c : Nat) (k : Core) : (s.setCore c k).lines = s.lines := rfl
@[simp] theorem setCore_uses (s : State) (c : Nat) (k : Core) : (s.setCore c k).uses = s.uses := rfl
@[simp] theorem setCore_dev (s : State) (c : Nat) (k : Core) : (s.setCore c k).dev = s.dev := rfl
@[simp] theorem setCore_sysDone (s : State) (c : Nat) (k : Core) : (s.setCore c k).sysDone = s.sysDone := rfl
@[simp] theorem setCore_l2tlb (s : State) (c : Nat) (k : Core) : (s.setCore c k).l2tlb = s.l2tlb := rfl
@[simp] theorem setCore_faults (s : State) (c : Nat) (k : Core) : (s.setCore c k).faults = s.faults := rfl
@[simp] theorem setCore_frespIgnored (s : State) (c : Nat) (k : Core) : (s.setCore c k).frespIgnored = s.frespIgnored := rfl
@[simp] theorem setCore_pending (s : State) (c : Nat) (k : Core) : (s.setCore c k).pending = s.pending := rfl
@[simp] theorem setCore_groups (s : State) (c : Nat) (k : Core) : (s.setCore c k).groups = s.groups := rfl
@[simp] theorem setCore_teams (s : State) (c : Nat) (k : Core) : (s.setCore c k).teams = s.teams := rfl
@[simp] theorem setCore_clusters (s : State) (c : Nat) (k : Core) : (s.setCore c k).clusters = s.clusters := rfl
@[simp] theorem setCore_grids (s : State) (c : Nat) (k : Core) : (s.setCore c k).grids = s.grids := rfl
@[simp] theorem setCore_cores (s : State) (c : Nat) (k : Core) : (s.setCore c k).cores = AMap.put {} s.cores c k := rfl
@[simp] theorem setCore_trd (s : State) (c : Nat) (k : Core) : (s.setCore c k).trd = s.trd := rfl
@[simp] theorem setCore_l2c (s : State) (c : Nat) (k : Core) : (s.setCore c k).l2c = s.l2c := rfl
@[simp] theorem setCore_l3c (s : State) (c : Nat) (k : Core) : (s.setCore c k).l3c = s.l3c := rfl
@[simp] theorem setCore_railSet (s : State) (c : Nat) (k : Core) : (s.setCore c k).railSet = s.railSet := rfl
@[simp] theorem setCore_badDst (s : State) (c : Nat) (k : Core) : (s.setCore c k).badDst = s.badDst := rfl
@[simp] theorem setCore_tenants (s : State) (c : Nat) (k : Core) : (s.setCore c k).tenants = s.tenants := rfl
@[simp] theorem setCore_streams (s : State) (c : Nat) (k : Core) : (s.setCore c k).streams = s.streams := rfl
@[simp] theorem setCore_boot (s : State) (c : Nat) (k : Core) : (s.setCore c k).boot = s.boot := rfl
@[simp] theorem setCore_plat (s : State) (c : Nat) (k : Core) : (s.setCore c k).plat = s.plat := rfl

/-! `modCore` -/

@[simp] theorem modCore_cur (s : State) (c : Nat) (f : Core → Core) : (s.modCore c f).cur = s.cur := rfl
@[simp] theorem modCore_turns (s : State) (c : Nat) (f : Core → Core) : (s.modCore c f).turns = s.turns := rfl
@[simp] theorem modCore_freeCount (s : State) (c : Nat) (f : Core → Core) : (s.modCore c f).freeCount = s.freeCount := rfl
@[simp] theorem modCore_nextId (s : State) (c : Nat) (f : Core → Core) : (s.modCore c f).nextId = s.nextId := rfl
@[simp] theorem modCore_clk (s : State) (c : Nat) (f : Core → Core) : (s.modCore c f).clk = s.clk := rfl
@[simp] theorem modCore_time9 (s : State) (c : Nat) (f : Core → Core) : (s.modCore c f).time9 = s.time9 := rfl
@[simp] theorem modCore_fuses (s : State) (c : Nat) (f : Core → Core) : (s.modCore c f).fuses = s.fuses := rfl
@[simp] theorem modCore_installed (s : State) (c : Nat) (f : Core → Core) : (s.modCore c f).installed = s.installed := rfl
@[simp] theorem modCore_mem (s : State) (c : Nat) (f : Core → Core) : (s.modCore c f).mem = s.mem := rfl
@[simp] theorem modCore_dirty (s : State) (c : Nat) (f : Core → Core) : (s.modCore c f).dirty = s.dirty := rfl
@[simp] theorem modCore_kept (s : State) (c : Nat) (f : Core → Core) : (s.modCore c f).kept = s.kept := rfl
@[simp] theorem modCore_volat (s : State) (c : Nat) (f : Core → Core) : (s.modCore c f).volat = s.volat := rfl
@[simp] theorem modCore_pois (s : State) (c : Nat) (f : Core → Core) : (s.modCore c f).pois = s.pois := rfl
@[simp] theorem modCore_spills (s : State) (c : Nat) (f : Core → Core) : (s.modCore c f).spills = s.spills := rfl
@[simp] theorem modCore_lines (s : State) (c : Nat) (f : Core → Core) : (s.modCore c f).lines = s.lines := rfl
@[simp] theorem modCore_uses (s : State) (c : Nat) (f : Core → Core) : (s.modCore c f).uses = s.uses := rfl
@[simp] theorem modCore_dev (s : State) (c : Nat) (f : Core → Core) : (s.modCore c f).dev = s.dev := rfl
@[simp] theorem modCore_sysDone (s : State) (c : Nat) (f : Core → Core) : (s.modCore c f).sysDone = s.sysDone := rfl
@[simp] theorem modCore_l2tlb (s : State) (c : Nat) (f : Core → Core) : (s.modCore c f).l2tlb = s.l2tlb := rfl
@[simp] theorem modCore_faults (s : State) (c : Nat) (f : Core → Core) : (s.modCore c f).faults = s.faults := rfl
@[simp] theorem modCore_frespIgnored (s : State) (c : Nat) (f : Core → Core) : (s.modCore c f).frespIgnored = s.frespIgnored := rfl
@[simp] theorem modCore_pending (s : State) (c : Nat) (f : Core → Core) : (s.modCore c f).pending = s.pending := rfl
@[simp] theorem modCore_groups (s : State) (c : Nat) (f : Core → Core) : (s.modCore c f).groups = s.groups := rfl
@[simp] theorem modCore_teams (s : State) (c : Nat) (f : Core → Core) : (s.modCore c f).teams = s.teams := rfl
@[simp] theorem modCore_clusters (s : State) (c : Nat) (f : Core → Core) : (s.modCore c f).clusters = s.clusters := rfl
@[simp] theorem modCore_grids (s : State) (c : Nat) (f : Core → Core) : (s.modCore c f).grids = s.grids := rfl
@[simp] theorem modCore_cores (s : State) (c : Nat) (f : Core → Core) : (s.modCore c f).cores = AMap.put {} s.cores c (f (s.core c)) := rfl
@[simp] theorem modCore_trd (s : State) (c : Nat) (f : Core → Core) : (s.modCore c f).trd = s.trd := rfl
@[simp] theorem modCore_l2c (s : State) (c : Nat) (f : Core → Core) : (s.modCore c f).l2c = s.l2c := rfl
@[simp] theorem modCore_l3c (s : State) (c : Nat) (f : Core → Core) : (s.modCore c f).l3c = s.l3c := rfl
@[simp] theorem modCore_railSet (s : State) (c : Nat) (f : Core → Core) : (s.modCore c f).railSet = s.railSet := rfl
@[simp] theorem modCore_badDst (s : State) (c : Nat) (f : Core → Core) : (s.modCore c f).badDst = s.badDst := rfl
@[simp] theorem modCore_tenants (s : State) (c : Nat) (f : Core → Core) : (s.modCore c f).tenants = s.tenants := rfl
@[simp] theorem modCore_streams (s : State) (c : Nat) (f : Core → Core) : (s.modCore c f).streams = s.streams := rfl
@[simp] theorem modCore_boot (s : State) (c : Nat) (f : Core → Core) : (s.modCore c f).boot = s.boot := rfl
@[simp] theorem modCore_plat (s : State) (c : Nat) (f : Core → Core) : (s.modCore c f).plat = s.plat := rfl

/-! `modTenant` -/

@[simp] theorem modTenant_cur (s : State) (t : Nat) (f : Tenant → Tenant) : (s.modTenant t f).cur = s.cur := rfl
@[simp] theorem modTenant_turns (s : State) (t : Nat) (f : Tenant → Tenant) : (s.modTenant t f).turns = s.turns := rfl
@[simp] theorem modTenant_freeCount (s : State) (t : Nat) (f : Tenant → Tenant) : (s.modTenant t f).freeCount = s.freeCount := rfl
@[simp] theorem modTenant_nextId (s : State) (t : Nat) (f : Tenant → Tenant) : (s.modTenant t f).nextId = s.nextId := rfl
@[simp] theorem modTenant_clk (s : State) (t : Nat) (f : Tenant → Tenant) : (s.modTenant t f).clk = s.clk := rfl
@[simp] theorem modTenant_time9 (s : State) (t : Nat) (f : Tenant → Tenant) : (s.modTenant t f).time9 = s.time9 := rfl
@[simp] theorem modTenant_fuses (s : State) (t : Nat) (f : Tenant → Tenant) : (s.modTenant t f).fuses = s.fuses := rfl
@[simp] theorem modTenant_installed (s : State) (t : Nat) (f : Tenant → Tenant) : (s.modTenant t f).installed = s.installed := rfl
@[simp] theorem modTenant_mem (s : State) (t : Nat) (f : Tenant → Tenant) : (s.modTenant t f).mem = s.mem := rfl
@[simp] theorem modTenant_dirty (s : State) (t : Nat) (f : Tenant → Tenant) : (s.modTenant t f).dirty = s.dirty := rfl
@[simp] theorem modTenant_kept (s : State) (t : Nat) (f : Tenant → Tenant) : (s.modTenant t f).kept = s.kept := rfl
@[simp] theorem modTenant_volat (s : State) (t : Nat) (f : Tenant → Tenant) : (s.modTenant t f).volat = s.volat := rfl
@[simp] theorem modTenant_pois (s : State) (t : Nat) (f : Tenant → Tenant) : (s.modTenant t f).pois = s.pois := rfl
@[simp] theorem modTenant_spills (s : State) (t : Nat) (f : Tenant → Tenant) : (s.modTenant t f).spills = s.spills := rfl
@[simp] theorem modTenant_lines (s : State) (t : Nat) (f : Tenant → Tenant) : (s.modTenant t f).lines = s.lines := rfl
@[simp] theorem modTenant_uses (s : State) (t : Nat) (f : Tenant → Tenant) : (s.modTenant t f).uses = s.uses := rfl
@[simp] theorem modTenant_dev (s : State) (t : Nat) (f : Tenant → Tenant) : (s.modTenant t f).dev = s.dev := rfl
@[simp] theorem modTenant_sysDone (s : State) (t : Nat) (f : Tenant → Tenant) : (s.modTenant t f).sysDone = s.sysDone := rfl
@[simp] theorem modTenant_l2tlb (s : State) (t : Nat) (f : Tenant → Tenant) : (s.modTenant t f).l2tlb = s.l2tlb := rfl
@[simp] theorem modTenant_faults (s : State) (t : Nat) (f : Tenant → Tenant) : (s.modTenant t f).faults = s.faults := rfl
@[simp] theorem modTenant_frespIgnored (s : State) (t : Nat) (f : Tenant → Tenant) : (s.modTenant t f).frespIgnored = s.frespIgnored := rfl
@[simp] theorem modTenant_pending (s : State) (t : Nat) (f : Tenant → Tenant) : (s.modTenant t f).pending = s.pending := rfl
@[simp] theorem modTenant_groups (s : State) (t : Nat) (f : Tenant → Tenant) : (s.modTenant t f).groups = s.groups := rfl
@[simp] theorem modTenant_teams (s : State) (t : Nat) (f : Tenant → Tenant) : (s.modTenant t f).teams = s.teams := rfl
@[simp] theorem modTenant_clusters (s : State) (t : Nat) (f : Tenant → Tenant) : (s.modTenant t f).clusters = s.clusters := rfl
@[simp] theorem modTenant_grids (s : State) (t : Nat) (f : Tenant → Tenant) : (s.modTenant t f).grids = s.grids := rfl
@[simp] theorem modTenant_cores (s : State) (t : Nat) (f : Tenant → Tenant) : (s.modTenant t f).cores = s.cores := rfl
@[simp] theorem modTenant_trd (s : State) (t : Nat) (f : Tenant → Tenant) : (s.modTenant t f).trd = s.trd := rfl
@[simp] theorem modTenant_l2c (s : State) (t : Nat) (f : Tenant → Tenant) : (s.modTenant t f).l2c = s.l2c := rfl
@[simp] theorem modTenant_l3c (s : State) (t : Nat) (f : Tenant → Tenant) : (s.modTenant t f).l3c = s.l3c := rfl
@[simp] theorem modTenant_railSet (s : State) (t : Nat) (f : Tenant → Tenant) : (s.modTenant t f).railSet = s.railSet := rfl
@[simp] theorem modTenant_badDst (s : State) (t : Nat) (f : Tenant → Tenant) : (s.modTenant t f).badDst = s.badDst := rfl
@[simp] theorem modTenant_tenants (s : State) (t : Nat) (f : Tenant → Tenant) : (s.modTenant t f).tenants = AMap.put {} s.tenants t (f (s.tenant t)) := rfl
@[simp] theorem modTenant_streams (s : State) (t : Nat) (f : Tenant → Tenant) : (s.modTenant t f).streams = s.streams := rfl
@[simp] theorem modTenant_boot (s : State) (t : Nat) (f : Tenant → Tenant) : (s.modTenant t f).boot = s.boot := rfl
@[simp] theorem modTenant_plat (s : State) (t : Nat) (f : Tenant → Tenant) : (s.modTenant t f).plat = s.plat := rfl

/-! `modStream` -/

@[simp] theorem modStream_cur (s : State) (t : Nat) (f : Stream → Stream) : (s.modStream t f).cur = s.cur := rfl
@[simp] theorem modStream_turns (s : State) (t : Nat) (f : Stream → Stream) : (s.modStream t f).turns = s.turns := rfl
@[simp] theorem modStream_freeCount (s : State) (t : Nat) (f : Stream → Stream) : (s.modStream t f).freeCount = s.freeCount := rfl
@[simp] theorem modStream_nextId (s : State) (t : Nat) (f : Stream → Stream) : (s.modStream t f).nextId = s.nextId := rfl
@[simp] theorem modStream_clk (s : State) (t : Nat) (f : Stream → Stream) : (s.modStream t f).clk = s.clk := rfl
@[simp] theorem modStream_time9 (s : State) (t : Nat) (f : Stream → Stream) : (s.modStream t f).time9 = s.time9 := rfl
@[simp] theorem modStream_fuses (s : State) (t : Nat) (f : Stream → Stream) : (s.modStream t f).fuses = s.fuses := rfl
@[simp] theorem modStream_installed (s : State) (t : Nat) (f : Stream → Stream) : (s.modStream t f).installed = s.installed := rfl
@[simp] theorem modStream_mem (s : State) (t : Nat) (f : Stream → Stream) : (s.modStream t f).mem = s.mem := rfl
@[simp] theorem modStream_dirty (s : State) (t : Nat) (f : Stream → Stream) : (s.modStream t f).dirty = s.dirty := rfl
@[simp] theorem modStream_kept (s : State) (t : Nat) (f : Stream → Stream) : (s.modStream t f).kept = s.kept := rfl
@[simp] theorem modStream_volat (s : State) (t : Nat) (f : Stream → Stream) : (s.modStream t f).volat = s.volat := rfl
@[simp] theorem modStream_pois (s : State) (t : Nat) (f : Stream → Stream) : (s.modStream t f).pois = s.pois := rfl
@[simp] theorem modStream_spills (s : State) (t : Nat) (f : Stream → Stream) : (s.modStream t f).spills = s.spills := rfl
@[simp] theorem modStream_lines (s : State) (t : Nat) (f : Stream → Stream) : (s.modStream t f).lines = s.lines := rfl
@[simp] theorem modStream_uses (s : State) (t : Nat) (f : Stream → Stream) : (s.modStream t f).uses = s.uses := rfl
@[simp] theorem modStream_dev (s : State) (t : Nat) (f : Stream → Stream) : (s.modStream t f).dev = s.dev := rfl
@[simp] theorem modStream_sysDone (s : State) (t : Nat) (f : Stream → Stream) : (s.modStream t f).sysDone = s.sysDone := rfl
@[simp] theorem modStream_l2tlb (s : State) (t : Nat) (f : Stream → Stream) : (s.modStream t f).l2tlb = s.l2tlb := rfl
@[simp] theorem modStream_faults (s : State) (t : Nat) (f : Stream → Stream) : (s.modStream t f).faults = s.faults := rfl
@[simp] theorem modStream_frespIgnored (s : State) (t : Nat) (f : Stream → Stream) : (s.modStream t f).frespIgnored = s.frespIgnored := rfl
@[simp] theorem modStream_pending (s : State) (t : Nat) (f : Stream → Stream) : (s.modStream t f).pending = s.pending := rfl
@[simp] theorem modStream_groups (s : State) (t : Nat) (f : Stream → Stream) : (s.modStream t f).groups = s.groups := rfl
@[simp] theorem modStream_teams (s : State) (t : Nat) (f : Stream → Stream) : (s.modStream t f).teams = s.teams := rfl
@[simp] theorem modStream_clusters (s : State) (t : Nat) (f : Stream → Stream) : (s.modStream t f).clusters = s.clusters := rfl
@[simp] theorem modStream_grids (s : State) (t : Nat) (f : Stream → Stream) : (s.modStream t f).grids = s.grids := rfl
@[simp] theorem modStream_cores (s : State) (t : Nat) (f : Stream → Stream) : (s.modStream t f).cores = s.cores := rfl
@[simp] theorem modStream_trd (s : State) (t : Nat) (f : Stream → Stream) : (s.modStream t f).trd = s.trd := rfl
@[simp] theorem modStream_l2c (s : State) (t : Nat) (f : Stream → Stream) : (s.modStream t f).l2c = s.l2c := rfl
@[simp] theorem modStream_l3c (s : State) (t : Nat) (f : Stream → Stream) : (s.modStream t f).l3c = s.l3c := rfl
@[simp] theorem modStream_railSet (s : State) (t : Nat) (f : Stream → Stream) : (s.modStream t f).railSet = s.railSet := rfl
@[simp] theorem modStream_badDst (s : State) (t : Nat) (f : Stream → Stream) : (s.modStream t f).badDst = s.badDst := rfl
@[simp] theorem modStream_tenants (s : State) (t : Nat) (f : Stream → Stream) : (s.modStream t f).tenants = s.tenants := rfl
@[simp] theorem modStream_streams (s : State) (t : Nat) (f : Stream → Stream) : (s.modStream t f).streams = AMap.put {} s.streams t (f (s.stream t)) := rfl
@[simp] theorem modStream_boot (s : State) (t : Nat) (f : Stream → Stream) : (s.modStream t f).boot = s.boot := rfl
@[simp] theorem modStream_plat (s : State) (t : Nat) (f : Stream → Stream) : (s.modStream t f).plat = s.plat := rfl

/-! `modLine` -/

@[simp] theorem modLine_cur (s : State) (n : Nat) (f : Line → Line) : (s.modLine n f).cur = s.cur := rfl
@[simp] theorem modLine_turns (s : State) (n : Nat) (f : Line → Line) : (s.modLine n f).turns = s.turns := rfl
@[simp] theorem modLine_freeCount (s : State) (n : Nat) (f : Line → Line) : (s.modLine n f).freeCount = s.freeCount := rfl
@[simp] theorem modLine_nextId (s : State) (n : Nat) (f : Line → Line) : (s.modLine n f).nextId = s.nextId := rfl
@[simp] theorem modLine_clk (s : State) (n : Nat) (f : Line → Line) : (s.modLine n f).clk = s.clk := rfl
@[simp] theorem modLine_time9 (s : State) (n : Nat) (f : Line → Line) : (s.modLine n f).time9 = s.time9 := rfl
@[simp] theorem modLine_fuses (s : State) (n : Nat) (f : Line → Line) : (s.modLine n f).fuses = s.fuses := rfl
@[simp] theorem modLine_installed (s : State) (n : Nat) (f : Line → Line) : (s.modLine n f).installed = s.installed := rfl
@[simp] theorem modLine_mem (s : State) (n : Nat) (f : Line → Line) : (s.modLine n f).mem = s.mem := rfl
@[simp] theorem modLine_dirty (s : State) (n : Nat) (f : Line → Line) : (s.modLine n f).dirty = s.dirty := rfl
@[simp] theorem modLine_kept (s : State) (n : Nat) (f : Line → Line) : (s.modLine n f).kept = s.kept := rfl
@[simp] theorem modLine_volat (s : State) (n : Nat) (f : Line → Line) : (s.modLine n f).volat = s.volat := rfl
@[simp] theorem modLine_pois (s : State) (n : Nat) (f : Line → Line) : (s.modLine n f).pois = s.pois := rfl
@[simp] theorem modLine_spills (s : State) (n : Nat) (f : Line → Line) : (s.modLine n f).spills = s.spills := rfl
@[simp] theorem modLine_lines (s : State) (n : Nat) (f : Line → Line) : (s.modLine n f).lines = AMap.put {} s.lines n (f (s.line n)) := rfl
@[simp] theorem modLine_uses (s : State) (n : Nat) (f : Line → Line) : (s.modLine n f).uses = s.uses := rfl
@[simp] theorem modLine_dev (s : State) (n : Nat) (f : Line → Line) : (s.modLine n f).dev = s.dev := rfl
@[simp] theorem modLine_sysDone (s : State) (n : Nat) (f : Line → Line) : (s.modLine n f).sysDone = s.sysDone := rfl
@[simp] theorem modLine_l2tlb (s : State) (n : Nat) (f : Line → Line) : (s.modLine n f).l2tlb = s.l2tlb := rfl
@[simp] theorem modLine_faults (s : State) (n : Nat) (f : Line → Line) : (s.modLine n f).faults = s.faults := rfl
@[simp] theorem modLine_frespIgnored (s : State) (n : Nat) (f : Line → Line) : (s.modLine n f).frespIgnored = s.frespIgnored := rfl
@[simp] theorem modLine_pending (s : State) (n : Nat) (f : Line → Line) : (s.modLine n f).pending = s.pending := rfl
@[simp] theorem modLine_groups (s : State) (n : Nat) (f : Line → Line) : (s.modLine n f).groups = s.groups := rfl
@[simp] theorem modLine_teams (s : State) (n : Nat) (f : Line → Line) : (s.modLine n f).teams = s.teams := rfl
@[simp] theorem modLine_clusters (s : State) (n : Nat) (f : Line → Line) : (s.modLine n f).clusters = s.clusters := rfl
@[simp] theorem modLine_grids (s : State) (n : Nat) (f : Line → Line) : (s.modLine n f).grids = s.grids := rfl
@[simp] theorem modLine_cores (s : State) (n : Nat) (f : Line → Line) : (s.modLine n f).cores = s.cores := rfl
@[simp] theorem modLine_trd (s : State) (n : Nat) (f : Line → Line) : (s.modLine n f).trd = s.trd := rfl
@[simp] theorem modLine_l2c (s : State) (n : Nat) (f : Line → Line) : (s.modLine n f).l2c = s.l2c := rfl
@[simp] theorem modLine_l3c (s : State) (n : Nat) (f : Line → Line) : (s.modLine n f).l3c = s.l3c := rfl
@[simp] theorem modLine_railSet (s : State) (n : Nat) (f : Line → Line) : (s.modLine n f).railSet = s.railSet := rfl
@[simp] theorem modLine_badDst (s : State) (n : Nat) (f : Line → Line) : (s.modLine n f).badDst = s.badDst := rfl
@[simp] theorem modLine_tenants (s : State) (n : Nat) (f : Line → Line) : (s.modLine n f).tenants = s.tenants := rfl
@[simp] theorem modLine_streams (s : State) (n : Nat) (f : Line → Line) : (s.modLine n f).streams = s.streams := rfl
@[simp] theorem modLine_boot (s : State) (n : Nat) (f : Line → Line) : (s.modLine n f).boot = s.boot := rfl
@[simp] theorem modLine_plat (s : State) (n : Nat) (f : Line → Line) : (s.modLine n f).plat = s.plat := rfl

/-! `modQueue` -/

@[simp] theorem modQueue_cur (s : State) (q : Nat) (f : Queue → Queue) : (s.modQueue q f).cur = s.cur := rfl
@[simp] theorem modQueue_turns (s : State) (q : Nat) (f : Queue → Queue) : (s.modQueue q f).turns = s.turns := rfl
@[simp] theorem modQueue_freeCount (s : State) (q : Nat) (f : Queue → Queue) : (s.modQueue q f).freeCount = s.freeCount := rfl
@[simp] theorem modQueue_nextId (s : State) (q : Nat) (f : Queue → Queue) : (s.modQueue q f).nextId = s.nextId := rfl
@[simp] theorem modQueue_clk (s : State) (q : Nat) (f : Queue → Queue) : (s.modQueue q f).clk = s.clk := rfl
@[simp] theorem modQueue_time9 (s : State) (q : Nat) (f : Queue → Queue) : (s.modQueue q f).time9 = s.time9 := rfl
@[simp] theorem modQueue_fuses (s : State) (q : Nat) (f : Queue → Queue) : (s.modQueue q f).fuses = s.fuses := rfl
@[simp] theorem modQueue_installed (s : State) (q : Nat) (f : Queue → Queue) : (s.modQueue q f).installed = s.installed := rfl
@[simp] theorem modQueue_mem (s : State) (q : Nat) (f : Queue → Queue) : (s.modQueue q f).mem = s.mem := rfl
@[simp] theorem modQueue_dirty (s : State) (q : Nat) (f : Queue → Queue) : (s.modQueue q f).dirty = s.dirty := rfl
@[simp] theorem modQueue_kept (s : State) (q : Nat) (f : Queue → Queue) : (s.modQueue q f).kept = s.kept := rfl
@[simp] theorem modQueue_volat (s : State) (q : Nat) (f : Queue → Queue) : (s.modQueue q f).volat = s.volat := rfl
@[simp] theorem modQueue_pois (s : State) (q : Nat) (f : Queue → Queue) : (s.modQueue q f).pois = s.pois := rfl
@[simp] theorem modQueue_spills (s : State) (q : Nat) (f : Queue → Queue) : (s.modQueue q f).spills = s.spills := rfl
@[simp] theorem modQueue_lines (s : State) (q : Nat) (f : Queue → Queue) : (s.modQueue q f).lines = s.lines := rfl
@[simp] theorem modQueue_uses (s : State) (q : Nat) (f : Queue → Queue) : (s.modQueue q f).uses = s.uses := rfl
@[simp] theorem modQueue_dev (s : State) (q : Nat) (f : Queue → Queue) : (s.modQueue q f).dev = s.dev := rfl
@[simp] theorem modQueue_sysDone (s : State) (q : Nat) (f : Queue → Queue) : (s.modQueue q f).sysDone = s.sysDone := rfl
@[simp] theorem modQueue_l2tlb (s : State) (q : Nat) (f : Queue → Queue) : (s.modQueue q f).l2tlb = s.l2tlb := rfl
@[simp] theorem modQueue_faults (s : State) (q : Nat) (f : Queue → Queue) : (s.modQueue q f).faults = s.faults := rfl
@[simp] theorem modQueue_frespIgnored (s : State) (q : Nat) (f : Queue → Queue) : (s.modQueue q f).frespIgnored = s.frespIgnored := rfl
@[simp] theorem modQueue_pending (s : State) (q : Nat) (f : Queue → Queue) : (s.modQueue q f).pending = s.pending := rfl
@[simp] theorem modQueue_groups (s : State) (q : Nat) (f : Queue → Queue) : (s.modQueue q f).groups = s.groups := rfl
@[simp] theorem modQueue_teams (s : State) (q : Nat) (f : Queue → Queue) : (s.modQueue q f).teams = s.teams := rfl
@[simp] theorem modQueue_clusters (s : State) (q : Nat) (f : Queue → Queue) : (s.modQueue q f).clusters = s.clusters := rfl
@[simp] theorem modQueue_grids (s : State) (q : Nat) (f : Queue → Queue) : (s.modQueue q f).grids = s.grids := rfl
@[simp] theorem modQueue_cores (s : State) (q : Nat) (f : Queue → Queue) : (s.modQueue q f).cores = s.cores := rfl
@[simp] theorem modQueue_trd (s : State) (q : Nat) (f : Queue → Queue) : (s.modQueue q f).trd = { s.trd with queues := AMap.put {} s.trd.queues q (f (s.queue q)) } := rfl
@[simp] theorem modQueue_l2c (s : State) (q : Nat) (f : Queue → Queue) : (s.modQueue q f).l2c = s.l2c := rfl
@[simp] theorem modQueue_l3c (s : State) (q : Nat) (f : Queue → Queue) : (s.modQueue q f).l3c = s.l3c := rfl
@[simp] theorem modQueue_railSet (s : State) (q : Nat) (f : Queue → Queue) : (s.modQueue q f).railSet = s.railSet := rfl
@[simp] theorem modQueue_badDst (s : State) (q : Nat) (f : Queue → Queue) : (s.modQueue q f).badDst = s.badDst := rfl
@[simp] theorem modQueue_tenants (s : State) (q : Nat) (f : Queue → Queue) : (s.modQueue q f).tenants = s.tenants := rfl
@[simp] theorem modQueue_streams (s : State) (q : Nat) (f : Queue → Queue) : (s.modQueue q f).streams = s.streams := rfl
@[simp] theorem modQueue_boot (s : State) (q : Nat) (f : Queue → Queue) : (s.modQueue q f).boot = s.boot := rfl
@[simp] theorem modQueue_plat (s : State) (q : Nat) (f : Queue → Queue) : (s.modQueue q f).plat = s.plat := rfl

/-! `setTask` -/

@[simp] theorem setTask_cur (s : State) (k : Nat) (t : Task) : (s.setTask k t).cur = s.cur := rfl
@[simp] theorem setTask_turns (s : State) (k : Nat) (t : Task) : (s.setTask k t).turns = s.turns := rfl
@[simp] theorem setTask_freeCount (s : State) (k : Nat) (t : Task) : (s.setTask k t).freeCount = s.freeCount := rfl
@[simp] theorem setTask_nextId (s : State) (k : Nat) (t : Task) : (s.setTask k t).nextId = s.nextId := rfl
@[simp] theorem setTask_clk (s : State) (k : Nat) (t : Task) : (s.setTask k t).clk = s.clk := rfl
@[simp] theorem setTask_time9 (s : State) (k : Nat) (t : Task) : (s.setTask k t).time9 = s.time9 := rfl
@[simp] theorem setTask_fuses (s : State) (k : Nat) (t : Task) : (s.setTask k t).fuses = s.fuses := rfl
@[simp] theorem setTask_installed (s : State) (k : Nat) (t : Task) : (s.setTask k t).installed = s.installed := rfl
@[simp] theorem setTask_mem (s : State) (k : Nat) (t : Task) : (s.setTask k t).mem = s.mem := rfl
@[simp] theorem setTask_dirty (s : State) (k : Nat) (t : Task) : (s.setTask k t).dirty = s.dirty := rfl
@[simp] theorem setTask_kept (s : State) (k : Nat) (t : Task) : (s.setTask k t).kept = s.kept := rfl
@[simp] theorem setTask_volat (s : State) (k : Nat) (t : Task) : (s.setTask k t).volat = s.volat := rfl
@[simp] theorem setTask_pois (s : State) (k : Nat) (t : Task) : (s.setTask k t).pois = s.pois := rfl
@[simp] theorem setTask_spills (s : State) (k : Nat) (t : Task) : (s.setTask k t).spills = s.spills := rfl
@[simp] theorem setTask_lines (s : State) (k : Nat) (t : Task) : (s.setTask k t).lines = s.lines := rfl
@[simp] theorem setTask_uses (s : State) (k : Nat) (t : Task) : (s.setTask k t).uses = s.uses := rfl
@[simp] theorem setTask_dev (s : State) (k : Nat) (t : Task) : (s.setTask k t).dev = s.dev := rfl
@[simp] theorem setTask_sysDone (s : State) (k : Nat) (t : Task) : (s.setTask k t).sysDone = s.sysDone := rfl
@[simp] theorem setTask_l2tlb (s : State) (k : Nat) (t : Task) : (s.setTask k t).l2tlb = s.l2tlb := rfl
@[simp] theorem setTask_faults (s : State) (k : Nat) (t : Task) : (s.setTask k t).faults = s.faults := rfl
@[simp] theorem setTask_frespIgnored (s : State) (k : Nat) (t : Task) : (s.setTask k t).frespIgnored = s.frespIgnored := rfl
@[simp] theorem setTask_pending (s : State) (k : Nat) (t : Task) : (s.setTask k t).pending = s.pending := rfl
@[simp] theorem setTask_groups (s : State) (k : Nat) (t : Task) : (s.setTask k t).groups = s.groups := rfl
@[simp] theorem setTask_teams (s : State) (k : Nat) (t : Task) : (s.setTask k t).teams = s.teams := rfl
@[simp] theorem setTask_clusters (s : State) (k : Nat) (t : Task) : (s.setTask k t).clusters = s.clusters := rfl
@[simp] theorem setTask_grids (s : State) (k : Nat) (t : Task) : (s.setTask k t).grids = s.grids := rfl
@[simp] theorem setTask_cores (s : State) (k : Nat) (t : Task) : (s.setTask k t).cores = s.cores := rfl
@[simp] theorem setTask_trd (s : State) (k : Nat) (t : Task) : (s.setTask k t).trd = { s.trd with tasks := AMap.put {} s.trd.tasks k t } := rfl
@[simp] theorem setTask_l2c (s : State) (k : Nat) (t : Task) : (s.setTask k t).l2c = s.l2c := rfl
@[simp] theorem setTask_l3c (s : State) (k : Nat) (t : Task) : (s.setTask k t).l3c = s.l3c := rfl
@[simp] theorem setTask_railSet (s : State) (k : Nat) (t : Task) : (s.setTask k t).railSet = s.railSet := rfl
@[simp] theorem setTask_badDst (s : State) (k : Nat) (t : Task) : (s.setTask k t).badDst = s.badDst := rfl
@[simp] theorem setTask_tenants (s : State) (k : Nat) (t : Task) : (s.setTask k t).tenants = s.tenants := rfl
@[simp] theorem setTask_streams (s : State) (k : Nat) (t : Task) : (s.setTask k t).streams = s.streams := rfl
@[simp] theorem setTask_boot (s : State) (k : Nat) (t : Task) : (s.setTask k t).boot = s.boot := rfl
@[simp] theorem setTask_plat (s : State) (k : Nat) (t : Task) : (s.setTask k t).plat = s.plat := rfl

/-! `setGroup` -/

@[simp] theorem setGroup_cur (s : State) (k : Nat) (g : Group) : (s.setGroup k g).cur = s.cur := rfl
@[simp] theorem setGroup_turns (s : State) (k : Nat) (g : Group) : (s.setGroup k g).turns = s.turns := rfl
@[simp] theorem setGroup_freeCount (s : State) (k : Nat) (g : Group) : (s.setGroup k g).freeCount = s.freeCount := rfl
@[simp] theorem setGroup_nextId (s : State) (k : Nat) (g : Group) : (s.setGroup k g).nextId = s.nextId := rfl
@[simp] theorem setGroup_clk (s : State) (k : Nat) (g : Group) : (s.setGroup k g).clk = s.clk := rfl
@[simp] theorem setGroup_time9 (s : State) (k : Nat) (g : Group) : (s.setGroup k g).time9 = s.time9 := rfl
@[simp] theorem setGroup_fuses (s : State) (k : Nat) (g : Group) : (s.setGroup k g).fuses = s.fuses := rfl
@[simp] theorem setGroup_installed (s : State) (k : Nat) (g : Group) : (s.setGroup k g).installed = s.installed := rfl
@[simp] theorem setGroup_mem (s : State) (k : Nat) (g : Group) : (s.setGroup k g).mem = s.mem := rfl
@[simp] theorem setGroup_dirty (s : State) (k : Nat) (g : Group) : (s.setGroup k g).dirty = s.dirty := rfl
@[simp] theorem setGroup_kept (s : State) (k : Nat) (g : Group) : (s.setGroup k g).kept = s.kept := rfl
@[simp] theorem setGroup_volat (s : State) (k : Nat) (g : Group) : (s.setGroup k g).volat = s.volat := rfl
@[simp] theorem setGroup_pois (s : State) (k : Nat) (g : Group) : (s.setGroup k g).pois = s.pois := rfl
@[simp] theorem setGroup_spills (s : State) (k : Nat) (g : Group) : (s.setGroup k g).spills = s.spills := rfl
@[simp] theorem setGroup_lines (s : State) (k : Nat) (g : Group) : (s.setGroup k g).lines = s.lines := rfl
@[simp] theorem setGroup_uses (s : State) (k : Nat) (g : Group) : (s.setGroup k g).uses = s.uses := rfl
@[simp] theorem setGroup_dev (s : State) (k : Nat) (g : Group) : (s.setGroup k g).dev = s.dev := rfl
@[simp] theorem setGroup_sysDone (s : State) (k : Nat) (g : Group) : (s.setGroup k g).sysDone = s.sysDone := rfl
@[simp] theorem setGroup_l2tlb (s : State) (k : Nat) (g : Group) : (s.setGroup k g).l2tlb = s.l2tlb := rfl
@[simp] theorem setGroup_faults (s : State) (k : Nat) (g : Group) : (s.setGroup k g).faults = s.faults := rfl
@[simp] theorem setGroup_frespIgnored (s : State) (k : Nat) (g : Group) : (s.setGroup k g).frespIgnored = s.frespIgnored := rfl
@[simp] theorem setGroup_pending (s : State) (k : Nat) (g : Group) : (s.setGroup k g).pending = s.pending := rfl
@[simp] theorem setGroup_groups (s : State) (k : Nat) (g : Group) : (s.setGroup k g).groups = AMap.set s.groups k g := rfl
@[simp] theorem setGroup_teams (s : State) (k : Nat) (g : Group) : (s.setGroup k g).teams = s.teams := rfl
@[simp] theorem setGroup_clusters (s : State) (k : Nat) (g : Group) : (s.setGroup k g).clusters = s.clusters := rfl
@[simp] theorem setGroup_grids (s : State) (k : Nat) (g : Group) : (s.setGroup k g).grids = s.grids := rfl
@[simp] theorem setGroup_cores (s : State) (k : Nat) (g : Group) : (s.setGroup k g).cores = s.cores := rfl
@[simp] theorem setGroup_trd (s : State) (k : Nat) (g : Group) : (s.setGroup k g).trd = s.trd := rfl
@[simp] theorem setGroup_l2c (s : State) (k : Nat) (g : Group) : (s.setGroup k g).l2c = s.l2c := rfl
@[simp] theorem setGroup_l3c (s : State) (k : Nat) (g : Group) : (s.setGroup k g).l3c = s.l3c := rfl
@[simp] theorem setGroup_railSet (s : State) (k : Nat) (g : Group) : (s.setGroup k g).railSet = s.railSet := rfl
@[simp] theorem setGroup_badDst (s : State) (k : Nat) (g : Group) : (s.setGroup k g).badDst = s.badDst := rfl
@[simp] theorem setGroup_tenants (s : State) (k : Nat) (g : Group) : (s.setGroup k g).tenants = s.tenants := rfl
@[simp] theorem setGroup_streams (s : State) (k : Nat) (g : Group) : (s.setGroup k g).streams = s.streams := rfl
@[simp] theorem setGroup_boot (s : State) (k : Nat) (g : Group) : (s.setGroup k g).boot = s.boot := rfl
@[simp] theorem setGroup_plat (s : State) (k : Nat) (g : Group) : (s.setGroup k g).plat = s.plat := rfl

/-! `modGroup` -/

@[simp] theorem modGroup_cur (s : State) (k : Nat) (f : Group → Group) : (s.modGroup k f).cur = s.cur := by
  unfold State.modGroup; split <;> rfl
@[simp] theorem modGroup_turns (s : State) (k : Nat) (f : Group → Group) : (s.modGroup k f).turns = s.turns := by
  unfold State.modGroup; split <;> rfl
@[simp] theorem modGroup_freeCount (s : State) (k : Nat) (f : Group → Group) : (s.modGroup k f).freeCount = s.freeCount := by
  unfold State.modGroup; split <;> rfl
@[simp] theorem modGroup_nextId (s : State) (k : Nat) (f : Group → Group) : (s.modGroup k f).nextId = s.nextId := by
  unfold State.modGroup; split <;> rfl
@[simp] theorem modGroup_clk (s : State) (k : Nat) (f : Group → Group) : (s.modGroup k f).clk = s.clk := by
  unfold State.modGroup; split <;> rfl
@[simp] theorem modGroup_time9 (s : State) (k : Nat) (f : Group → Group) : (s.modGroup k f).time9 = s.time9 := by
  unfold State.modGroup; split <;> rfl
@[simp] theorem modGroup_fuses (s : State) (k : Nat) (f : Group → Group) : (s.modGroup k f).fuses = s.fuses := by
  unfold State.modGroup; split <;> rfl
@[simp] theorem modGroup_installed (s : State) (k : Nat) (f : Group → Group) : (s.modGroup k f).installed = s.installed := by
  unfold State.modGroup; split <;> rfl
@[simp] theorem modGroup_mem (s : State) (k : Nat) (f : Group → Group) : (s.modGroup k f).mem = s.mem := by
  unfold State.modGroup; split <;> rfl
@[simp] theorem modGroup_dirty (s : State) (k : Nat) (f : Group → Group) : (s.modGroup k f).dirty = s.dirty := by
  unfold State.modGroup; split <;> rfl
@[simp] theorem modGroup_kept (s : State) (k : Nat) (f : Group → Group) : (s.modGroup k f).kept = s.kept := by
  unfold State.modGroup; split <;> rfl
@[simp] theorem modGroup_volat (s : State) (k : Nat) (f : Group → Group) : (s.modGroup k f).volat = s.volat := by
  unfold State.modGroup; split <;> rfl
@[simp] theorem modGroup_pois (s : State) (k : Nat) (f : Group → Group) : (s.modGroup k f).pois = s.pois := by
  unfold State.modGroup; split <;> rfl
@[simp] theorem modGroup_spills (s : State) (k : Nat) (f : Group → Group) : (s.modGroup k f).spills = s.spills := by
  unfold State.modGroup; split <;> rfl
@[simp] theorem modGroup_lines (s : State) (k : Nat) (f : Group → Group) : (s.modGroup k f).lines = s.lines := by
  unfold State.modGroup; split <;> rfl
@[simp] theorem modGroup_uses (s : State) (k : Nat) (f : Group → Group) : (s.modGroup k f).uses = s.uses := by
  unfold State.modGroup; split <;> rfl
@[simp] theorem modGroup_dev (s : State) (k : Nat) (f : Group → Group) : (s.modGroup k f).dev = s.dev := by
  unfold State.modGroup; split <;> rfl
@[simp] theorem modGroup_sysDone (s : State) (k : Nat) (f : Group → Group) : (s.modGroup k f).sysDone = s.sysDone := by
  unfold State.modGroup; split <;> rfl
@[simp] theorem modGroup_l2tlb (s : State) (k : Nat) (f : Group → Group) : (s.modGroup k f).l2tlb = s.l2tlb := by
  unfold State.modGroup; split <;> rfl
@[simp] theorem modGroup_faults (s : State) (k : Nat) (f : Group → Group) : (s.modGroup k f).faults = s.faults := by
  unfold State.modGroup; split <;> rfl
@[simp] theorem modGroup_frespIgnored (s : State) (k : Nat) (f : Group → Group) : (s.modGroup k f).frespIgnored = s.frespIgnored := by
  unfold State.modGroup; split <;> rfl
@[simp] theorem modGroup_pending (s : State) (k : Nat) (f : Group → Group) : (s.modGroup k f).pending = s.pending := by
  unfold State.modGroup; split <;> rfl
@[simp] theorem modGroup_teams (s : State) (k : Nat) (f : Group → Group) : (s.modGroup k f).teams = s.teams := by
  unfold State.modGroup; split <;> rfl
@[simp] theorem modGroup_clusters (s : State) (k : Nat) (f : Group → Group) : (s.modGroup k f).clusters = s.clusters := by
  unfold State.modGroup; split <;> rfl
@[simp] theorem modGroup_grids (s : State) (k : Nat) (f : Group → Group) : (s.modGroup k f).grids = s.grids := by
  unfold State.modGroup; split <;> rfl
@[simp] theorem modGroup_cores (s : State) (k : Nat) (f : Group → Group) : (s.modGroup k f).cores = s.cores := by
  unfold State.modGroup; split <;> rfl
@[simp] theorem modGroup_trd (s : State) (k : Nat) (f : Group → Group) : (s.modGroup k f).trd = s.trd := by
  unfold State.modGroup; split <;> rfl
@[simp] theorem modGroup_l2c (s : State) (k : Nat) (f : Group → Group) : (s.modGroup k f).l2c = s.l2c := by
  unfold State.modGroup; split <;> rfl
@[simp] theorem modGroup_l3c (s : State) (k : Nat) (f : Group → Group) : (s.modGroup k f).l3c = s.l3c := by
  unfold State.modGroup; split <;> rfl
@[simp] theorem modGroup_railSet (s : State) (k : Nat) (f : Group → Group) : (s.modGroup k f).railSet = s.railSet := by
  unfold State.modGroup; split <;> rfl
@[simp] theorem modGroup_badDst (s : State) (k : Nat) (f : Group → Group) : (s.modGroup k f).badDst = s.badDst := by
  unfold State.modGroup; split <;> rfl
@[simp] theorem modGroup_tenants (s : State) (k : Nat) (f : Group → Group) : (s.modGroup k f).tenants = s.tenants := by
  unfold State.modGroup; split <;> rfl
@[simp] theorem modGroup_streams (s : State) (k : Nat) (f : Group → Group) : (s.modGroup k f).streams = s.streams := by
  unfold State.modGroup; split <;> rfl
@[simp] theorem modGroup_boot (s : State) (k : Nat) (f : Group → Group) : (s.modGroup k f).boot = s.boot := by
  unfold State.modGroup; split <;> rfl
@[simp] theorem modGroup_plat (s : State) (k : Nat) (f : Group → Group) : (s.modGroup k f).plat = s.plat := by
  unfold State.modGroup; split <;> rfl

/-! `setTeam` -/

@[simp] theorem setTeam_cur (s : State) (k : Nat) (t : Team) : (s.setTeam k t).cur = s.cur := rfl
@[simp] theorem setTeam_turns (s : State) (k : Nat) (t : Team) : (s.setTeam k t).turns = s.turns := rfl
@[simp] theorem setTeam_freeCount (s : State) (k : Nat) (t : Team) : (s.setTeam k t).freeCount = s.freeCount := rfl
@[simp] theorem setTeam_nextId (s : State) (k : Nat) (t : Team) : (s.setTeam k t).nextId = s.nextId := rfl
@[simp] theorem setTeam_clk (s : State) (k : Nat) (t : Team) : (s.setTeam k t).clk = s.clk := rfl
@[simp] theorem setTeam_time9 (s : State) (k : Nat) (t : Team) : (s.setTeam k t).time9 = s.time9 := rfl
@[simp] theorem setTeam_fuses (s : State) (k : Nat) (t : Team) : (s.setTeam k t).fuses = s.fuses := rfl
@[simp] theorem setTeam_installed (s : State) (k : Nat) (t : Team) : (s.setTeam k t).installed = s.installed := rfl
@[simp] theorem setTeam_mem (s : State) (k : Nat) (t : Team) : (s.setTeam k t).mem = s.mem := rfl
@[simp] theorem setTeam_dirty (s : State) (k : Nat) (t : Team) : (s.setTeam k t).dirty = s.dirty := rfl
@[simp] theorem setTeam_kept (s : State) (k : Nat) (t : Team) : (s.setTeam k t).kept = s.kept := rfl
@[simp] theorem setTeam_volat (s : State) (k : Nat) (t : Team) : (s.setTeam k t).volat = s.volat := rfl
@[simp] theorem setTeam_pois (s : State) (k : Nat) (t : Team) : (s.setTeam k t).pois = s.pois := rfl
@[simp] theorem setTeam_spills (s : State) (k : Nat) (t : Team) : (s.setTeam k t).spills = s.spills := rfl
@[simp] theorem setTeam_lines (s : State) (k : Nat) (t : Team) : (s.setTeam k t).lines = s.lines := rfl
@[simp] theorem setTeam_uses (s : State) (k : Nat) (t : Team) : (s.setTeam k t).uses = s.uses := rfl
@[simp] theorem setTeam_dev (s : State) (k : Nat) (t : Team) : (s.setTeam k t).dev = s.dev := rfl
@[simp] theorem setTeam_sysDone (s : State) (k : Nat) (t : Team) : (s.setTeam k t).sysDone = s.sysDone := rfl
@[simp] theorem setTeam_l2tlb (s : State) (k : Nat) (t : Team) : (s.setTeam k t).l2tlb = s.l2tlb := rfl
@[simp] theorem setTeam_faults (s : State) (k : Nat) (t : Team) : (s.setTeam k t).faults = s.faults := rfl
@[simp] theorem setTeam_frespIgnored (s : State) (k : Nat) (t : Team) : (s.setTeam k t).frespIgnored = s.frespIgnored := rfl
@[simp] theorem setTeam_pending (s : State) (k : Nat) (t : Team) : (s.setTeam k t).pending = s.pending := rfl
@[simp] theorem setTeam_groups (s : State) (k : Nat) (t : Team) : (s.setTeam k t).groups = s.groups := rfl
@[simp] theorem setTeam_teams (s : State) (k : Nat) (t : Team) : (s.setTeam k t).teams = AMap.set s.teams k t := rfl
@[simp] theorem setTeam_clusters (s : State) (k : Nat) (t : Team) : (s.setTeam k t).clusters = s.clusters := rfl
@[simp] theorem setTeam_grids (s : State) (k : Nat) (t : Team) : (s.setTeam k t).grids = s.grids := rfl
@[simp] theorem setTeam_cores (s : State) (k : Nat) (t : Team) : (s.setTeam k t).cores = s.cores := rfl
@[simp] theorem setTeam_trd (s : State) (k : Nat) (t : Team) : (s.setTeam k t).trd = s.trd := rfl
@[simp] theorem setTeam_l2c (s : State) (k : Nat) (t : Team) : (s.setTeam k t).l2c = s.l2c := rfl
@[simp] theorem setTeam_l3c (s : State) (k : Nat) (t : Team) : (s.setTeam k t).l3c = s.l3c := rfl
@[simp] theorem setTeam_railSet (s : State) (k : Nat) (t : Team) : (s.setTeam k t).railSet = s.railSet := rfl
@[simp] theorem setTeam_badDst (s : State) (k : Nat) (t : Team) : (s.setTeam k t).badDst = s.badDst := rfl
@[simp] theorem setTeam_tenants (s : State) (k : Nat) (t : Team) : (s.setTeam k t).tenants = s.tenants := rfl
@[simp] theorem setTeam_streams (s : State) (k : Nat) (t : Team) : (s.setTeam k t).streams = s.streams := rfl
@[simp] theorem setTeam_boot (s : State) (k : Nat) (t : Team) : (s.setTeam k t).boot = s.boot := rfl
@[simp] theorem setTeam_plat (s : State) (k : Nat) (t : Team) : (s.setTeam k t).plat = s.plat := rfl

/-! `modTeam` -/

@[simp] theorem modTeam_cur (s : State) (k : Nat) (f : Team → Team) : (s.modTeam k f).cur = s.cur := by
  unfold State.modTeam; split <;> rfl
@[simp] theorem modTeam_turns (s : State) (k : Nat) (f : Team → Team) : (s.modTeam k f).turns = s.turns := by
  unfold State.modTeam; split <;> rfl
@[simp] theorem modTeam_freeCount (s : State) (k : Nat) (f : Team → Team) : (s.modTeam k f).freeCount = s.freeCount := by
  unfold State.modTeam; split <;> rfl
@[simp] theorem modTeam_nextId (s : State) (k : Nat) (f : Team → Team) : (s.modTeam k f).nextId = s.nextId := by
  unfold State.modTeam; split <;> rfl
@[simp] theorem modTeam_clk (s : State) (k : Nat) (f : Team → Team) : (s.modTeam k f).clk = s.clk := by
  unfold State.modTeam; split <;> rfl
@[simp] theorem modTeam_time9 (s : State) (k : Nat) (f : Team → Team) : (s.modTeam k f).time9 = s.time9 := by
  unfold State.modTeam; split <;> rfl
@[simp] theorem modTeam_fuses (s : State) (k : Nat) (f : Team → Team) : (s.modTeam k f).fuses = s.fuses := by
  unfold State.modTeam; split <;> rfl
@[simp] theorem modTeam_installed (s : State) (k : Nat) (f : Team → Team) : (s.modTeam k f).installed = s.installed := by
  unfold State.modTeam; split <;> rfl
@[simp] theorem modTeam_mem (s : State) (k : Nat) (f : Team → Team) : (s.modTeam k f).mem = s.mem := by
  unfold State.modTeam; split <;> rfl
@[simp] theorem modTeam_dirty (s : State) (k : Nat) (f : Team → Team) : (s.modTeam k f).dirty = s.dirty := by
  unfold State.modTeam; split <;> rfl
@[simp] theorem modTeam_kept (s : State) (k : Nat) (f : Team → Team) : (s.modTeam k f).kept = s.kept := by
  unfold State.modTeam; split <;> rfl
@[simp] theorem modTeam_volat (s : State) (k : Nat) (f : Team → Team) : (s.modTeam k f).volat = s.volat := by
  unfold State.modTeam; split <;> rfl
@[simp] theorem modTeam_pois (s : State) (k : Nat) (f : Team → Team) : (s.modTeam k f).pois = s.pois := by
  unfold State.modTeam; split <;> rfl
@[simp] theorem modTeam_spills (s : State) (k : Nat) (f : Team → Team) : (s.modTeam k f).spills = s.spills := by
  unfold State.modTeam; split <;> rfl
@[simp] theorem modTeam_lines (s : State) (k : Nat) (f : Team → Team) : (s.modTeam k f).lines = s.lines := by
  unfold State.modTeam; split <;> rfl
@[simp] theorem modTeam_uses (s : State) (k : Nat) (f : Team → Team) : (s.modTeam k f).uses = s.uses := by
  unfold State.modTeam; split <;> rfl
@[simp] theorem modTeam_dev (s : State) (k : Nat) (f : Team → Team) : (s.modTeam k f).dev = s.dev := by
  unfold State.modTeam; split <;> rfl
@[simp] theorem modTeam_sysDone (s : State) (k : Nat) (f : Team → Team) : (s.modTeam k f).sysDone = s.sysDone := by
  unfold State.modTeam; split <;> rfl
@[simp] theorem modTeam_l2tlb (s : State) (k : Nat) (f : Team → Team) : (s.modTeam k f).l2tlb = s.l2tlb := by
  unfold State.modTeam; split <;> rfl
@[simp] theorem modTeam_faults (s : State) (k : Nat) (f : Team → Team) : (s.modTeam k f).faults = s.faults := by
  unfold State.modTeam; split <;> rfl
@[simp] theorem modTeam_frespIgnored (s : State) (k : Nat) (f : Team → Team) : (s.modTeam k f).frespIgnored = s.frespIgnored := by
  unfold State.modTeam; split <;> rfl
@[simp] theorem modTeam_pending (s : State) (k : Nat) (f : Team → Team) : (s.modTeam k f).pending = s.pending := by
  unfold State.modTeam; split <;> rfl
@[simp] theorem modTeam_groups (s : State) (k : Nat) (f : Team → Team) : (s.modTeam k f).groups = s.groups := by
  unfold State.modTeam; split <;> rfl
@[simp] theorem modTeam_clusters (s : State) (k : Nat) (f : Team → Team) : (s.modTeam k f).clusters = s.clusters := by
  unfold State.modTeam; split <;> rfl
@[simp] theorem modTeam_grids (s : State) (k : Nat) (f : Team → Team) : (s.modTeam k f).grids = s.grids := by
  unfold State.modTeam; split <;> rfl
@[simp] theorem modTeam_cores (s : State) (k : Nat) (f : Team → Team) : (s.modTeam k f).cores = s.cores := by
  unfold State.modTeam; split <;> rfl
@[simp] theorem modTeam_trd (s : State) (k : Nat) (f : Team → Team) : (s.modTeam k f).trd = s.trd := by
  unfold State.modTeam; split <;> rfl
@[simp] theorem modTeam_l2c (s : State) (k : Nat) (f : Team → Team) : (s.modTeam k f).l2c = s.l2c := by
  unfold State.modTeam; split <;> rfl
@[simp] theorem modTeam_l3c (s : State) (k : Nat) (f : Team → Team) : (s.modTeam k f).l3c = s.l3c := by
  unfold State.modTeam; split <;> rfl
@[simp] theorem modTeam_railSet (s : State) (k : Nat) (f : Team → Team) : (s.modTeam k f).railSet = s.railSet := by
  unfold State.modTeam; split <;> rfl
@[simp] theorem modTeam_badDst (s : State) (k : Nat) (f : Team → Team) : (s.modTeam k f).badDst = s.badDst := by
  unfold State.modTeam; split <;> rfl
@[simp] theorem modTeam_tenants (s : State) (k : Nat) (f : Team → Team) : (s.modTeam k f).tenants = s.tenants := by
  unfold State.modTeam; split <;> rfl
@[simp] theorem modTeam_streams (s : State) (k : Nat) (f : Team → Team) : (s.modTeam k f).streams = s.streams := by
  unfold State.modTeam; split <;> rfl
@[simp] theorem modTeam_boot (s : State) (k : Nat) (f : Team → Team) : (s.modTeam k f).boot = s.boot := by
  unfold State.modTeam; split <;> rfl
@[simp] theorem modTeam_plat (s : State) (k : Nat) (f : Team → Team) : (s.modTeam k f).plat = s.plat := by
  unfold State.modTeam; split <;> rfl

/-! `modCluster` -/

@[simp] theorem modCluster_cur (s : State) (k : Nat) (f : Cluster → Cluster) : (s.modCluster k f).cur = s.cur := by
  unfold State.modCluster; split <;> rfl
@[simp] theorem modCluster_turns (s : State) (k : Nat) (f : Cluster → Cluster) : (s.modCluster k f).turns = s.turns := by
  unfold State.modCluster; split <;> rfl
@[simp] theorem modCluster_freeCount (s : State) (k : Nat) (f : Cluster → Cluster) : (s.modCluster k f).freeCount = s.freeCount := by
  unfold State.modCluster; split <;> rfl
@[simp] theorem modCluster_nextId (s : State) (k : Nat) (f : Cluster → Cluster) : (s.modCluster k f).nextId = s.nextId := by
  unfold State.modCluster; split <;> rfl
@[simp] theorem modCluster_clk (s : State) (k : Nat) (f : Cluster → Cluster) : (s.modCluster k f).clk = s.clk := by
  unfold State.modCluster; split <;> rfl
@[simp] theorem modCluster_time9 (s : State) (k : Nat) (f : Cluster → Cluster) : (s.modCluster k f).time9 = s.time9 := by
  unfold State.modCluster; split <;> rfl
@[simp] theorem modCluster_fuses (s : State) (k : Nat) (f : Cluster → Cluster) : (s.modCluster k f).fuses = s.fuses := by
  unfold State.modCluster; split <;> rfl
@[simp] theorem modCluster_installed (s : State) (k : Nat) (f : Cluster → Cluster) : (s.modCluster k f).installed = s.installed := by
  unfold State.modCluster; split <;> rfl
@[simp] theorem modCluster_mem (s : State) (k : Nat) (f : Cluster → Cluster) : (s.modCluster k f).mem = s.mem := by
  unfold State.modCluster; split <;> rfl
@[simp] theorem modCluster_dirty (s : State) (k : Nat) (f : Cluster → Cluster) : (s.modCluster k f).dirty = s.dirty := by
  unfold State.modCluster; split <;> rfl
@[simp] theorem modCluster_kept (s : State) (k : Nat) (f : Cluster → Cluster) : (s.modCluster k f).kept = s.kept := by
  unfold State.modCluster; split <;> rfl
@[simp] theorem modCluster_volat (s : State) (k : Nat) (f : Cluster → Cluster) : (s.modCluster k f).volat = s.volat := by
  unfold State.modCluster; split <;> rfl
@[simp] theorem modCluster_pois (s : State) (k : Nat) (f : Cluster → Cluster) : (s.modCluster k f).pois = s.pois := by
  unfold State.modCluster; split <;> rfl
@[simp] theorem modCluster_spills (s : State) (k : Nat) (f : Cluster → Cluster) : (s.modCluster k f).spills = s.spills := by
  unfold State.modCluster; split <;> rfl
@[simp] theorem modCluster_lines (s : State) (k : Nat) (f : Cluster → Cluster) : (s.modCluster k f).lines = s.lines := by
  unfold State.modCluster; split <;> rfl
@[simp] theorem modCluster_uses (s : State) (k : Nat) (f : Cluster → Cluster) : (s.modCluster k f).uses = s.uses := by
  unfold State.modCluster; split <;> rfl
@[simp] theorem modCluster_dev (s : State) (k : Nat) (f : Cluster → Cluster) : (s.modCluster k f).dev = s.dev := by
  unfold State.modCluster; split <;> rfl
@[simp] theorem modCluster_sysDone (s : State) (k : Nat) (f : Cluster → Cluster) : (s.modCluster k f).sysDone = s.sysDone := by
  unfold State.modCluster; split <;> rfl
@[simp] theorem modCluster_l2tlb (s : State) (k : Nat) (f : Cluster → Cluster) : (s.modCluster k f).l2tlb = s.l2tlb := by
  unfold State.modCluster; split <;> rfl
@[simp] theorem modCluster_faults (s : State) (k : Nat) (f : Cluster → Cluster) : (s.modCluster k f).faults = s.faults := by
  unfold State.modCluster; split <;> rfl
@[simp] theorem modCluster_frespIgnored (s : State) (k : Nat) (f : Cluster → Cluster) : (s.modCluster k f).frespIgnored = s.frespIgnored := by
  unfold State.modCluster; split <;> rfl
@[simp] theorem modCluster_pending (s : State) (k : Nat) (f : Cluster → Cluster) : (s.modCluster k f).pending = s.pending := by
  unfold State.modCluster; split <;> rfl
@[simp] theorem modCluster_groups (s : State) (k : Nat) (f : Cluster → Cluster) : (s.modCluster k f).groups = s.groups := by
  unfold State.modCluster; split <;> rfl
@[simp] theorem modCluster_teams (s : State) (k : Nat) (f : Cluster → Cluster) : (s.modCluster k f).teams = s.teams := by
  unfold State.modCluster; split <;> rfl
@[simp] theorem modCluster_grids (s : State) (k : Nat) (f : Cluster → Cluster) : (s.modCluster k f).grids = s.grids := by
  unfold State.modCluster; split <;> rfl
@[simp] theorem modCluster_cores (s : State) (k : Nat) (f : Cluster → Cluster) : (s.modCluster k f).cores = s.cores := by
  unfold State.modCluster; split <;> rfl
@[simp] theorem modCluster_trd (s : State) (k : Nat) (f : Cluster → Cluster) : (s.modCluster k f).trd = s.trd := by
  unfold State.modCluster; split <;> rfl
@[simp] theorem modCluster_l2c (s : State) (k : Nat) (f : Cluster → Cluster) : (s.modCluster k f).l2c = s.l2c := by
  unfold State.modCluster; split <;> rfl
@[simp] theorem modCluster_l3c (s : State) (k : Nat) (f : Cluster → Cluster) : (s.modCluster k f).l3c = s.l3c := by
  unfold State.modCluster; split <;> rfl
@[simp] theorem modCluster_railSet (s : State) (k : Nat) (f : Cluster → Cluster) : (s.modCluster k f).railSet = s.railSet := by
  unfold State.modCluster; split <;> rfl
@[simp] theorem modCluster_badDst (s : State) (k : Nat) (f : Cluster → Cluster) : (s.modCluster k f).badDst = s.badDst := by
  unfold State.modCluster; split <;> rfl
@[simp] theorem modCluster_tenants (s : State) (k : Nat) (f : Cluster → Cluster) : (s.modCluster k f).tenants = s.tenants := by
  unfold State.modCluster; split <;> rfl
@[simp] theorem modCluster_streams (s : State) (k : Nat) (f : Cluster → Cluster) : (s.modCluster k f).streams = s.streams := by
  unfold State.modCluster; split <;> rfl
@[simp] theorem modCluster_boot (s : State) (k : Nat) (f : Cluster → Cluster) : (s.modCluster k f).boot = s.boot := by
  unfold State.modCluster; split <;> rfl
@[simp] theorem modCluster_plat (s : State) (k : Nat) (f : Cluster → Cluster) : (s.modCluster k f).plat = s.plat := by
  unfold State.modCluster; split <;> rfl

/-! `modGrid` -/

@[simp] theorem modGrid_cur (s : State) (k : Nat) (f : Grid → Grid) : (s.modGrid k f).cur = s.cur := by
  unfold State.modGrid; split <;> rfl
@[simp] theorem modGrid_turns (s : State) (k : Nat) (f : Grid → Grid) : (s.modGrid k f).turns = s.turns := by
  unfold State.modGrid; split <;> rfl
@[simp] theorem modGrid_freeCount (s : State) (k : Nat) (f : Grid → Grid) : (s.modGrid k f).freeCount = s.freeCount := by
  unfold State.modGrid; split <;> rfl
@[simp] theorem modGrid_nextId (s : State) (k : Nat) (f : Grid → Grid) : (s.modGrid k f).nextId = s.nextId := by
  unfold State.modGrid; split <;> rfl
@[simp] theorem modGrid_clk (s : State) (k : Nat) (f : Grid → Grid) : (s.modGrid k f).clk = s.clk := by
  unfold State.modGrid; split <;> rfl
@[simp] theorem modGrid_time9 (s : State) (k : Nat) (f : Grid → Grid) : (s.modGrid k f).time9 = s.time9 := by
  unfold State.modGrid; split <;> rfl
@[simp] theorem modGrid_fuses (s : State) (k : Nat) (f : Grid → Grid) : (s.modGrid k f).fuses = s.fuses := by
  unfold State.modGrid; split <;> rfl
@[simp] theorem modGrid_installed (s : State) (k : Nat) (f : Grid → Grid) : (s.modGrid k f).installed = s.installed := by
  unfold State.modGrid; split <;> rfl
@[simp] theorem modGrid_mem (s : State) (k : Nat) (f : Grid → Grid) : (s.modGrid k f).mem = s.mem := by
  unfold State.modGrid; split <;> rfl
@[simp] theorem modGrid_dirty (s : State) (k : Nat) (f : Grid → Grid) : (s.modGrid k f).dirty = s.dirty := by
  unfold State.modGrid; split <;> rfl
@[simp] theorem modGrid_kept (s : State) (k : Nat) (f : Grid → Grid) : (s.modGrid k f).kept = s.kept := by
  unfold State.modGrid; split <;> rfl
@[simp] theorem modGrid_volat (s : State) (k : Nat) (f : Grid → Grid) : (s.modGrid k f).volat = s.volat := by
  unfold State.modGrid; split <;> rfl
@[simp] theorem modGrid_pois (s : State) (k : Nat) (f : Grid → Grid) : (s.modGrid k f).pois = s.pois := by
  unfold State.modGrid; split <;> rfl
@[simp] theorem modGrid_spills (s : State) (k : Nat) (f : Grid → Grid) : (s.modGrid k f).spills = s.spills := by
  unfold State.modGrid; split <;> rfl
@[simp] theorem modGrid_lines (s : State) (k : Nat) (f : Grid → Grid) : (s.modGrid k f).lines = s.lines := by
  unfold State.modGrid; split <;> rfl
@[simp] theorem modGrid_uses (s : State) (k : Nat) (f : Grid → Grid) : (s.modGrid k f).uses = s.uses := by
  unfold State.modGrid; split <;> rfl
@[simp] theorem modGrid_dev (s : State) (k : Nat) (f : Grid → Grid) : (s.modGrid k f).dev = s.dev := by
  unfold State.modGrid; split <;> rfl
@[simp] theorem modGrid_sysDone (s : State) (k : Nat) (f : Grid → Grid) : (s.modGrid k f).sysDone = s.sysDone := by
  unfold State.modGrid; split <;> rfl
@[simp] theorem modGrid_l2tlb (s : State) (k : Nat) (f : Grid → Grid) : (s.modGrid k f).l2tlb = s.l2tlb := by
  unfold State.modGrid; split <;> rfl
@[simp] theorem modGrid_faults (s : State) (k : Nat) (f : Grid → Grid) : (s.modGrid k f).faults = s.faults := by
  unfold State.modGrid; split <;> rfl
@[simp] theorem modGrid_frespIgnored (s : State) (k : Nat) (f : Grid → Grid) : (s.modGrid k f).frespIgnored = s.frespIgnored := by
  unfold State.modGrid; split <;> rfl
@[simp] theorem modGrid_pending (s : State) (k : Nat) (f : Grid → Grid) : (s.modGrid k f).pending = s.pending := by
  unfold State.modGrid; split <;> rfl
@[simp] theorem modGrid_groups (s : State) (k : Nat) (f : Grid → Grid) : (s.modGrid k f).groups = s.groups := by
  unfold State.modGrid; split <;> rfl
@[simp] theorem modGrid_teams (s : State) (k : Nat) (f : Grid → Grid) : (s.modGrid k f).teams = s.teams := by
  unfold State.modGrid; split <;> rfl
@[simp] theorem modGrid_clusters (s : State) (k : Nat) (f : Grid → Grid) : (s.modGrid k f).clusters = s.clusters := by
  unfold State.modGrid; split <;> rfl
@[simp] theorem modGrid_cores (s : State) (k : Nat) (f : Grid → Grid) : (s.modGrid k f).cores = s.cores := by
  unfold State.modGrid; split <;> rfl
@[simp] theorem modGrid_trd (s : State) (k : Nat) (f : Grid → Grid) : (s.modGrid k f).trd = s.trd := by
  unfold State.modGrid; split <;> rfl
@[simp] theorem modGrid_l2c (s : State) (k : Nat) (f : Grid → Grid) : (s.modGrid k f).l2c = s.l2c := by
  unfold State.modGrid; split <;> rfl
@[simp] theorem modGrid_l3c (s : State) (k : Nat) (f : Grid → Grid) : (s.modGrid k f).l3c = s.l3c := by
  unfold State.modGrid; split <;> rfl
@[simp] theorem modGrid_railSet (s : State) (k : Nat) (f : Grid → Grid) : (s.modGrid k f).railSet = s.railSet := by
  unfold State.modGrid; split <;> rfl
@[simp] theorem modGrid_badDst (s : State) (k : Nat) (f : Grid → Grid) : (s.modGrid k f).badDst = s.badDst := by
  unfold State.modGrid; split <;> rfl
@[simp] theorem modGrid_tenants (s : State) (k : Nat) (f : Grid → Grid) : (s.modGrid k f).tenants = s.tenants := by
  unfold State.modGrid; split <;> rfl
@[simp] theorem modGrid_streams (s : State) (k : Nat) (f : Grid → Grid) : (s.modGrid k f).streams = s.streams := by
  unfold State.modGrid; split <;> rfl
@[simp] theorem modGrid_boot (s : State) (k : Nat) (f : Grid → Grid) : (s.modGrid k f).boot = s.boot := by
  unfold State.modGrid; split <;> rfl
@[simp] theorem modGrid_plat (s : State) (k : Nat) (f : Grid → Grid) : (s.modGrid k f).plat = s.plat := by
  unfold State.modGrid; split <;> rfl

/-! `dropPend` -/

@[simp] theorem dropPend_cur (s : State) (id : Nat) : (s.dropPend id).cur = s.cur := rfl
@[simp] theorem dropPend_turns (s : State) (id : Nat) : (s.dropPend id).turns = s.turns := rfl
@[simp] theorem dropPend_freeCount (s : State) (id : Nat) : (s.dropPend id).freeCount = s.freeCount := rfl
@[simp] theorem dropPend_nextId (s : State) (id : Nat) : (s.dropPend id).nextId = s.nextId := rfl
@[simp] theorem dropPend_clk (s : State) (id : Nat) : (s.dropPend id).clk = s.clk := rfl
@[simp] theorem dropPend_time9 (s : State) (id : Nat) : (s.dropPend id).time9 = s.time9 := rfl
@[simp] theorem dropPend_fuses (s : State) (id : Nat) : (s.dropPend id).fuses = s.fuses := rfl
@[simp] theorem dropPend_installed (s : State) (id : Nat) : (s.dropPend id).installed = s.installed := rfl
@[simp] theorem dropPend_mem (s : State) (id : Nat) : (s.dropPend id).mem = s.mem := rfl
@[simp] theorem dropPend_dirty (s : State) (id : Nat) : (s.dropPend id).dirty = s.dirty := rfl
@[simp] theorem dropPend_kept (s : State) (id : Nat) : (s.dropPend id).kept = s.kept := rfl
@[simp] theorem dropPend_volat (s : State) (id : Nat) : (s.dropPend id).volat = s.volat := rfl
@[simp] theorem dropPend_pois (s : State) (id : Nat) : (s.dropPend id).pois = s.pois := rfl
@[simp] theorem dropPend_spills (s : State) (id : Nat) : (s.dropPend id).spills = s.spills := rfl
@[simp] theorem dropPend_lines (s : State) (id : Nat) : (s.dropPend id).lines = s.lines := rfl
@[simp] theorem dropPend_uses (s : State) (id : Nat) : (s.dropPend id).uses = s.uses := rfl
@[simp] theorem dropPend_dev (s : State) (id : Nat) : (s.dropPend id).dev = s.dev := rfl
@[simp] theorem dropPend_sysDone (s : State) (id : Nat) : (s.dropPend id).sysDone = s.sysDone := rfl
@[simp] theorem dropPend_l2tlb (s : State) (id : Nat) : (s.dropPend id).l2tlb = s.l2tlb := rfl
@[simp] theorem dropPend_faults (s : State) (id : Nat) : (s.dropPend id).faults = s.faults := rfl
@[simp] theorem dropPend_frespIgnored (s : State) (id : Nat) : (s.dropPend id).frespIgnored = s.frespIgnored := rfl
@[simp] theorem dropPend_pending (s : State) (id : Nat) : (s.dropPend id).pending = s.pending.filter (·.id != id) := rfl
@[simp] theorem dropPend_groups (s : State) (id : Nat) : (s.dropPend id).groups = s.groups := rfl
@[simp] theorem dropPend_teams (s : State) (id : Nat) : (s.dropPend id).teams = s.teams := rfl
@[simp] theorem dropPend_clusters (s : State) (id : Nat) : (s.dropPend id).clusters = s.clusters := rfl
@[simp] theorem dropPend_grids (s : State) (id : Nat) : (s.dropPend id).grids = s.grids := rfl
@[simp] theorem dropPend_cores (s : State) (id : Nat) : (s.dropPend id).cores = s.cores := rfl
@[simp] theorem dropPend_trd (s : State) (id : Nat) : (s.dropPend id).trd = s.trd := rfl
@[simp] theorem dropPend_l2c (s : State) (id : Nat) : (s.dropPend id).l2c = s.l2c := rfl
@[simp] theorem dropPend_l3c (s : State) (id : Nat) : (s.dropPend id).l3c = s.l3c := rfl
@[simp] theorem dropPend_railSet (s : State) (id : Nat) : (s.dropPend id).railSet = s.railSet := rfl
@[simp] theorem dropPend_badDst (s : State) (id : Nat) : (s.dropPend id).badDst = s.badDst := rfl
@[simp] theorem dropPend_tenants (s : State) (id : Nat) : (s.dropPend id).tenants = s.tenants := rfl
@[simp] theorem dropPend_streams (s : State) (id : Nat) : (s.dropPend id).streams = s.streams := rfl
@[simp] theorem dropPend_boot (s : State) (id : Nat) : (s.dropPend id).boot = s.boot := rfl
@[simp] theorem dropPend_plat (s : State) (id : Nat) : (s.dropPend id).plat = s.plat := rfl

/-! `addPend` -/

@[simp] theorem addPend_cur (s : State) (p : Pend) : (s.addPend p).cur = s.cur := rfl
@[simp] theorem addPend_turns (s : State) (p : Pend) : (s.addPend p).turns = s.turns := rfl
@[simp] theorem addPend_freeCount (s : State) (p : Pend) : (s.addPend p).freeCount = s.freeCount := rfl
@[simp] theorem addPend_nextId (s : State) (p : Pend) : (s.addPend p).nextId = s.nextId := rfl
@[simp] theorem addPend_clk (s : State) (p : Pend) : (s.addPend p).clk = s.clk := rfl
@[simp] theorem addPend_time9 (s : State) (p : Pend) : (s.addPend p).time9 = s.time9 := rfl
@[simp] theorem addPend_fuses (s : State) (p : Pend) : (s.addPend p).fuses = s.fuses := rfl
@[simp] theorem addPend_installed (s : State) (p : Pend) : (s.addPend p).installed = s.installed := rfl
@[simp] theorem addPend_mem (s : State) (p : Pend) : (s.addPend p).mem = s.mem := rfl
@[simp] theorem addPend_dirty (s : State) (p : Pend) : (s.addPend p).dirty = s.dirty := rfl
@[simp] theorem addPend_kept (s : State) (p : Pend) : (s.addPend p).kept = s.kept := rfl
@[simp] theorem addPend_volat (s : State) (p : Pend) : (s.addPend p).volat = s.volat := rfl
@[simp] theorem addPend_pois (s : State) (p : Pend) : (s.addPend p).pois = s.pois := rfl
@[simp] theorem addPend_spills (s : State) (p : Pend) : (s.addPend p).spills = s.spills := rfl
@[simp] theorem addPend_lines (s : State) (p : Pend) : (s.addPend p).lines = s.lines := rfl
@[simp] theorem addPend_uses (s : State) (p : Pend) : (s.addPend p).uses = s.uses := rfl
@[simp] theorem addPend_dev (s : State) (p : Pend) : (s.addPend p).dev = s.dev := rfl
@[simp] theorem addPend_sysDone (s : State) (p : Pend) : (s.addPend p).sysDone = s.sysDone := rfl
@[simp] theorem addPend_l2tlb (s : State) (p : Pend) : (s.addPend p).l2tlb = s.l2tlb := rfl
@[simp] theorem addPend_faults (s : State) (p : Pend) : (s.addPend p).faults = s.faults := rfl
@[simp] theorem addPend_frespIgnored (s : State) (p : Pend) : (s.addPend p).frespIgnored = s.frespIgnored := rfl
@[simp] theorem addPend_pending (s : State) (p : Pend) : (s.addPend p).pending = s.pending ++ [p] := rfl
@[simp] theorem addPend_groups (s : State) (p : Pend) : (s.addPend p).groups = s.groups := rfl
@[simp] theorem addPend_teams (s : State) (p : Pend) : (s.addPend p).teams = s.teams := rfl
@[simp] theorem addPend_clusters (s : State) (p : Pend) : (s.addPend p).clusters = s.clusters := rfl
@[simp] theorem addPend_grids (s : State) (p : Pend) : (s.addPend p).grids = s.grids := rfl
@[simp] theorem addPend_cores (s : State) (p : Pend) : (s.addPend p).cores = s.cores := rfl
@[simp] theorem addPend_trd (s : State) (p : Pend) : (s.addPend p).trd = s.trd := rfl
@[simp] theorem addPend_l2c (s : State) (p : Pend) : (s.addPend p).l2c = s.l2c := rfl
@[simp] theorem addPend_l3c (s : State) (p : Pend) : (s.addPend p).l3c = s.l3c := rfl
@[simp] theorem addPend_railSet (s : State) (p : Pend) : (s.addPend p).railSet = s.railSet := rfl
@[simp] theorem addPend_badDst (s : State) (p : Pend) : (s.addPend p).badDst = s.badDst := rfl
@[simp] theorem addPend_tenants (s : State) (p : Pend) : (s.addPend p).tenants = s.tenants := rfl
@[simp] theorem addPend_streams (s : State) (p : Pend) : (s.addPend p).streams = s.streams := rfl
@[simp] theorem addPend_boot (s : State) (p : Pend) : (s.addPend p).boot = s.boot := rfl
@[simp] theorem addPend_plat (s : State) (p : Pend) : (s.addPend p).plat = s.plat := rfl

/-! `setPend` -/

@[simp] theorem setPend_cur (s : State) (p : Pend) : (s.setPend p).cur = s.cur := rfl
@[simp] theorem setPend_turns (s : State) (p : Pend) : (s.setPend p).turns = s.turns := rfl
@[simp] theorem setPend_freeCount (s : State) (p : Pend) : (s.setPend p).freeCount = s.freeCount := rfl
@[simp] theorem setPend_nextId (s : State) (p : Pend) : (s.setPend p).nextId = s.nextId := rfl
@[simp] theorem setPend_clk (s : State) (p : Pend) : (s.setPend p).clk = s.clk := rfl
@[simp] theorem setPend_time9 (s : State) (p : Pend) : (s.setPend p).time9 = s.time9 := rfl
@[simp] theorem setPend_fuses (s : State) (p : Pend) : (s.setPend p).fuses = s.fuses := rfl
@[simp] theorem setPend_installed (s : State) (p : Pend) : (s.setPend p).installed = s.installed := rfl
@[simp] theorem setPend_mem (s : State) (p : Pend) : (s.setPend p).mem = s.mem := rfl
@[simp] theorem setPend_dirty (s : State) (p : Pend) : (s.setPend p).dirty = s.dirty := rfl
@[simp] theorem setPend_kept (s : State) (p : Pend) : (s.setPend p).kept = s.kept := rfl
@[simp] theorem setPend_volat (s : State) (p : Pend) : (s.setPend p).volat = s.volat := rfl
@[simp] theorem setPend_pois (s : State) (p : Pend) : (s.setPend p).pois = s.pois := rfl
@[simp] theorem setPend_spills (s : State) (p : Pend) : (s.setPend p).spills = s.spills := rfl
@[simp] theorem setPend_lines (s : State) (p : Pend) : (s.setPend p).lines = s.lines := rfl
@[simp] theorem setPend_uses (s : State) (p : Pend) : (s.setPend p).uses = s.uses := rfl
@[simp] theorem setPend_dev (s : State) (p : Pend) : (s.setPend p).dev = s.dev := rfl
@[simp] theorem setPend_sysDone (s : State) (p : Pend) : (s.setPend p).sysDone = s.sysDone := rfl
@[simp] theorem setPend_l2tlb (s : State) (p : Pend) : (s.setPend p).l2tlb = s.l2tlb := rfl
@[simp] theorem setPend_faults (s : State) (p : Pend) : (s.setPend p).faults = s.faults := rfl
@[simp] theorem setPend_frespIgnored (s : State) (p : Pend) : (s.setPend p).frespIgnored = s.frespIgnored := rfl
@[simp] theorem setPend_pending (s : State) (p : Pend) : (s.setPend p).pending = s.pending.map fun q => if q.id == p.id then p else q := rfl
@[simp] theorem setPend_groups (s : State) (p : Pend) : (s.setPend p).groups = s.groups := rfl
@[simp] theorem setPend_teams (s : State) (p : Pend) : (s.setPend p).teams = s.teams := rfl
@[simp] theorem setPend_clusters (s : State) (p : Pend) : (s.setPend p).clusters = s.clusters := rfl
@[simp] theorem setPend_grids (s : State) (p : Pend) : (s.setPend p).grids = s.grids := rfl
@[simp] theorem setPend_cores (s : State) (p : Pend) : (s.setPend p).cores = s.cores := rfl
@[simp] theorem setPend_trd (s : State) (p : Pend) : (s.setPend p).trd = s.trd := rfl
@[simp] theorem setPend_l2c (s : State) (p : Pend) : (s.setPend p).l2c = s.l2c := rfl
@[simp] theorem setPend_l3c (s : State) (p : Pend) : (s.setPend p).l3c = s.l3c := rfl
@[simp] theorem setPend_railSet (s : State) (p : Pend) : (s.setPend p).railSet = s.railSet := rfl
@[simp] theorem setPend_badDst (s : State) (p : Pend) : (s.setPend p).badDst = s.badDst := rfl
@[simp] theorem setPend_tenants (s : State) (p : Pend) : (s.setPend p).tenants = s.tenants := rfl
@[simp] theorem setPend_streams (s : State) (p : Pend) : (s.setPend p).streams = s.streams := rfl
@[simp] theorem setPend_boot (s : State) (p : Pend) : (s.setPend p).boot = s.boot := rfl
@[simp] theorem setPend_plat (s : State) (p : Pend) : (s.setPend p).plat = s.plat := rfl

/-! `free` -/

@[simp] theorem free_cur (s : State) (n : Nat) : ((s.free n).2).cur = s.cur := rfl
@[simp] theorem free_turns (s : State) (n : Nat) : ((s.free n).2).turns = s.turns := rfl
@[simp] theorem free_freeCount (s : State) (n : Nat) : ((s.free n).2).freeCount = s.freeCount + 1 := rfl
@[simp] theorem free_nextId (s : State) (n : Nat) : ((s.free n).2).nextId = s.nextId := rfl
@[simp] theorem free_clk (s : State) (n : Nat) : ((s.free n).2).clk = s.clk := rfl
@[simp] theorem free_time9 (s : State) (n : Nat) : ((s.free n).2).time9 = s.time9 := rfl
@[simp] theorem free_fuses (s : State) (n : Nat) : ((s.free n).2).fuses = s.fuses := rfl
@[simp] theorem free_installed (s : State) (n : Nat) : ((s.free n).2).installed = s.installed := rfl
@[simp] theorem free_mem (s : State) (n : Nat) : ((s.free n).2).mem = s.mem := rfl
@[simp] theorem free_dirty (s : State) (n : Nat) : ((s.free n).2).dirty = s.dirty := rfl
@[simp] theorem free_kept (s : State) (n : Nat) : ((s.free n).2).kept = s.kept := rfl
@[simp] theorem free_volat (s : State) (n : Nat) : ((s.free n).2).volat = s.volat := rfl
@[simp] theorem free_pois (s : State) (n : Nat) : ((s.free n).2).pois = s.pois := rfl
@[simp] theorem free_spills (s : State) (n : Nat) : ((s.free n).2).spills = s.spills := rfl
@[simp] theorem free_lines (s : State) (n : Nat) : ((s.free n).2).lines = s.lines := rfl
@[simp] theorem free_uses (s : State) (n : Nat) : ((s.free n).2).uses = s.uses := rfl
@[simp] theorem free_dev (s : State) (n : Nat) : ((s.free n).2).dev = s.dev := rfl
@[simp] theorem free_sysDone (s : State) (n : Nat) : ((s.free n).2).sysDone = s.sysDone := rfl
@[simp] theorem free_l2tlb (s : State) (n : Nat) : ((s.free n).2).l2tlb = s.l2tlb := rfl
@[simp] theorem free_faults (s : State) (n : Nat) : ((s.free n).2).faults = s.faults := rfl
@[simp] theorem free_frespIgnored (s : State) (n : Nat) : ((s.free n).2).frespIgnored = s.frespIgnored := rfl
@[simp] theorem free_pending (s : State) (n : Nat) : ((s.free n).2).pending = s.pending := rfl
@[simp] theorem free_groups (s : State) (n : Nat) : ((s.free n).2).groups = s.groups := rfl
@[simp] theorem free_teams (s : State) (n : Nat) : ((s.free n).2).teams = s.teams := rfl
@[simp] theorem free_clusters (s : State) (n : Nat) : ((s.free n).2).clusters = s.clusters := rfl
@[simp] theorem free_grids (s : State) (n : Nat) : ((s.free n).2).grids = s.grids := rfl
@[simp] theorem free_cores (s : State) (n : Nat) : ((s.free n).2).cores = s.cores := rfl
@[simp] theorem free_trd (s : State) (n : Nat) : ((s.free n).2).trd = s.trd := rfl
@[simp] theorem free_l2c (s : State) (n : Nat) : ((s.free n).2).l2c = s.l2c := rfl
@[simp] theorem free_l3c (s : State) (n : Nat) : ((s.free n).2).l3c = s.l3c := rfl
@[simp] theorem free_railSet (s : State) (n : Nat) : ((s.free n).2).railSet = s.railSet := rfl
@[simp] theorem free_badDst (s : State) (n : Nat) : ((s.free n).2).badDst = s.badDst := rfl
@[simp] theorem free_tenants (s : State) (n : Nat) : ((s.free n).2).tenants = s.tenants := rfl
@[simp] theorem free_streams (s : State) (n : Nat) : ((s.free n).2).streams = s.streams := rfl
@[simp] theorem free_boot (s : State) (n : Nat) : ((s.free n).2).boot = s.boot := rfl
@[simp] theorem free_plat (s : State) (n : Nat) : ((s.free n).2).plat = s.plat := rfl

/-! `fresh` -/

@[simp] theorem fresh_cur (s : State) : ((s.fresh).2).cur = s.cur := rfl
@[simp] theorem fresh_turns (s : State) : ((s.fresh).2).turns = s.turns := rfl
@[simp] theorem fresh_freeCount (s : State) : ((s.fresh).2).freeCount = s.freeCount := rfl
@[simp] theorem fresh_nextId (s : State) : ((s.fresh).2).nextId = s.nextId + 1 := rfl
@[simp] theorem fresh_clk (s : State) : ((s.fresh).2).clk = s.clk := rfl
@[simp] theorem fresh_time9 (s : State) : ((s.fresh).2).time9 = s.time9 := rfl
@[simp] theorem fresh_fuses (s : State) : ((s.fresh).2).fuses = s.fuses := rfl
@[simp] theorem fresh_installed (s : State) : ((s.fresh).2).installed = s.installed := rfl
@[simp] theorem fresh_mem (s : State) : ((s.fresh).2).mem = s.mem := rfl
@[simp] theorem fresh_dirty (s : State) : ((s.fresh).2).dirty = s.dirty := rfl
@[simp] theorem fresh_kept (s : State) : ((s.fresh).2).kept = s.kept := rfl
@[simp] theorem fresh_volat (s : State) : ((s.fresh).2).volat = s.volat := rfl
@[simp] theorem fresh_pois (s : State) : ((s.fresh).2).pois = s.pois := rfl
@[simp] theorem fresh_spills (s : State) : ((s.fresh).2).spills = s.spills := rfl
@[simp] theorem fresh_lines (s : State) : ((s.fresh).2).lines = s.lines := rfl
@[simp] theorem fresh_uses (s : State) : ((s.fresh).2).uses = s.uses := rfl
@[simp] theorem fresh_dev (s : State) : ((s.fresh).2).dev = s.dev := rfl
@[simp] theorem fresh_sysDone (s : State) : ((s.fresh).2).sysDone = s.sysDone := rfl
@[simp] theorem fresh_l2tlb (s : State) : ((s.fresh).2).l2tlb = s.l2tlb := rfl
@[simp] theorem fresh_faults (s : State) : ((s.fresh).2).faults = s.faults := rfl
@[simp] theorem fresh_frespIgnored (s : State) : ((s.fresh).2).frespIgnored = s.frespIgnored := rfl
@[simp] theorem fresh_pending (s : State) : ((s.fresh).2).pending = s.pending := rfl
@[simp] theorem fresh_groups (s : State) : ((s.fresh).2).groups = s.groups := rfl
@[simp] theorem fresh_teams (s : State) : ((s.fresh).2).teams = s.teams := rfl
@[simp] theorem fresh_clusters (s : State) : ((s.fresh).2).clusters = s.clusters := rfl
@[simp] theorem fresh_grids (s : State) : ((s.fresh).2).grids = s.grids := rfl
@[simp] theorem fresh_cores (s : State) : ((s.fresh).2).cores = s.cores := rfl
@[simp] theorem fresh_trd (s : State) : ((s.fresh).2).trd = s.trd := rfl
@[simp] theorem fresh_l2c (s : State) : ((s.fresh).2).l2c = s.l2c := rfl
@[simp] theorem fresh_l3c (s : State) : ((s.fresh).2).l3c = s.l3c := rfl
@[simp] theorem fresh_railSet (s : State) : ((s.fresh).2).railSet = s.railSet := rfl
@[simp] theorem fresh_badDst (s : State) : ((s.fresh).2).badDst = s.badDst := rfl
@[simp] theorem fresh_tenants (s : State) : ((s.fresh).2).tenants = s.tenants := rfl
@[simp] theorem fresh_streams (s : State) : ((s.fresh).2).streams = s.streams := rfl
@[simp] theorem fresh_boot (s : State) : ((s.fresh).2).boot = s.boot := rfl
@[simp] theorem fresh_plat (s : State) : ((s.fresh).2).plat = s.plat := rfl

/-! What the collections read as -/

theorem setGroup_group? (s : State) (k j : Nat) (g : Group) :
    (s.setGroup k g).group? j = if j = k then some g else s.group? j := AMap.at?_set _ _ _ _

@[simp] theorem setGroup_group?_self (s : State) (k : Nat) (g : Group) :
    (s.setGroup k g).group? k = some g := by simp [setGroup_group?]

theorem modGroup_group? (s : State) (k j : Nat) (f : Group → Group) :
    (s.modGroup k f).group? j = if j = k then (s.group? k).map f else s.group? j := by
  unfold State.modGroup
  cases h : s.group? k with
  | none => simp only [Option.map_none]; split <;> simp_all
  | some g => simp [setGroup_group?]

@[simp] theorem modGroup_group?_self (s : State) (k : Nat) (f : Group → Group) :
    (s.modGroup k f).group? k = (s.group? k).map f := by simp [modGroup_group?]

theorem setTeam_team? (s : State) (k j : Nat) (t : Team) :
    (s.setTeam k t).team? j = if j = k then some t else s.team? j := AMap.at?_set _ _ _ _

theorem modTeam_team? (s : State) (k j : Nat) (f : Team → Team) :
    (s.modTeam k f).team? j = if j = k then (s.team? k).map f else s.team? j := by
  unfold State.modTeam
  cases h : s.team? k with
  | none => simp only [Option.map_none]; split <;> simp_all
  | some g => simp [setTeam_team?]

theorem modCluster_cluster? (s : State) (k j : Nat) (f : Cluster → Cluster) :
    (s.modCluster k f).cluster? j = if j = k then (s.cluster? k).map f else s.cluster? j := by
  unfold State.modCluster
  cases h : s.cluster? k with
  | none => simp only [Option.map_none]; split <;> simp_all
  | some g => exact AMap.at?_set _ _ _ _

theorem modGrid_grid? (s : State) (k j : Nat) (f : Grid → Grid) :
    (s.modGrid k f).grid? j = if j = k then (s.grid? k).map f else s.grid? j := by
  unfold State.modGrid
  cases h : s.grid? k with
  | none => simp only [Option.map_none]; split <;> simp_all
  | some g => exact AMap.at?_set _ _ _ _

theorem setCore_core (s : State) (c j : Nat) (k : Core) :
    (s.setCore c k).core j = if j = c then k else s.core j := AMap.get_put _ _ _ _ _
theorem modCore_core (s : State) (c j : Nat) (f : Core → Core) :
    (s.modCore c f).core j = if j = c then f (s.core c) else s.core j := AMap.get_put _ _ _ _ _
theorem modTenant_tenant (s : State) (c j : Nat) (f : Tenant → Tenant) :
    (s.modTenant c f).tenant j = if j = c then f (s.tenant c) else s.tenant j := AMap.get_put _ _ _ _ _
theorem modStream_stream (s : State) (c j : Nat) (f : Stream → Stream) :
    (s.modStream c f).stream j = if j = c then f (s.stream c) else s.stream j := AMap.get_put _ _ _ _ _
theorem modLine_line (s : State) (c j : Nat) (f : Line → Line) :
    (s.modLine c f).line j = if j = c then f (s.line c) else s.line j := AMap.get_put _ _ _ _ _
theorem modQueue_queue (s : State) (c j : Nat) (f : Queue → Queue) :
    (s.modQueue c f).queue j = if j = c then f (s.queue c) else s.queue j := AMap.get_put _ _ _ _ _
theorem setTask_task (s : State) (c j : Nat) (t : Task) :
    (s.setTask c t).task j = if j = c then t else s.task j := AMap.get_put _ _ _ _ _

@[simp] theorem setCore_group? (s : State) (c : Nat) (k : Core) (j : Nat) : (s.setCore c k).group? j = s.group? j := rfl
@[simp] theorem setCore_team? (s : State) (c : Nat) (k : Core) (j : Nat) : (s.setCore c k).team? j = s.team? j := rfl
@[simp] theorem setCore_cluster? (s : State) (c : Nat) (k : Core) (j : Nat) : (s.setCore c k).cluster? j = s.cluster? j := rfl
@[simp] theorem setCore_grid? (s : State) (c : Nat) (k : Core) (j : Nat) : (s.setCore c k).grid? j = s.grid? j := rfl
@[simp] theorem setCore_tenant (s : State) (c : Nat) (k : Core) (j : Nat) : (s.setCore c k).tenant j = s.tenant j := rfl
@[simp] theorem setCore_stream (s : State) (c : Nat) (k : Core) (j : Nat) : (s.setCore c k).stream j = s.stream j := rfl
@[simp] theorem setCore_line (s : State) (c : Nat) (k : Core) (j : Nat) : (s.setCore c k).line j = s.line j := rfl
@[simp] theorem modCore_group? (s : State) (c : Nat) (f : Core → Core) (j : Nat) : (s.modCore c f).group? j = s.group? j := rfl
@[simp] theorem modCore_team? (s : State) (c : Nat) (f : Core → Core) (j : Nat) : (s.modCore c f).team? j = s.team? j := rfl
@[simp] theorem modCore_cluster? (s : State) (c : Nat) (f : Core → Core) (j : Nat) : (s.modCore c f).cluster? j = s.cluster? j := rfl
@[simp] theorem modCore_grid? (s : State) (c : Nat) (f : Core → Core) (j : Nat) : (s.modCore c f).grid? j = s.grid? j := rfl
@[simp] theorem modCore_tenant (s : State) (c : Nat) (f : Core → Core) (j : Nat) : (s.modCore c f).tenant j = s.tenant j := rfl
@[simp] theorem modCore_stream (s : State) (c : Nat) (f : Core → Core) (j : Nat) : (s.modCore c f).stream j = s.stream j := rfl
@[simp] theorem modCore_line (s : State) (c : Nat) (f : Core → Core) (j : Nat) : (s.modCore c f).line j = s.line j := rfl
@[simp] theorem modTenant_group? (s : State) (t : Nat) (f : Tenant → Tenant) (j : Nat) : (s.modTenant t f).group? j = s.group? j := rfl
@[simp] theorem modTenant_team? (s : State) (t : Nat) (f : Tenant → Tenant) (j : Nat) : (s.modTenant t f).team? j = s.team? j := rfl
@[simp] theorem modTenant_cluster? (s : State) (t : Nat) (f : Tenant → Tenant) (j : Nat) : (s.modTenant t f).cluster? j = s.cluster? j := rfl
@[simp] theorem modTenant_grid? (s : State) (t : Nat) (f : Tenant → Tenant) (j : Nat) : (s.modTenant t f).grid? j = s.grid? j := rfl
@[simp] theorem modTenant_core (s : State) (t : Nat) (f : Tenant → Tenant) (j : Nat) : (s.modTenant t f).core j = s.core j := rfl
@[simp] theorem modTenant_stream (s : State) (t : Nat) (f : Tenant → Tenant) (j : Nat) : (s.modTenant t f).stream j = s.stream j := rfl
@[simp] theorem modTenant_line (s : State) (t : Nat) (f : Tenant → Tenant) (j : Nat) : (s.modTenant t f).line j = s.line j := rfl
@[simp] theorem modStream_group? (s : State) (t : Nat) (f : Stream → Stream) (j : Nat) : (s.modStream t f).group? j = s.group? j := rfl
@[simp] theorem modStream_team? (s : State) (t : Nat) (f : Stream → Stream) (j : Nat) : (s.modStream t f).team? j = s.team? j := rfl
@[simp] theorem modStream_cluster? (s : State) (t : Nat) (f : Stream → Stream) (j : Nat) : (s.modStream t f).cluster? j = s.cluster? j := rfl
@[simp] theorem modStream_grid? (s : State) (t : Nat) (f : Stream → Stream) (j : Nat) : (s.modStream t f).grid? j = s.grid? j := rfl
@[simp] theorem modStream_core (s : State) (t : Nat) (f : Stream → Stream) (j : Nat) : (s.modStream t f).core j = s.core j := rfl
@[simp] theorem modStream_tenant (s : State) (t : Nat) (f : Stream → Stream) (j : Nat) : (s.modStream t f).tenant j = s.tenant j := rfl
@[simp] theorem modStream_line (s : State) (t : Nat) (f : Stream → Stream) (j : Nat) : (s.modStream t f).line j = s.line j := rfl
@[simp] theorem modLine_group? (s : State) (n : Nat) (f : Line → Line) (j : Nat) : (s.modLine n f).group? j = s.group? j := rfl
@[simp] theorem modLine_team? (s : State) (n : Nat) (f : Line → Line) (j : Nat) : (s.modLine n f).team? j = s.team? j := rfl
@[simp] theorem modLine_cluster? (s : State) (n : Nat) (f : Line → Line) (j : Nat) : (s.modLine n f).cluster? j = s.cluster? j := rfl
@[simp] theorem modLine_grid? (s : State) (n : Nat) (f : Line → Line) (j : Nat) : (s.modLine n f).grid? j = s.grid? j := rfl
@[simp] theorem modLine_core (s : State) (n : Nat) (f : Line → Line) (j : Nat) : (s.modLine n f).core j = s.core j := rfl
@[simp] theorem modLine_tenant (s : State) (n : Nat) (f : Line → Line) (j : Nat) : (s.modLine n f).tenant j = s.tenant j := rfl
@[simp] theorem modLine_stream (s : State) (n : Nat) (f : Line → Line) (j : Nat) : (s.modLine n f).stream j = s.stream j := rfl
@[simp] theorem modQueue_group? (s : State) (q : Nat) (f : Queue → Queue) (j : Nat) : (s.modQueue q f).group? j = s.group? j := rfl
@[simp] theorem modQueue_team? (s : State) (q : Nat) (f : Queue → Queue) (j : Nat) : (s.modQueue q f).team? j = s.team? j := rfl
@[simp] theorem modQueue_cluster? (s : State) (q : Nat) (f : Queue → Queue) (j : Nat) : (s.modQueue q f).cluster? j = s.cluster? j := rfl
@[simp] theorem modQueue_grid? (s : State) (q : Nat) (f : Queue → Queue) (j : Nat) : (s.modQueue q f).grid? j = s.grid? j := rfl
@[simp] theorem modQueue_core (s : State) (q : Nat) (f : Queue → Queue) (j : Nat) : (s.modQueue q f).core j = s.core j := rfl
@[simp] theorem modQueue_tenant (s : State) (q : Nat) (f : Queue → Queue) (j : Nat) : (s.modQueue q f).tenant j = s.tenant j := rfl
@[simp] theorem modQueue_stream (s : State) (q : Nat) (f : Queue → Queue) (j : Nat) : (s.modQueue q f).stream j = s.stream j := rfl
@[simp] theorem modQueue_line (s : State) (q : Nat) (f : Queue → Queue) (j : Nat) : (s.modQueue q f).line j = s.line j := rfl
@[simp] theorem setTask_group? (s : State) (k : Nat) (t : Task) (j : Nat) : (s.setTask k t).group? j = s.group? j := rfl
@[simp] theorem setTask_team? (s : State) (k : Nat) (t : Task) (j : Nat) : (s.setTask k t).team? j = s.team? j := rfl
@[simp] theorem setTask_cluster? (s : State) (k : Nat) (t : Task) (j : Nat) : (s.setTask k t).cluster? j = s.cluster? j := rfl
@[simp] theorem setTask_grid? (s : State) (k : Nat) (t : Task) (j : Nat) : (s.setTask k t).grid? j = s.grid? j := rfl
@[simp] theorem setTask_core (s : State) (k : Nat) (t : Task) (j : Nat) : (s.setTask k t).core j = s.core j := rfl
@[simp] theorem setTask_tenant (s : State) (k : Nat) (t : Task) (j : Nat) : (s.setTask k t).tenant j = s.tenant j := rfl
@[simp] theorem setTask_stream (s : State) (k : Nat) (t : Task) (j : Nat) : (s.setTask k t).stream j = s.stream j := rfl
@[simp] theorem setTask_line (s : State) (k : Nat) (t : Task) (j : Nat) : (s.setTask k t).line j = s.line j := rfl
@[simp] theorem setGroup_team? (s : State) (k : Nat) (g : Group) (j : Nat) : (s.setGroup k g).team? j = s.team? j := rfl
@[simp] theorem setGroup_cluster? (s : State) (k : Nat) (g : Group) (j : Nat) : (s.setGroup k g).cluster? j = s.cluster? j := rfl
@[simp] theorem setGroup_grid? (s : State) (k : Nat) (g : Group) (j : Nat) : (s.setGroup k g).grid? j = s.grid? j := rfl
@[simp] theorem setGroup_core (s : State) (k : Nat) (g : Group) (j : Nat) : (s.setGroup k g).core j = s.core j := rfl
@[simp] theorem setGroup_tenant (s : State) (k : Nat) (g : Group) (j : Nat) : (s.setGroup k g).tenant j = s.tenant j := rfl
@[simp] theorem setGroup_stream (s : State) (k : Nat) (g : Group) (j : Nat) : (s.setGroup k g).stream j = s.stream j := rfl
@[simp] theorem setGroup_line (s : State) (k : Nat) (g : Group) (j : Nat) : (s.setGroup k g).line j = s.line j := rfl
@[simp] theorem modGroup_team? (s : State) (k : Nat) (f : Group → Group) (j : Nat) : (s.modGroup k f).team? j = s.team? j := by
  simp only [State.team?, modGroup_teams]
@[simp] theorem modGroup_cluster? (s : State) (k : Nat) (f : Group → Group) (j : Nat) : (s.modGroup k f).cluster? j = s.cluster? j := by
  simp only [State.cluster?, modGroup_clusters]
@[simp] theorem modGroup_grid? (s : State) (k : Nat) (f : Group → Group) (j : Nat) : (s.modGroup k f).grid? j = s.grid? j := by
  simp only [State.grid?, modGroup_grids]
@[simp] theorem modGroup_core (s : State) (k : Nat) (f : Group → Group) (j : Nat) : (s.modGroup k f).core j = s.core j := by
  simp only [State.core, modGroup_cores]
@[simp] theorem modGroup_tenant (s : State) (k : Nat) (f : Group → Group) (j : Nat) : (s.modGroup k f).tenant j = s.tenant j := by
  simp only [State.tenant, modGroup_tenants]
@[simp] theorem modGroup_stream (s : State) (k : Nat) (f : Group → Group) (j : Nat) : (s.modGroup k f).stream j = s.stream j := by
  simp only [State.stream, modGroup_streams]
@[simp] theorem modGroup_line (s : State) (k : Nat) (f : Group → Group) (j : Nat) : (s.modGroup k f).line j = s.line j := by
  simp only [State.line, modGroup_lines]
@[simp] theorem setTeam_group? (s : State) (k : Nat) (t : Team) (j : Nat) : (s.setTeam k t).group? j = s.group? j := rfl
@[simp] theorem setTeam_cluster? (s : State) (k : Nat) (t : Team) (j : Nat) : (s.setTeam k t).cluster? j = s.cluster? j := rfl
@[simp] theorem setTeam_grid? (s : State) (k : Nat) (t : Team) (j : Nat) : (s.setTeam k t).grid? j = s.grid? j := rfl
@[simp] theorem setTeam_core (s : State) (k : Nat) (t : Team) (j : Nat) : (s.setTeam k t).core j = s.core j := rfl
@[simp] theorem setTeam_tenant (s : State) (k : Nat) (t : Team) (j : Nat) : (s.setTeam k t).tenant j = s.tenant j := rfl
@[simp] theorem setTeam_stream (s : State) (k : Nat) (t : Team) (j : Nat) : (s.setTeam k t).stream j = s.stream j := rfl
@[simp] theorem setTeam_line (s : State) (k : Nat) (t : Team) (j : Nat) : (s.setTeam k t).line j = s.line j := rfl
@[simp] theorem modTeam_group? (s : State) (k : Nat) (f : Team → Team) (j : Nat) : (s.modTeam k f).group? j = s.group? j := by
  simp only [State.group?, modTeam_groups]
@[simp] theorem modTeam_cluster? (s : State) (k : Nat) (f : Team → Team) (j : Nat) : (s.modTeam k f).cluster? j = s.cluster? j := by
  simp only [State.cluster?, modTeam_clusters]
@[simp] theorem modTeam_grid? (s : State) (k : Nat) (f : Team → Team) (j : Nat) : (s.modTeam k f).grid? j = s.grid? j := by
  simp only [State.grid?, modTeam_grids]
@[simp] theorem modTeam_core (s : State) (k : Nat) (f : Team → Team) (j : Nat) : (s.modTeam k f).core j = s.core j := by
  simp only [State.core, modTeam_cores]
@[simp] theorem modTeam_tenant (s : State) (k : Nat) (f : Team → Team) (j : Nat) : (s.modTeam k f).tenant j = s.tenant j := by
  simp only [State.tenant, modTeam_tenants]
@[simp] theorem modTeam_stream (s : State) (k : Nat) (f : Team → Team) (j : Nat) : (s.modTeam k f).stream j = s.stream j := by
  simp only [State.stream, modTeam_streams]
@[simp] theorem modTeam_line (s : State) (k : Nat) (f : Team → Team) (j : Nat) : (s.modTeam k f).line j = s.line j := by
  simp only [State.line, modTeam_lines]
@[simp] theorem modCluster_group? (s : State) (k : Nat) (f : Cluster → Cluster) (j : Nat) : (s.modCluster k f).group? j = s.group? j := by
  simp only [State.group?, modCluster_groups]
@[simp] theorem modCluster_team? (s : State) (k : Nat) (f : Cluster → Cluster) (j : Nat) : (s.modCluster k f).team? j = s.team? j := by
  simp only [State.team?, modCluster_teams]
@[simp] theorem modCluster_grid? (s : State) (k : Nat) (f : Cluster → Cluster) (j : Nat) : (s.modCluster k f).grid? j = s.grid? j := by
  simp only [State.grid?, modCluster_grids]
@[simp] theorem modCluster_core (s : State) (k : Nat) (f : Cluster → Cluster) (j : Nat) : (s.modCluster k f).core j = s.core j := by
  simp only [State.core, modCluster_cores]
@[simp] theorem modCluster_tenant (s : State) (k : Nat) (f : Cluster → Cluster) (j : Nat) : (s.modCluster k f).tenant j = s.tenant j := by
  simp only [State.tenant, modCluster_tenants]
@[simp] theorem modCluster_stream (s : State) (k : Nat) (f : Cluster → Cluster) (j : Nat) : (s.modCluster k f).stream j = s.stream j := by
  simp only [State.stream, modCluster_streams]
@[simp] theorem modCluster_line (s : State) (k : Nat) (f : Cluster → Cluster) (j : Nat) : (s.modCluster k f).line j = s.line j := by
  simp only [State.line, modCluster_lines]
@[simp] theorem modGrid_group? (s : State) (k : Nat) (f : Grid → Grid) (j : Nat) : (s.modGrid k f).group? j = s.group? j := by
  simp only [State.group?, modGrid_groups]
@[simp] theorem modGrid_team? (s : State) (k : Nat) (f : Grid → Grid) (j : Nat) : (s.modGrid k f).team? j = s.team? j := by
  simp only [State.team?, modGrid_teams]
@[simp] theorem modGrid_cluster? (s : State) (k : Nat) (f : Grid → Grid) (j : Nat) : (s.modGrid k f).cluster? j = s.cluster? j := by
  simp only [State.cluster?, modGrid_clusters]
@[simp] theorem modGrid_core (s : State) (k : Nat) (f : Grid → Grid) (j : Nat) : (s.modGrid k f).core j = s.core j := by
  simp only [State.core, modGrid_cores]
@[simp] theorem modGrid_tenant (s : State) (k : Nat) (f : Grid → Grid) (j : Nat) : (s.modGrid k f).tenant j = s.tenant j := by
  simp only [State.tenant, modGrid_tenants]
@[simp] theorem modGrid_stream (s : State) (k : Nat) (f : Grid → Grid) (j : Nat) : (s.modGrid k f).stream j = s.stream j := by
  simp only [State.stream, modGrid_streams]
@[simp] theorem modGrid_line (s : State) (k : Nat) (f : Grid → Grid) (j : Nat) : (s.modGrid k f).line j = s.line j := by
  simp only [State.line, modGrid_lines]
@[simp] theorem dropPend_group? (s : State) (id : Nat) (j : Nat) : (s.dropPend id).group? j = s.group? j := rfl
@[simp] theorem dropPend_team? (s : State) (id : Nat) (j : Nat) : (s.dropPend id).team? j = s.team? j := rfl
@[simp] theorem dropPend_cluster? (s : State) (id : Nat) (j : Nat) : (s.dropPend id).cluster? j = s.cluster? j := rfl
@[simp] theorem dropPend_grid? (s : State) (id : Nat) (j : Nat) : (s.dropPend id).grid? j = s.grid? j := rfl
@[simp] theorem dropPend_core (s : State) (id : Nat) (j : Nat) : (s.dropPend id).core j = s.core j := rfl
@[simp] theorem dropPend_tenant (s : State) (id : Nat) (j : Nat) : (s.dropPend id).tenant j = s.tenant j := rfl
@[simp] theorem dropPend_stream (s : State) (id : Nat) (j : Nat) : (s.dropPend id).stream j = s.stream j := rfl
@[simp] theorem dropPend_line (s : State) (id : Nat) (j : Nat) : (s.dropPend id).line j = s.line j := rfl
@[simp] theorem addPend_group? (s : State) (p : Pend) (j : Nat) : (s.addPend p).group? j = s.group? j := rfl
@[simp] theorem addPend_team? (s : State) (p : Pend) (j : Nat) : (s.addPend p).team? j = s.team? j := rfl
@[simp] theorem addPend_cluster? (s : State) (p : Pend) (j : Nat) : (s.addPend p).cluster? j = s.cluster? j := rfl
@[simp] theorem addPend_grid? (s : State) (p : Pend) (j : Nat) : (s.addPend p).grid? j = s.grid? j := rfl
@[simp] theorem addPend_core (s : State) (p : Pend) (j : Nat) : (s.addPend p).core j = s.core j := rfl
@[simp] theorem addPend_tenant (s : State) (p : Pend) (j : Nat) : (s.addPend p).tenant j = s.tenant j := rfl
@[simp] theorem addPend_stream (s : State) (p : Pend) (j : Nat) : (s.addPend p).stream j = s.stream j := rfl
@[simp] theorem addPend_line (s : State) (p : Pend) (j : Nat) : (s.addPend p).line j = s.line j := rfl
@[simp] theorem setPend_group? (s : State) (p : Pend) (j : Nat) : (s.setPend p).group? j = s.group? j := rfl
@[simp] theorem setPend_team? (s : State) (p : Pend) (j : Nat) : (s.setPend p).team? j = s.team? j := rfl
@[simp] theorem setPend_cluster? (s : State) (p : Pend) (j : Nat) : (s.setPend p).cluster? j = s.cluster? j := rfl
@[simp] theorem setPend_grid? (s : State) (p : Pend) (j : Nat) : (s.setPend p).grid? j = s.grid? j := rfl
@[simp] theorem setPend_core (s : State) (p : Pend) (j : Nat) : (s.setPend p).core j = s.core j := rfl
@[simp] theorem setPend_tenant (s : State) (p : Pend) (j : Nat) : (s.setPend p).tenant j = s.tenant j := rfl
@[simp] theorem setPend_stream (s : State) (p : Pend) (j : Nat) : (s.setPend p).stream j = s.stream j := rfl
@[simp] theorem setPend_line (s : State) (p : Pend) (j : Nat) : (s.setPend p).line j = s.line j := rfl
@[simp] theorem free_group? (s : State) (n : Nat) (j : Nat) : ((s.free n).2).group? j = s.group? j := rfl
@[simp] theorem free_team? (s : State) (n : Nat) (j : Nat) : ((s.free n).2).team? j = s.team? j := rfl
@[simp] theorem free_cluster? (s : State) (n : Nat) (j : Nat) : ((s.free n).2).cluster? j = s.cluster? j := rfl
@[simp] theorem free_grid? (s : State) (n : Nat) (j : Nat) : ((s.free n).2).grid? j = s.grid? j := rfl
@[simp] theorem free_core (s : State) (n : Nat) (j : Nat) : ((s.free n).2).core j = s.core j := rfl
@[simp] theorem free_tenant (s : State) (n : Nat) (j : Nat) : ((s.free n).2).tenant j = s.tenant j := rfl
@[simp] theorem free_stream (s : State) (n : Nat) (j : Nat) : ((s.free n).2).stream j = s.stream j := rfl
@[simp] theorem free_line (s : State) (n : Nat) (j : Nat) : ((s.free n).2).line j = s.line j := rfl
@[simp] theorem fresh_group? (s : State) (j : Nat) : ((s.fresh).2).group? j = s.group? j := rfl
@[simp] theorem fresh_team? (s : State) (j : Nat) : ((s.fresh).2).team? j = s.team? j := rfl
@[simp] theorem fresh_cluster? (s : State) (j : Nat) : ((s.fresh).2).cluster? j = s.cluster? j := rfl
@[simp] theorem fresh_grid? (s : State) (j : Nat) : ((s.fresh).2).grid? j = s.grid? j := rfl
@[simp] theorem fresh_core (s : State) (j : Nat) : ((s.fresh).2).core j = s.core j := rfl
@[simp] theorem fresh_tenant (s : State) (j : Nat) : ((s.fresh).2).tenant j = s.tenant j := rfl
@[simp] theorem fresh_stream (s : State) (j : Nat) : ((s.fresh).2).stream j = s.stream j := rfl
@[simp] theorem fresh_line (s : State) (j : Nat) : ((s.fresh).2).line j = s.line j := rfl

end Sys2Proof.Machine
end

