-- ==== Sys2Proof/Laws/Issue.lean ====
section
/-!
SUPPORT. What one issue does: `run` of a meaning that completes answers the next state named here,
and what that state keeps (02 R26, R27).
-/
namespace Sys2Proof.Machine

/-- What an instruction reads in other lanes is full and unpoisoned (05 R104). -/
def Meta.FarFree (m : Meta) (g : Group) : Prop :=
  m.farIn g g.regs.empt (g.on m.c) = [] ∧ m.farIn g g.regs.pois (g.on m.c) = []

/-- A step that writes no stream register is never held. -/
theorem holds_of_streams (s t : State) (h : t.streams = s.streams) : s.holds t = false := by
  unfold State.holds
  simp only [State.stream, h, bne_self_eq_false, Bool.and_false, List.any_eq_false]
  intro e _
  simp

theorem endInterval_none (s : State) (k : Nat) (g : Group) (h : s.group? k = some g)
    (hr : g.trc.rec? = none) : s.endInterval k = s := by
  unfold State.endInterval; simp [h, hr]

theorem endInterval_no_rec (s : State) (k : Nat)
    (hr : ∀ g, s.group? k = some g → g.trc.rec? = none) : s.endInterval k = s := by
  unfold State.endInterval
  cases h : s.group? k with
  | none => rfl
  | some g => simp [hr g h]

/-- The group after `counted`: its marks of the issue. -/
def Group.marked (h : Group) (m : Meta) (ls : List Nat) (old : Group) (clk : Nat) : Group :=
  let g := h.setDeps m ls old
  { g with
    cnt := { g.cnt with issue := g.cnt.issue + 1, lanes := g.cnt.lanes + BitVec.ofNat 64 ls.length }
    trc := { g.trc with inInterval := g.trc.inInterval + 1 }
    readySince := clk + 1, issuedAt := clk + 1, stall := 0 }

theorem setDep_facts (g : Group) (cs : List Nat) (p : VPos) :
    (g.setDep cs p).ctl = g.ctl ∧ (g.setDep cs p).sys = g.sys ∧ (g.setDep cs p).trc = g.trc ∧
    (g.setDep cs p).mem = g.mem ∧ (g.setDep cs p).park = g.park ∧
    (g.setDep cs p).regs = { g.regs with dep := (g.setDep cs p).regs.dep } := by
  simp [Group.setDep]

/-- A fold of `setDep` keeps everything but the dependences. -/
theorem foldl_setDep {β : Type} (f : Group → β → Group) (l : List β)
    (hf : ∀ g b, (f g b) = { g with regs := { g.regs with dep := (f g b).regs.dep } }) (g : Group) :
    l.foldl f g = { g with regs := { g.regs with dep := (l.foldl f g).regs.dep } } := by
  induction l generalizing g with
  | nil => rfl
  | cons b l ih =>
    rw [List.foldl_cons, ih (f g b)]
    rw [hf g b]

theorem setDeps_eq (g : Group) (m : Meta) (ls : List Nat) (old : Group) :
    g.setDeps m ls old = { g with regs := { g.regs with dep := (g.setDeps m ls old).regs.dep } } := by
  unfold Group.setDeps
  refine foldl_setDep _ _ (fun g u => ?_) g
  split
  · rfl
  · exact foldl_setDep _ _ (fun g l => rfl) g

/-- What `counted` changes. -/
theorem counted_group? (s : State) (k j : Nat) (m : Meta) (ls : List Nat) (old : Group) :
    (s.counted k m ls old).group? j =
      if j = k then (s.group? k).map fun h => h.marked m ls old s.clk else s.group? j := by
  unfold State.counted State.chosen
  simp only [modCore_group?, modTeam_group?, modGroup_group?]
  rfl

theorem counted_team? (s : State) (k j : Nat) (m : Meta) (ls : List Nat) (old : Group) :
    (s.counted k m ls old).team? j = (s.team? j).map fun x =>
      if j = old.team then { x with issued := x.issued + 1 } else x := by
  unfold State.counted State.chosen
  simp only [modCore_team?, modTeam_team?, modGroup_team?]
  split
  · simp_all
  · cases s.team? j <;> simp

theorem counted_core (s : State) (k j : Nat) (m : Meta) (ls : List Nat) (old : Group) :
    (s.counted k m ls old).core j = if j = old.core then
      { (s.core j).count 0x11 1 with
        lastIssue := AMap.put 0 (s.core j).lastIssue (old.slot % 4) (k + 1) } else s.core j := by
  unfold State.counted State.chosen
  simp only [modCore_core, modTeam_core, modGroup_core]
  split
  · simp_all [Core.count]
  · rfl

/-- Fields that `counted` leaves. -/
theorem counted_fields (s : State) (k : Nat) (m : Meta) (ls : List Nat) (old : Group) :
    let t := s.counted k m ls old
    t.mem = s.mem ∧ t.dirty = s.dirty ∧ t.pois = s.pois ∧ t.lines = s.lines ∧ t.dev = s.dev ∧
    t.clusters = s.clusters ∧ t.grids = s.grids ∧ t.trd = s.trd ∧ t.tenants = s.tenants ∧
    t.streams = s.streams ∧ t.faults = s.faults ∧ t.boot = s.boot ∧ t.plat = s.plat ∧
    t.fuses = s.fuses ∧ t.l2c = s.l2c ∧ t.l3c = s.l3c ∧ t.clk = s.clk ∧ t.time9 = s.time9 ∧
    t.pending = s.pending ∧ t.cur = s.cur ∧
    t.kept = s.kept ∧ t.volat = s.volat ∧ t.spills = s.spills ∧ t.sysDone = s.sysDone := by
  unfold State.counted State.chosen
  simp

/-- The state in which a completed instruction leaves the machine. -/
def State.issuedState (u : State) (m : Meta) (g : Group) (ls : List Nat) : State :=
  (u.modGroup u.cur fun h =>
    { h with ctl := { h.ctl with pc := g.ctl.pc + BitVec.ofNat 64 (instrSize m.i) } }).counted u.cur m ls g

theorem afterIssue_id (s : State) (k : Nat) (m : Meta) (old : Group)
    (hr : ∀ g, s.group? k = some g → g.trc.rec? = none)
    (hk : old.sys.skid = none) (hs : old.sys.stepping = false) : s.afterIssue k m old = s := by
  unfold State.afterIssue
  cases h : s.group? k with
  | none => rfl
  | some g => simp [hk, hs, endInterval_no_rec s k hr]

theorem firstEmpty_none (g : Group) (ls : List Nat) (us : List Use)
    (h : ∀ u ∈ us, g.emptyCells u ls = []) : g.firstEmpty ls us = none := by
  induction us with
  | nil => rfl
  | cons u us ih =>
    unfold Group.firstEmpty
    simp [h u (by simp)]
    exact ih fun v hv => h v (by simp [hv])

/-- An instruction whose operands are usable completes in the state its meaning gives, with the issue
counted (02 R26, R27). -/
theorem run_next (m : Meta) (body : Group → List Nat → State → Eff) (s u : State) (g h : Group)
    (hg : Runs s g) (hs : Usable g m.srcs (m.reads g (g.on m.c))) (hd : Fillable g m.dsts (g.on m.c))
    (hb : body g (g.on m.c) s = .next u) (hc : u.cur = s.cur) (hu : u.group? s.cur = some h)
    (hr : h.trc.rec? = none) (hst : u.streams = s.streams)
    (hf : m.FarFree g := by exact ⟨rfl, rfl⟩) :
    run m body s = .next (u.issuedState m g (g.on m.c)) := by
  have hde : (m.dsts.flatMap fun v => g.emptyCells v (g.on m.c)) = [] := by
    simp only [List.flatMap_eq_nil_iff]; exact hd
  have hbad : ((m.reads g (g.on m.c)).filter fun l =>
      m.srcs.any fun v => !(lanesIn g.regs.pois v [l]).isEmpty) = [] := by
    rw [List.filter_eq_nil_iff]
    intro l hl hany
    obtain ⟨v, hv, hv2⟩ := List.any_eq_true.1 hany
    have := hs.clean v hv
    unfold lanesIn at this hv2
    rw [List.filter_eq_nil_iff] at this
    have := this l hl
    simp_all
  have hat : s.attempt m body s.cur g = u.issuedState m g (g.on m.c) := by
    unfold State.attempt
    rw [hg.shadow]
    obtain ⟨hf1, hf2⟩ := hf
    simp only
    unfold State.issue
    simp only [Group.on] at *
    rw [firstEmpty_none _ _ _ hs.full]
    simp only [hde, hf1, hf2, List.any_nil, Bool.false_or, hbad, List.isEmpty_nil, Bool.not_true, Bool.false_and]
    unfold Meta.act
    rw [hg.replay]
    simp only [hb, Bool.false_eq_true, if_false]
    have hlog : ∀ v : State, v.logDests s.cur m (lanesOf (g.onLanes m.c)) g = v := by
      intro v; unfold State.logDests; simp [hg.unlogged]
    rw [hlog, ← hc]
    have : u.cur = s.cur := hc
    refine afterIssue_id _ _ _ _ ?_ hg.skid hg.stepping
    intro g' hg'
    rw [counted_group?] at hg'
    simp only [if_true, modGroup_group?_self, hc, hu, Option.map_some, Option.some.injEq] at hg'
    subst hg'
    rw [Group.marked, setDeps_eq]
    exact hr
  unfold run
  rw [hg.group]
  simp only [hat, hg.started, Bool.true_or, if_true]
  have : (u.issuedState m g (g.on m.c)).streams = s.streams := by
    unfold State.issuedState
    rw [(counted_fields _ _ _ _ _).2.2.2.2.2.2.2.2.2.1]
    simpa using hst
  rw [holds_of_streams _ _ this]
  rfl

/-- A control instruction whose operands are usable completes in the state its meaning gives, with the
issue counted (02 R26, R27; 04 R60). -/
theorem run_jump (m : Meta) (body : Group → List Nat → State → Eff) (s u : State) (g h : Group)
    (hg : Runs s g) (hs : Usable g m.srcs (m.reads g (g.on m.c))) (hd : Fillable g m.dsts (g.on m.c))
    (hb : body g (g.on m.c) s = .jump u) (_hc : u.cur = s.cur) (hu : u.group? s.cur = some h)
    (hr : h.trc.rec? = none) (hst : u.streams = s.streams)
    (hf : m.FarFree g := by exact ⟨rfl, rfl⟩) :
    run m body s = .next (u.counted s.cur m (g.on m.c) g) := by
  have hde : (m.dsts.flatMap fun v => g.emptyCells v (g.on m.c)) = [] := by
    simp only [List.flatMap_eq_nil_iff]; exact hd
  have hbad : ((m.reads g (g.on m.c)).filter fun l =>
      m.srcs.any fun v => !(lanesIn g.regs.pois v [l]).isEmpty) = [] := by
    rw [List.filter_eq_nil_iff]
    intro l hl hany
    obtain ⟨v, hv, hv2⟩ := List.any_eq_true.1 hany
    have := hs.clean v hv
    unfold lanesIn at this hv2
    rw [List.filter_eq_nil_iff] at this
    have := this l hl
    simp_all
  have hat : s.attempt m body s.cur g = u.counted s.cur m (g.on m.c) g := by
    unfold State.attempt
    rw [hg.shadow]
    obtain ⟨hf1, hf2⟩ := hf
    simp only
    unfold State.issue
    simp only [Group.on] at *
    rw [firstEmpty_none _ _ _ hs.full]
    simp only [hde, hf1, hf2, List.any_nil, Bool.false_or, hbad, List.isEmpty_nil, Bool.not_true, Bool.false_and]
    unfold Meta.act
    rw [hg.replay]
    simp only [hb, Bool.false_eq_true, if_false]
    have hlog : ∀ v : State, v.logDests s.cur m (lanesOf (g.onLanes m.c)) g = v := by
      intro v; unfold State.logDests; simp [hg.unlogged]
    rw [hlog]
    refine afterIssue_id _ _ _ _ ?_ hg.skid hg.stepping
    intro g' hg'
    rw [counted_group?] at hg'
    simp only [if_true, hu, Option.map_some, Option.some.injEq] at hg'
    subst hg'
    rw [Group.marked, setDeps_eq]
    exact hr
  unfold run
  rw [hg.group]
  simp only [hat, hg.started, Bool.true_or, if_true]
  have : (u.counted s.cur m (g.on m.c) g).streams = s.streams := by
    rw [(counted_fields _ _ _ _ _).2.2.2.2.2.2.2.2.2.1]
    simpa using hst
  rw [holds_of_streams _ _ this]
  rfl

/-- A state that differs from another in the group `cur` names and in the free values drawn only. -/
structure OwnOnly (s u : State) (h : Group) : Prop where
  rest : u = { s with freeCount := u.freeCount, groups := u.groups }
  own : u.group? s.cur = some h
  others : ∀ k, k ≠ s.cur → u.group? k = s.group? k

theorem OwnOnly.refl (s : State) (g : Group) (h : s.group? s.cur = some g) (n : Nat) :
    OwnOnly s { s with freeCount := n } g := ⟨rfl, h, fun _ _ => rfl⟩

theorem OwnOnly.mod (s : State) (g : Group) (h : s.group? s.cur = some g) (n : Nat) (F : Group → Group) :
    OwnOnly s (({ s with freeCount := n } : State).modGroup s.cur F) (F g) := by
  have hg : ({ s with freeCount := n } : State).group? s.cur = some g := h
  refine ⟨?_, by rw [modGroup_group?_self, hg]; rfl, fun k hk => ?_⟩
  · unfold State.modGroup; rw [hg]; rfl
  · rw [modGroup_group?, if_neg hk]; rfl

/-- An instruction whose meaning changes only the registers and the flags of its own group, and may draw
free values. -/
theorem run_regs (m : Meta) (body : Group → List Nat → State → Eff) (s u : State) (g x : Group)
    (cells : List Nat) (fl : BitVec 5)
    (hg : Runs s g) (hs : Usable g m.srcs (m.reads g (g.on m.c))) (hd : Fillable g m.dsts (g.on m.c))
    (hb : body g (g.on m.c) s = .next u) (ho : OwnOnly s u x)
    (hF : x = { g with regs := x.regs, sys := { g.sys with fpsr := g.sys.fpsr ||| fl } })
    (hk : RegsKept g.regs x.regs cells)
    (hfull : ∀ c ∈ cells, c ∉ x.regs.empt ∧ c ∉ x.regs.pois)
    (hfar : m.FarFree g := by exact ⟨rfl, rfl⟩) :
    ∃ t h, run m body s = .next t ∧ IssuedAs s t g h (instrSize m.i) cells fl ∧
      h.regs.v = x.regs.v ∧ h.regs.x = x.regs.x ∧ h.regs.s = x.regs.s ∧ h.regs.p = x.regs.p := by
  have hcur : u.cur = s.cur := by rw [ho.rest]
  refine ⟨_, ({ x with ctl := { x.ctl with pc := g.ctl.pc + BitVec.ofNat 64 (instrSize m.i) } } :
      Group).marked m (g.on m.c) g s.clk,
    run_next m body s u g x hg hs hd hb hcur ho.own (by rw [hF]; exact hg.unlogged) (by rw [ho.rest]) hfar, ?_, ?_⟩
  · have hf := counted_fields (u.modGroup s.cur fun h =>
      { h with ctl := { h.ctl with pc := g.ctl.pc + BitVec.ofNat 64 (instrSize m.i) } })
      s.cur m (g.on m.c) g
    simp only at hf
    unfold State.issuedState
    rw [hcur]
    have mk : ∀ x : Group, (x.marked m (g.on m.c) g s.clk).ctl = x.ctl ∧
        (x.marked m (g.on m.c) g s.clk).sys = x.sys ∧ (x.marked m (g.on m.c) g s.clk).mem = x.mem ∧
        (x.marked m (g.on m.c) g s.clk).park = x.park ∧
        (x.marked m (g.on m.c) g s.clk).regs =
          { x.regs with dep := (x.marked m (g.on m.c) g s.clk).regs.dep } := by
      intro x; unfold Group.marked; rw [setDeps_eq]; exact ⟨rfl, rfl, rfl, rfl, rfl⟩
    obtain ⟨k1, k2, k3, k4, k5⟩ := mk { x with ctl := { x.ctl with
      pc := g.ctl.pc + BitVec.ofNat 64 (instrSize m.i) } }
    obtain ⟨f1, f2, f3, f4, f5, f6, f7, f8, f9, f10, f11, f12, f13, f14, f15, f16, f17, f18, f19, f20, f21, f22, f23, f24⟩ := hf
    simp only [modGroup_mem, modGroup_dirty, modGroup_pois, modGroup_lines, modGroup_dev,
      modGroup_clusters, modGroup_grids, modGroup_trd, modGroup_tenants, modGroup_streams,
      modGroup_faults, modGroup_boot, modGroup_plat, modGroup_fuses, modGroup_l2c, modGroup_l3c,
      modGroup_clk, modGroup_time9, modGroup_pending, modGroup_cur, modGroup_kept, modGroup_volat, modGroup_spills, modGroup_sysDone] at f1 f2 f3 f4 f5 f6 f7 f8 f9 f10 f11 f12 f13 f14 f15 f16 f17 f18 f19 f20 f21 f22 f23 f24
    have hr := ho.rest
    have hclk : u.clk = s.clk := by rw [hr]
    constructor
    · rw [counted_group?, if_pos rfl, modGroup_group?_self, ho.own, modGroup_clk, hclk]
      rfl
    · rw [k1]; simp only; rw [hF]
    · rw [CellsKept]; rw [k5]; exact hk
    · rw [k5]; exact hfull
    · rw [k2]; simp only; rw [hF]
    · rw [k3]; simp only; rw [hF]
    · rw [k4]; simp only; rw [hF]
    · have e : ∀ {α : Type} (p : State → α), p { s with freeCount := u.freeCount, groups := u.groups } = p s →
          p u = p s := fun p h => by rw [hr]; exact h
      refine ⟨?_, ?_, ?_, f1.trans (e _ rfl), f2.trans (e _ rfl), f3.trans (e _ rfl), f4.trans (e _ rfl),
        f5.trans (e _ rfl), f6.trans (e _ rfl), f7.trans (e _ rfl), f8.trans (e _ rfl), f9.trans (e _ rfl),
        f10.trans (e _ rfl), f11.trans (e _ rfl), f12.trans (e _ rfl), f13.trans (e _ rfl),
        f14.trans (e _ rfl), ⟨f15.trans (e _ rfl), f16.trans (e _ rfl)⟩, ⟨f17.trans (e _ rfl), f18.trans (e _ rfl)⟩,
      ⟨f21.trans (e _ rfl), f22.trans (e _ rfl), f23.trans (e _ rfl), f24.trans (e _ rfl)⟩⟩
      · intro k hk
        rw [counted_group?, if_neg hk, modGroup_group?, if_neg hk, ho.others k hk]
      · intro k; rw [counted_team?]; simp only [modGroup_team?]; rw [hr]; rfl
      · intro k; rw [counted_core]; simp only [modGroup_core]; rw [hr]; rfl
    · rw [f19, hr]
  · unfold Group.marked; rw [setDeps_eq]; exact ⟨rfl, rfl, rfl, rfl⟩

/-- An instruction whose meaning completes in a state u of its own making. -/
theorem run_after (m : Meta) (body : Group → List Nat → State → Eff) (s u : State) (g x : Group)
    (hg : Runs s g) (hs : Usable g m.srcs (m.reads g (g.on m.c))) (hd : Fillable g m.dsts (g.on m.c))
    (hb : body g (g.on m.c) s = .next u) (hc : u.cur = s.cur) (hu : u.group? s.cur = some x)
    (hr : x.trc.rec? = none) (hst : u.streams = s.streams) (hpc : x.ctl.pc = g.ctl.pc)
    (hcore : x.core = g.core) (hslot : x.slot = g.slot) (hteam : x.team = g.team)
    (hfar : m.FarFree g := by exact ⟨rfl, rfl⟩) :
    Completes (run m body s) u (instrSize m.i) := by
  refine ⟨x, _, ({ x with ctl := { x.ctl with pc := g.ctl.pc + BitVec.ofNat 64 (instrSize m.i) } } :
      Group).marked m (g.on m.c) g u.clk, by rw [hc]; exact hu,
    run_next m body s u g x hg hs hd hb hc hu hr hst hfar, ?_⟩
  have hf := counted_fields (u.modGroup u.cur fun h =>
    { h with ctl := { h.ctl with pc := g.ctl.pc + BitVec.ofNat 64 (instrSize m.i) } })
    u.cur m (g.on m.c) g
  simp only at hf
  unfold State.issuedState
  have mk : ∀ x : Group, (x.marked m (g.on m.c) g u.clk).ctl = x.ctl ∧
      (x.marked m (g.on m.c) g u.clk).sys = x.sys ∧ (x.marked m (g.on m.c) g u.clk).mem = x.mem ∧
      (x.marked m (g.on m.c) g u.clk).park = x.park ∧
      (x.marked m (g.on m.c) g u.clk).regs =
        { x.regs with dep := (x.marked m (g.on m.c) g u.clk).regs.dep } := by
    intro x; unfold Group.marked; rw [setDeps_eq]; exact ⟨rfl, rfl, rfl, rfl, rfl⟩
  obtain ⟨k1, k2, k3, k4, k5⟩ := mk { x with ctl := { x.ctl with
    pc := g.ctl.pc + BitVec.ofNat 64 (instrSize m.i) } }
  obtain ⟨f1, f2, f3, f4, f5, f6, f7, f8, f9, f10, f11, f12, f13, f14, f15, f16, f17, f18, f19, f20, f21, f22, f23, f24⟩ := hf
  simp only [modGroup_mem, modGroup_dirty, modGroup_pois, modGroup_lines, modGroup_dev,
    modGroup_clusters, modGroup_grids, modGroup_trd, modGroup_tenants, modGroup_streams,
    modGroup_faults, modGroup_boot, modGroup_plat, modGroup_fuses, modGroup_l2c, modGroup_l3c,
    modGroup_clk, modGroup_time9, modGroup_pending, modGroup_cur, modGroup_kept, modGroup_volat, modGroup_spills, modGroup_sysDone] at f1 f2 f3 f4 f5 f6 f7 f8 f9 f10 f11 f12 f13 f14 f15 f16 f17 f18 f19 f20 f21 f22 f23 f24
  constructor
  · rw [counted_group?, if_pos rfl, modGroup_group?_self, hc, hu, modGroup_clk]
    rfl
  · rw [k1, hpc]
  · rw [CellsKept, k5]; exact fun c _ => ⟨rfl, Iff.rfl, Iff.rfl⟩
  · rw [k2]
  · rw [k3]
  · rw [k4]
  · refine ⟨?_, ?_, ?_, f1, f2, f3, f4, f5, f6, f7, f8, f9, f10, f11, f12, f13, f14, ⟨f15, f16⟩, ⟨f17, f18⟩,
      ⟨f21, f22, f23, f24⟩⟩
    · intro k hk
      rw [counted_group?, if_neg hk, modGroup_group?, if_neg hk]
    · intro k; rw [counted_team?, modGroup_team?, hteam]
    · intro k; rw [counted_core, modGroup_core, hcore, hslot]
  · rw [f19]

/-- A control instruction that moves its group: what it leaves. -/
theorem run_moved (m : Meta) (body : Group → List Nat → State → Eff) (s u : State) (g x : Group)
    (ctl : Ctrl)
    (hg : Runs s g) (hs : Usable g m.srcs (m.reads g (g.on m.c))) (hd : Fillable g m.dsts (g.on m.c))
    (hb : body g (g.on m.c) s = .jump u) (ho : OwnOnly s u x)
    (hF : x = { g with ctl := ctl, mem := { g.mem with ctlDep := x.mem.ctlDep } })
    (hfar : m.FarFree g := by exact ⟨rfl, rfl⟩) :
    ∃ t h, run m body s = .next t ∧ MovedTo s t g h ctl := by
  have hcur : u.cur = s.cur := by rw [ho.rest]
  refine ⟨_, x.marked m (g.on m.c) g s.clk,
    run_jump m body s u g x hg hs hd hb hcur ho.own (by rw [hF]; exact hg.unlogged) (by rw [ho.rest]) hfar, ?_⟩
  have hf := counted_fields u s.cur m (g.on m.c) g
  simp only at hf
  obtain ⟨f1, f2, f3, f4, f5, f6, f7, f8, f9, f10, f11, f12, f13, f14, f15, f16, f17, f18, f19, f20, f21, f22, f23, f24⟩ := hf
  have mk : (x.marked m (g.on m.c) g s.clk).ctl = x.ctl ∧
      (x.marked m (g.on m.c) g s.clk).sys = x.sys ∧ (x.marked m (g.on m.c) g s.clk).mem = x.mem ∧
      (x.marked m (g.on m.c) g s.clk).park = x.park ∧
      (x.marked m (g.on m.c) g s.clk).regs =
        { x.regs with dep := (x.marked m (g.on m.c) g s.clk).regs.dep } := by
    unfold Group.marked; rw [setDeps_eq]; exact ⟨rfl, rfl, rfl, rfl, rfl⟩
  obtain ⟨k1, k2, k3, k4, k5⟩ := mk
  have hr := ho.rest
  have hclk : u.clk = s.clk := by rw [hr]
  constructor
  · rw [counted_group?, if_pos rfl, ho.own, hclk]; rfl
  · rw [k1, hF]
  · rw [CellsKept, k5]
    have : x.regs = g.regs := by rw [hF]
    rw [this]
    exact fun c _ => ⟨rfl, Iff.rfl, Iff.rfl⟩
  · rw [k2, hF]
  · rw [k3]
    have : x.mem = { g.mem with ctlDep := x.mem.ctlDep } := by rw [hF]
    exact this
  · rw [k4, hF]
  · have e : ∀ {α : Type} (p : State → α), p { s with freeCount := u.freeCount, groups := u.groups } = p s →
        p u = p s := fun p h => by rw [hr]; exact h
    refine ⟨?_, ?_, ?_, f1.trans (e _ rfl), f2.trans (e _ rfl), f3.trans (e _ rfl), f4.trans (e _ rfl),
      f5.trans (e _ rfl), f6.trans (e _ rfl), f7.trans (e _ rfl), f8.trans (e _ rfl), f9.trans (e _ rfl),
      f10.trans (e _ rfl), f11.trans (e _ rfl), f12.trans (e _ rfl), f13.trans (e _ rfl),
      f14.trans (e _ rfl), ⟨f15.trans (e _ rfl), f16.trans (e _ rfl)⟩, ⟨f17.trans (e _ rfl), f18.trans (e _ rfl)⟩,
      ⟨f21.trans (e _ rfl), f22.trans (e _ rfl), f23.trans (e _ rfl), f24.trans (e _ rfl)⟩⟩
    · intro k hk
      rw [counted_group?, if_neg hk, ho.others k hk]
    · intro k; rw [counted_team?]; rw [hr]; rfl
    · intro k; rw [counted_core]; rw [hr]; rfl
  · rw [f19, hr]

theorem OwnOnly.modGroup {s u : State} {x : Group} (h : OwnOnly s u x) (F : Group → Group) :
    OwnOnly s (u.modGroup s.cur F) (F x) := by
  refine ⟨?_, by rw [modGroup_group?_self, h.own]; rfl, fun k hk => ?_⟩
  · unfold State.modGroup; rw [h.own]; simp only [State.setGroup]
    have hr := h.rest
    rw [hr]
  · rw [modGroup_group?, if_neg hk]; exact h.others k hk

end Sys2Proof.Machine
end

