-- ==== Sys2Proof/Laws/Integer.lean ====
section
/-!
SUPPORT. What the shared operations of register instructions do (05 R87, R88): the lanes written, the
values, and everything kept.
-/
namespace Sys2Proof.Machine

/-- A meaning that writes one value per lane to vector registers. -/
theorem run_lanes (m : Meta) (body : Group → List Nat → State → Eff) (s u : State) (g x : Group)
    (d : Opd) (k : Nat) (vs : List (Nat × Nat)) (fl : BitVec 5)
    (hg : Runs s g) (hs : Usable g m.srcs (m.reads g (g.on m.c))) (hd : Fillable g m.dsts (g.on m.c))
    (hv : VecOpd d) (hvs : vs.map Prod.fst = g.on m.c)
    (hb : body g (g.on m.c) s = .next u) (ho : OwnOnly s u x)
    (hF : x = { g.putList d k vs with sys := { g.sys with fpsr := g.sys.fpsr ||| fl } })
    (hfar : m.FarFree g := by exact ⟨rfl, rfl⟩) :
    ∃ t h, run m body s = .next t ∧ IssuedAs s t g h (instrSize m.i) (destCells d k (g.on m.c)) fl ∧
      ∀ e ∈ vs, h.rdN d k e.1 = e.2 % 2 ^ (32 * k) := by
  have h32 : ∀ e ∈ vs, e.1 < 32 := fun e he =>
    on_lt g m.c _ (hvs ▸ List.mem_map.2 ⟨e, he, rfl⟩)
  have hregs : x.regs = vs.foldl (fun r e => r.putN d k e.1 e.2) g.regs := by rw [hF]; rfl
  obtain ⟨t, h, ht, hi, hr⟩ := run_regs m body s u g x (destCells d k (g.on m.c)) fl hg hs hd hb ho
    (by rw [hF]; rfl)
    (by
      rw [hregs]
      exact foldl_putN_kept d k Prod.fst Prod.snd vs (g.on m.c)
        (fun e he => hvs ▸ List.mem_map.2 ⟨e, he, rfl⟩) (fun l hl => on_lt g m.c l hl) _)
    (by
      rw [hregs, ← hvs]
      exact foldl_putN_full d k Prod.fst Prod.snd vs g.regs h32) hfar
  refine ⟨t, h, ht, hi, fun e he => ?_⟩
  have := rdN_foldl_putN d k Prod.fst Prod.snd vs g hv h32 (by rw [hvs]; exact on_nodup g m.c) e he g.regs
  rw [← this]
  refine rdN_congr _ _ _ _ _ fun j _ => ?_
  rw [hregs] at hr
  rcases hv with ⟨n, rfl⟩ | ⟨n, rfl⟩
  · simp only [Group.rd32, opPlus, hr.1]
  · simp only [Group.rd32, opPlus, hr.2.1]

theorem mem_destCells (o : Opd) (k : Nat) (ls : List Nat) (c : Nat) :
    c ∈ destCells o k ls ↔ ∃ i, i < k ∧ ∃ l, l ∈ ls ∧ cellOf (opPlus o i) l = c := by
  unfold destCells
  rw [List.mem_flatMap]
  constructor
  · rintro ⟨i, hi, hc⟩
    exact ⟨i, List.mem_range.1 hi, List.mem_map.1 hc⟩
  · rintro ⟨i, hi, hc⟩
    exact ⟨i, List.mem_range.2 hi, List.mem_map.2 hc⟩

theorem destCells_s (j : Nat) (ls : List Nat) (hl : ls ≠ []) (c : Nat) :
    c ∈ destCells (.s j) 1 ls ↔ c = cellOf (.s j) 0 := by
  rw [mem_destCells]
  constructor
  · rintro ⟨i, hi, l, _, h⟩
    have : i = 0 := by omega
    subst this
    exact h.symm
  · intro h
    obtain ⟨a, ha⟩ := List.exists_mem_of_ne_nil ls hl
    exact ⟨0, by omega, a, ha, h.symm⟩

/-- A meaning that writes one scalar register, or nothing when no lane is on. -/
theorem run_scalar (m : Meta) (body : Group → List Nat → State → Eff) (s u : State) (g : Group) (n j w : Nat)
    (hg : Runs s g) (hs : Usable g m.srcs (m.reads g (g.on m.c))) (hd : Fillable g m.dsts (g.on m.c))
    (hb : body g (g.on m.c) s = .next u)
    (hu : u = if g.on m.c = [] then ({ s with freeCount := n } : State)
      else ({ s with freeCount := n } : State).putS s.cur (.s j) w)
    (hfar : m.FarFree g := by exact ⟨rfl, rfl⟩) :
    ∃ t h, run m body s = .next t ∧ IssuedAs s t g h (instrSize m.i) (destCells (.s j) 1 (g.on m.c)) 0 ∧
      (g.on m.c ≠ [] → h.rdS (.s j) = BitVec.ofNat 64 w) := by
  have z : g = { g with regs := g.regs, sys := { g.sys with fpsr := g.sys.fpsr ||| 0 } } := by
    simp
  by_cases he : g.on m.c = []
  · rw [if_pos he] at hu
    obtain ⟨t, h, ht, hi, hr⟩ := run_regs m body s u g g (destCells (.s j) 1 (g.on m.c)) 0 hg hs hd hb
      (by rw [hu]; exact OwnOnly.refl s g hg.group n) z (RegsKept.rfl' _ _)
      (by rw [he]; intro c hc; simp [destCells] at hc) hfar
    exact ⟨t, h, ht, hi, fun h => absurd he h⟩
  · rw [if_neg he] at hu
    obtain ⟨t, h, ht, hi, hr⟩ := run_regs m body s u g (g.putS (.s j) (BitVec.ofNat 64 w))
      (destCells (.s j) 1 (g.on m.c)) 0 hg hs hd hb
      (by rw [hu]; exact OwnOnly.mod s g hg.group n _) (by simp [Group.putS])
      ((put_kept g.regs (.s j) 0 _ (by decide)).mono fun c hc => by
        rw [destCells_s j _ he]; exact List.mem_singleton.1 hc)
      (by
        intro c hc
        rw [destCells_s j _ he] at hc
        subst hc
        exact put_full g.regs (.s j) 0 _) hfar
    refine ⟨t, h, ht, hi, fun _ => ?_⟩
    simp only [Group.rdS, hr.2.2.1, Group.putS, Regs.put, AMap.get_put_self, BitVec.ofNat_toNat, BitVec.setWidth_eq]

/-- IntPut of a result fits the registers it is written to. -/
theorem intExt_lt (t : Ty) (r : Nat) (h32 : t.width = 64 → t.regs = 2) :
    intExt t false r < 2 ^ (32 * t.regs) := by
  cases t <;> simp only [intExt, Ty.width, Ty.isI, Ty.regs, Ty.wide] <;>
    first
    | exact Nat.mod_lt _ (by decide)
    | exact (BitVec.isLt _)
    | exact Nat.lt_of_lt_of_le (Nat.mod_lt _ (by decide)) (by decide)

/-- `intOp` with an exact result: the value of every lane on, or of the scalar, is IntPut of the
function applied to IntSrc of the sources. -/
theorem intOp_exact (i : Instr) (c : Ctl) (f : IForm) (d : Opd) (args : List Arg) (compute : Bool)
    (op : List Nat → Nat) (s : State) (g : Group) (hax : (f.ax && compute) = false)
    (hsc : f.scal = true → ∃ j, d = .s j) (hve : f.scal = false → VecOpd d)
    (hg : Runs s g) (hs : Usable g (args.flatMap (Arg.use f.scal f.ty.regs)) (g.on c))
    (hd : Fillable g [⟨d, if f.scal then 1 else f.ty.regs, false⟩] (g.on c)) :
    ∃ t h, intOp i c f d args compute op s = .next t ∧
      IssuedAs s t g h (instrSize i) (destCells d (if f.scal then 1 else f.ty.regs) (g.on c)) 0 ∧
      (f.scal = true → g.on c ≠ [] →
        h.rdS d = BitVec.ofNat 64 (intExt f.ty true (op (args.map (Arg.val true f.ty g 0))))) ∧
      (f.scal = false → ∀ l ∈ g.on c,
        h.rdN d f.ty.regs l = intExt f.ty false (op (args.map (Arg.val false f.ty g l)))) := by
  unfold intOp
  cases hf : f.scal with
  | true =>
    obtain ⟨j, rfl⟩ := hsc hf
    simp only [hf, if_true] at hs hd ⊢
    obtain ⟨t, h, ht, hi, hr⟩ := run_scalar
      { i := i, c := c, srcs := args.flatMap (Arg.use true f.ty.regs), dsts := [⟨.s j, 1, false⟩] }
      (fun g ls s =>
        if ls.isEmpty then .next s
        else .next (s.putS s.cur (.s j) (intExt f.ty true (op (args.map (Arg.val true f.ty g 0))))))
      s g s.freeCount j (intExt f.ty true (op (args.map (Arg.val true f.ty g 0)))) hg hs hd
      (u := if g.on c = [] then s else s.putS s.cur (.s j) (intExt f.ty true (op (args.map (Arg.val true f.ty g 0)))))
      (by by_cases he : g.on c = [] <;> simp [he]) rfl
    exact ⟨t, h, ht, hi, fun _ => hr, fun h => by simp at h⟩
  | false =>
    have hv := hve hf
    simp only [hf, hax, Bool.false_eq_true, if_false] at hs hd ⊢
    obtain ⟨t, h, ht, hi, hr⟩ := run_lanes
      { i := i, c := c, srcs := args.flatMap (Arg.use false f.ty.regs), dsts := [⟨d, f.ty.regs, false⟩] }
      s g _ d f.ty.regs
      ((g.on c).map fun l => (l, intExt f.ty false (op (args.map (Arg.val false f.ty g l))))) 0 hg hs hd hv
      (by simp [List.map_map, Function.comp_def])
      (u := ({ s with freeCount := s.freeCount } : State).modGroup s.cur fun h =>
        h.putList d f.ty.regs ((g.on c).map fun l => (l, intExt f.ty false (op (args.map (Arg.val false f.ty g l))))))
      (body := fun g ls s => .next (s.modGroup s.cur fun h =>
          h.putList d f.ty.regs (List.map (fun e => (e.1, intExt f.ty false e.2))
            (ls.map fun l => (l, op (args.map (Arg.val false f.ty g l)))))))
      (by simp [List.map_map, Function.comp_def]) (OwnOnly.mod s g hg.group _ _)
      (by simp [Group.putList])
    refine ⟨t, h, ht, hi, fun h => by simp at h, fun _ l hl => ?_⟩
    rw [hr (l, _) (List.mem_map.2 ⟨l, hl, rfl⟩)]
    exact Nat.mod_eq_of_lt (intExt_lt _ _ (by cases f.ty <;> simp [Ty.width, Ty.regs, Ty.wide]))

end Sys2Proof.Machine
end

