-- ==== Sys2Proof/Laws/Quiet.lean ====
section
/-!
SUPPORT. Where no stream records, packets change nothing (21 R446).
-/
namespace Sys2Proof.Machine

theorem Untraced.of_streams {s t : State} (h : Untraced s) (e : t.streams = s.streams) : Untraced t := by
  intro a b
  have := h a b
  simpa [State.traces, State.stream, e] using this

theorem emitPC_untraced (s : State) (h : Untraced s) (gid bitNo ty : Nat) (pc : Word64) (mid : List Byte)
    (tgt : Option Word64) : s.emitPC gid bitNo ty pc mid tgt = s := by
  unfold State.emitPC
  cases s.group? gid with
  | none => rfl
  | some g => simp only; rw [if_neg (by rw [h]; simp)]

theorem emitG_untraced (s : State) (h : Untraced s) (gid unit bitNo ty : Nat) (rest : List Byte) :
    s.emitG gid unit bitNo ty rest = s := by
  unfold State.emitG
  cases s.group? gid with
  | none => rfl
  | some g => simp only; rw [if_neg (by rw [h]; simp)]

theorem station_untraced (s : State) (h : Untraced s) (die kind inst ev arg : Nat) (t : Option Nat) :
    s.station die kind inst ev arg t = s := by
  have off : ∀ a, (!s.traces a ctlSTN) = true := fun a => by rw [h]; rfl
  unfold State.station
  cases t with
  | none =>
    simp only
    generalize List.range 65 = l
    induction l with
    | nil => rfl
    | cons a l ih => rw [List.foldl_cons, if_pos (off a)]; exact ih
  | some t => simp only [off, if_true]

end Sys2Proof.Machine
end

