-- ==== Sys2Proof/Laws/Control.lean ====
section
/-!
SUPPORT. What the shared steps of control flow do: targets, the stack on chip, branches (04 R61 to R71).
-/
namespace Sys2Proof.Machine

/-- A code address that CheckTarget accepts (02 R22). -/
def okTarget (a : Word64) : Prop := a.toNat % 8 = 0 ∧ canonical a.toNat = true

/-- A push stays on chip (04 R65). -/
def Ctrl.room (c : Ctrl) : Prop :=
  c.stack.length < 32 ∧ c.stack.length + c.deep < 4096 ∧ (c.stack = [] → c.deep = 0)

theorem ctlOn_eq (s : State) (k : Nat) (m : Mask) (p : VPos) : ∃ F : Group → Group,
    s.ctlOn k m p = s.modGroup k F ∧ ∀ g : Group, F g = { g with mem := { g.mem with ctlDep := (F g).mem.ctlDep } } :=
  ⟨_, rfl, fun _ => rfl⟩

theorem fill_id (s : State) (k : Nat) (g : Group) (c : Ctrl) (h : c.stack = [] → c.deep = 0) :
    s.fillTop k g c = .ok (c, s) := by
  unfold State.fillTop
  rw [if_pos]
  cases hs : c.stack with
  | nil => simp [h hs]
  | cons e r => simp

theorem push_ok (s : State) (k : Nat) (g : Group) (c : Ctrl) (e : Entry) (h1 : c.stack.length < 32)
    (h2 : c.stack.length + c.deep < 4096) :
    s.push32 k g c e = .ok ({ c with stack := e :: c.stack }, s) := by
  unfold State.push32
  rw [if_neg (by omega)]; simp [h1]

theorem checkTarget_none (ts : List (Nat × Nat)) (h : ∀ t ∈ ts, t.2 % 8 = 0 ∧ canonical t.2 = true) : checkTarget ts = none := by
  unfold checkTarget
  have a : (ts.filter fun t => t.2 % 8 != 0) = [] := by
    rw [List.filter_eq_nil_iff]; intro t ht; simp [(h t ht).1]
  have b : (ts.filter fun t => canonical t.2 == false) = [] := by
    rw [List.filter_eq_nil_iff]; intro t ht; simp [(h t ht).2]
  rw [a]
  simp only [List.isEmpty_nil, Bool.not_true, Bool.false_eq_true, if_false]
  rw [b]; rfl

/-- The lanes in which a branch reads its condition (04 R71). -/
def Group.brLanes (g : Group) (c : Ctl) : List Nat := if (g.on c).isEmpty then lanesOf g.ctl.act else g.on c

/-- The shared branch (04 R61, R71): falls through, moves PC, or splits the mask. -/
theorem branch_ok (i : Instr) (c : Ctl) (srcs : List Use) (taken : Group → Bool) (tgt : Word64 → Word64) (s : State) (g : Group)
  (hg : Runs s g) (hu : Untraced s) (hs : Usable g srcs (g.brLanes c)) (hc : okTarget (tgt g.ctl.pc)) :
    let on : Mask := if taken g then maskOf (g.on c) else 0
    let off : Mask := g.ctl.act &&& ~~~on
    let next : Word64 := g.ctl.pc + BitVec.ofNat 64 (instrSize i)
    let Mv := fun ctl => ∃ t h, branch i c srcs taken tgt s = .next t ∧ MovedTo s t g h ctl
    (on = 0 → Mv { g.ctl with pc := next }) ∧
    (on ≠ 0 → off = 0 → Mv { g.ctl with pc := tgt g.ctl.pc }) ∧
    (on ≠ 0 → off ≠ 0 → g.ctl.room →
      (∀ e rest, g.ctl.stack = e :: rest → e.kind = .div → e.pc = next →
        Mv { g.ctl with
          pc := tgt g.ctl.pc, act := on
          stack := { e with pend := e.pend ||| off, restore := e.restore ||| g.ctl.act } :: rest }) ∧
      ((∀ e rest, g.ctl.stack = e :: rest → ¬ (e.kind = .div ∧ e.pc = next)) →
        Mv { g.ctl with
          pc := tgt g.ctl.pc, act := on
          stack := ⟨next, off, g.ctl.act, 0, 0, .div⟩ :: g.ctl.stack })) := by
  intro on off next Mv
  have hct : ∀ ls : List Nat, checkTarget (ls.map fun l => (l, (tgt g.ctl.pc).toNat)) = none := by
    intro ls
    apply checkTarget_none
    intro t ht
    simp only [List.mem_map] at ht
    obtain ⟨l, -, rfl⟩ := ht
    exact hc
  -- the body
  have main : ∀ ctl : Ctrl, s.transfer s.cur g on (tgt g.ctl.pc) next = .ok (s.setCtl s.cur ctl) → Mv ctl := by
    intro ctl h
    obtain ⟨F, hF, hF2⟩ := ctlOn_eq (s.setCtl s.cur ctl) s.cur g.ctl.act (g.depIn c srcs (lanesOf g.ctl.act))
    have o1 : OwnOnly s (s.setCtl s.cur ctl) { g with ctl := ctl } :=
      OwnOnly.mod s g hg.group s.freeCount fun g => { g with ctl := ctl }
    refine run_moved _ _ s ((s.setCtl s.cur ctl).modGroup s.cur F) g (F { g with ctl := ctl }) ctl hg ?_
      (by intro u hu; simp at hu) ?_ (o1.modGroup F) (hF2 _)
    · unfold Meta.reads
      unfold Group.brLanes at hs
      simpa using hs
    · simp only [Group.on]
      have : s.transfer s.cur g (if taken g then maskOf (lanesOf (g.onLanes c)) else 0) (tgt g.ctl.pc) next =
          .ok (s.setCtl s.cur ctl) := h
      simp only [this, State.ctlAfter, stackEff, next] at hF ⊢
      rw [hF, hct]
  refine ⟨fun h0 => main _ ?_, fun h1 h2 => main _ ?_, fun h1 h2 hr => ⟨fun e rest hst hk hp => main _ ?_, fun hn => main _ ?_⟩⟩
  · unfold State.transfer; rw [if_pos h0]
  · unfold State.transfer; rw [if_neg h1]; simp only
    rw [if_pos h2]
    split
    · rfl
    · rw [emitPC_untraced]; exact hu.of_streams (by simp [State.setCtl])
  · unfold State.transfer; rw [if_neg h1]; simp only
    rw [if_neg h2, fill_id _ _ _ _ hr.2.2]
    simp only [hst, hk, hp, true_and, if_true]
    rw [emitPC_untraced _ (hu.of_streams (by simp [State.setCtl]))]
    simp [Ctrl.setTop, hst, on, off]
  · unfold State.transfer; rw [if_neg h1]; simp only
    rw [if_neg h2, fill_id _ _ _ _ hr.2.2]
    cases hst : g.ctl.stack with
    | nil =>
      simp only [hst]
      rw [push_ok _ _ _ _ _ hr.1 hr.2.1]
      simp only
      rw [emitPC_untraced _ (hu.of_streams (by simp [State.setCtl]))]
      rw [hst]
    | cons e rest =>
      simp only [hst, if_neg (hn e rest hst)]
      rw [push_ok _ _ _ _ _ hr.1 hr.2.1]
      simp only
      rw [emitPC_untraced _ (hu.of_streams (by simp [State.setCtl]))]
      rw [hst]

end Sys2Proof.Machine
end

