-- ==== Sys2Proof/Laws/Decode.lean ====
section
/-!
SUPPORT. Reading a field of a packed first word gives what was packed (02 Tables 2-2 to 2-5): one lemma
per format and field, for fields within their widths.
-/
namespace Sys2Proof

/-- A digit of a number written with its higher and lower part. -/
theorem bitsAt_digit (w hi f low lo n : Nat) (hf : f < 2 ^ n) (hl : low < 2 ^ lo)
    (h : w = (hi * 2 ^ n + f) * 2 ^ lo + low) : bitsAt w lo n = f := by
  subst h
  unfold bitsAt
  rw [Nat.mul_comm, Nat.mul_add_div (Nat.two_pow_pos lo), Nat.div_eq_of_lt hl, Nat.add_zero,
    Nat.mul_comm, Nat.mul_add_mod, Nat.mod_eq_of_lt hf]

theorem bitAt_digit (w hi low lo : Nat) (b : Bool) (hl : low < 2 ^ lo)
    (h : w = (hi * 2 + bit b) * 2 ^ lo + low) : bitAt w lo = b := by
  have : bitsAt w lo 1 = bit b := bitsAt_digit w hi (bit b) low lo 1 (by cases b <;> decide) hl (by simpa using h)
  unfold bitsAt at this
  unfold bitAt
  rw [show w / 2 ^ lo % 2 = bit b from this]
  cases b <;> rfl

theorem bit_le (b : Bool) : bit b ≤ 1 := by cases b <;> decide

theorem word0_r_op (op pg dst sa sb sc md ext : Nat) (ax neg fa fb fc : Bool) (w1 : Option Nat)
    (h0 : op < 2 ^ 8) (h1 : pg < 2 ^ 3) (h2 : dst < 2 ^ 8) (h3 : sa < 2 ^ 8) (h4 : sb < 2 ^ 8) (h5 : sc < 2 ^ 8) (h6 : md < 2 ^ 8) (h7 : ext < 2 ^ 7)
    : bitsAt (View.word0 ⟨op, ax, ⟨neg, pg⟩, .r dst sa sb sc fa fb fc md ext, w1⟩) 56 8 = op := by
  refine bitsAt_digit _ (0) op (bit ax * 2 ^ 55 + bit neg * 2 ^ 54 + pg * 2 ^ 51 + dst * 2 ^ 43 + sa * 2 ^ 35 + sb * 2 ^ 27 + sc * 2 ^ 19 + bit fa * 2 ^ 18 + bit fb * 2 ^ 17 + bit fc * 2 ^ 16 + md * 2 ^ 8 + ext * 2 ^ 1 + bit w1.isSome) 56 8 h0 ?_ ?_
  · have e0 := bit_le ax; generalize bit ax = b0 at *; have e1 := bit_le neg; generalize bit neg = b1 at *; have e2 := bit_le fa; generalize bit fa = b2 at *; have e3 := bit_le fb; generalize bit fb = b3 at *; have e4 := bit_le fc; generalize bit fc = b4 at *; have e5 := bit_le w1.isSome; generalize bit w1.isSome = b5 at *; omega
  · simp only [View.word0, Body.pack]; have e0 := bit_le ax; generalize bit ax = b0 at *; have e1 := bit_le neg; generalize bit neg = b1 at *; have e2 := bit_le fa; generalize bit fa = b2 at *; have e3 := bit_le fb; generalize bit fb = b3 at *; have e4 := bit_le fc; generalize bit fc = b4 at *; have e5 := bit_le w1.isSome; generalize bit w1.isSome = b5 at *; omega

theorem word0_r_ax (op pg dst sa sb sc md ext : Nat) (ax neg fa fb fc : Bool) (w1 : Option Nat)
    (h1 : pg < 2 ^ 3) (h2 : dst < 2 ^ 8) (h3 : sa < 2 ^ 8) (h4 : sb < 2 ^ 8) (h5 : sc < 2 ^ 8) (h6 : md < 2 ^ 8) (h7 : ext < 2 ^ 7)
    : bitAt (View.word0 ⟨op, ax, ⟨neg, pg⟩, .r dst sa sb sc fa fb fc md ext, w1⟩) 55 = ax := by
  refine bitAt_digit _ (op) (bit neg * 2 ^ 54 + pg * 2 ^ 51 + dst * 2 ^ 43 + sa * 2 ^ 35 + sb * 2 ^ 27 + sc * 2 ^ 19 + bit fa * 2 ^ 18 + bit fb * 2 ^ 17 + bit fc * 2 ^ 16 + md * 2 ^ 8 + ext * 2 ^ 1 + bit w1.isSome) 55 ax ?_ ?_
  · have e1 := bit_le neg; generalize bit neg = b1 at *; have e2 := bit_le fa; generalize bit fa = b2 at *; have e3 := bit_le fb; generalize bit fb = b3 at *; have e4 := bit_le fc; generalize bit fc = b4 at *; have e5 := bit_le w1.isSome; generalize bit w1.isSome = b5 at *; omega
  · simp only [View.word0, Body.pack]; have e0 := bit_le ax; generalize bit ax = b0 at *; have e1 := bit_le neg; generalize bit neg = b1 at *; have e2 := bit_le fa; generalize bit fa = b2 at *; have e3 := bit_le fb; generalize bit fb = b3 at *; have e4 := bit_le fc; generalize bit fc = b4 at *; have e5 := bit_le w1.isSome; generalize bit w1.isSome = b5 at *; omega

theorem word0_r_neg (op pg dst sa sb sc md ext : Nat) (ax neg fa fb fc : Bool) (w1 : Option Nat)
    (h1 : pg < 2 ^ 3) (h2 : dst < 2 ^ 8) (h3 : sa < 2 ^ 8) (h4 : sb < 2 ^ 8) (h5 : sc < 2 ^ 8) (h6 : md < 2 ^ 8) (h7 : ext < 2 ^ 7)
    : bitAt (View.word0 ⟨op, ax, ⟨neg, pg⟩, .r dst sa sb sc fa fb fc md ext, w1⟩) 54 = neg := by
  refine bitAt_digit _ (op * 2 ^ 1 + bit ax) (pg * 2 ^ 51 + dst * 2 ^ 43 + sa * 2 ^ 35 + sb * 2 ^ 27 + sc * 2 ^ 19 + bit fa * 2 ^ 18 + bit fb * 2 ^ 17 + bit fc * 2 ^ 16 + md * 2 ^ 8 + ext * 2 ^ 1 + bit w1.isSome) 54 neg ?_ ?_
  · have e2 := bit_le fa; generalize bit fa = b2 at *; have e3 := bit_le fb; generalize bit fb = b3 at *; have e4 := bit_le fc; generalize bit fc = b4 at *; have e5 := bit_le w1.isSome; generalize bit w1.isSome = b5 at *; omega
  · simp only [View.word0, Body.pack]; have e0 := bit_le ax; generalize bit ax = b0 at *; have e1 := bit_le neg; generalize bit neg = b1 at *; have e2 := bit_le fa; generalize bit fa = b2 at *; have e3 := bit_le fb; generalize bit fb = b3 at *; have e4 := bit_le fc; generalize bit fc = b4 at *; have e5 := bit_le w1.isSome; generalize bit w1.isSome = b5 at *; omega

theorem word0_r_pg (op pg dst sa sb sc md ext : Nat) (ax neg fa fb fc : Bool) (w1 : Option Nat)
    (h0 : pg < 2 ^ 3) (h1 : dst < 2 ^ 8) (h2 : sa < 2 ^ 8) (h3 : sb < 2 ^ 8) (h4 : sc < 2 ^ 8) (h5 : md < 2 ^ 8) (h6 : ext < 2 ^ 7)
    : bitsAt (View.word0 ⟨op, ax, ⟨neg, pg⟩, .r dst sa sb sc fa fb fc md ext, w1⟩) 51 3 = pg := by
  refine bitsAt_digit _ (op * 2 ^ 2 + bit ax * 2 ^ 1 + bit neg) pg (dst * 2 ^ 43 + sa * 2 ^ 35 + sb * 2 ^ 27 + sc * 2 ^ 19 + bit fa * 2 ^ 18 + bit fb * 2 ^ 17 + bit fc * 2 ^ 16 + md * 2 ^ 8 + ext * 2 ^ 1 + bit w1.isSome) 51 3 h0 ?_ ?_
  · have e2 := bit_le fa; generalize bit fa = b2 at *; have e3 := bit_le fb; generalize bit fb = b3 at *; have e4 := bit_le fc; generalize bit fc = b4 at *; have e5 := bit_le w1.isSome; generalize bit w1.isSome = b5 at *; omega
  · simp only [View.word0, Body.pack]; have e0 := bit_le ax; generalize bit ax = b0 at *; have e1 := bit_le neg; generalize bit neg = b1 at *; have e2 := bit_le fa; generalize bit fa = b2 at *; have e3 := bit_le fb; generalize bit fb = b3 at *; have e4 := bit_le fc; generalize bit fc = b4 at *; have e5 := bit_le w1.isSome; generalize bit w1.isSome = b5 at *; omega

theorem word0_r_dst (op pg dst sa sb sc md ext : Nat) (ax neg fa fb fc : Bool) (w1 : Option Nat)
    (h0 : dst < 2 ^ 8) (h1 : sa < 2 ^ 8) (h2 : sb < 2 ^ 8) (h3 : sc < 2 ^ 8) (h4 : md < 2 ^ 8) (h5 : ext < 2 ^ 7)
    : bitsAt (View.word0 ⟨op, ax, ⟨neg, pg⟩, .r dst sa sb sc fa fb fc md ext, w1⟩) 43 8 = dst := by
  refine bitsAt_digit _ (op * 2 ^ 5 + bit ax * 2 ^ 4 + bit neg * 2 ^ 3 + pg) dst (sa * 2 ^ 35 + sb * 2 ^ 27 + sc * 2 ^ 19 + bit fa * 2 ^ 18 + bit fb * 2 ^ 17 + bit fc * 2 ^ 16 + md * 2 ^ 8 + ext * 2 ^ 1 + bit w1.isSome) 43 8 h0 ?_ ?_
  · have e2 := bit_le fa; generalize bit fa = b2 at *; have e3 := bit_le fb; generalize bit fb = b3 at *; have e4 := bit_le fc; generalize bit fc = b4 at *; have e5 := bit_le w1.isSome; generalize bit w1.isSome = b5 at *; omega
  · simp only [View.word0, Body.pack]; have e0 := bit_le ax; generalize bit ax = b0 at *; have e1 := bit_le neg; generalize bit neg = b1 at *; have e2 := bit_le fa; generalize bit fa = b2 at *; have e3 := bit_le fb; generalize bit fb = b3 at *; have e4 := bit_le fc; generalize bit fc = b4 at *; have e5 := bit_le w1.isSome; generalize bit w1.isSome = b5 at *; omega

theorem word0_r_sa (op pg dst sa sb sc md ext : Nat) (ax neg fa fb fc : Bool) (w1 : Option Nat)
    (h0 : sa < 2 ^ 8) (h1 : sb < 2 ^ 8) (h2 : sc < 2 ^ 8) (h3 : md < 2 ^ 8) (h4 : ext < 2 ^ 7)
    : bitsAt (View.word0 ⟨op, ax, ⟨neg, pg⟩, .r dst sa sb sc fa fb fc md ext, w1⟩) 35 8 = sa := by
  refine bitsAt_digit _ (op * 2 ^ 13 + bit ax * 2 ^ 12 + bit neg * 2 ^ 11 + pg * 2 ^ 8 + dst) sa (sb * 2 ^ 27 + sc * 2 ^ 19 + bit fa * 2 ^ 18 + bit fb * 2 ^ 17 + bit fc * 2 ^ 16 + md * 2 ^ 8 + ext * 2 ^ 1 + bit w1.isSome) 35 8 h0 ?_ ?_
  · have e2 := bit_le fa; generalize bit fa = b2 at *; have e3 := bit_le fb; generalize bit fb = b3 at *; have e4 := bit_le fc; generalize bit fc = b4 at *; have e5 := bit_le w1.isSome; generalize bit w1.isSome = b5 at *; omega
  · simp only [View.word0, Body.pack]; have e0 := bit_le ax; generalize bit ax = b0 at *; have e1 := bit_le neg; generalize bit neg = b1 at *; have e2 := bit_le fa; generalize bit fa = b2 at *; have e3 := bit_le fb; generalize bit fb = b3 at *; have e4 := bit_le fc; generalize bit fc = b4 at *; have e5 := bit_le w1.isSome; generalize bit w1.isSome = b5 at *; omega

theorem word0_r_sb (op pg dst sa sb sc md ext : Nat) (ax neg fa fb fc : Bool) (w1 : Option Nat)
    (h0 : sb < 2 ^ 8) (h1 : sc < 2 ^ 8) (h2 : md < 2 ^ 8) (h3 : ext < 2 ^ 7)
    : bitsAt (View.word0 ⟨op, ax, ⟨neg, pg⟩, .r dst sa sb sc fa fb fc md ext, w1⟩) 27 8 = sb := by
  refine bitsAt_digit _ (op * 2 ^ 21 + bit ax * 2 ^ 20 + bit neg * 2 ^ 19 + pg * 2 ^ 16 + dst * 2 ^ 8 + sa) sb (sc * 2 ^ 19 + bit fa * 2 ^ 18 + bit fb * 2 ^ 17 + bit fc * 2 ^ 16 + md * 2 ^ 8 + ext * 2 ^ 1 + bit w1.isSome) 27 8 h0 ?_ ?_
  · have e2 := bit_le fa; generalize bit fa = b2 at *; have e3 := bit_le fb; generalize bit fb = b3 at *; have e4 := bit_le fc; generalize bit fc = b4 at *; have e5 := bit_le w1.isSome; generalize bit w1.isSome = b5 at *; omega
  · simp only [View.word0, Body.pack]; have e0 := bit_le ax; generalize bit ax = b0 at *; have e1 := bit_le neg; generalize bit neg = b1 at *; have e2 := bit_le fa; generalize bit fa = b2 at *; have e3 := bit_le fb; generalize bit fb = b3 at *; have e4 := bit_le fc; generalize bit fc = b4 at *; have e5 := bit_le w1.isSome; generalize bit w1.isSome = b5 at *; omega

theorem word0_r_sc (op pg dst sa sb sc md ext : Nat) (ax neg fa fb fc : Bool) (w1 : Option Nat)
    (h0 : sc < 2 ^ 8) (h1 : md < 2 ^ 8) (h2 : ext < 2 ^ 7)
    : bitsAt (View.word0 ⟨op, ax, ⟨neg, pg⟩, .r dst sa sb sc fa fb fc md ext, w1⟩) 19 8 = sc := by
  refine bitsAt_digit _ (op * 2 ^ 29 + bit ax * 2 ^ 28 + bit neg * 2 ^ 27 + pg * 2 ^ 24 + dst * 2 ^ 16 + sa * 2 ^ 8 + sb) sc (bit fa * 2 ^ 18 + bit fb * 2 ^ 17 + bit fc * 2 ^ 16 + md * 2 ^ 8 + ext * 2 ^ 1 + bit w1.isSome) 19 8 h0 ?_ ?_
  · have e2 := bit_le fa; generalize bit fa = b2 at *; have e3 := bit_le fb; generalize bit fb = b3 at *; have e4 := bit_le fc; generalize bit fc = b4 at *; have e5 := bit_le w1.isSome; generalize bit w1.isSome = b5 at *; omega
  · simp only [View.word0, Body.pack]; have e0 := bit_le ax; generalize bit ax = b0 at *; have e1 := bit_le neg; generalize bit neg = b1 at *; have e2 := bit_le fa; generalize bit fa = b2 at *; have e3 := bit_le fb; generalize bit fb = b3 at *; have e4 := bit_le fc; generalize bit fc = b4 at *; have e5 := bit_le w1.isSome; generalize bit w1.isSome = b5 at *; omega

theorem word0_r_fa (op pg dst sa sb sc md ext : Nat) (ax neg fa fb fc : Bool) (w1 : Option Nat)
    (h1 : md < 2 ^ 8) (h2 : ext < 2 ^ 7)
    : bitAt (View.word0 ⟨op, ax, ⟨neg, pg⟩, .r dst sa sb sc fa fb fc md ext, w1⟩) 18 = fa := by
  refine bitAt_digit _ (op * 2 ^ 37 + bit ax * 2 ^ 36 + bit neg * 2 ^ 35 + pg * 2 ^ 32 + dst * 2 ^ 24 + sa * 2 ^ 16 + sb * 2 ^ 8 + sc) (bit fb * 2 ^ 17 + bit fc * 2 ^ 16 + md * 2 ^ 8 + ext * 2 ^ 1 + bit w1.isSome) 18 fa ?_ ?_
  · have e3 := bit_le fb; generalize bit fb = b3 at *; have e4 := bit_le fc; generalize bit fc = b4 at *; have e5 := bit_le w1.isSome; generalize bit w1.isSome = b5 at *; omega
  · simp only [View.word0, Body.pack]; have e0 := bit_le ax; generalize bit ax = b0 at *; have e1 := bit_le neg; generalize bit neg = b1 at *; have e2 := bit_le fa; generalize bit fa = b2 at *; have e3 := bit_le fb; generalize bit fb = b3 at *; have e4 := bit_le fc; generalize bit fc = b4 at *; have e5 := bit_le w1.isSome; generalize bit w1.isSome = b5 at *; omega

theorem word0_r_fb (op pg dst sa sb sc md ext : Nat) (ax neg fa fb fc : Bool) (w1 : Option Nat)
    (h1 : md < 2 ^ 8) (h2 : ext < 2 ^ 7)
    : bitAt (View.word0 ⟨op, ax, ⟨neg, pg⟩, .r dst sa sb sc fa fb fc md ext, w1⟩) 17 = fb := by
  refine bitAt_digit _ (op * 2 ^ 38 + bit ax * 2 ^ 37 + bit neg * 2 ^ 36 + pg * 2 ^ 33 + dst * 2 ^ 25 + sa * 2 ^ 17 + sb * 2 ^ 9 + sc * 2 ^ 1 + bit fa) (bit fc * 2 ^ 16 + md * 2 ^ 8 + ext * 2 ^ 1 + bit w1.isSome) 17 fb ?_ ?_
  · have e4 := bit_le fc; generalize bit fc = b4 at *; have e5 := bit_le w1.isSome; generalize bit w1.isSome = b5 at *; omega
  · simp only [View.word0, Body.pack]; have e0 := bit_le ax; generalize bit ax = b0 at *; have e1 := bit_le neg; generalize bit neg = b1 at *; have e2 := bit_le fa; generalize bit fa = b2 at *; have e3 := bit_le fb; generalize bit fb = b3 at *; have e4 := bit_le fc; generalize bit fc = b4 at *; have e5 := bit_le w1.isSome; generalize bit w1.isSome = b5 at *; omega

theorem word0_r_fc (op pg dst sa sb sc md ext : Nat) (ax neg fa fb fc : Bool) (w1 : Option Nat)
    (h1 : md < 2 ^ 8) (h2 : ext < 2 ^ 7)
    : bitAt (View.word0 ⟨op, ax, ⟨neg, pg⟩, .r dst sa sb sc fa fb fc md ext, w1⟩) 16 = fc := by
  refine bitAt_digit _ (op * 2 ^ 39 + bit ax * 2 ^ 38 + bit neg * 2 ^ 37 + pg * 2 ^ 34 + dst * 2 ^ 26 + sa * 2 ^ 18 + sb * 2 ^ 10 + sc * 2 ^ 2 + bit fa * 2 ^ 1 + bit fb) (md * 2 ^ 8 + ext * 2 ^ 1 + bit w1.isSome) 16 fc ?_ ?_
  · have e5 := bit_le w1.isSome; generalize bit w1.isSome = b5 at *; omega
  · simp only [View.word0, Body.pack]; have e0 := bit_le ax; generalize bit ax = b0 at *; have e1 := bit_le neg; generalize bit neg = b1 at *; have e2 := bit_le fa; generalize bit fa = b2 at *; have e3 := bit_le fb; generalize bit fb = b3 at *; have e4 := bit_le fc; generalize bit fc = b4 at *; have e5 := bit_le w1.isSome; generalize bit w1.isSome = b5 at *; omega

theorem word0_r_md (op pg dst sa sb sc md ext : Nat) (ax neg fa fb fc : Bool) (w1 : Option Nat)
    (h0 : md < 2 ^ 8) (h1 : ext < 2 ^ 7)
    : bitsAt (View.word0 ⟨op, ax, ⟨neg, pg⟩, .r dst sa sb sc fa fb fc md ext, w1⟩) 8 8 = md := by
  refine bitsAt_digit _ (op * 2 ^ 40 + bit ax * 2 ^ 39 + bit neg * 2 ^ 38 + pg * 2 ^ 35 + dst * 2 ^ 27 + sa * 2 ^ 19 + sb * 2 ^ 11 + sc * 2 ^ 3 + bit fa * 2 ^ 2 + bit fb * 2 ^ 1 + bit fc) md (ext * 2 ^ 1 + bit w1.isSome) 8 8 h0 ?_ ?_
  · have e5 := bit_le w1.isSome; generalize bit w1.isSome = b5 at *; omega
  · simp only [View.word0, Body.pack]; have e0 := bit_le ax; generalize bit ax = b0 at *; have e1 := bit_le neg; generalize bit neg = b1 at *; have e2 := bit_le fa; generalize bit fa = b2 at *; have e3 := bit_le fb; generalize bit fb = b3 at *; have e4 := bit_le fc; generalize bit fc = b4 at *; have e5 := bit_le w1.isSome; generalize bit w1.isSome = b5 at *; omega

theorem word0_r_ext (op pg dst sa sb sc md ext : Nat) (ax neg fa fb fc : Bool) (w1 : Option Nat)
    (h0 : ext < 2 ^ 7)
    : bitsAt (View.word0 ⟨op, ax, ⟨neg, pg⟩, .r dst sa sb sc fa fb fc md ext, w1⟩) 1 7 = ext := by
  refine bitsAt_digit _ (op * 2 ^ 48 + bit ax * 2 ^ 47 + bit neg * 2 ^ 46 + pg * 2 ^ 43 + dst * 2 ^ 35 + sa * 2 ^ 27 + sb * 2 ^ 19 + sc * 2 ^ 11 + bit fa * 2 ^ 10 + bit fb * 2 ^ 9 + bit fc * 2 ^ 8 + md) ext (bit w1.isSome) 1 7 h0 ?_ ?_
  · have e5 := bit_le w1.isSome; generalize bit w1.isSome = b5 at *; omega
  · simp only [View.word0, Body.pack]; have e0 := bit_le ax; generalize bit ax = b0 at *; have e1 := bit_le neg; generalize bit neg = b1 at *; have e2 := bit_le fa; generalize bit fa = b2 at *; have e3 := bit_le fb; generalize bit fb = b3 at *; have e4 := bit_le fc; generalize bit fc = b4 at *; have e5 := bit_le w1.isSome; generalize bit w1.isSome = b5 at *; omega

theorem word0_r_long (op pg dst sa sb sc md ext : Nat) (ax neg fa fb fc : Bool) (w1 : Option Nat)
    : bitAt (View.word0 ⟨op, ax, ⟨neg, pg⟩, .r dst sa sb sc fa fb fc md ext, w1⟩) 0 = w1.isSome := by
  refine bitAt_digit _ (op * 2 ^ 55 + bit ax * 2 ^ 54 + bit neg * 2 ^ 53 + pg * 2 ^ 50 + dst * 2 ^ 42 + sa * 2 ^ 34 + sb * 2 ^ 26 + sc * 2 ^ 18 + bit fa * 2 ^ 17 + bit fb * 2 ^ 16 + bit fc * 2 ^ 15 + md * 2 ^ 7 + ext) (0) 0 w1.isSome ?_ ?_
  · omega
  · simp only [View.word0, Body.pack]; have e0 := bit_le ax; generalize bit ax = b0 at *; have e1 := bit_le neg; generalize bit neg = b1 at *; have e2 := bit_le fa; generalize bit fa = b2 at *; have e3 := bit_le fb; generalize bit fb = b3 at *; have e4 := bit_le fc; generalize bit fc = b4 at *; have e5 := bit_le w1.isSome; generalize bit w1.isSome = b5 at *; omega

theorem word0_i_op (op pg dst sa imm md ext6 : Nat) (ax neg fa : Bool) (w1 : Option Nat)
    (h0 : op < 2 ^ 8) (h1 : pg < 2 ^ 3) (h2 : dst < 2 ^ 8) (h3 : sa < 2 ^ 8) (h4 : imm < 2 ^ 19) (h5 : md < 2 ^ 8) (h6 : ext6 < 2 ^ 6)
    : bitsAt (View.word0 ⟨op, ax, ⟨neg, pg⟩, .i dst sa imm fa md ext6, w1⟩) 56 8 = op := by
  refine bitsAt_digit _ (0) op (bit ax * 2 ^ 55 + bit neg * 2 ^ 54 + pg * 2 ^ 51 + dst * 2 ^ 43 + sa * 2 ^ 35 + imm * 2 ^ 16 + md * 2 ^ 8 + ext6 * 2 ^ 2 + bit fa * 2 ^ 1 + bit w1.isSome) 56 8 h0 ?_ ?_
  · have e0 := bit_le ax; generalize bit ax = b0 at *; have e1 := bit_le neg; generalize bit neg = b1 at *; have e2 := bit_le fa; generalize bit fa = b2 at *; have e3 := bit_le w1.isSome; generalize bit w1.isSome = b3 at *; omega
  · simp only [View.word0, Body.pack]; have e0 := bit_le ax; generalize bit ax = b0 at *; have e1 := bit_le neg; generalize bit neg = b1 at *; have e2 := bit_le fa; generalize bit fa = b2 at *; have e3 := bit_le w1.isSome; generalize bit w1.isSome = b3 at *; omega

theorem word0_i_ax (op pg dst sa imm md ext6 : Nat) (ax neg fa : Bool) (w1 : Option Nat)
    (h1 : pg < 2 ^ 3) (h2 : dst < 2 ^ 8) (h3 : sa < 2 ^ 8) (h4 : imm < 2 ^ 19) (h5 : md < 2 ^ 8) (h6 : ext6 < 2 ^ 6)
    : bitAt (View.word0 ⟨op, ax, ⟨neg, pg⟩, .i dst sa imm fa md ext6, w1⟩) 55 = ax := by
  refine bitAt_digit _ (op) (bit neg * 2 ^ 54 + pg * 2 ^ 51 + dst * 2 ^ 43 + sa * 2 ^ 35 + imm * 2 ^ 16 + md * 2 ^ 8 + ext6 * 2 ^ 2 + bit fa * 2 ^ 1 + bit w1.isSome) 55 ax ?_ ?_
  · have e1 := bit_le neg; generalize bit neg = b1 at *; have e2 := bit_le fa; generalize bit fa = b2 at *; have e3 := bit_le w1.isSome; generalize bit w1.isSome = b3 at *; omega
  · simp only [View.word0, Body.pack]; have e0 := bit_le ax; generalize bit ax = b0 at *; have e1 := bit_le neg; generalize bit neg = b1 at *; have e2 := bit_le fa; generalize bit fa = b2 at *; have e3 := bit_le w1.isSome; generalize bit w1.isSome = b3 at *; omega

theorem word0_i_neg (op pg dst sa imm md ext6 : Nat) (ax neg fa : Bool) (w1 : Option Nat)
    (h1 : pg < 2 ^ 3) (h2 : dst < 2 ^ 8) (h3 : sa < 2 ^ 8) (h4 : imm < 2 ^ 19) (h5 : md < 2 ^ 8) (h6 : ext6 < 2 ^ 6)
    : bitAt (View.word0 ⟨op, ax, ⟨neg, pg⟩, .i dst sa imm fa md ext6, w1⟩) 54 = neg := by
  refine bitAt_digit _ (op * 2 ^ 1 + bit ax) (pg * 2 ^ 51 + dst * 2 ^ 43 + sa * 2 ^ 35 + imm * 2 ^ 16 + md * 2 ^ 8 + ext6 * 2 ^ 2 + bit fa * 2 ^ 1 + bit w1.isSome) 54 neg ?_ ?_
  · have e2 := bit_le fa; generalize bit fa = b2 at *; have e3 := bit_le w1.isSome; generalize bit w1.isSome = b3 at *; omega
  · simp only [View.word0, Body.pack]; have e0 := bit_le ax; generalize bit ax = b0 at *; have e1 := bit_le neg; generalize bit neg = b1 at *; have e2 := bit_le fa; generalize bit fa = b2 at *; have e3 := bit_le w1.isSome; generalize bit w1.isSome = b3 at *; omega

theorem word0_i_pg (op pg dst sa imm md ext6 : Nat) (ax neg fa : Bool) (w1 : Option Nat)
    (h0 : pg < 2 ^ 3) (h1 : dst < 2 ^ 8) (h2 : sa < 2 ^ 8) (h3 : imm < 2 ^ 19) (h4 : md < 2 ^ 8) (h5 : ext6 < 2 ^ 6)
    : bitsAt (View.word0 ⟨op, ax, ⟨neg, pg⟩, .i dst sa imm fa md ext6, w1⟩) 51 3 = pg := by
  refine bitsAt_digit _ (op * 2 ^ 2 + bit ax * 2 ^ 1 + bit neg) pg (dst * 2 ^ 43 + sa * 2 ^ 35 + imm * 2 ^ 16 + md * 2 ^ 8 + ext6 * 2 ^ 2 + bit fa * 2 ^ 1 + bit w1.isSome) 51 3 h0 ?_ ?_
  · have e2 := bit_le fa; generalize bit fa = b2 at *; have e3 := bit_le w1.isSome; generalize bit w1.isSome = b3 at *; omega
  · simp only [View.word0, Body.pack]; have e0 := bit_le ax; generalize bit ax = b0 at *; have e1 := bit_le neg; generalize bit neg = b1 at *; have e2 := bit_le fa; generalize bit fa = b2 at *; have e3 := bit_le w1.isSome; generalize bit w1.isSome = b3 at *; omega

theorem word0_i_dst (op pg dst sa imm md ext6 : Nat) (ax neg fa : Bool) (w1 : Option Nat)
    (h0 : dst < 2 ^ 8) (h1 : sa < 2 ^ 8) (h2 : imm < 2 ^ 19) (h3 : md < 2 ^ 8) (h4 : ext6 < 2 ^ 6)
    : bitsAt (View.word0 ⟨op, ax, ⟨neg, pg⟩, .i dst sa imm fa md ext6, w1⟩) 43 8 = dst := by
  refine bitsAt_digit _ (op * 2 ^ 5 + bit ax * 2 ^ 4 + bit neg * 2 ^ 3 + pg) dst (sa * 2 ^ 35 + imm * 2 ^ 16 + md * 2 ^ 8 + ext6 * 2 ^ 2 + bit fa * 2 ^ 1 + bit w1.isSome) 43 8 h0 ?_ ?_
  · have e2 := bit_le fa; generalize bit fa = b2 at *; have e3 := bit_le w1.isSome; generalize bit w1.isSome = b3 at *; omega
  · simp only [View.word0, Body.pack]; have e0 := bit_le ax; generalize bit ax = b0 at *; have e1 := bit_le neg; generalize bit neg = b1 at *; have e2 := bit_le fa; generalize bit fa = b2 at *; have e3 := bit_le w1.isSome; generalize bit w1.isSome = b3 at *; omega

theorem word0_i_sa (op pg dst sa imm md ext6 : Nat) (ax neg fa : Bool) (w1 : Option Nat)
    (h0 : sa < 2 ^ 8) (h1 : imm < 2 ^ 19) (h2 : md < 2 ^ 8) (h3 : ext6 < 2 ^ 6)
    : bitsAt (View.word0 ⟨op, ax, ⟨neg, pg⟩, .i dst sa imm fa md ext6, w1⟩) 35 8 = sa := by
  refine bitsAt_digit _ (op * 2 ^ 13 + bit ax * 2 ^ 12 + bit neg * 2 ^ 11 + pg * 2 ^ 8 + dst) sa (imm * 2 ^ 16 + md * 2 ^ 8 + ext6 * 2 ^ 2 + bit fa * 2 ^ 1 + bit w1.isSome) 35 8 h0 ?_ ?_
  · have e2 := bit_le fa; generalize bit fa = b2 at *; have e3 := bit_le w1.isSome; generalize bit w1.isSome = b3 at *; omega
  · simp only [View.word0, Body.pack]; have e0 := bit_le ax; generalize bit ax = b0 at *; have e1 := bit_le neg; generalize bit neg = b1 at *; have e2 := bit_le fa; generalize bit fa = b2 at *; have e3 := bit_le w1.isSome; generalize bit w1.isSome = b3 at *; omega

theorem word0_i_imm (op pg dst sa imm md ext6 : Nat) (ax neg fa : Bool) (w1 : Option Nat)
    (h0 : imm < 2 ^ 19) (h1 : md < 2 ^ 8) (h2 : ext6 < 2 ^ 6)
    : bitsAt (View.word0 ⟨op, ax, ⟨neg, pg⟩, .i dst sa imm fa md ext6, w1⟩) 16 19 = imm := by
  refine bitsAt_digit _ (op * 2 ^ 21 + bit ax * 2 ^ 20 + bit neg * 2 ^ 19 + pg * 2 ^ 16 + dst * 2 ^ 8 + sa) imm (md * 2 ^ 8 + ext6 * 2 ^ 2 + bit fa * 2 ^ 1 + bit w1.isSome) 16 19 h0 ?_ ?_
  · have e2 := bit_le fa; generalize bit fa = b2 at *; have e3 := bit_le w1.isSome; generalize bit w1.isSome = b3 at *; omega
  · simp only [View.word0, Body.pack]; have e0 := bit_le ax; generalize bit ax = b0 at *; have e1 := bit_le neg; generalize bit neg = b1 at *; have e2 := bit_le fa; generalize bit fa = b2 at *; have e3 := bit_le w1.isSome; generalize bit w1.isSome = b3 at *; omega

theorem word0_i_md (op pg dst sa imm md ext6 : Nat) (ax neg fa : Bool) (w1 : Option Nat)
    (h0 : md < 2 ^ 8) (h1 : ext6 < 2 ^ 6)
    : bitsAt (View.word0 ⟨op, ax, ⟨neg, pg⟩, .i dst sa imm fa md ext6, w1⟩) 8 8 = md := by
  refine bitsAt_digit _ (op * 2 ^ 40 + bit ax * 2 ^ 39 + bit neg * 2 ^ 38 + pg * 2 ^ 35 + dst * 2 ^ 27 + sa * 2 ^ 19 + imm) md (ext6 * 2 ^ 2 + bit fa * 2 ^ 1 + bit w1.isSome) 8 8 h0 ?_ ?_
  · have e2 := bit_le fa; generalize bit fa = b2 at *; have e3 := bit_le w1.isSome; generalize bit w1.isSome = b3 at *; omega
  · simp only [View.word0, Body.pack]; have e0 := bit_le ax; generalize bit ax = b0 at *; have e1 := bit_le neg; generalize bit neg = b1 at *; have e2 := bit_le fa; generalize bit fa = b2 at *; have e3 := bit_le w1.isSome; generalize bit w1.isSome = b3 at *; omega

theorem word0_i_ext6 (op pg dst sa imm md ext6 : Nat) (ax neg fa : Bool) (w1 : Option Nat)
    (h0 : ext6 < 2 ^ 6)
    : bitsAt (View.word0 ⟨op, ax, ⟨neg, pg⟩, .i dst sa imm fa md ext6, w1⟩) 2 6 = ext6 := by
  refine bitsAt_digit _ (op * 2 ^ 48 + bit ax * 2 ^ 47 + bit neg * 2 ^ 46 + pg * 2 ^ 43 + dst * 2 ^ 35 + sa * 2 ^ 27 + imm * 2 ^ 8 + md) ext6 (bit fa * 2 ^ 1 + bit w1.isSome) 2 6 h0 ?_ ?_
  · have e2 := bit_le fa; generalize bit fa = b2 at *; have e3 := bit_le w1.isSome; generalize bit w1.isSome = b3 at *; omega
  · simp only [View.word0, Body.pack]; have e0 := bit_le ax; generalize bit ax = b0 at *; have e1 := bit_le neg; generalize bit neg = b1 at *; have e2 := bit_le fa; generalize bit fa = b2 at *; have e3 := bit_le w1.isSome; generalize bit w1.isSome = b3 at *; omega

theorem word0_i_fa (op pg dst sa imm md ext6 : Nat) (ax neg fa : Bool) (w1 : Option Nat)
    : bitAt (View.word0 ⟨op, ax, ⟨neg, pg⟩, .i dst sa imm fa md ext6, w1⟩) 1 = fa := by
  refine bitAt_digit _ (op * 2 ^ 54 + bit ax * 2 ^ 53 + bit neg * 2 ^ 52 + pg * 2 ^ 49 + dst * 2 ^ 41 + sa * 2 ^ 33 + imm * 2 ^ 14 + md * 2 ^ 6 + ext6) (bit w1.isSome) 1 fa ?_ ?_
  · have e3 := bit_le w1.isSome; generalize bit w1.isSome = b3 at *; omega
  · simp only [View.word0, Body.pack]; have e0 := bit_le ax; generalize bit ax = b0 at *; have e1 := bit_le neg; generalize bit neg = b1 at *; have e2 := bit_le fa; generalize bit fa = b2 at *; have e3 := bit_le w1.isSome; generalize bit w1.isSome = b3 at *; omega

theorem word0_i_long (op pg dst sa imm md ext6 : Nat) (ax neg fa : Bool) (w1 : Option Nat)
    : bitAt (View.word0 ⟨op, ax, ⟨neg, pg⟩, .i dst sa imm fa md ext6, w1⟩) 0 = w1.isSome := by
  refine bitAt_digit _ (op * 2 ^ 55 + bit ax * 2 ^ 54 + bit neg * 2 ^ 53 + pg * 2 ^ 50 + dst * 2 ^ 42 + sa * 2 ^ 34 + imm * 2 ^ 15 + md * 2 ^ 7 + ext6 * 2 ^ 1 + bit fa) (0) 0 w1.isSome ?_ ?_
  · omega
  · simp only [View.word0, Body.pack]; have e0 := bit_le ax; generalize bit ax = b0 at *; have e1 := bit_le neg; generalize bit neg = b1 at *; have e2 := bit_le fa; generalize bit fa = b2 at *; have e3 := bit_le w1.isSome; generalize bit w1.isSome = b3 at *; omega

theorem word0_b_op (op pg off cnd md ext : Nat) (ax neg fc : Bool) (w1 : Option Nat)
    (h0 : op < 2 ^ 8) (h1 : pg < 2 ^ 3) (h2 : off < 2 ^ 24) (h3 : cnd < 2 ^ 8) (h4 : md < 2 ^ 8) (h5 : ext < 2 ^ 7)
    : bitsAt (View.word0 ⟨op, ax, ⟨neg, pg⟩, .b off cnd fc md ext, w1⟩) 56 8 = op := by
  refine bitsAt_digit _ (0) op (bit ax * 2 ^ 55 + bit neg * 2 ^ 54 + pg * 2 ^ 51 + off * 2 ^ 27 + cnd * 2 ^ 19 + bit fc * 2 ^ 18 + md * 2 ^ 8 + ext * 2 ^ 1 + bit w1.isSome) 56 8 h0 ?_ ?_
  · have e0 := bit_le ax; generalize bit ax = b0 at *; have e1 := bit_le neg; generalize bit neg = b1 at *; have e2 := bit_le fc; generalize bit fc = b2 at *; have e3 := bit_le w1.isSome; generalize bit w1.isSome = b3 at *; omega
  · simp only [View.word0, Body.pack]; have e0 := bit_le ax; generalize bit ax = b0 at *; have e1 := bit_le neg; generalize bit neg = b1 at *; have e2 := bit_le fc; generalize bit fc = b2 at *; have e3 := bit_le w1.isSome; generalize bit w1.isSome = b3 at *; omega

theorem word0_b_ax (op pg off cnd md ext : Nat) (ax neg fc : Bool) (w1 : Option Nat)
    (h1 : pg < 2 ^ 3) (h2 : off < 2 ^ 24) (h3 : cnd < 2 ^ 8) (h4 : md < 2 ^ 8) (h5 : ext < 2 ^ 7)
    : bitAt (View.word0 ⟨op, ax, ⟨neg, pg⟩, .b off cnd fc md ext, w1⟩) 55 = ax := by
  refine bitAt_digit _ (op) (bit neg * 2 ^ 54 + pg * 2 ^ 51 + off * 2 ^ 27 + cnd * 2 ^ 19 + bit fc * 2 ^ 18 + md * 2 ^ 8 + ext * 2 ^ 1 + bit w1.isSome) 55 ax ?_ ?_
  · have e1 := bit_le neg; generalize bit neg = b1 at *; have e2 := bit_le fc; generalize bit fc = b2 at *; have e3 := bit_le w1.isSome; generalize bit w1.isSome = b3 at *; omega
  · simp only [View.word0, Body.pack]; have e0 := bit_le ax; generalize bit ax = b0 at *; have e1 := bit_le neg; generalize bit neg = b1 at *; have e2 := bit_le fc; generalize bit fc = b2 at *; have e3 := bit_le w1.isSome; generalize bit w1.isSome = b3 at *; omega

theorem word0_b_neg (op pg off cnd md ext : Nat) (ax neg fc : Bool) (w1 : Option Nat)
    (h1 : pg < 2 ^ 3) (h2 : off < 2 ^ 24) (h3 : cnd < 2 ^ 8) (h4 : md < 2 ^ 8) (h5 : ext < 2 ^ 7)
    : bitAt (View.word0 ⟨op, ax, ⟨neg, pg⟩, .b off cnd fc md ext, w1⟩) 54 = neg := by
  refine bitAt_digit _ (op * 2 ^ 1 + bit ax) (pg * 2 ^ 51 + off * 2 ^ 27 + cnd * 2 ^ 19 + bit fc * 2 ^ 18 + md * 2 ^ 8 + ext * 2 ^ 1 + bit w1.isSome) 54 neg ?_ ?_
  · have e2 := bit_le fc; generalize bit fc = b2 at *; have e3 := bit_le w1.isSome; generalize bit w1.isSome = b3 at *; omega
  · simp only [View.word0, Body.pack]; have e0 := bit_le ax; generalize bit ax = b0 at *; have e1 := bit_le neg; generalize bit neg = b1 at *; have e2 := bit_le fc; generalize bit fc = b2 at *; have e3 := bit_le w1.isSome; generalize bit w1.isSome = b3 at *; omega

theorem word0_b_pg (op pg off cnd md ext : Nat) (ax neg fc : Bool) (w1 : Option Nat)
    (h0 : pg < 2 ^ 3) (h1 : off < 2 ^ 24) (h2 : cnd < 2 ^ 8) (h3 : md < 2 ^ 8) (h4 : ext < 2 ^ 7)
    : bitsAt (View.word0 ⟨op, ax, ⟨neg, pg⟩, .b off cnd fc md ext, w1⟩) 51 3 = pg := by
  refine bitsAt_digit _ (op * 2 ^ 2 + bit ax * 2 ^ 1 + bit neg) pg (off * 2 ^ 27 + cnd * 2 ^ 19 + bit fc * 2 ^ 18 + md * 2 ^ 8 + ext * 2 ^ 1 + bit w1.isSome) 51 3 h0 ?_ ?_
  · have e2 := bit_le fc; generalize bit fc = b2 at *; have e3 := bit_le w1.isSome; generalize bit w1.isSome = b3 at *; omega
  · simp only [View.word0, Body.pack]; have e0 := bit_le ax; generalize bit ax = b0 at *; have e1 := bit_le neg; generalize bit neg = b1 at *; have e2 := bit_le fc; generalize bit fc = b2 at *; have e3 := bit_le w1.isSome; generalize bit w1.isSome = b3 at *; omega

theorem word0_b_off (op pg off cnd md ext : Nat) (ax neg fc : Bool) (w1 : Option Nat)
    (h0 : off < 2 ^ 24) (h1 : cnd < 2 ^ 8) (h2 : md < 2 ^ 8) (h3 : ext < 2 ^ 7)
    : bitsAt (View.word0 ⟨op, ax, ⟨neg, pg⟩, .b off cnd fc md ext, w1⟩) 27 24 = off := by
  refine bitsAt_digit _ (op * 2 ^ 5 + bit ax * 2 ^ 4 + bit neg * 2 ^ 3 + pg) off (cnd * 2 ^ 19 + bit fc * 2 ^ 18 + md * 2 ^ 8 + ext * 2 ^ 1 + bit w1.isSome) 27 24 h0 ?_ ?_
  · have e2 := bit_le fc; generalize bit fc = b2 at *; have e3 := bit_le w1.isSome; generalize bit w1.isSome = b3 at *; omega
  · simp only [View.word0, Body.pack]; have e0 := bit_le ax; generalize bit ax = b0 at *; have e1 := bit_le neg; generalize bit neg = b1 at *; have e2 := bit_le fc; generalize bit fc = b2 at *; have e3 := bit_le w1.isSome; generalize bit w1.isSome = b3 at *; omega

theorem word0_b_cnd (op pg off cnd md ext : Nat) (ax neg fc : Bool) (w1 : Option Nat)
    (h0 : cnd < 2 ^ 8) (h1 : md < 2 ^ 8) (h2 : ext < 2 ^ 7)
    : bitsAt (View.word0 ⟨op, ax, ⟨neg, pg⟩, .b off cnd fc md ext, w1⟩) 19 8 = cnd := by
  refine bitsAt_digit _ (op * 2 ^ 29 + bit ax * 2 ^ 28 + bit neg * 2 ^ 27 + pg * 2 ^ 24 + off) cnd (bit fc * 2 ^ 18 + md * 2 ^ 8 + ext * 2 ^ 1 + bit w1.isSome) 19 8 h0 ?_ ?_
  · have e2 := bit_le fc; generalize bit fc = b2 at *; have e3 := bit_le w1.isSome; generalize bit w1.isSome = b3 at *; omega
  · simp only [View.word0, Body.pack]; have e0 := bit_le ax; generalize bit ax = b0 at *; have e1 := bit_le neg; generalize bit neg = b1 at *; have e2 := bit_le fc; generalize bit fc = b2 at *; have e3 := bit_le w1.isSome; generalize bit w1.isSome = b3 at *; omega

theorem word0_b_fc (op pg off cnd md ext : Nat) (ax neg fc : Bool) (w1 : Option Nat)
    (h1 : md < 2 ^ 8) (h2 : ext < 2 ^ 7)
    : bitAt (View.word0 ⟨op, ax, ⟨neg, pg⟩, .b off cnd fc md ext, w1⟩) 18 = fc := by
  refine bitAt_digit _ (op * 2 ^ 37 + bit ax * 2 ^ 36 + bit neg * 2 ^ 35 + pg * 2 ^ 32 + off * 2 ^ 8 + cnd) (md * 2 ^ 8 + ext * 2 ^ 1 + bit w1.isSome) 18 fc ?_ ?_
  · have e3 := bit_le w1.isSome; generalize bit w1.isSome = b3 at *; omega
  · simp only [View.word0, Body.pack]; have e0 := bit_le ax; generalize bit ax = b0 at *; have e1 := bit_le neg; generalize bit neg = b1 at *; have e2 := bit_le fc; generalize bit fc = b2 at *; have e3 := bit_le w1.isSome; generalize bit w1.isSome = b3 at *; omega

theorem word0_b_md (op pg off cnd md ext : Nat) (ax neg fc : Bool) (w1 : Option Nat)
    (h0 : md < 2 ^ 8) (h1 : ext < 2 ^ 7)
    : bitsAt (View.word0 ⟨op, ax, ⟨neg, pg⟩, .b off cnd fc md ext, w1⟩) 8 8 = md := by
  refine bitsAt_digit _ (op * 2 ^ 40 + bit ax * 2 ^ 39 + bit neg * 2 ^ 38 + pg * 2 ^ 35 + off * 2 ^ 11 + cnd * 2 ^ 3 + bit fc * 2 ^ 2) md (ext * 2 ^ 1 + bit w1.isSome) 8 8 h0 ?_ ?_
  · have e3 := bit_le w1.isSome; generalize bit w1.isSome = b3 at *; omega
  · simp only [View.word0, Body.pack]; have e0 := bit_le ax; generalize bit ax = b0 at *; have e1 := bit_le neg; generalize bit neg = b1 at *; have e2 := bit_le fc; generalize bit fc = b2 at *; have e3 := bit_le w1.isSome; generalize bit w1.isSome = b3 at *; omega

theorem word0_b_ext (op pg off cnd md ext : Nat) (ax neg fc : Bool) (w1 : Option Nat)
    (h0 : ext < 2 ^ 7)
    : bitsAt (View.word0 ⟨op, ax, ⟨neg, pg⟩, .b off cnd fc md ext, w1⟩) 1 7 = ext := by
  refine bitsAt_digit _ (op * 2 ^ 48 + bit ax * 2 ^ 47 + bit neg * 2 ^ 46 + pg * 2 ^ 43 + off * 2 ^ 19 + cnd * 2 ^ 11 + bit fc * 2 ^ 10 + md) ext (bit w1.isSome) 1 7 h0 ?_ ?_
  · have e3 := bit_le w1.isSome; generalize bit w1.isSome = b3 at *; omega
  · simp only [View.word0, Body.pack]; have e0 := bit_le ax; generalize bit ax = b0 at *; have e1 := bit_le neg; generalize bit neg = b1 at *; have e2 := bit_le fc; generalize bit fc = b2 at *; have e3 := bit_le w1.isSome; generalize bit w1.isSome = b3 at *; omega

theorem word0_b_long (op pg off cnd md ext : Nat) (ax neg fc : Bool) (w1 : Option Nat)
    : bitAt (View.word0 ⟨op, ax, ⟨neg, pg⟩, .b off cnd fc md ext, w1⟩) 0 = w1.isSome := by
  refine bitAt_digit _ (op * 2 ^ 55 + bit ax * 2 ^ 54 + bit neg * 2 ^ 53 + pg * 2 ^ 50 + off * 2 ^ 26 + cnd * 2 ^ 18 + bit fc * 2 ^ 17 + md * 2 ^ 7 + ext) (0) 0 w1.isSome ?_ ?_
  · omega
  · simp only [View.word0, Body.pack]; have e0 := bit_le ax; generalize bit ax = b0 at *; have e1 := bit_le neg; generalize bit neg = b1 at *; have e2 := bit_le fc; generalize bit fc = b2 at *; have e3 := bit_le w1.isSome; generalize bit w1.isSome = b3 at *; omega

theorem word0_m_op (op pg dt base mid mod6 ext4 : Nat) (ax neg bs ix fd fb fi : Bool) (w1 : Option Nat)
    (h0 : op < 2 ^ 8) (h1 : pg < 2 ^ 3) (h2 : dt < 2 ^ 8) (h3 : base < 2 ^ 8) (h4 : mid < 2 ^ 19) (h5 : mod6 < 2 ^ 6) (h6 : ext4 < 2 ^ 4)
    : bitsAt (View.word0 ⟨op, ax, ⟨neg, pg⟩, .m dt base mid bs ix mod6 fd fb fi ext4, w1⟩) 56 8 = op := by
  refine bitsAt_digit _ (0) op (bit ax * 2 ^ 55 + bit neg * 2 ^ 54 + pg * 2 ^ 51 + dt * 2 ^ 43 + base * 2 ^ 35 + mid * 2 ^ 16 + bit bs * 2 ^ 15 + bit ix * 2 ^ 14 + mod6 * 2 ^ 8 + bit fd * 2 ^ 7 + bit fb * 2 ^ 6 + bit fi * 2 ^ 5 + ext4 * 2 ^ 1 + bit w1.isSome) 56 8 h0 ?_ ?_
  · have e0 := bit_le ax; generalize bit ax = b0 at *; have e1 := bit_le neg; generalize bit neg = b1 at *; have e2 := bit_le bs; generalize bit bs = b2 at *; have e3 := bit_le ix; generalize bit ix = b3 at *; have e4 := bit_le fd; generalize bit fd = b4 at *; have e5 := bit_le fb; generalize bit fb = b5 at *; have e6 := bit_le fi; generalize bit fi = b6 at *; have e7 := bit_le w1.isSome; generalize bit w1.isSome = b7 at *; omega
  · simp only [View.word0, Body.pack]; have e0 := bit_le ax; generalize bit ax = b0 at *; have e1 := bit_le neg; generalize bit neg = b1 at *; have e2 := bit_le bs; generalize bit bs = b2 at *; have e3 := bit_le ix; generalize bit ix = b3 at *; have e4 := bit_le fd; generalize bit fd = b4 at *; have e5 := bit_le fb; generalize bit fb = b5 at *; have e6 := bit_le fi; generalize bit fi = b6 at *; have e7 := bit_le w1.isSome; generalize bit w1.isSome = b7 at *; omega

theorem word0_m_ax (op pg dt base mid mod6 ext4 : Nat) (ax neg bs ix fd fb fi : Bool) (w1 : Option Nat)
    (h1 : pg < 2 ^ 3) (h2 : dt < 2 ^ 8) (h3 : base < 2 ^ 8) (h4 : mid < 2 ^ 19) (h5 : mod6 < 2 ^ 6) (h6 : ext4 < 2 ^ 4)
    : bitAt (View.word0 ⟨op, ax, ⟨neg, pg⟩, .m dt base mid bs ix mod6 fd fb fi ext4, w1⟩) 55 = ax := by
  refine bitAt_digit _ (op) (bit neg * 2 ^ 54 + pg * 2 ^ 51 + dt * 2 ^ 43 + base * 2 ^ 35 + mid * 2 ^ 16 + bit bs * 2 ^ 15 + bit ix * 2 ^ 14 + mod6 * 2 ^ 8 + bit fd * 2 ^ 7 + bit fb * 2 ^ 6 + bit fi * 2 ^ 5 + ext4 * 2 ^ 1 + bit w1.isSome) 55 ax ?_ ?_
  · have e1 := bit_le neg; generalize bit neg = b1 at *; have e2 := bit_le bs; generalize bit bs = b2 at *; have e3 := bit_le ix; generalize bit ix = b3 at *; have e4 := bit_le fd; generalize bit fd = b4 at *; have e5 := bit_le fb; generalize bit fb = b5 at *; have e6 := bit_le fi; generalize bit fi = b6 at *; have e7 := bit_le w1.isSome; generalize bit w1.isSome = b7 at *; omega
  · simp only [View.word0, Body.pack]; have e0 := bit_le ax; generalize bit ax = b0 at *; have e1 := bit_le neg; generalize bit neg = b1 at *; have e2 := bit_le bs; generalize bit bs = b2 at *; have e3 := bit_le ix; generalize bit ix = b3 at *; have e4 := bit_le fd; generalize bit fd = b4 at *; have e5 := bit_le fb; generalize bit fb = b5 at *; have e6 := bit_le fi; generalize bit fi = b6 at *; have e7 := bit_le w1.isSome; generalize bit w1.isSome = b7 at *; omega

theorem word0_m_neg (op pg dt base mid mod6 ext4 : Nat) (ax neg bs ix fd fb fi : Bool) (w1 : Option Nat)
    (h1 : pg < 2 ^ 3) (h2 : dt < 2 ^ 8) (h3 : base < 2 ^ 8) (h4 : mid < 2 ^ 19) (h5 : mod6 < 2 ^ 6) (h6 : ext4 < 2 ^ 4)
    : bitAt (View.word0 ⟨op, ax, ⟨neg, pg⟩, .m dt base mid bs ix mod6 fd fb fi ext4, w1⟩) 54 = neg := by
  refine bitAt_digit _ (op * 2 ^ 1 + bit ax) (pg * 2 ^ 51 + dt * 2 ^ 43 + base * 2 ^ 35 + mid * 2 ^ 16 + bit bs * 2 ^ 15 + bit ix * 2 ^ 14 + mod6 * 2 ^ 8 + bit fd * 2 ^ 7 + bit fb * 2 ^ 6 + bit fi * 2 ^ 5 + ext4 * 2 ^ 1 + bit w1.isSome) 54 neg ?_ ?_
  · have e2 := bit_le bs; generalize bit bs = b2 at *; have e3 := bit_le ix; generalize bit ix = b3 at *; have e4 := bit_le fd; generalize bit fd = b4 at *; have e5 := bit_le fb; generalize bit fb = b5 at *; have e6 := bit_le fi; generalize bit fi = b6 at *; have e7 := bit_le w1.isSome; generalize bit w1.isSome = b7 at *; omega
  · simp only [View.word0, Body.pack]; have e0 := bit_le ax; generalize bit ax = b0 at *; have e1 := bit_le neg; generalize bit neg = b1 at *; have e2 := bit_le bs; generalize bit bs = b2 at *; have e3 := bit_le ix; generalize bit ix = b3 at *; have e4 := bit_le fd; generalize bit fd = b4 at *; have e5 := bit_le fb; generalize bit fb = b5 at *; have e6 := bit_le fi; generalize bit fi = b6 at *; have e7 := bit_le w1.isSome; generalize bit w1.isSome = b7 at *; omega

theorem word0_m_pg (op pg dt base mid mod6 ext4 : Nat) (ax neg bs ix fd fb fi : Bool) (w1 : Option Nat)
    (h0 : pg < 2 ^ 3) (h1 : dt < 2 ^ 8) (h2 : base < 2 ^ 8) (h3 : mid < 2 ^ 19) (h4 : mod6 < 2 ^ 6) (h5 : ext4 < 2 ^ 4)
    : bitsAt (View.word0 ⟨op, ax, ⟨neg, pg⟩, .m dt base mid bs ix mod6 fd fb fi ext4, w1⟩) 51 3 = pg := by
  refine bitsAt_digit _ (op * 2 ^ 2 + bit ax * 2 ^ 1 + bit neg) pg (dt * 2 ^ 43 + base * 2 ^ 35 + mid * 2 ^ 16 + bit bs * 2 ^ 15 + bit ix * 2 ^ 14 + mod6 * 2 ^ 8 + bit fd * 2 ^ 7 + bit fb * 2 ^ 6 + bit fi * 2 ^ 5 + ext4 * 2 ^ 1 + bit w1.isSome) 51 3 h0 ?_ ?_
  · have e2 := bit_le bs; generalize bit bs = b2 at *; have e3 := bit_le ix; generalize bit ix = b3 at *; have e4 := bit_le fd; generalize bit fd = b4 at *; have e5 := bit_le fb; generalize bit fb = b5 at *; have e6 := bit_le fi; generalize bit fi = b6 at *; have e7 := bit_le w1.isSome; generalize bit w1.isSome = b7 at *; omega
  · simp only [View.word0, Body.pack]; have e0 := bit_le ax; generalize bit ax = b0 at *; have e1 := bit_le neg; generalize bit neg = b1 at *; have e2 := bit_le bs; generalize bit bs = b2 at *; have e3 := bit_le ix; generalize bit ix = b3 at *; have e4 := bit_le fd; generalize bit fd = b4 at *; have e5 := bit_le fb; generalize bit fb = b5 at *; have e6 := bit_le fi; generalize bit fi = b6 at *; have e7 := bit_le w1.isSome; generalize bit w1.isSome = b7 at *; omega

theorem word0_m_dt (op pg dt base mid mod6 ext4 : Nat) (ax neg bs ix fd fb fi : Bool) (w1 : Option Nat)
    (h0 : dt < 2 ^ 8) (h1 : base < 2 ^ 8) (h2 : mid < 2 ^ 19) (h3 : mod6 < 2 ^ 6) (h4 : ext4 < 2 ^ 4)
    : bitsAt (View.word0 ⟨op, ax, ⟨neg, pg⟩, .m dt base mid bs ix mod6 fd fb fi ext4, w1⟩) 43 8 = dt := by
  refine bitsAt_digit _ (op * 2 ^ 5 + bit ax * 2 ^ 4 + bit neg * 2 ^ 3 + pg) dt (base * 2 ^ 35 + mid * 2 ^ 16 + bit bs * 2 ^ 15 + bit ix * 2 ^ 14 + mod6 * 2 ^ 8 + bit fd * 2 ^ 7 + bit fb * 2 ^ 6 + bit fi * 2 ^ 5 + ext4 * 2 ^ 1 + bit w1.isSome) 43 8 h0 ?_ ?_
  · have e2 := bit_le bs; generalize bit bs = b2 at *; have e3 := bit_le ix; generalize bit ix = b3 at *; have e4 := bit_le fd; generalize bit fd = b4 at *; have e5 := bit_le fb; generalize bit fb = b5 at *; have e6 := bit_le fi; generalize bit fi = b6 at *; have e7 := bit_le w1.isSome; generalize bit w1.isSome = b7 at *; omega
  · simp only [View.word0, Body.pack]; have e0 := bit_le ax; generalize bit ax = b0 at *; have e1 := bit_le neg; generalize bit neg = b1 at *; have e2 := bit_le bs; generalize bit bs = b2 at *; have e3 := bit_le ix; generalize bit ix = b3 at *; have e4 := bit_le fd; generalize bit fd = b4 at *; have e5 := bit_le fb; generalize bit fb = b5 at *; have e6 := bit_le fi; generalize bit fi = b6 at *; have e7 := bit_le w1.isSome; generalize bit w1.isSome = b7 at *; omega

theorem word0_m_base (op pg dt base mid mod6 ext4 : Nat) (ax neg bs ix fd fb fi : Bool) (w1 : Option Nat)
    (h0 : base < 2 ^ 8) (h1 : mid < 2 ^ 19) (h2 : mod6 < 2 ^ 6) (h3 : ext4 < 2 ^ 4)
    : bitsAt (View.word0 ⟨op, ax, ⟨neg, pg⟩, .m dt base mid bs ix mod6 fd fb fi ext4, w1⟩) 35 8 = base := by
  refine bitsAt_digit _ (op * 2 ^ 13 + bit ax * 2 ^ 12 + bit neg * 2 ^ 11 + pg * 2 ^ 8 + dt) base (mid * 2 ^ 16 + bit bs * 2 ^ 15 + bit ix * 2 ^ 14 + mod6 * 2 ^ 8 + bit fd * 2 ^ 7 + bit fb * 2 ^ 6 + bit fi * 2 ^ 5 + ext4 * 2 ^ 1 + bit w1.isSome) 35 8 h0 ?_ ?_
  · have e2 := bit_le bs; generalize bit bs = b2 at *; have e3 := bit_le ix; generalize bit ix = b3 at *; have e4 := bit_le fd; generalize bit fd = b4 at *; have e5 := bit_le fb; generalize bit fb = b5 at *; have e6 := bit_le fi; generalize bit fi = b6 at *; have e7 := bit_le w1.isSome; generalize bit w1.isSome = b7 at *; omega
  · simp only [View.word0, Body.pack]; have e0 := bit_le ax; generalize bit ax = b0 at *; have e1 := bit_le neg; generalize bit neg = b1 at *; have e2 := bit_le bs; generalize bit bs = b2 at *; have e3 := bit_le ix; generalize bit ix = b3 at *; have e4 := bit_le fd; generalize bit fd = b4 at *; have e5 := bit_le fb; generalize bit fb = b5 at *; have e6 := bit_le fi; generalize bit fi = b6 at *; have e7 := bit_le w1.isSome; generalize bit w1.isSome = b7 at *; omega

theorem word0_m_mid (op pg dt base mid mod6 ext4 : Nat) (ax neg bs ix fd fb fi : Bool) (w1 : Option Nat)
    (h0 : mid < 2 ^ 19) (h1 : mod6 < 2 ^ 6) (h2 : ext4 < 2 ^ 4)
    : bitsAt (View.word0 ⟨op, ax, ⟨neg, pg⟩, .m dt base mid bs ix mod6 fd fb fi ext4, w1⟩) 16 19 = mid := by
  refine bitsAt_digit _ (op * 2 ^ 21 + bit ax * 2 ^ 20 + bit neg * 2 ^ 19 + pg * 2 ^ 16 + dt * 2 ^ 8 + base) mid (bit bs * 2 ^ 15 + bit ix * 2 ^ 14 + mod6 * 2 ^ 8 + bit fd * 2 ^ 7 + bit fb * 2 ^ 6 + bit fi * 2 ^ 5 + ext4 * 2 ^ 1 + bit w1.isSome) 16 19 h0 ?_ ?_
  · have e2 := bit_le bs; generalize bit bs = b2 at *; have e3 := bit_le ix; generalize bit ix = b3 at *; have e4 := bit_le fd; generalize bit fd = b4 at *; have e5 := bit_le fb; generalize bit fb = b5 at *; have e6 := bit_le fi; generalize bit fi = b6 at *; have e7 := bit_le w1.isSome; generalize bit w1.isSome = b7 at *; omega
  · simp only [View.word0, Body.pack]; have e0 := bit_le ax; generalize bit ax = b0 at *; have e1 := bit_le neg; generalize bit neg = b1 at *; have e2 := bit_le bs; generalize bit bs = b2 at *; have e3 := bit_le ix; generalize bit ix = b3 at *; have e4 := bit_le fd; generalize bit fd = b4 at *; have e5 := bit_le fb; generalize bit fb = b5 at *; have e6 := bit_le fi; generalize bit fi = b6 at *; have e7 := bit_le w1.isSome; generalize bit w1.isSome = b7 at *; omega

theorem word0_m_bs (op pg dt base mid mod6 ext4 : Nat) (ax neg bs ix fd fb fi : Bool) (w1 : Option Nat)
    (h1 : mod6 < 2 ^ 6) (h2 : ext4 < 2 ^ 4)
    : bitAt (View.word0 ⟨op, ax, ⟨neg, pg⟩, .m dt base mid bs ix mod6 fd fb fi ext4, w1⟩) 15 = bs := by
  refine bitAt_digit _ (op * 2 ^ 40 + bit ax * 2 ^ 39 + bit neg * 2 ^ 38 + pg * 2 ^ 35 + dt * 2 ^ 27 + base * 2 ^ 19 + mid) (bit ix * 2 ^ 14 + mod6 * 2 ^ 8 + bit fd * 2 ^ 7 + bit fb * 2 ^ 6 + bit fi * 2 ^ 5 + ext4 * 2 ^ 1 + bit w1.isSome) 15 bs ?_ ?_
  · have e3 := bit_le ix; generalize bit ix = b3 at *; have e4 := bit_le fd; generalize bit fd = b4 at *; have e5 := bit_le fb; generalize bit fb = b5 at *; have e6 := bit_le fi; generalize bit fi = b6 at *; have e7 := bit_le w1.isSome; generalize bit w1.isSome = b7 at *; omega
  · simp only [View.word0, Body.pack]; have e0 := bit_le ax; generalize bit ax = b0 at *; have e1 := bit_le neg; generalize bit neg = b1 at *; have e2 := bit_le bs; generalize bit bs = b2 at *; have e3 := bit_le ix; generalize bit ix = b3 at *; have e4 := bit_le fd; generalize bit fd = b4 at *; have e5 := bit_le fb; generalize bit fb = b5 at *; have e6 := bit_le fi; generalize bit fi = b6 at *; have e7 := bit_le w1.isSome; generalize bit w1.isSome = b7 at *; omega

theorem word0_m_ix (op pg dt base mid mod6 ext4 : Nat) (ax neg bs ix fd fb fi : Bool) (w1 : Option Nat)
    (h1 : mod6 < 2 ^ 6) (h2 : ext4 < 2 ^ 4)
    : bitAt (View.word0 ⟨op, ax, ⟨neg, pg⟩, .m dt base mid bs ix mod6 fd fb fi ext4, w1⟩) 14 = ix := by
  refine bitAt_digit _ (op * 2 ^ 41 + bit ax * 2 ^ 40 + bit neg * 2 ^ 39 + pg * 2 ^ 36 + dt * 2 ^ 28 + base * 2 ^ 20 + mid * 2 ^ 1 + bit bs) (mod6 * 2 ^ 8 + bit fd * 2 ^ 7 + bit fb * 2 ^ 6 + bit fi * 2 ^ 5 + ext4 * 2 ^ 1 + bit w1.isSome) 14 ix ?_ ?_
  · have e4 := bit_le fd; generalize bit fd = b4 at *; have e5 := bit_le fb; generalize bit fb = b5 at *; have e6 := bit_le fi; generalize bit fi = b6 at *; have e7 := bit_le w1.isSome; generalize bit w1.isSome = b7 at *; omega
  · simp only [View.word0, Body.pack]; have e0 := bit_le ax; generalize bit ax = b0 at *; have e1 := bit_le neg; generalize bit neg = b1 at *; have e2 := bit_le bs; generalize bit bs = b2 at *; have e3 := bit_le ix; generalize bit ix = b3 at *; have e4 := bit_le fd; generalize bit fd = b4 at *; have e5 := bit_le fb; generalize bit fb = b5 at *; have e6 := bit_le fi; generalize bit fi = b6 at *; have e7 := bit_le w1.isSome; generalize bit w1.isSome = b7 at *; omega

theorem word0_m_mod6 (op pg dt base mid mod6 ext4 : Nat) (ax neg bs ix fd fb fi : Bool) (w1 : Option Nat)
    (h0 : mod6 < 2 ^ 6) (h1 : ext4 < 2 ^ 4)
    : bitsAt (View.word0 ⟨op, ax, ⟨neg, pg⟩, .m dt base mid bs ix mod6 fd fb fi ext4, w1⟩) 8 6 = mod6 := by
  refine bitsAt_digit _ (op * 2 ^ 42 + bit ax * 2 ^ 41 + bit neg * 2 ^ 40 + pg * 2 ^ 37 + dt * 2 ^ 29 + base * 2 ^ 21 + mid * 2 ^ 2 + bit bs * 2 ^ 1 + bit ix) mod6 (bit fd * 2 ^ 7 + bit fb * 2 ^ 6 + bit fi * 2 ^ 5 + ext4 * 2 ^ 1 + bit w1.isSome) 8 6 h0 ?_ ?_
  · have e4 := bit_le fd; generalize bit fd = b4 at *; have e5 := bit_le fb; generalize bit fb = b5 at *; have e6 := bit_le fi; generalize bit fi = b6 at *; have e7 := bit_le w1.isSome; generalize bit w1.isSome = b7 at *; omega
  · simp only [View.word0, Body.pack]; have e0 := bit_le ax; generalize bit ax = b0 at *; have e1 := bit_le neg; generalize bit neg = b1 at *; have e2 := bit_le bs; generalize bit bs = b2 at *; have e3 := bit_le ix; generalize bit ix = b3 at *; have e4 := bit_le fd; generalize bit fd = b4 at *; have e5 := bit_le fb; generalize bit fb = b5 at *; have e6 := bit_le fi; generalize bit fi = b6 at *; have e7 := bit_le w1.isSome; generalize bit w1.isSome = b7 at *; omega

theorem word0_m_fd (op pg dt base mid mod6 ext4 : Nat) (ax neg bs ix fd fb fi : Bool) (w1 : Option Nat)
    (h1 : ext4 < 2 ^ 4)
    : bitAt (View.word0 ⟨op, ax, ⟨neg, pg⟩, .m dt base mid bs ix mod6 fd fb fi ext4, w1⟩) 7 = fd := by
  refine bitAt_digit _ (op * 2 ^ 48 + bit ax * 2 ^ 47 + bit neg * 2 ^ 46 + pg * 2 ^ 43 + dt * 2 ^ 35 + base * 2 ^ 27 + mid * 2 ^ 8 + bit bs * 2 ^ 7 + bit ix * 2 ^ 6 + mod6) (bit fb * 2 ^ 6 + bit fi * 2 ^ 5 + ext4 * 2 ^ 1 + bit w1.isSome) 7 fd ?_ ?_
  · have e5 := bit_le fb; generalize bit fb = b5 at *; have e6 := bit_le fi; generalize bit fi = b6 at *; have e7 := bit_le w1.isSome; generalize bit w1.isSome = b7 at *; omega
  · simp only [View.word0, Body.pack]; have e0 := bit_le ax; generalize bit ax = b0 at *; have e1 := bit_le neg; generalize bit neg = b1 at *; have e2 := bit_le bs; generalize bit bs = b2 at *; have e3 := bit_le ix; generalize bit ix = b3 at *; have e4 := bit_le fd; generalize bit fd = b4 at *; have e5 := bit_le fb; generalize bit fb = b5 at *; have e6 := bit_le fi; generalize bit fi = b6 at *; have e7 := bit_le w1.isSome; generalize bit w1.isSome = b7 at *; omega

theorem word0_m_fb (op pg dt base mid mod6 ext4 : Nat) (ax neg bs ix fd fb fi : Bool) (w1 : Option Nat)
    (h1 : ext4 < 2 ^ 4)
    : bitAt (View.word0 ⟨op, ax, ⟨neg, pg⟩, .m dt base mid bs ix mod6 fd fb fi ext4, w1⟩) 6 = fb := by
  refine bitAt_digit _ (op * 2 ^ 49 + bit ax * 2 ^ 48 + bit neg * 2 ^ 47 + pg * 2 ^ 44 + dt * 2 ^ 36 + base * 2 ^ 28 + mid * 2 ^ 9 + bit bs * 2 ^ 8 + bit ix * 2 ^ 7 + mod6 * 2 ^ 1 + bit fd) (bit fi * 2 ^ 5 + ext4 * 2 ^ 1 + bit w1.isSome) 6 fb ?_ ?_
  · have e6 := bit_le fi; generalize bit fi = b6 at *; have e7 := bit_le w1.isSome; generalize bit w1.isSome = b7 at *; omega
  · simp only [View.word0, Body.pack]; have e0 := bit_le ax; generalize bit ax = b0 at *; have e1 := bit_le neg; generalize bit neg = b1 at *; have e2 := bit_le bs; generalize bit bs = b2 at *; have e3 := bit_le ix; generalize bit ix = b3 at *; have e4 := bit_le fd; generalize bit fd = b4 at *; have e5 := bit_le fb; generalize bit fb = b5 at *; have e6 := bit_le fi; generalize bit fi = b6 at *; have e7 := bit_le w1.isSome; generalize bit w1.isSome = b7 at *; omega

theorem word0_m_fi (op pg dt base mid mod6 ext4 : Nat) (ax neg bs ix fd fb fi : Bool) (w1 : Option Nat)
    (h1 : ext4 < 2 ^ 4)
    : bitAt (View.word0 ⟨op, ax, ⟨neg, pg⟩, .m dt base mid bs ix mod6 fd fb fi ext4, w1⟩) 5 = fi := by
  refine bitAt_digit _ (op * 2 ^ 50 + bit ax * 2 ^ 49 + bit neg * 2 ^ 48 + pg * 2 ^ 45 + dt * 2 ^ 37 + base * 2 ^ 29 + mid * 2 ^ 10 + bit bs * 2 ^ 9 + bit ix * 2 ^ 8 + mod6 * 2 ^ 2 + bit fd * 2 ^ 1 + bit fb) (ext4 * 2 ^ 1 + bit w1.isSome) 5 fi ?_ ?_
  · have e7 := bit_le w1.isSome; generalize bit w1.isSome = b7 at *; omega
  · simp only [View.word0, Body.pack]; have e0 := bit_le ax; generalize bit ax = b0 at *; have e1 := bit_le neg; generalize bit neg = b1 at *; have e2 := bit_le bs; generalize bit bs = b2 at *; have e3 := bit_le ix; generalize bit ix = b3 at *; have e4 := bit_le fd; generalize bit fd = b4 at *; have e5 := bit_le fb; generalize bit fb = b5 at *; have e6 := bit_le fi; generalize bit fi = b6 at *; have e7 := bit_le w1.isSome; generalize bit w1.isSome = b7 at *; omega

theorem word0_m_ext4 (op pg dt base mid mod6 ext4 : Nat) (ax neg bs ix fd fb fi : Bool) (w1 : Option Nat)
    (h0 : ext4 < 2 ^ 4)
    : bitsAt (View.word0 ⟨op, ax, ⟨neg, pg⟩, .m dt base mid bs ix mod6 fd fb fi ext4, w1⟩) 1 4 = ext4 := by
  refine bitsAt_digit _ (op * 2 ^ 51 + bit ax * 2 ^ 50 + bit neg * 2 ^ 49 + pg * 2 ^ 46 + dt * 2 ^ 38 + base * 2 ^ 30 + mid * 2 ^ 11 + bit bs * 2 ^ 10 + bit ix * 2 ^ 9 + mod6 * 2 ^ 3 + bit fd * 2 ^ 2 + bit fb * 2 ^ 1 + bit fi) ext4 (bit w1.isSome) 1 4 h0 ?_ ?_
  · have e7 := bit_le w1.isSome; generalize bit w1.isSome = b7 at *; omega
  · simp only [View.word0, Body.pack]; have e0 := bit_le ax; generalize bit ax = b0 at *; have e1 := bit_le neg; generalize bit neg = b1 at *; have e2 := bit_le bs; generalize bit bs = b2 at *; have e3 := bit_le ix; generalize bit ix = b3 at *; have e4 := bit_le fd; generalize bit fd = b4 at *; have e5 := bit_le fb; generalize bit fb = b5 at *; have e6 := bit_le fi; generalize bit fi = b6 at *; have e7 := bit_le w1.isSome; generalize bit w1.isSome = b7 at *; omega

theorem word0_m_long (op pg dt base mid mod6 ext4 : Nat) (ax neg bs ix fd fb fi : Bool) (w1 : Option Nat)
    : bitAt (View.word0 ⟨op, ax, ⟨neg, pg⟩, .m dt base mid bs ix mod6 fd fb fi ext4, w1⟩) 0 = w1.isSome := by
  refine bitAt_digit _ (op * 2 ^ 55 + bit ax * 2 ^ 54 + bit neg * 2 ^ 53 + pg * 2 ^ 50 + dt * 2 ^ 42 + base * 2 ^ 34 + mid * 2 ^ 15 + bit bs * 2 ^ 14 + bit ix * 2 ^ 13 + mod6 * 2 ^ 7 + bit fd * 2 ^ 6 + bit fb * 2 ^ 5 + bit fi * 2 ^ 4 + ext4) (0) 0 w1.isSome ?_ ?_
  · omega
  · simp only [View.word0, Body.pack]; have e0 := bit_le ax; generalize bit ax = b0 at *; have e1 := bit_le neg; generalize bit neg = b1 at *; have e2 := bit_le bs; generalize bit bs = b2 at *; have e3 := bit_le ix; generalize bit ix = b3 at *; have e4 := bit_le fd; generalize bit fd = b4 at *; have e5 := bit_le fb; generalize bit fb = b5 at *; have e6 := bit_le fi; generalize bit fi = b6 at *; have e7 := bit_le w1.isSome; generalize bit w1.isSome = b7 at *; omega

end Sys2Proof
end

