-- ==== Sys2Proof/Laws/Start.lean ====
section
/-!
SUPPORT. Operations that finish after issue (02 R27): what `await` leaves, and a meaning that starts one.
-/
namespace Sys2Proof.Machine

/-- What `await` changes. -/
theorem await_facts (b : State) (k : Nat) (g x : Group) (cells : List Nat) (op : PendOp)
    (after : List (Nat × Scope)) (lo : VPos) (smp : Option Nat) (h : b.group? k = some x) :
    let u := b.await k g cells op after lo smp
    u = { b with nextId := b.nextId + 1, groups := u.groups
                 pending := b.pending ++ [⟨b.nextId, k, op, after, lo, b.clk, g.ctl.pc, smp, {}, (0, false)⟩] } ∧
    u.group? k = some (x.markEmpty cells) ∧ ∀ j, j ≠ k → u.group? j = b.group? j := by
  intro u
  have hk : ({ b with nextId := b.nextId + 1 } : State).group? k = some x := h
  have hu : u = (({ b with nextId := b.nextId + 1 } : State).modGroup k fun g => g.markEmpty cells).addPend
      ⟨b.nextId, k, op, after, lo, (({ b with nextId := b.nextId + 1 } : State).modGroup k
        fun g => g.markEmpty cells).clk, g.ctl.pc, smp, {}, (0, false)⟩ := rfl
  refine ⟨?_, ?_, fun j hj => ?_⟩
  · rw [hu]; unfold State.modGroup; rw [hk]; rfl
  · rw [hu]
    have := modGroup_group?_self ({ b with nextId := b.nextId + 1 } : State) k fun g => g.markEmpty cells
    rw [hk] at this
    exact this
  · rw [hu]
    have := modGroup_group? ({ b with nextId := b.nextId + 1 } : State) k j fun g => g.markEmpty cells
    rw [if_neg hj] at this
    exact this

/-- A meaning that starts an operation and marks its destination empty. -/
theorem run_started (m : Meta) (body : Group → List Nat → State → Eff) (s b : State) (g : Group)
    (cells : List Nat) (op : PendOp) (after : List (Nat × Scope))
    (hg : Runs s g) (hs : Usable g m.srcs (m.reads g (g.on m.c))) (hd : Fillable g m.dsts (g.on m.c))
    (hb : body g (g.on m.c) s = .next (b.await s.cur g cells op after)) (hc : b.cur = s.cur)
    (hbg : b.group? s.cur = some g) (hst : b.streams = s.streams)
    (hfar : m.FarFree g := by exact ⟨rfl, rfl⟩) :
    ∃ t h, run m body s = .next t ∧ ∃ p, p.op = op ∧ p.after = after ∧
      StartedAs Kept b t g h (instrSize m.i) cells p := by
  obtain ⟨e, e1, e2⟩ := await_facts b s.cur g g cells op after {} none hbg
  have hcur : (b.await s.cur g cells op after).cur = s.cur := by rw [e]; exact hc
  obtain ⟨x, t, h, hx, ht, ha⟩ := run_after m body s (b.await s.cur g cells op after) g (g.markEmpty cells)
    hg hs hd hb hcur e1 hg.unlogged (by rw [e]; exact hst) rfl rfl rfl rfl hfar
  rw [hcur, e1] at hx
  obtain rfl := Option.some.inj hx
  refine ⟨t, h, ht, ⟨b.nextId, s.cur, op, after, {}, b.clk, g.ctl.pc, none, {}, (0, false)⟩, rfl, rfl, ?_⟩
  have f : ∀ {α : Type} (p : State → α), p { b with nextId := b.nextId + 1, groups := (b.await s.cur g cells op after).groups
                                                    pending := b.pending ++ [⟨b.nextId, s.cur, op, after, {}, b.clk, g.ctl.pc, none, {}, (0, false)⟩] } = p b →
      p (b.await s.cur g cells op after) = p b := fun p hp => by rw [e]; exact hp
  have hk := ha.kept
  constructor
  · rw [hc]; rw [← hcur]; exact ha.group
  · exact ha.pc
  · intro c
    obtain ⟨a1, a2, a3⟩ := ha.regs c (by simp)
    exact ⟨a1, a3⟩
  · intro c
    obtain ⟨a1, a2, a3⟩ := ha.regs c (by simp)
    rw [a2]
    simp [Group.markEmpty, NSet.mem_addAll, or_comm]
  · exact ha.sys
  · exact congrArg _ ha.gmem
  · exact ha.park
  · refine ⟨?_, ?_, ?_, hk.mem.trans (f _ rfl), hk.dirty.trans (f _ rfl), hk.pois.trans (f _ rfl),
      hk.lines.trans (f _ rfl), hk.dev.trans (f _ rfl), hk.clusters.trans (f _ rfl), hk.grids.trans (f _ rfl),
      hk.trd.trans (f _ rfl), hk.tenants.trans (f _ rfl), hk.streams.trans (f _ rfl), hk.faults.trans (f _ rfl),
      hk.boot.trans (f _ rfl), hk.plat.trans (f _ rfl), hk.fuses.trans (f _ rfl),
      ⟨hk.rails.1.trans (f _ rfl), hk.rails.2.trans (f _ rfl)⟩, ⟨hk.clk.1.trans (f _ rfl), hk.clk.2.trans (f _ rfl)⟩,
      ⟨hk.held.1.trans (f _ rfl), hk.held.2.1.trans (f _ rfl), hk.held.2.2.1.trans (f _ rfl),
        hk.held.2.2.2.trans (f _ rfl)⟩⟩
    · intro k hkk
      rw [hk.groups k (by rw [hcur, ← hc]; exact hkk), e2 k (by rw [← hc]; exact hkk)]
    · intro k
      rw [hk.teams k, f (fun s => s.team? k) rfl]; rfl
    · intro k
      rw [hk.cores k, f (fun s => s.core k) rfl, hcur, hc]; rfl
  · rw [ha.pending, e]
  · rfl
  · exact hc.symm
  · rfl
  · rfl

/-- A meaning that changes nothing. -/
theorem run_nothing (m : Meta) (body : Group → List Nat → State → Eff) (s : State) (g : Group)
    (hg : Runs s g) (hs : Usable g m.srcs (m.reads g (g.on m.c))) (hd : Fillable g m.dsts (g.on m.c))
    (hb : body g (g.on m.c) s = .next s)
    (hfar : m.FarFree g := by exact ⟨rfl, rfl⟩) :
    ∃ t h, run m body s = .next t ∧ IssuedAs s t g h (instrSize m.i) [] 0 := by
  obtain ⟨t, h, ht, hi, _⟩ := run_regs m body s s g g [] 0 hg hs hd hb ⟨rfl, hg.group, fun _ _ => rfl⟩
    (by simp) (RegsKept.rfl' _ _) (by simp) hfar
  exact ⟨t, h, ht, hi⟩

/-- What `soil` keeps. -/
theorem soil_facts (s : State) (k : Nat) : (s.soil k).cur = s.cur ∧ (s.soil k).streams = s.streams ∧
  (s.soil k).pending = s.pending ∧ ∀ j, (s.soil k).group? j = s.group? j := by
  unfold State.soil
  simp

theorem mem_cells_s (n : Nat) (ls : List Nat) (h : ls ≠ []) (c : Nat) :
   c ∈ (⟨.s n, 1, false⟩ : Use).cells ls ↔ c ∈ destCells (.s n) 1 ls := by
  rw [destCells_s n ls h]
  cases ls with
  | nil => exact absurd rfl h
  | cons a l => simp [Use.cells, cellOf]

/-- A group operation that starts an operation when some lane is on. -/
theorem run_starts (m : Meta) (s b : State) (g : Group) (cells : List Nat) (cells' : List Nat) (op : PendOp)
    (after : List (Nat × Scope)) (body : Group → List Nat → State → Eff)
    (hbody : body g (g.on m.c) s = ifAny (g.on m.c) s (.next (b.await s.cur g cells op after)))
    (hg : Runs s g) (hs : Usable g m.srcs (m.reads g (g.on m.c))) (hd : Fillable g m.dsts (g.on m.c))
    (hc : b.cur = s.cur) (hbg : b.group? s.cur = some g) (hst : b.streams = s.streams)
    (hcells : g.on m.c ≠ [] → ∀ c, c ∈ cells ↔ c ∈ cells')
    (hfar : m.FarFree g := by exact ⟨rfl, rfl⟩) :
    ∃ t h, run m body s = .next t ∧ (g.on m.c = [] → IssuedAs s t g h (instrSize m.i) [] 0) ∧
      (g.on m.c ≠ [] → ∃ p, p.op = op ∧ p.after = after ∧
        StartedAs Kept b t g h (instrSize m.i) cells' p) := by
  by_cases he : g.on m.c = []
  · obtain ⟨t, h, ht, hi⟩ := run_nothing m body s g hg hs hd (by rw [hbody]; simp [ifAny, he]) hfar
    exact ⟨t, h, ht, fun _ => hi, fun h => absurd he h⟩
  · obtain ⟨t, h, ht, p, h1, h2, hi⟩ := run_started m body s b g cells op after hg hs hd
      (by rw [hbody]; simp [ifAny, he]) hc hbg hst hfar
    exact ⟨t, h, ht, fun h => absurd h he, fun _ => ⟨p, h1, h2, { hi with empt := fun c => by rw [hi.empt c, hcells he c] }⟩⟩

/-- What well-formedness says of an instruction that has words. -/
theorem wf_parts (i : Instr) (v : View) (h : view i = some v) (hw : i.wf = true) :
    formOk i = true ∧ rangeOk i = true ∧ (∀ n ∈ needs i, n.posOk = true) ∧
      (∀ n ∈ needs i, n.typeBad = false) := by
  unfold Instr.wf at hw
  rw [h] at hw
  simp only [Bool.and_eq_true, List.all_eq_true, Bool.not_eq_true', List.any_eq_false] at hw
  obtain ⟨⟨⟨⟨⟨⟨_, _⟩, a⟩, b⟩, c⟩, _⟩, d⟩ := hw
  exact ⟨a, b, c, fun n hn => by simpa using d n hn⟩

theorem posOk_s (d : Opd) (h : (nS d).posOk = true) : ∃ n, d = .s n ∧ n < 64 := by
  cases d <;> simp [Need.posOk, nS] at h ⊢
  exact h

theorem posOk_int (f : IForm) (d : Opd) (hax : f.ax = false) (h : (nID f d).posOk = true)
    (ht : (nID f d).typeBad = false) :
    (f.scal = true → ∃ j, d = .s j) ∧ (f.scal = false → VecOpd d) := by
  cases f with
  | mk ax scal ty =>
  simp only at hax; subst hax
  cases scal <;> cases d <;> simp [nID, nI, xDst, Need.posOk, Need.typeBad, VecOpd] at h ht ⊢

theorem posOk_fp (ax : Bool) (t : Ty) (d : Opd) (h : (nFD ax t d).posOk = true) : VecOpd d := by
  cases d <;> simp [nFD, nV, Need.posOk, VecOpd] at h ⊢

theorem instrSize_one (i : Instr) (v : View) (h : view i = some v) (h2 : v.w1 = none) : instrSize i = 8 := by
  simp [instrSize, h, h2]


end Sys2Proof.Machine
end

