-- ==== Sys2Proof/Tests/Slice0.lean ====
section
/-!
SUPPORT. The model's own tests: words written out from the spec's encoding tables and what they decode to;
for each obligation states and operands that meet its hypotheses; ill-formed terms; single instructions with
the results that the spec's rules and examples give.
-/
namespace Sys2Proof.Tests
open Sys2Proof Sys2Proof.Machine Sys2Proof.Claims

/-! ## Words, assembled field by field from the tables of 02 to 18 -/

def controlWordsA : List (Nat × Nat × Instr) :=
  [(0x0158000000000000, 0x0, .nop ⟨true, 3⟩),
   (0x020FFFFFD8000000, 0x0, .bra ⟨false, 1⟩ (-5)),
   (0x0238000000000001, 0x100000000, .braLong ⟨false, 7⟩ 0x100000000),
   (0x033FFFFFE8280002, 0x0, .bru ⟨false, 7⟩ .nz ⟨.s 5, false⟩ (-3)),
   (0x03380000004C0007, 0xfffffffffffffff8, .bruLong ⟨false, 7⟩ .nneg ⟨.s 9, true⟩ (-8)),
   (0x0438003000040000, 0x0, .brx ⟨false, 7⟩ ⟨.v 6, true⟩),
   (0x0538000010000000, 0x0, .call ⟨false, 7⟩ 2),
   (0x0538000000000001, 0x40, .callLong ⟨false, 7⟩ 0x40),
   (0x0638003000000000, 0x0, .callx ⟨false, 7⟩ ⟨.v 6, false⟩),
   (0x0738000000000000, 0x0, .ret),
   (0x0838000000000000, 0x0, .join),
   (0x0910000000000000, 0x0, .exit ⟨false, 2⟩)]
theorem test_decode_controlWordsA : controlWordsA.all (fun e => decode .max e.1 e.2.1 == .ok e.2.2) = true := by decide

def controlWordsB : List (Nat × Nat × Instr) :=
  [(0x0A38100008000010, 0x0, .plog ⟨false, 7⟩ (.p 2) (.p 0) (.p 1) 8),
   (0x0B38083800000000, 0x0, .voteAll ⟨false, 7⟩ (.p 1) (.p 7)),
   (0x0B38081800000002, 0x0, .voteAny ⟨false, 7⟩ (.p 1) (.p 3)),
   (0x0B38083800000006, 0x0, .voteLeader ⟨false, 7⟩ (.p 1) (.p 7)),
   (0x0B38602000000104, 0x0, .voteBallot ⟨false, 7⟩ true (.s 12) (.p 4)),
   (0x0C38001018000002, 0x0, .ipf ⟨false, 7⟩ true ⟨.s 2, false⟩ ⟨.s 3, false⟩),
   (0x0D38201018020000, 0x0, .iinv ⟨false, 7⟩ (.s 4) ⟨.s 2, false⟩ ⟨.s 3, true⟩),
   (0x0E38000000000002, 0x0, .runaOn ⟨false, 7⟩),
   (0x0E38000000000000, 0x0, .runaOff ⟨false, 7⟩)]
theorem test_decode_controlWordsB : controlWordsB.all (fun e => decode .max e.1 e.2.1 == .ok e.2.2) = true := by decide

def integerWordsA : List (Nat × Nat × Instr) :=
  [(0x2038180810020100, 0x0, .iadd ⟨false, 7⟩ ⟨false, false, .i32⟩ (.v 3) ⟨.v 1, false⟩ ⟨.v 2, true⟩),
   (0x2050382FFFFD8100, 0x0, .iaddImm ⟨true, 2⟩ ⟨false, false, .i32⟩ (.v 7) ⟨.v 5, false⟩ (-3)),
   (0x21BE0E1018000700, 0x0, .isub ⟨false, 7⟩ ⟨true, false, .n16⟩ (.x 1) ⟨.x 2, false⟩ ⟨.v 3, false⟩),
   (0x213820200100C300, 0x0, .isubImm ⟨false, 7⟩ ⟨false, true, .b64⟩ (.s 4) ⟨.s 4, false⟩ 0x100),
   (0x2238203040000400, 0x0, .imul ⟨false, 7⟩ ⟨false, false, .i64⟩ (.v 4) ⟨.v 6, false⟩ ⟨.v 8, false⟩),
   (0x2238203000078202, 0x0, .imulImm ⟨false, 7⟩ ⟨false, false, .n32⟩ (.v 4) ⟨.v 6, true⟩ 7),
   (0x2338081018000200, 0x0, .imulh ⟨false, 7⟩ ⟨false, false, .n32⟩ (.v 1) ⟨.v 2, false⟩ ⟨.v 3, false⟩),
   (0x2438081018210100, 0x0, .imad ⟨false, 7⟩ ⟨false, false, .i32⟩ (.v 1) ⟨.v 2, false⟩ ⟨.v 3, false⟩ ⟨.v 4, true⟩),
   (0x2538081000000600, 0x0, .iabs ⟨false, 7⟩ ⟨false, false, .i16⟩ (.v 1) ⟨.v 2, false⟩),
   (0x2638081018000100, 0x0, .imin ⟨false, 7⟩ ⟨false, false, .i32⟩ (.v 1) ⟨.v 2, false⟩ ⟨.v 3, false⟩),
   (0x26380817FFFF8100, 0x0, .iminImm ⟨false, 7⟩ ⟨false, false, .i32⟩ (.v 1) ⟨.v 2, false⟩ (-1)),
   (0x2738081018004500, 0x0, .imax ⟨false, 7⟩ ⟨false, true, .n64⟩ (.s 1) ⟨.s 2, false⟩ ⟨.s 3, false⟩)]
theorem test_decode_integerWordsA : integerWordsA.all (fun e => decode .max e.1 e.2.1 == .ok e.2.2) = true := by decide

def integerWordsB : List (Nat × Nat × Instr) :=
  [(0x2738081000098200, 0x0, .imaxImm ⟨false, 7⟩ ⟨false, false, .n32⟩ (.v 1) ⟨.v 2, false⟩ 9),
   (0x283828081018402C, 0x0, .lop ⟨false, 7⟩ false .b32 (.v 5) ⟨.v 1, false⟩ ⟨.v 2, false⟩ ⟨.v 3, false⟩ 0x96),
   (0x2938081018000000, 0x0, .shl ⟨false, 7⟩ ⟨false, false, .b32⟩ (.v 1) ⟨.v 2, false⟩ ⟨.v 3, false⟩),
   (0x2938102000218300, 0x0, .shlImm ⟨false, 7⟩ ⟨false, false, .b64⟩ (.v 2) ⟨.v 4, false⟩ 33),
   (0x2A38081018004000, 0x0, .shr ⟨false, 7⟩ ⟨false, true, .b32⟩ (.s 1) ⟨.s 2, false⟩ ⟨.s 3, false⟩),
   (0x2A38081000048000, 0x0, .shrImm ⟨false, 7⟩ ⟨false, false, .b32⟩ (.v 1) ⟨.v 2, false⟩ 4),
   (0x2B38081018000100, 0x0, .sar ⟨false, 7⟩ ⟨false, false, .i32⟩ (.v 1) ⟨.v 2, false⟩ ⟨.v 3, false⟩),
   (0x2B38102000048400, 0x0, .sarImm ⟨false, 7⟩ ⟨false, false, .i64⟩ (.v 2) ⟨.v 4, false⟩ 4),
   (0x2C38081018200000, 0x0, .shfL ⟨false, 7⟩ false (.v 1) ⟨.v 2, false⟩ ⟨.v 3, false⟩ ⟨.v 4, false⟩),
   (0x2CBE081018200002, 0x0, .shfR ⟨false, 7⟩ true (.x 1) ⟨.v 2, false⟩ ⟨.v 3, false⟩ ⟨.v 4, false⟩),
   (0x2D38102000000300, 0x0, .popc ⟨false, 7⟩ ⟨false, false, .b64⟩ (.v 2) ⟨.v 4, false⟩),
   (0x2E38081000004000, 0x0, .clz ⟨false, 7⟩ ⟨false, true, .b32⟩ (.s 1) ⟨.s 2, false⟩)]
theorem test_decode_integerWordsB : integerWordsB.all (fun e => decode .max e.1 e.2.1 == .ok e.2.2) = true := by decide

def integerWordsC : List (Nat × Nat × Instr) :=
  [(0x2F38081000000000, 0x0, .brev ⟨false, 7⟩ .b32 (.v 1) ⟨.v 2, false⟩),
   (0x3038081018000100, 0x0, .bfe ⟨false, 7⟩ ⟨false, false, .i32⟩ (.v 1) ⟨.v 2, false⟩ ⟨.v 3, false⟩),
   (0x3138081018200000, 0x0, .bfi ⟨false, 7⟩ ⟨false, false, .b32⟩ (.v 1) ⟨.v 2, false⟩ ⟨.v 3, false⟩ ⟨.v 4, false⟩),
   (0x3A38081018200000, 0x0, .prmt ⟨false, 7⟩ (.v 1) ⟨.v 2, false⟩ ⟨.v 3, false⟩ ⟨.v 4, false⟩),
   (0x323830101800020A, 0x0, .icmp ⟨false, 7⟩ ⟨false, false, .n32⟩ .ge (.p 6) ⟨.v 2, false⟩ ⟨.v 3, false⟩),
   (0x32380820000A8108, 0x0, .icmpImm ⟨false, 7⟩ ⟨false, false, .i32⟩ .lt (.p 1) ⟨.v 4, false⟩ 10),
   (0x3338081018280000, 0x0, .isel ⟨false, 7⟩ false .b32 (.v 1) ⟨.v 2, false⟩ ⟨.v 3, false⟩ (.p 5)),
   (0x3438081000000002, 0x0, .mov ⟨false, 7⟩ ⟨false, false, .b32⟩ true (.v 1) ⟨.s 2, false⟩),
   (0x35380807FFFE0000, 0x0, .movi ⟨false, 7⟩ ⟨false, false, .b32⟩ (.v 1) (-2)),
   (0x3538100000000301, 0x123456789abcdef0, .moviLong ⟨false, 7⟩ ⟨false, false, .b64⟩ (.v 2) 0x123456789ABCDEF0),
   (0x3638080000004218, 0x0, .ident ⟨false, 7⟩ true .tenant (.s 1)),
   (0x37BE16100080000A, 0x0, .xlane ⟨false, 7⟩ true .xor .b32 (.x 2) ⟨.x 2, false⟩ (.imm 16))]
theorem test_decode_integerWordsC : integerWordsC.all (fun e => decode .max e.1 e.2.1 == .ok e.2.2) = true := by decide

def integerWordsD : List (Nat × Nat × Instr) :=
  [(0x3838501030180100, 0x0, .lea ⟨false, 7⟩ ⟨false, false, .i32⟩ (.v 10) ⟨.v 2, false⟩ ⟨.v 6, false⟩ 3),
   (0x3938404800000622, 0x0, .cvti ⟨false, 7⟩ ⟨false, false, .i16⟩ .i32 true (.v 8) ⟨.v 9, false⟩)]
theorem test_decode_integerWordsD : integerWordsD.all (fun e => decode .max e.1 e.2.1 == .ok e.2.2) = true := by decide

def memoryWordsA : List (Nat × Nat × Instr) :=
  [(0x40BE201000060100, 0x0, .ld ⟨false, 7⟩ true .b16 false (.x 4) ⟨false, ⟨.v 2, false⟩, 6, none⟩),
   (0x4038402800008341, 0x12345678, .ldLong ⟨false, 7⟩ false .b64 false (.v 8) ⟨true, ⟨.s 5, true⟩, 0, none⟩ 0x12345678),
   (0x413818204A0142A0, 0x0, .st ⟨false, 7⟩ false .b32 ⟨.v 3, true⟩ ⟨false, ⟨.v 4, false⟩, 0, some ⟨.v 9, 2, some (.s 1), true⟩⟩),
   (0x4138202800008401, 0x10, .stLong ⟨false, 7⟩ false .b128 ⟨.v 4, false⟩ ⟨true, ⟨.s 5, false⟩, 0, none⟩ 0x10),
   (0x423840180040B200, 0x0, .lds ⟨false, 7⟩ false .b32 false true true (.v 8) ⟨true, ⟨.s 3, false⟩, 64, none⟩),
   (0x4338401FFFFC9000, 0x0, .sts ⟨false, 7⟩ false .b8 true ⟨.v 8, false⟩ ⟨true, ⟨.s 3, false⟩, (-4), none⟩),
   (0x4438405800101900, 0x0, .ldr ⟨false, 7⟩ false .b16 true true false (.v 8) ⟨3, true, 16, none⟩),
   (0x453850102BFF5300, 0x0, .str ⟨false, 7⟩ false .b64 true ⟨.v 10, false⟩ ⟨2, false, 0, some ⟨.v 5, 3, none, false⟩⟩),
   (0x4638002000400004, 0x0, .pf ⟨false, 7⟩ 2 ⟨false, ⟨.v 4, false⟩, 64, none⟩),
   (0x4638002800008003, 0x1000, .pfLong ⟨false, 7⟩ 1 ⟨true, ⟨.s 5, false⟩, 0, none⟩ 0x1000),
   (0x4738002030400006, 0x0, .stmap ⟨false, 7⟩ 3 ⟨.s 4, false⟩ ⟨.s 6, false⟩ ⟨.s 8, false⟩),
   (0x483800000000001E, 0x0, .stunmap ⟨false, 7⟩ 15)]
theorem test_decode_memoryWordsA : memoryWordsA.all (fun e => decode .max e.1 e.2.1 == .ok e.2.2) = true := by decide

def memoryWordsB : List (Nat × Nat × Instr) :=
  [(0x4938002028000000, 0x0, .femEmpty ⟨false, 7⟩ ⟨.s 4, false⟩ ⟨.s 5, false⟩),
   (0x4938002028000002, 0x0, .femFull ⟨false, 7⟩ ⟨.s 4, false⟩ ⟨.s 5, false⟩),
   (0x4938002028000004, 0x0, .femAx ⟨false, 7⟩ ⟨.s 4, false⟩ ⟨.s 5, false⟩),
   (0x4938002028040006, 0x0, .femPr ⟨false, 7⟩ ⟨.s 4, true⟩ ⟨.s 5, false⟩),
   (0x4A38480000000002, 0x0, .ringq ⟨false, 7⟩ 1 (.s 9)),
   (0x4B38381018000000, 0x0, .cwbL3 ⟨false, 7⟩ (.s 7) ⟨.s 2, false⟩ ⟨.s 3, false⟩),
   (0x4B38381018000002, 0x0, .cwbMem ⟨false, 7⟩ (.s 7) ⟨.s 2, false⟩ ⟨.s 3, false⟩),
   (0x4C38381018000000, 0x0, .cinvCore ⟨false, 7⟩ (.s 7) ⟨.s 2, false⟩ ⟨.s 3, false⟩),
   (0x4C38381018000002, 0x0, .cinvDie ⟨false, 7⟩ (.s 7) ⟨.s 2, false⟩ ⟨.s 3, false⟩),
   (0x4C38381018000004, 0x0, .cinvDev ⟨false, 7⟩ (.s 7) ⟨.s 2, false⟩ ⟨.s 3, false⟩),
   (0x4D38381000000004, 0x0, .tlbq ⟨false, 7⟩ 2 (.s 7) ⟨.s 2, false⟩)]
theorem test_decode_memoryWordsB : memoryWordsB.all (fun e => decode .max e.1 e.2.1 == .ok e.2.2) = true := by decide

def floatWordsA : List (Nat × Nat × Instr) :=
  [(0x60BE1E1808000900, 0x0, .fadd ⟨false, 7⟩ ⟨true, .ne, .f16⟩ (.x 3) ⟨.x 3, false⟩ ⟨.v 1, false⟩),
   (0x60381009FC00A800, 0x0, .faddImm ⟨false, 7⟩ ⟨false, .rp, .f32⟩ (.v 2) ⟨.v 1, false⟩ 0x1FC00),
   (0x6138102030003B00, 0x0, .fsub ⟨false, 7⟩ ⟨false, .rm, .f64⟩ (.v 2) ⟨.v 4, false⟩ ⟨.v 6, false⟩),
   (0x6238081018000C00, 0x0, .fmul ⟨false, 7⟩ ⟨false, .ne, .f16x2⟩ (.v 1) ⟨.v 2, false⟩ ⟨.v 3, false⟩),
   (0x623808103C008900, 0x0, .fmulImm ⟨false, 7⟩ ⟨false, .ne, .f16⟩ (.v 1) ⟨.v 2, false⟩ 0x3C00),
   (0x6338200810181800, 0x0, .fma ⟨false, 7⟩ ⟨false, .rz, .f32⟩ (.v 4) ⟨.v 1, false⟩ ⟨.v 2, false⟩ ⟨.v 3, false⟩),
   (0x7338200810180D00, 0x0, .fdot2 ⟨false, 7⟩ ⟨false, .ne, .bf16x2⟩ (.v 4) ⟨.v 1, false⟩ ⟨.v 2, false⟩ ⟨.v 3, false⟩),
   (0x7138201008000B00, 0x0, .fscale ⟨false, 7⟩ ⟨false, .ne, .f64⟩ (.v 4) ⟨.v 2, false⟩ ⟨.v 1, false⟩),
   (0x6438081018000800, 0x0, .fmin ⟨false, 7⟩ false .f32 (.v 1) ⟨.v 2, false⟩ ⟨.v 3, false⟩),
   (0x6438081000058800, 0x0, .fminImm ⟨false, 7⟩ false .f32 (.v 1) ⟨.v 2, false⟩ 5),
   (0x65BE081018000A00, 0x0, .fmax ⟨false, 7⟩ true .bf16 (.x 1) ⟨.v 2, false⟩ ⟨.v 3, false⟩),
   (0x6538081000058800, 0x0, .fmaxImm ⟨false, 7⟩ false .f32 (.v 1) ⟨.v 2, false⟩ 5)]
theorem test_decode_floatWordsA : floatWordsA.all (fun e => decode .max e.1 e.2.1 == .ok e.2.2) = true := by decide

def floatWordsB : List (Nat × Nat × Instr) :=
  [(0x663808100000080C, 0x0, .fmov ⟨false, 7⟩ false .f32 true true (.v 1) ⟨.v 2, false⟩),
   (0x673808101800080C, 0x0, .fcmp ⟨false, 7⟩ .f32 .un (.p 1) ⟨.v 2, false⟩ ⟨.v 3, false⟩),
   (0x67380817F8008808, 0x0, .fcmpImm ⟨false, 7⟩ .f32 .lt (.p 1) ⟨.v 2, false⟩ (-2048)),
   (0x6838100800000B10, 0x0, .fcvt ⟨false, 7⟩ ⟨false, .ne, .f64⟩ .f32 false (.v 2) ⟨.v 1, false⟩ none),
   (0x6938081000002800, 0x0, .frnd ⟨false, 7⟩ .rp .f32 (.v 1) ⟨.v 2, false⟩),
   (0x6A38081000000800, 0x0, .frcps ⟨false, 7⟩ (.v 1) ⟨.v 2, false⟩),
   (0x6B38081000000800, 0x0, .frsqs ⟨false, 7⟩ (.v 1) ⟨.v 2, false⟩),
   (0x6C38102000001B00, 0x0, .fsqrt ⟨false, 7⟩ ⟨false, .rz, .f64⟩ (.v 2) ⟨.v 4, false⟩),
   (0x6D38081018000800, 0x0, .fdiv ⟨false, 7⟩ ⟨false, .ne, .f32⟩ (.v 1) ⟨.v 2, false⟩ ⟨.v 3, false⟩),
   (0x6E38081000000800, 0x0, .fex2 ⟨false, 7⟩ (.v 1) ⟨.v 2, false⟩),
   (0x6F38081000000800, 0x0, .flg2 ⟨false, 7⟩ (.v 1) ⟨.v 2, false⟩),
   (0x7038081000000B00, 0x0, .fclass ⟨false, 7⟩ .f64 (.v 1) ⟨.v 2, false⟩)]
theorem test_decode_floatWordsB : floatWordsB.all (fun e => decode .max e.1 e.2.1 == .ok e.2.2) = true := by decide

def floatWordsC : List (Nat × Nat × Instr) :=
  [(0x7238081000000800, 0x0, .fxtrExp ⟨false, 7⟩ .f32 (.v 1) ⟨.v 2, false⟩),
   (0x7238081000000802, 0x0, .fxtrMan ⟨false, 7⟩ .f32 (.v 1) ⟨.v 2, false⟩),
   (0x7438A0A038000D00, 0x0, .xacc ⟨false, 7⟩ .bf16x2 ⟨.v 20, false⟩ ⟨.v 7, false⟩),
   (0x753808A000004800, 0x0, .xrnd ⟨false, 7⟩ .ne true (.v 1) ⟨.v 20, false⟩)]
theorem test_decode_floatWordsC : floatWordsC.all (fun e => decode .max e.1 e.2.1 == .ok e.2.2) = true := by decide

def approximateWords : List (Nat × Nat × Instr) :=
  [(0x80383E2800000000, 0x0, .endorse ⟨false, 7⟩ .b32 (.v 7) ⟨.x 5, false⟩),
   (0x813818000000000C, 0x0, .rail ⟨false, 7⟩ (.s 3) (some 6) none),
   (0x8138182000040010, 0x0, .rail ⟨false, 7⟩ (.s 3) none (some ⟨.s 4, true⟩)),
   (0x8238200000000000, 0x0, .railq ⟨false, 7⟩ (.s 4)),
   (0x8338281000000000, 0x0, .tolq ⟨false, 7⟩ (.s 5) ⟨.s 2, false⟩)]
theorem test_decode_approximateWords : approximateWords.all (fun e => decode .max e.1 e.2.1 == .ok e.2.2) = true := by decide

def visibilityWords : List (Nat × Nat × Instr) :=
  [(0x9038280000000800, 0x0, .cmt ⟨false, 7⟩ .grp true (.s 5)),
   (0x9138301018000102, 0x0, .abt ⟨false, 7⟩ .team (.s 6) (some (⟨.s 2, false⟩, ⟨.s 3, false⟩))),
   (0x9238000000000300, 0x0, .fence ⟨false, 7⟩ .dev),
   (0x933840200000A200, 0x0, .lda ⟨false, 7⟩ .dev .b32 false (.v 8) ⟨true, ⟨.s 4, false⟩, 0, none⟩),
   (0x9338402000003301, 0x20, .ldaLong ⟨false, 7⟩ .sys .b64 false (.v 8) ⟨false, ⟨.v 4, false⟩, 0, none⟩ 0x20),
   (0x9438380000000000, 0x0, .bufq ⟨false, 7⟩ (.s 7)),
   (0x9538481018000002, 0x0, .rlq ⟨false, 7⟩ true (.s 9) ⟨.s 2, false⟩ ⟨.s 3, false⟩)]
theorem test_decode_visibilityWords : visibilityWords.all (fun e => decode .max e.1 e.2.1 == .ok e.2.2) = true := by decide

def atomicWords : List (Nat × Nat × Instr) :=
  [(0xA038482030003200, 0x0, .atom ⟨false, 7⟩ .add .dev .n32 (some (.v 9)) ⟨.v 4, false⟩ ⟨.v 6, false⟩ none),
   (0xA038502030402310, 0x0, .atom ⟨false, 7⟩ .cas .clu .b64 (some (.v 10)) ⟨.v 4, false⟩ ⟨.v 6, false⟩ (some ⟨.v 8, false⟩)),
   (0xA13800203000C10C, 0x0, .atomf ⟨false, 7⟩ .max .sys .i32 none ⟨.v 4, false⟩ ⟨.v 6, false⟩ none),
   (0xA238002038003800, 0x0, .xadd ⟨false, 7⟩ .dev .f32 ⟨.v 4, false⟩ ⟨.v 7, false⟩),
   (0xA33800280000003E, 0x0, .bari ⟨false, 7⟩ 31 ⟨.s 5, false⟩),
   (0xA438100000000006, 0x0, .barv ⟨false, 7⟩ 3 (.s 2)),
   (0xA538001000040000, 0x0, .barw ⟨false, 7⟩ ⟨.s 2, true⟩),
   (0xA638280000000018, 0x0, .tkt ⟨false, 7⟩ 12 (.s 5)),
   (0xA738002800000000, 0x0, .tktw ⟨false, 7⟩ ⟨.s 5, false⟩),
   (0xA83800000000007E, 0x0, .tkts ⟨false, 7⟩ 63),
   (0xA938301018203000, 0x0, .park ⟨false, 7⟩ .dev (.s 6) ⟨.s 2, false⟩ ⟨.s 3, false⟩ ⟨.s 4, false⟩),
   (0xAA38301018001000, 0x0, .wake ⟨false, 7⟩ .team (.s 6) ⟨.s 2, false⟩ ⟨.s 3, false⟩)]
theorem test_decode_atomicWords : atomicWords.all (fun e => decode .max e.1 e.2.1 == .ok e.2.2) = true := by decide

def tasksWords : List (Nat × Nat × Instr) :=
  [(0xB038003000000006, 0x0, .spawn ⟨false, 7⟩ 3 ⟨.v 6, false⟩),
   (0xB138000000000006, 0x0, .binf ⟨false, 7⟩ 3),
   (0xB238281018000000, 0x0, .tpostRec ⟨false, 7⟩ (.s 5) ⟨.s 2, false⟩ ⟨.s 3, false⟩),
   (0xB238281018000026, 0x0, .tpostBin ⟨false, 7⟩ 3 (.s 5) ⟨.s 2, false⟩ ⟨.s 3, false⟩),
   (0xB338302838000000, 0x0, .tdec ⟨false, 7⟩ (.s 6) ⟨.s 5, false⟩ ⟨.s 7, false⟩),
   (0xB438402800000000, 0x0, .tq ⟨false, 7⟩ (.s 8) ⟨.s 5, false⟩),
   (0xB538101000000000, 0x0, .lnch ⟨false, 7⟩ (.s 2) ⟨.s 2, false⟩),
   (0xB608000000000000, 0x0, .yield ⟨false, 1⟩)]
theorem test_decode_tasksWords : tasksWords.all (fun e => decode .max e.1 e.2.1 == .ok e.2.2) = true := by decide

def heddleWords : List (Nat × Nat × Instr) :=
  [(0xD038108000000352, 0x0, .hmm ⟨false, 7⟩ false (.acc 2) ⟨.s 16, false⟩ 1 5),
   (0xD138388000000326, 0x0, .hmmf ⟨false, 7⟩ (.acc 7) ⟨.s 16, false⟩ 3 2),
   (0xD238000000000010, 0x0, .hclr ⟨false, 7⟩ true (.acc 0)),
   (0xD338084000000310, 0x0, .hacl ⟨false, 7⟩ true (.acc 1) ⟨.s 8, false⟩),
   (0xD43810A00000F31A, 0x0, .hdrn ⟨false, 7⟩ ⟨true, true, true, true, false, true⟩ .dev (.acc 2) ⟨.s 20, false⟩ 5),
   (0xD538008000000304, 0x0, .bpack ⟨false, 7⟩ ⟨.s 16, false⟩ 2),
   (0xD63800800000030E, 0x0, .bunpk ⟨false, 7⟩ ⟨.s 16, false⟩ 7),
   (0xD73838000000000A, 0x0, .fmtqSlot ⟨false, 7⟩ (.s 7) 5),
   (0xD738380000000016, 0x0, .fmtqAcc ⟨false, 7⟩ (.s 7) 3)]
theorem test_decode_heddleWords : heddleWords.all (fun e => decode .max e.1 e.2.1 == .ok e.2.2) = true := by decide

def quillWords : List (Nat × Nat × Instr) :=
  [(0xC038488020008304, 0x0, .qcp ⟨false, 7⟩ (.ring 2) .dev (.s 9) ⟨.s 16, false⟩ ⟨.s 4, false⟩),
   (0xC038488020006200, 0x0, .qcpSt ⟨false, 7⟩ .sp .clu (.s 9) ⟨.s 16, false⟩ ⟨.s 4, false⟩),
   (0xC138488030000300, 0x0, .qcpm ⟨false, 7⟩ (.s 9) ⟨.s 16, false⟩ ⟨.s 6, false⟩ ⟨.s 0, false⟩),
   (0xC238488028080300, 0x0, .qmc ⟨false, 7⟩ .dev (.s 9) ⟨.s 16, false⟩ ⟨.s 5, false⟩ ⟨.s 1, false⟩),
   (0xC338488000000300, 0x0, .qcol ⟨false, 7⟩ .dev (.s 9) ⟨.s 16, false⟩),
   (0xC438488000000400, 0x0, .qput ⟨false, 7⟩ .sys (.s 9) ⟨.s 16, false⟩),
   (0xC538488000000300, 0x0, .qget ⟨false, 7⟩ .dev (.s 9) ⟨.s 16, false⟩),
   (0xC638380000000000, 0x0, .qstatEng ⟨false, 7⟩ (.s 7)),
   (0xC638384000000002, 0x0, .qstatCmd ⟨false, 7⟩ (.s 7) ⟨.s 8, false⟩)]
theorem test_decode_quillWords : quillWords.all (fun e => decode .max e.1 e.2.1 == .ok e.2.2) = true := by decide

def systemWords : List (Nat × Nat × Instr) :=
  [(0xE03800000000000A, 0x0, .trap ⟨false, 7⟩ 5),
   (0xE4380000000000FE, 0x0, .brkp ⟨false, 7⟩ 127),
   (0xE138000000000000, 0x0, .rtt),
   (0xE138000000000002, 0x0, .rttSkip),
   (0xE238281000140004, 0x0, .srd ⟨false, 7⟩ 0x14 (.s 5) (some (.s 2))),
   (0xE338003007000002, 0x0, .swr ⟨false, 7⟩ 0x700 none ⟨.s 6, true⟩),
   (0xE538002000000000, 0x0, .sleep ⟨false, 7⟩ ⟨.s 4, false⟩),
   (0xE638000000000000, 0x0, .spt ⟨false, 7⟩)]
theorem test_decode_systemWords : systemWords.all (fun e => decode .max e.1 e.2.1 == .ok e.2.2) = true := by decide

def traceWords : List (Nat × Nat × Instr) :=
  [(0xF03800200000000A, 0x0, .tmark ⟨false, 7⟩ 5 ⟨.s 4, false⟩),
   (0xF138000000000000, 0x0, .msmp ⟨false, 7⟩),
   (0xF238300000000000, 0x0, .rmark ⟨false, 7⟩ (.s 6)),
   (0xF338380000000024, 0x0, .pcnt ⟨false, 7⟩ (.s 7) 0x12),
   (0xF438401000000000, 0x0, .vclk ⟨false, 7⟩ (.s 8) ⟨.s 2, false⟩)]
theorem test_decode_traceWords : traceWords.all (fun e => decode .max e.1 e.2.1 == .ok e.2.2) = true := by decide


/-! ## A small machine: one grid (1), cluster (2), team (3) and group (4) on core 0; pages 1 (code) and 2 (data) -/

def g0 : Group := { core := 0, slot := 0, team := 3, gidx := 0
                    ctl := { pc := 4096, act := 0x80000003 }, trc := { started := true } }
def tm0 : Team := { cluster := 2, index := 0, core := 0, num := 0, hdr := maxHeader, groups := [4]
                    rings := List.replicate 8 ⟨0, 0, 0⟩ }
def cl0 : Cluster := { grid := 1, index := 0, die := 0, teams := [3] }
def gr0 : Grid := { lno := 7, addr := 0, rcd := { oneRecord with stack := 64 }, hdr := maxHeader, binTab := [], binHdrs := []
                    queue := 256, next := 1, clusters := [2] }
def core0 : Core := { teams := [3], l1i := [(16, (4096, 0))], l0i := [(16, (4096, 0))], tlb := [(4, ⟨0x1017, 0⟩), (8, ⟨0x200F, 0⟩)] }
def machT (g : Group) (t : Team) : State :=
  { State.reset with
    cur := 4, nextId := 5, boot := { stage := 3 }, grids := [(1, gr0)], clusters := [(2, cl0)], teams := [(3, t)]
    groups := [(4, g)], cores := [(0, core0)] }
def mach (g : Group) : State := machT g tm0
def c7 : Ctl := ⟨false, 7⟩
def v (n : Nat) : Src := ⟨.v n, false⟩
def sr (n : Nat) : Src := ⟨.s n, false⟩
/-- g0 with some scalars. -/
def gS (m : AMap Word64) : Group := { g0 with regs := { s := m } }
/-- g0 with some vector cells. -/
def gV (m : AMap Word32) : Group := { g0 with regs := { v := m } }
def leaf2 : Leaf := ⟨0x200F, 0⟩

theorem untraced_reset (s : State) (h : s.streams = []) : Untraced s := by
  intro t b
  have e : s.stream t = {} := by unfold State.stream; rw [h]; rfl
  unfold State.traces; rw [e]; rfl

theorem usable_of (g : Group) (us : List Use) (ls : List Nat) (h : g.regs.empt = []) (k : g.regs.pois = []) :
    Usable g us ls := by
  constructor
  · intro u _; unfold Group.emptyCells; rw [h]; exact List.filter_eq_nil_iff.2 fun _ _ => by simp [NSet.has]
  · intro u _; unfold lanesIn; rw [k]; exact List.filter_eq_nil_iff.2 fun _ _ => by simp [NSet.has]

theorem fillable_of (g : Group) (us : List Use) (ls : List Nat) (h : g.regs.empt = []) : Fillable g us ls :=
  fun u _ => by unfold Group.emptyCells; rw [h]; exact List.filter_eq_nil_iff.2 fun _ _ => by simp [NSet.has]

theorem runs_of (s : State) (g : Group) (h : s.group? s.cur = some g) (h2 : g.trc.started = true)
    (h3 : g.shadow = none) (h4 : g.trc.replay = none) (h5 : g.trc.rec? = none) (h6 : g.sys.skid = none)
    (h7 : g.sys.stepping = false) : Runs s g := ⟨h, h2, h3, h4, h5, h6, h7⟩

theorem runs_mach (g : Group) (t : Team) (h2 : g.trc.started = true) (h3 : g.shadow = none)
    (h4 : g.trc.replay = none) (h5 : g.trc.rec? = none) (h6 : g.sys.skid = none)
    (h7 : g.sys.stepping = false) : Runs (machT g t) g := ⟨rfl, h2, h3, h4, h5, h6, h7⟩

/-! ## Integer statements (05) -/

/-- IntegerArithmetic: the vector form of `iadd`, and the scalar form of `isub` with a lane on. -/
theorem witness_IntegerArithmetic : (∃ i r, arithRow i = some r ∧ i.wf = true ∧ r.f.ax = false ∧ r.f.scal = false ∧
      Runs (mach g0) g0 ∧ Usable g0 (r.args.flatMap (Arg.use r.f.scal r.f.ty.regs)) (g0.on r.c) ∧
      Fillable g0 [⟨r.d, if r.f.scal then 1 else r.f.ty.regs, false⟩] (g0.on r.c) ∧ 31 ∈ g0.on r.c) ∧
    (∃ i r, arithRow i = some r ∧ i.wf = true ∧ r.f.ax = false ∧ r.f.scal = true ∧
      Runs (mach g0) g0 ∧ Usable g0 (r.args.flatMap (Arg.use r.f.scal r.f.ty.regs)) (g0.on r.c) ∧
      Fillable g0 [⟨r.d, if r.f.scal then 1 else r.f.ty.regs, false⟩] (g0.on r.c) ∧ g0.on r.c ≠ []) :=
  ⟨⟨.iadd c7 ⟨false, false, .i32⟩ (.v 3) (v 1) (v 2), _, rfl, by decide, rfl, rfl, runs_mach _ _ rfl rfl rfl rfl rfl rfl,
    usable_of _ _ _ rfl rfl, fillable_of _ _ _ rfl, by decide⟩,
   ⟨.isub c7 ⟨false, true, .i64⟩ (.s 63) (sr 1) (sr 2), _, rfl, by decide, rfl, rfl, runs_mach _ _ rfl rfl rfl rfl rfl rfl,
    usable_of _ _ _ rfl rfl, fillable_of _ _ _ rfl, by decide⟩⟩

/-- LogicAndShifts, CountsAndFields: a shift by the whole width, and a field that ends at the top bit. -/
theorem witness_ShiftsAndFields : (∃ i r, shiftRow i = some r ∧ i.wf = true ∧ r.f.ax = false ∧
      Runs (mach g0) g0 ∧ Usable g0 (r.args.flatMap (Arg.use r.f.scal r.f.ty.regs)) (g0.on r.c) ∧
      Fillable g0 [⟨r.d, if r.f.scal then 1 else r.f.ty.regs, false⟩] (g0.on r.c)) ∧
    (∃ i r, fieldRow i = some r ∧ i.wf = true ∧ r.f.ax = false ∧
      Runs (mach g0) g0 ∧ Usable g0 (r.args.flatMap (Arg.use r.f.scal r.f.ty.regs)) (g0.on r.c) ∧
      Fillable g0 [⟨r.d, if r.f.scal then 1 else r.f.ty.regs, false⟩] (g0.on r.c)) :=
  ⟨⟨.shlImm c7 ⟨false, false, .b32⟩ (.v 3) (v 1) 32, _, rfl, by decide, rfl, runs_mach _ _ rfl rfl rfl rfl rfl rfl,
    usable_of _ _ _ rfl rfl, fillable_of _ _ _ rfl⟩,
   ⟨.bfe c7 ⟨false, false, .i32⟩ (.v 3) (v 1) (v 2), _, rfl, by decide, rfl, runs_mach _ _ rfl rfl rfl rfl rfl rfl,
    usable_of _ _ _ rfl rfl, fillable_of _ _ _ rfl⟩⟩

/-- PredicateResults: a predicate written, and pt. -/
theorem witness_PredicateResults : (∃ i r, predRow i = some r ∧ i.wf = true ∧ r.d = .p 6 ∧
      Runs (mach g0) g0 ∧ Usable g0 r.srcs (g0.on r.c)) ∧
    (∃ i r, predRow i = some r ∧ i.wf = true ∧ r.d = .p 7 ∧
      Runs (mach g0) g0 ∧ Usable g0 r.srcs (g0.on r.c)) :=
  ⟨⟨.icmpImm c7 ⟨false, false, .i32⟩ .lt (.p 6) (v 4) 10, _, rfl, by decide, rfl, runs_mach _ _ rfl rfl rfl rfl rfl rfl,
    usable_of _ _ _ rfl rfl⟩,
   ⟨.voteAll c7 (.p 7) (.p 0), _, rfl, by decide, rfl, runs_mach _ _ rfl rfl rfl rfl rfl rfl, usable_of _ _ _ rfl rfl⟩⟩

/-- MovesAndConversions, MoveFromLowestLane, LaneExchange (both forms of its operand). -/
theorem witness_MovesAndExchanges : (∃ i r, laneRow i = some r ∧ i.wf = true ∧ Runs (mach g0) g0 ∧
      Usable g0 r.srcs (g0.on r.c) ∧ Fillable g0 [⟨r.d, r.k, false⟩] (g0.on r.c)) ∧
    (∃ i r, scalarRow i = some r ∧ i.wf = true ∧ Runs (mach g0) g0 ∧
      Usable g0 r.srcs (g0.on r.c) ∧ Fillable g0 [⟨r.d, 1, false⟩] (g0.on r.c) ∧ g0.on r.c ≠ []) ∧
    ((Instr.mov c7 ⟨false, true, .b64⟩ false (.s 1) (v 2)).wf = true ∧ Runs (mach g0) g0 ∧ g0.on c7 = 0 :: [1, 31] ∧
      Usable g0 [⟨.v 2, 2, false⟩] [0] ∧ Fillable g0 [⟨.s 1, 1, false⟩] (g0.on c7)) ∧
    ((Instr.xlane c7 false .idx .b32 (.v 1) (v 2) (.reg (v 3))).wf = true ∧
      (Instr.xlane c7 false .down .b32 (.v 1) (v 2) (.imm 31)).wf = true ∧
      Usable g0 [⟨.v 3, 1, false⟩] (g0.on c7) ∧
      Usable g0 [⟨.v 2, 1, false⟩] ((g0.on c7).map fun l => xlaneLane .down g0 l 31) ∧
      Fillable g0 [⟨.v 1, 1, false⟩] (g0.on c7)) :=
  ⟨⟨.isel c7 false .b32 (.v 3) (v 1) (v 2) (.p 0), _, rfl, by decide, runs_mach _ _ rfl rfl rfl rfl rfl rfl,
     usable_of _ _ _ rfl rfl, fillable_of _ _ _ rfl⟩,
   ⟨.movi c7 ⟨false, true, .b64⟩ (.s 3) (-1), _, rfl, by decide, runs_mach _ _ rfl rfl rfl rfl rfl rfl,
     usable_of _ _ _ rfl rfl, fillable_of _ _ _ rfl, by decide⟩,
   ⟨by decide, runs_mach _ _ rfl rfl rfl rfl rfl rfl, by decide, usable_of _ _ _ rfl rfl, fillable_of _ _ _ rfl⟩,
   ⟨by decide, by decide, usable_of _ _ _ rfl rfl, usable_of _ _ _ rfl rfl, fillable_of _ _ _ rfl⟩⟩

/-- ApproximateIntegers: an approximate sum. -/
theorem witness_ApproximateIntegers : ∃ i r, (arithRow i = some r ∨ shiftRow i = some r) ∧ i.wf = true ∧ r.f.ax = true ∧
    Runs (mach g0) g0 ∧ Usable g0 (r.args.flatMap (Arg.use r.f.scal r.f.ty.regs)) (g0.on r.c) ∧
    Fillable g0 [⟨r.d, 1, false⟩] (g0.on r.c) :=
  ⟨.iadd c7 ⟨true, false, .i32⟩ (.x 3) ⟨.x 1, false⟩ (v 2), _, Or.inl rfl, by decide, rfl, runs_mach _ _ rfl rfl rfl rfl rfl rfl,
    usable_of _ _ _ rfl rfl, fillable_of _ _ _ rfl⟩

/-! ## Control (04) -/

/-- A branch of the lanes that a guard names: none, all, and some, with an empty stack and with a DIV entry
for the same place. -/
def gB (act : Mask) (p : Mask) (st : List Entry) : Group :=
  { g0 with ctl := { g0.ctl with act := act, stack := st }, regs := { p := AMap.put 0 [] 0 p } }
def div0 : Entry := ⟨4104, 0x10, 0x13, 0, 0, .div⟩

theorem witness_Branches : ∃ i srcs taken tgt size,
    branchRow i = some (⟨false, 0⟩, srcs, taken, tgt, size) ∧ i.wf = true ∧
    (∀ m st, Runs (mach (gB 3 m st)) (gB 3 m st) ∧ Untraced (mach (gB 3 m st)) ∧
      Usable (gB 3 m st) srcs (if (gB 3 m st).on ⟨false, 0⟩ = [] then lanesOf (gB 3 m st).ctl.act
        else (gB 3 m st).on ⟨false, 0⟩) ∧ (gB 3 m st).ctl.pc = 4096 ∧ taken (gB 3 m st) = true) ∧
    CodeAddr (tgt 4096) ∧ (gB 3 0 []).on ⟨false, 0⟩ = [] ∧ maskOf ((gB 3 3 []).on ⟨false, 0⟩) = 3 ∧
    maskOf ((gB 3 2 []).on ⟨false, 0⟩) = 2 ∧ RoomOnChip (gB 3 2 []) ∧ RoomOnChip (gB 3 2 [div0]) ∧
    div0.kind = .div ∧ div0.pc = (gB 3 2 [div0]).ctl.pc + BitVec.ofNat 64 size :=
  ⟨.bra ⟨false, 0⟩ 8, _, _, _, _, rfl, by decide,
    fun m st => ⟨runs_mach _ _ rfl rfl rfl rfl rfl rfl, untraced_reset _ rfl, usable_of _ _ _ rfl rfl, rfl, rfl⟩,
    ⟨by decide, by decide⟩, by decide, by decide, by decide, ⟨by decide, by decide, fun _ => rfl⟩, ⟨by decide, by decide, by decide⟩, rfl, by decide⟩

/-- `brx`: one target, and two, its own word held. -/
def gX (lo hi : Word32) : Group := gV [(6 * 32, lo), (6 * 32 + 1, hi), (6 * 32 + 31, lo)]
def atPc (g : Group) (w : Nat) : State :=
  { mach g with mem := ((leBytes 8 w).mapIdx fun i b => (4096 + i, b)).filter fun e => e.2 != 0 }

theorem witness_IndexedBranch : (Instr.brx c7 (v 6)).wf = true ∧
    (Runs (mach (gX 4160 4160)) (gX 4160 4160) ∧ Untraced (mach (gX 4160 4160)) ∧
      Usable (gX 4160 4160) [⟨.v 6, 2, false⟩] ((gX 4160 4160).on c7) ∧
      (∀ l ∈ (gX 4160 4160).on c7, (gX 4160 4160).rdN (.v 6) 2 l = 4160) ∧ CodeAddr 4160 ∧
      lanesOf (gX 4160 4160).ctl.act = 0 :: [1, 31]) ∧
    (Runs (atPc (gX 4160 4168) 0x0438003000000000) (gX 4160 4168) ∧ RoomOnChip (gX 4160 4168) ∧
      (gX 4160 4168).rdN (.v 6) 2 0 = 4160 ∧ (gX 4160 4168).rdN (.v 6) 2 1 = 4168 ∧
      HoldsWord (atPc (gX 4160 4168) 0x0438003000000000) (gX 4160 4168) 4096 (.brx c7 (v 6))) :=
  ⟨by decide, ⟨runs_mach _ _ rfl rfl rfl rfl rfl rfl, untraced_reset _ rfl, usable_of _ _ _ rfl rfl, by decide,
    ⟨by decide, by decide⟩, by decide⟩,
   ⟨⟨rfl, rfl, rfl, rfl, rfl, rfl, rfl⟩, ⟨by decide, by decide, fun _ => rfl⟩, by decide, by decide, by unfold HoldsWord; decide⟩⟩

/-- `call` and `call` of a long offset: a budget word of 8 registers of each kind at 4160. -/
def budget (g : Group) : State := { mach g with mem := [(4160, 8), (4161, 8), (4162, 8)] }

theorem witness_Calls : (Runs (budget g0) g0 ∧ Untraced (budget g0) ∧ g0.on c7 ≠ [] ∧ CodeAddr 4160 ∧ RoomOnChip g0 ∧
    (budget g0).wordAt g0 4160 = some 0x080808 ∧ (budget g0).budgetFits g0 0x080808 = true) ∧
    (4160 : Word64) = g0.ctl.pc + 8 * (8 : BitVec 24).signExtend 64 ∧ (4160 : Word64) = g0.ctl.pc + 64 :=
  ⟨⟨⟨rfl, rfl, rfl, rfl, rfl, rfl, rfl⟩, untraced_reset _ rfl, by decide, ⟨by decide, by decide⟩,
    ⟨by decide, by decide, fun _ => rfl⟩, by decide, by decide⟩, by decide, by decide⟩

def calls (g : Group) : State :=
  { mach g with mem := (((leBytes 8 0x0638003000000000).mapIdx fun i b => (4096 + i, b)).filter fun e => e.2 != 0) ++ [(4160, 8), (4161, 8), (4162, 8)] }

theorem witness_IndexedCall : (Instr.callx c7 (v 6)).wf = true ∧ Runs (calls (gX 4160 4160)) (gX 4160 4160) ∧
    Untraced (calls (gX 4160 4160)) ∧ (gX 4160 4160).on c7 = 0 :: [1, 31] ∧
    Usable (gX 4160 4160) [⟨.v 6, 2, false⟩] ((gX 4160 4160).on c7) ∧
    (∀ k ∈ (gX 4160 4160).on c7, (gX 4160 4160).rdN (.v 6) 2 k = 4160) ∧ CodeAddr 4160 ∧
    (calls (gX 4160 4160)).wordAt (gX 4160 4160) 4160 = some 0x080808 ∧ (calls (gX 4160 4160)).budgetFits (gX 4160 4160) 0x080808 = true ∧
    RoomOnChip (gX 4160 4160) ∧ HoldsWord (calls (gX 4160 4160)) (gX 4160 4160) 4096 (.callx c7 (v 6)) :=
  ⟨by decide, ⟨rfl, rfl, rfl, rfl, rfl, rfl, rfl⟩, untraced_reset _ rfl, by decide, usable_of _ _ _ rfl rfl, by decide,
    ⟨by decide, by decide⟩, by decide, by decide, ⟨by decide, by decide, fun _ => rfl⟩, by unfold HoldsWord; decide⟩

/-- `ret` from a call; `join` with an empty stack, at a call entry, switching and restoring; `exit` of one
lane of three. -/
def gE (act : Mask) (e : List Entry) : Group := { g0 with ctl := { pc := 4128, act := act, stack := e } }

theorem witness_Returns : ∃ e, Runs (mach (gE 3 [e])) (gE 3 [e]) ∧ Untraced (mach (gE 3 [e])) ∧
    (gE 3 [e]).ctl.stack = e :: [] ∧ e.kind = .callx ∧ e.pend &&& ~~~(gE 3 [e]).ctl.ex = 0 ∧
    e.restore &&& ~~~(gE 3 [e]).ctl.ex ≠ 0 :=
  ⟨⟨4104, 0, 7, 4096, 0, .callx⟩, runs_mach _ _ rfl rfl rfl rfl rfl rfl, untraced_reset _ rfl, rfl, rfl,
    by decide, by decide⟩

/-- The group at a BRX entry whose lanes 2 and 3 pend, with targets lo and hi in v6. -/
def brxE : Entry := ⟨0, 0xC, 0xF, 4096, 0, .brx⟩
def gJ (lo hi : Word32) (st : List Entry) : Group :=
  { gE 3 st with regs := { v := [(6 * 32 + 2, lo), (6 * 32 + 3, hi)] } }
def atBrx (g : Group) : State := atPc g 0x0438003000000000
def atCallx (g : Group) : State := atPc g 0x0638003000000000

theorem witness_Joins : Runs (mach (gE 3 [])) (gE 3 []) ∧ (∀ st, Untraced (mach (gE 3 st))) ∧
    (∀ st, (gE 3 st).ctl.stack = [] → (gE 3 st).ctl.deep = 0) ∧
    (∃ e, e.kind = .call ∧ Runs (mach (gE 3 [e])) (gE 3 [e])) ∧
    (∃ e, e.kind = .div ∧ e.pend &&& ~~~(gE 3 [e]).ctl.ex ≠ 0 ∧ e.pc ≠ (gE 3 [e]).ctl.pc ∧
      Runs (mach (gE 3 [e])) (gE 3 [e])) ∧
    (∃ e, e.kind = .div ∧ e.pend &&& ~~~(gE 3 [e]).ctl.ex = 0 ∧ Runs (mach (gE 3 [e])) (gE 3 [e])) ∧
    (∃ e, e.kind = .div ∧ e.pend ≠ 0 ∧ e.pc = (gE 3 [e]).ctl.pc ∧ Runs (mach (gE 3 [e])) (gE 3 [e])) :=
  ⟨runs_mach _ _ rfl rfl rfl rfl rfl rfl, fun _ => untraced_reset _ rfl, fun _ _ => rfl,
   ⟨⟨4104, 0, 7, 0, 0, .call⟩, rfl, runs_mach _ _ rfl rfl rfl rfl rfl rfl⟩,
   ⟨⟨4104, 4, 7, 0, 0, .div⟩, rfl, by decide, by decide, runs_mach _ _ rfl rfl rfl rfl rfl rfl⟩,
   ⟨⟨4104, 0, 7, 0, 516, .div⟩, rfl, by decide, runs_mach _ _ rfl rfl rfl rfl rfl rfl⟩,
   ⟨⟨4128, 4, 7, 0, 0, .div⟩, rfl, by decide, rfl, runs_mach _ _ rfl rfl rfl rfl rfl rfl⟩⟩

/-- `join` at a BRX entry: no pending target but the join, the lowest elsewhere, and only a higher one elsewhere. -/
theorem witness_BrxJoins :
    (∀ lo hi, Runs (atBrx (gJ lo hi [brxE])) (gJ lo hi [brxE]) ∧ Untraced (atBrx (gJ lo hi [brxE])) ∧
      (gJ lo hi [brxE]).ctl.stack = brxE :: []) ∧ brxE.kind = .brx ∧ (Instr.brx c7 (v 6)).wf = true ∧
    (∀ a ∈ [((4128 : Word32), (4128 : Word32)), (4160, 4128), (4128, 4160)],
      HoldsWord (atBrx (gJ a.1 a.2 [brxE])) (gJ a.1 a.2 [brxE]) brxE.origin (.brx c7 (v 6))) ∧
    lanesOf (brxE.pend &&& ~~~(gJ 4128 4128 [brxE]).ctl.ex) = 2 :: [3] ∧
    (∀ l ∈ [2, 3], indexedTarget (gJ 4128 4128 [brxE]) brxE.origin c7 (v 6) l = 4128) ∧
    indexedTarget (gJ 4160 4128 [brxE]) brxE.origin c7 (v 6) 2 ≠ (gJ 4160 4128 [brxE]).ctl.pc ∧
    indexedTarget (gJ 4128 4160 [brxE]) brxE.origin c7 (v 6) 2 = (gJ 4128 4160 [brxE]).ctl.pc ∧
    indexedTarget (gJ 4128 4160 [brxE]) brxE.origin c7 (v 6) 3 ≠ (gJ 4128 4160 [brxE]).ctl.pc :=
  ⟨fun _ _ => ⟨⟨rfl, rfl, rfl, rfl, rfl, rfl, rfl⟩, untraced_reset _ rfl, rfl⟩, rfl, by decide,
    List.forall_mem_cons.mpr ⟨by unfold HoldsWord; decide, List.forall_mem_cons.mpr ⟨by unfold HoldsWord; decide,
      List.forall_mem_cons.mpr ⟨by unfold HoldsWord; decide, fun _ h => absurd h (by simp)⟩⟩⟩, by decide, by decide, by decide, by decide, by decide⟩

theorem witness_Exits : Runs (mach (gB 3 1 [])) (gB 3 1 []) ∧ Untraced (mach (gB 3 1 [])) ∧
    (gB 3 1 []).ctl.act &&& ~~~(maskOf ((gB 3 1 []).on ⟨false, 0⟩)) ≠ 0 :=
  ⟨runs_mach _ _ rfl rfl rfl rfl rfl rfl, untraced_reset _ rfl, by decide⟩

/-- The last lanes exit, 0 and 1: behind an entry without lanes left, one of each kind has lanes pending, and one
has only lanes to restore. -/
def goneE : Entry := ⟨4104, 1, 3, 0, 0, .div⟩
def callxE : Entry := ⟨4104, 0xC, 0xF, 4096, 0, .callx⟩
theorem witness_LastExits :
    (∀ s g st, (s = mach g ∨ s = atBrx g ∨ s = atCallx g) → (g = gE 3 st ∨ g = gJ 4160 4168 st) →
      Runs s g ∧ Untraced s ∧ g.on c7 ≠ [] ∧ g.ctl.act &&& ~~~(maskOf (g.on c7)) = 0 ∧ g.ctl.stack = st ∧ g.ctl.deep = 0) ∧
    (let ex : Mask := (gE 3 []).ctl.ex ||| maskOf ((gE 3 []).on c7)
     ex = 3 ∧ Exhausted ex goneE ∧
     (∃ e : Entry, e.pend &&& ~~~ex ≠ 0 ∧ e.kind = .div) ∧ lanesOf (brxE.pend &&& ~~~ex) = 2 :: [3] ∧
     lanesOf (callxE.pend &&& ~~~ex) = 2 :: [3] ∧
     (∃ e : Entry, e.pend &&& ~~~ex = 0 ∧ e.restore &&& ~~~ex ≠ 0)) ∧
    ([goneE, brxE].length ≤ 4096 ∧ [goneE, callxE].length ≤ 4096) ∧
    HoldsWord (atBrx (gJ 4160 4168 [goneE, brxE])) (gJ 4160 4168 [goneE, brxE]) brxE.origin (.brx c7 (v 6)) ∧
    HoldsWord (atCallx (gJ 4160 4168 [goneE, callxE])) (gJ 4160 4168 [goneE, callxE]) callxE.origin (.callx c7 (v 6)) ∧
    (Instr.callx c7 (v 6)).wf = true ∧ (mach (gE 3 [])).committing 4 = false ∧
    (let s : State := { mach (gE 3 []) with
        pending := [{ id := 5, gid := 4, op := .commit (.s 5) .grp false [] false false 0, after := [], lo := {}, clk := 0, pc := 4096, sampled := none }] }
     s.committing s.cur = true ∧ Runs s (gE 3 [])) :=
  ⟨(by
      intro s g st hs hg
      rcases hg with h | h <;> subst h <;> rcases hs with h | h | h <;> subst h <;>
        exact ⟨⟨rfl, rfl, rfl, rfl, rfl, rfl, rfl⟩, untraced_reset _ rfl, by show (gE 3 []).on c7 ≠ []; decide,
          by show (gE 3 []).ctl.act &&& ~~~(maskOf ((gE 3 []).on c7)) = 0; decide, rfl, rfl⟩),
   ⟨by decide, by unfold Exhausted; decide, ⟨⟨4104, 4, 7, 0, 0, .div⟩, by decide, rfl⟩, by decide, by decide,
     ⟨⟨4104, 0, 7, 0, 516, .div⟩, by decide, by decide⟩⟩, by decide,
   by unfold HoldsWord; decide, by unfold HoldsWord; decide, by decide, by decide, by decide,
   ⟨rfl, rfl, rfl, rfl, rfl, rfl, rfl⟩⟩

theorem witness_NopAndRunAhead : Runs (mach g0) g0 ∧ g0.on c7 ≠ [] ∧ g0.on ⟨false, 0⟩ = [] ∧
    Runs { mach g0 with teams := [(3, { tm0 with hdr := { maxHeader with flags := 16 } })] } g0 ∧
    State.hdrFlag { mach g0 with teams := [(3, { tm0 with hdr := { maxHeader with flags := 16 } })] } g0 4 = true :=
  ⟨runs_mach _ _ rfl rfl rfl rfl rfl rfl, by decide, by decide, ⟨rfl, rfl, rfl, rfl, rfl, rfl, rfl⟩, by decide⟩

/-! ## Operations of other units -/

theorem witness_OperationsStart : ∃ i r, startRow i = some r ∧ i.wf = true ∧ Runs (mach g0) g0 ∧
    Usable g0 (r.srcs.map scalUse) (g0.on r.c) ∧ Fillable g0 (dstUse r.d) (g0.on r.c) ∧ g0.on r.c ≠ [] :=
  ⟨.wake c7 .dev (.s 6) (sr 2) (sr 3), _, rfl, by decide, runs_mach _ _ rfl rfl rfl rfl rfl rfl,
    usable_of _ _ _ rfl rfl, fillable_of _ _ _ rfl, by decide⟩

/-- A query of each kind, the last ring, slot and accumulator among them. -/
theorem witness_QueriesAnswer : ∀ i ∈ [Instr.ringq c7 7 (.s 9), .bufq c7 (.s 7),
      .railq c7 (.s 4), .pcnt c7 (.s 7) 0x12, .rmark c7 (.s 6), .qstatEng c7 (.s 7), .qstatCmd c7 (.s 7) (sr 8),
      .fmtqSlot c7 (.s 7) 7, .fmtqAcc c7 (.s 7) 7],
    ∃ r, queryRow (mach g0) g0 i = some r ∧ i.wf = true ∧ Runs (mach g0) g0 ∧
      Usable g0 r.srcs (g0.on r.c) ∧ Fillable g0 [⟨r.d, 1, false⟩] (g0.on r.c) ∧ g0.on r.c ≠ [] := by
  intro i hi
  simp only [List.mem_cons, List.not_mem_nil, or_false] at hi
  rcases hi with h | h | h | h | h | h | h | h | h <;> subst h <;>
    exact ⟨_, rfl, by decide, runs_mach _ _ rfl rfl rfl rfl rfl rfl, usable_of _ _ _ rfl rfl, fillable_of _ _ _ rfl, by decide⟩

/-- A pending operation of group 4. -/
def pend (op : PendOp) : Pend := { id := 5, gid := 4, op := op, after := [], lo := {}, clk := 0, pc := 4096, sampled := none }
def waiting (op : PendOp) (g : Group) : State := { mach g with pending := [pend op], nextId := 6 }

theorem witness_OperationsAnswer : ∀ op ∈ [PendOp.iinv (.s 4) 4096 1, .cache (.s 4) 4 8192 1, .tlbq (.s 4) 2 4096,
      .tlbq (.s 4) 3 4096, .long 3 (.s 4) 1 [(0, 5)] [], .tq (.s 4) 0, .tpost (.s 4) none 0 1, .tdec (.s 4) 0 1,
      .lnch (.s 4) 0, .tkt (.s 4) 63], ∃ e w u, (waiting op g0).pend? 5 = some (pend op) ∧ (pend op).after = [] ∧
    (waiting op g0).group? (pend op).gid = some g0 ∧ g0.shadow = none ∧ Untraced (waiting op g0) ∧
    ((waiting op g0).stream ((waiting op g0).tenantOf g0)).rplLog = [] ∧
    answerRow (waiting op g0) (pend op) g0 = some (e, .s 4, w, u) := by
  intro op hi
  simp only [List.mem_cons, List.not_mem_nil, or_false] at hi
  rcases hi with h | h | h | h | h | h | h | h | h | h <;> subst h <;>
    exact ⟨_, _, _, rfl, rfl, rfl, rfl, untraced_reset _ rfl, rfl, rfl⟩

/-- A line dirty in L3 whose segment of the repair table is bad in both copies. -/
def badSeg : Nat := 64 * chanOf 32 + (Config.segmentOf (tierLine 32)).toNat
def dirtyS (op : PendOp) : State :=
  { waiting op g0 with
    lines := [(32, { l3 := [0], l3d := true })], plat := { State.reset.plat with bad0 := [badSeg], bad1 := [badSeg] } }

theorem dirty_held (op : PendOp) : (((dirtyS op).cacheLine 1 0 32).2.line 32).l3d = true := by
  have h : (dirtyS op).remapBad 32 = true := by
    unfold State.remapBad
    simp [dirtyS, waiting, mach, machT, NSet.has, badSeg, show lineTier 32 = 0 from rfl]
  have e : (dirtyS op).writeBack 32 = (dirtyS op).modLine 32 fun l => { l with cnt := 0 } := by
    unfold State.writeBack
    rw [show (dirtyS op).toHome 32 = dirtyS op from rfl, if_pos h]
  show ((((dirtyS op).writeBack 32).persist 32).line 32).l3d = true
  rw [e]; rfl

theorem witness_HeldWriteBack : ∃ op, op = PendOp.cache (.s 4) 1 8192 1 ∧ (dirtyS op).pend? 5 = some (pend op) ∧
    (dirtyS op).group? 4 = some g0 ∧ Untraced (dirtyS op) ∧ ((dirtyS op).cacheRange 1 0 0 8192 1).2.2.1 = true :=
  ⟨_, rfl, rfl, rfl, untraced_reset _ rfl, by
    show (((dirtyS (.cache (.s 4) 1 8192 1)).cacheLine 1 0 32).2.line 32).l3d = true
    exact dirty_held _⟩

/-! ## Memory accesses: page 2 is readable and writable, its TLB entry held -/

/-- Addresses 8192, 8196 and 12284 (the last word of the page) in lanes 0, 1 and 31. -/
def gA : Group := gV [(128, 8192), (129, 8196), (159, 12284)]
def memA : MemOp := ⟨false, v 4, 0, none⟩

theorem allowed_gA (rd wr : Bool) : Allowed (mach gA) gA rd wr false 4 4 (gA.on c7) (effAddr gA memA none) fun _ => leaf2 where
  aligned := by decide
  canon := by decide
  unlocked := fun l _ => rfl
  held := by decide
  waited := rfl
  perms := fun _ _ => by cases rd <;> cases wr <;> rfl
  typed := fun _ _ => rfl
  line := fun _ _ h => nomatch h
  unbroken := by cases rd <;> cases wr <;> rfl
  unspoilt := fun _ => rfl

theorem unwatched_machT (g : Group) (t : Team) (ht : g.team = 3) (k : t.track = none) : Unwatched (machT g t) g :=
  ⟨untraced_reset _ rfl, by
    rw [ht]; unfold State.tracked; rw [show (machT g t).team? 3 = some t from rfl]; dsimp only; rw [k]
    split <;> simp_all, by
    have e : ∀ n, (machT g t).stream n = {} := fun n => rfl
    rw [e]⟩

theorem unwatched_mach (g : Group) (ht : g.team = 3) : Unwatched (mach g) g := unwatched_machT g tm0 ht rfl

theorem witness_GlobalLoads : ∃ i c ax w sx d m long sc size, loadRow i = some (c, ax, w, sx, d, m, long, sc, size) ∧
    i.wf = true ∧ Runs (mach gA) gA ∧ Usable gA (memUses m) (gA.on c) ∧ Fillable gA [⟨d, w.regs, false⟩] (gA.on c) ∧
    gA.on c ≠ [] ∧ Allowed (mach gA) gA true false ax w.bytes w.bytes (gA.on c) (effAddr gA m long) fun _ => leaf2 :=
  ⟨.ld c7 false .b32 false (.v 8) memA, _, _, _, _, _, _, _, _, _, rfl, by decide, runs_mach _ _ rfl rfl rfl rfl rfl rfl,
    usable_of _ _ _ rfl rfl, fillable_of _ _ _ rfl, by decide, allowed_gA true false⟩

/-- No line is cached and no page is compressed at the keys below 2^52 with bits 49:48 zero. -/
theorem plain_of (s : State) (k : Nat) (hl : s.lines = []) (hk : s.kept = []) (h : keyCmp k = 0) : PlainByte s k where
  flat := h
  precise := by unfold State.line; rw [hl]; rfl
  whole := by rw [hk]; rfl
  alone := fun n _ _ => by unfold State.line; rw [hl]; exact ⟨rfl, rfl, rfl⟩
  uncounted := by unfold State.line; rw [hl]; rfl

theorem plain_waiting (op : PendOp) (g : Group) (k : Nat) (h : k < 2 ^ 52) : PlainByte (waiting op g) k :=
  plain_of _ _ rfl rfl (Nat.div_eq_of_lt (Nat.lt_trans h (by decide)))

/-- A load of one lane with a byte taken at issue and one still to be read. -/
def heldB : Held := { b := 7, va := 8192, ax := false, cnt := 0, pois := false, code := 0 }
def accA : LaneAcc := ⟨31, 8192, 0x200F, {}, [8192, 8193], [some heldB, none]⟩

theorem witness_LoadArrival : ∃ op, op = PendOp.load (.v 8) .b16 true false [accA] none false none false ∧
    (waiting op g0).pend? 5 = some (pend op) ∧ (waiting op g0).group? 4 = some g0 ∧ Unwatched (waiting op g0) g0 ∧
    ([accA].map (·.lane)).Nodup ∧ (∀ a ∈ [accA], a.lane < 32 ∧ a.keys.length = Wd.b16.bytes ∧ a.got.length = Wd.b16.bytes) ∧
    MemOk (waiting op g0) ∧ TakesByte (waiting op g0) g0 none [accA] accA 0 7 ∧
    TakesByte (waiting op g0) g0 none [accA] accA 1 0 :=
  ⟨_, rfl, rfl, rfl, ⟨untraced_reset _ rfl, rfl, rfl⟩, by decide, by decide, ⟨rfl, List.nodup_nil⟩, ⟨rfl, rfl⟩,
    ⟨rfl, fun _ _ => rfl, plain_waiting _ _ _ (by decide), Or.inl (Or.inl ⟨rfl, rfl, rfl⟩)⟩⟩

theorem witness_GlobalStores : ∃ i c ax w a m long size, storeRow i = some (c, ax, w, a, m, long, size) ∧ i.wf = true ∧
    Runs (mach gA) gA ∧ Unwatched (mach gA) gA ∧ Usable gA (⟨a.o, w.regs, a.bang⟩ :: memUses m) (gA.on c) ∧ gA.on c ≠ [] ∧
    Allowed (mach gA) gA false true ax w.bytes w.bytes (gA.on c) (effAddr gA m long) (fun _ => leaf2) ∧
    (let buf := storeBytes (mach gA) gA a.o w (polOf gA m) ((gA.on c).map fun l => ⟨l, effAddr gA m long l, leaf2⟩) gA.mem.buf
     heldLines buf ≤ 64 ∧ (mach gA).coreLines 0 + (heldLines buf - heldLines gA.mem.buf) ≤ ((mach gA).core 0).cl1 * 192 ∧
     (List.filter (fun e : Nat × Line => e.2.inCache (l1Id gA.core)) (mach gA).lines).length +
       ((mach gA).setGroup (mach gA).cur { gA with mem := { gA.mem with buf := buf } }).coreLines gA.core ≤
         ((mach gA).core gA.core).l1Cap) ∧
    MemOk (mach gA) ∧ (∀ k < 2 ^ 52, PlainByte (mach gA) k) :=
  ⟨.st c7 false .b32 (v 9) memA, _, _, _, _, _, _, _, rfl, by decide, runs_mach _ _ rfl rfl rfl rfl rfl rfl,
    unwatched_mach _ rfl, usable_of _ _ _ rfl rfl, by decide, allowed_gA false true, by decide, ⟨rfl, List.nodup_nil⟩,
    fun k h => plain_of _ _ rfl rfl (Nat.div_eq_of_lt (Nat.lt_trans h (by decide)))⟩

/-! ## Scratchpad -/

/-- s5 = 0xFFFC, the last word of the scratchpad. -/
def gP : Group := gS [(5, 0xFFFC)]
def memS : MemOp := ⟨true, sr 5, 0, none⟩
def tmF : Team := { tm0 with sp := { full := [4095] } }

theorem sp_allowed (wr fw : Bool) : SpAllowed (machT gP tmF) gP tmF wr false fw 4 (gP.on c7) fun _ => 0xFFFC where
  aligned := by decide
  inside := by decide
  unlocked := fun l _ => rfl
  windows := fun _ _ _ _ _ h => nomatch h
  typed := fun _ _ _ => by cases wr <;> rfl
  waited := rfl
  unspoilt := fun _ => rfl
  full := fun _ => by decide

theorem witness_ScratchpadLoads : ∃ i c ax w sx fw clr d us, spLoadRow i = some (c, ax, w, sx, fw, clr, d, us) ∧ i.wf = true ∧
    Runs (machT gP tmF) gP ∧ Unwatched (machT gP tmF) gP ∧ (machT gP tmF).teamOf gP = some tmF ∧ Usable gP us (gP.on c) ∧
    Fillable gP [⟨d, w.regs, false⟩] (gP.on c) ∧ gP.on c ≠ [] ∧ (∀ l ∈ gP.on c, spAddr tmF gP w.bytes l 0xFFFC i) ∧
    SpAllowed (machT gP tmF) gP tmF false ax fw w.bytes (gP.on c) fun _ => 0xFFFC :=
  ⟨.lds c7 false .b32 false true true (.v 8) memS, _, _, _, _, _, _, _, _, rfl, by decide, runs_mach _ _ rfl rfl rfl rfl rfl rfl,
    unwatched_machT _ _ rfl rfl, rfl, usable_of _ _ _ rfl rfl, fillable_of _ _ _ rfl, by decide,
    by unfold spAddr; decide, sp_allowed false true⟩

theorem witness_ScratchpadStores : ∃ i c ax w set a us, spStoreRow i = some (c, ax, w, set, a, us) ∧ i.wf = true ∧
    Runs (machT gP tmF) gP ∧ Unwatched (machT gP tmF) gP ∧ (machT gP tmF).teamOf gP = some tmF ∧
    Usable gP (⟨a.o, w.regs, a.bang⟩ :: us) (gP.on c) ∧ gP.on c ≠ [] ∧ (∀ l ∈ gP.on c, spAddr tmF gP w.bytes l 0xFFFC i) ∧
    SpAllowed (machT gP tmF) gP tmF true ax false w.bytes (gP.on c) (fun _ => 0xFFFC) ∧
    (∀ l ∈ gP.on c, ∀ j < w.bytes, tmF.windowAt (0xFFFC + j) = none) :=
  ⟨.sts c7 false .b32 true (v 8) memS, _, _, _, _, _, _, rfl, by decide, runs_mach _ _ rfl rfl rfl rfl rfl rfl,
    unwatched_machT _ _ rfl rfl, rfl, usable_of _ _ _ rfl rfl, by decide, by unfold spAddr; decide, sp_allowed true false,
    fun _ _ _ _ => rfl⟩

/-- A ring operand: the last bytes of a stage, through the consumer's and the producer's view. -/
theorem witness_RingAddresses : spAddr tm0 gP 2 0 254 (.ldr c7 false .b16 false false false (.v 8) ⟨0, true, 254, none⟩) ∧
    spAddr tm0 gP 2 0 254 (.str c7 false .b16 true (v 8) ⟨0, false, 254, none⟩) :=
  ⟨⟨⟨0, 256, 2, 0, 1⟩, ⟨0, 0, 0⟩, rfl, by decide, 254, rfl, by decide⟩,
   ⟨⟨0, 256, 2, 0, 1⟩, ⟨0, 0, 0⟩, rfl, by decide, 254, rfl, by decide⟩⟩

/-- s4 = 256, s5 = 4096, s6 = 512: a window of two entries, and a range of two blocks. -/
def gM : Group := gS [(4, 1024), (5, 4096), (6, 512)]

theorem witness_ScratchpadMarks : ∀ i ∈ [Instr.stmap c7 15 (sr 4) (sr 5) (sr 6), .stunmap c7 15, .femEmpty c7 (sr 4) (sr 6),
      .femFull c7 (sr 4) (sr 6), .femPr c7 (sr 4) (sr 6)], ∃ c srcs ok f rng, markRow gM i = some (c, srcs, ok, f, rng) ∧
    i.wf = true ∧ Runs (mach gM) gM ∧ (mach gM).teamOf gM = some tm0 ∧ Usable gM (srcs.map scalUse) (gM.on c) ∧
    gM.on c ≠ [] ∧ ok tm0 ∧ (∀ r, rng = some r → (mach gM).lockMet gM true true true r.1 r.2 = none) := by
  intro i hi
  simp only [List.mem_cons, List.not_mem_nil, or_false] at hi
  rcases hi with h | h | h | h | h <;> subst h <;>
    exact ⟨_, _, _, _, _, rfl, by decide, runs_mach _ _ rfl rfl rfl rfl rfl rfl, rfl, usable_of _ _ _ rfl rfl, by decide,
      by decide, fun _ _ => rfl⟩

theorem witness_EmptyMarks : Runs (mach gM) gM ∧ Usable gM [scalUse (sr 5), scalUse (sr 7)] (gM.on c7) ∧ sv gM (sr 7) = 0 ∧
    ∀ i ∈ [Instr.femEmpty c7 (sr 5) (sr 7), .femFull c7 (sr 5) (sr 7), .femAx c7 (sr 5) (sr 7), .femPr c7 (sr 5) (sr 7)],
      i.wf = true :=
  ⟨runs_mach _ _ rfl rfl rfl rfl rfl rfl, usable_of _ _ _ rfl rfl, by decide, by decide⟩

theorem witness_ApproximateBlocks : (Instr.femAx c7 (sr 4) (sr 6)).wf = true ∧ Runs (mach gM) gM ∧
    (mach gM).teamOf gM = some tm0 ∧ Usable gM [scalUse (sr 4), scalUse (sr 6)] (gM.on c7) ∧ gM.on c7 ≠ [] ∧
    sv gM (sr 4) % 256 = 0 ∧ sv gM (sr 6) % 256 = 0 ∧ sv gM (sr 4) + sv gM (sr 6) ≤ tm0.hdr.scratch ∧
    (mach gM).lockMet gM true true true (sv gM (sr 4)) (sv gM (sr 6)) = none :=
  ⟨by decide, runs_mach _ _ rfl rfl rfl rfl rfl rfl, rfl, usable_of _ _ _ rfl rfl, by decide, by decide, by decide, by decide, rfl⟩

def gF : Group := gV [(128, 8192), (129, 12256), (159, 65536)]

theorem witness_Prefetches : (Instr.pf c7 2 memA).wf = true ∧ (Instr.pfLong c7 0 memA 64).wf = true ∧ Runs (mach gF) gF ∧
    Untraced (mach gF) ∧ Usable gF (memUses memA) (gF.on c7) ∧ (∀ l ∈ gF.on c7, effAddr gF memA none l % 32 = 0 ∧ canonical (effAddr gF memA none l) = true) ∧
    (∀ l ∈ gF.on c7, effAddr gF memA (some 64) l % 32 = 0 ∧ canonical (effAddr gF memA (some 64) l) = true) ∧
    MemOk (mach gF) ∧ (∀ k < 2 ^ 52, PlainByte (mach gF) k ∧ Typed (mach gF) k) :=
  ⟨by decide, by decide, runs_mach _ _ rfl rfl rfl rfl rfl rfl, untraced_reset _ rfl, usable_of _ _ _ rfl rfl, by decide, by decide,
    ⟨rfl, List.nodup_nil⟩, fun _ h => ⟨plain_of _ _ rfl rfl (Nat.div_eq_of_lt (Nat.lt_trans h (by decide))), Or.inl ⟨rfl, rfl, rfl⟩⟩⟩

/-- Both outcomes of a wait. -/
def gK (w : Park) : Group := { g0 with park := some w }

theorem mayRun (g : Group) (t : Team) (hg : g.team = 3) (ht : t.resident = true) (h1 : g.frozen = false)
    (h2 : g.sys.stopped = false) (h3 : g.ended = false) (h4 : g.shadow = none) : MayRun (machT g t) g :=
  ⟨⟨t, by unfold State.teamOf; rw [hg]; rfl, ht⟩, h1, h2, h3, h4⟩

theorem witness_GroupsWake : (∀ w ∈ [Park.empty [5], .sleep 0, .woken, .barw 31 0xFFFFFFFF, .tktw 63 0, .walk 9, .ring 7],
      (mach (gK w)).groupAt 0 0 = some 4 ∧ (mach (gK w)).group? 4 = some (gK w) ∧ MayRun (mach (gK w)) (gK w)) ∧
    (∃ P, cameAbout (mach g0) g0 (.empty [5]) = some P ∧ P) ∧
    (∃ P, cameAbout (mach g0) { g0 with regs := { empt := [5] } } (.empty [5]) = some P ∧ ¬ P) ∧
    (∃ P, cameAbout (mach g0) g0 (.barw 31 0xFFFFFFFF) = some P ∧ P) ∧
    (∃ P, cameAbout (mach g0) g0 (.barw 31 0) = some P ∧ ¬ P) ∧
    (∃ P, cameAbout (mach g0) g0 (.tktw 63 0) = some P ∧ P) ∧ (∃ P, cameAbout (mach g0) g0 (.tktw 63 1) = some P ∧ ¬ P) ∧
    (∃ P, cameAbout (mach g0) g0 (.sleep 0) = some P ∧ P) ∧ (∃ P, cameAbout (mach g0) g0 (.sleep 1) = some P ∧ ¬ P) := by
  refine ⟨?_, ⟨_, rfl, ?_⟩, ⟨_, rfl, ?_⟩, ⟨_, rfl, ?_⟩, ⟨_, rfl, ?_⟩, ⟨_, rfl, ?_⟩, ⟨_, rfl, ?_⟩, ⟨_, rfl, ?_⟩, ⟨_, rfl, ?_⟩⟩
  · intro w _; exact ⟨rfl, rfl, mayRun _ _ rfl rfl rfl rfl rfl rfl⟩
  all_goals decide

/-- A walk that the group waits for, and a stash entry that an outside commit has still to invalidate. -/
theorem witness_MemorySystemSteps :
    ((waiting (.walk [9]) (gK (.walk 5))).pend? 5 = some (pend (.walk [9])) ∧ (gK (.walk 5)).park = some (.walk 5) ∧
      (waiting (.walk [9]) (gK (.walk 5))).group? 4 = some (gK (.walk 5)) ∧ Untraced (waiting (.walk [9]) (gK (.walk 5)))) ∧
    (∃ t w, AMap.at? (t : Team).windows 3 = some w ∧ (w.entry 0).inv.isSome = true ∧ (machT g0 t).team? 3 = some t) ∧
    (∃ g sh, (g : Group).shadow = some sh ∧ 256 ≤ sh.count ∧ (mach g).groupAt 0 0 = some 4 ∧ (mach g).group? 4 = some g) :=
  ⟨⟨rfl, rfl, rfl, untraced_reset _ rfl⟩,
   ⟨{ tm0 with windows := [(3, ⟨0, 8192, 256, [(0, { valid := true, inv := some 5 })]⟩)] }, _, rfl, rfl, rfl⟩,
   ⟨{ g0 with shadow := some ⟨{}, [], 256, true⟩ }, _, rfl, by decide, rfl, rfl⟩⟩

/-- `ipf` of a line, a line on an executable page and on one without X, and a waiting group. -/
def gI : Group := { gS [(2, 4352), (3, 1)] with want := some 4352 }
/-- The group at 4352, waiting for its line. -/
def gI4 : Group := { gI with ctl := { gI.ctl with pc := 4352 } }

theorem witness_InstructionLines : ((Instr.ipf c7 true (sr 2) (sr 3)).wf = true ∧ Runs (mach gI) gI ∧
      Usable gI [scalUse (sr 2), scalUse (sr 3)] (gI.on c7) ∧ sv gI (sr 4) = 0) ∧
    (canonical (lineVa 17) = true ∧ ((mach gI).core 0).l1i.at? 17 = none ∧
      (mach gI).tlbLookup 0 0 (lineVa 17) = some ⟨0x1017, 0⟩ ∧ entX 0x1017 = true) ∧
    (canonical (lineVa 32) = true ∧ ((mach gI).core 0).l1i.at? 32 = none ∧
      (mach gI).tlbLookup 0 0 (lineVa 32) = some leaf2 ∧ entX leaf2.e.toNat = false) ∧
    ((mach gI).heldLine 0 0 16 = some (4096, 0) ∧ 16 < 2 ^ 56) ∧
    ((mach gI4).wanting 0 17 = [4] ∧ (mach gI4).group? 4 = some gI4 ∧ (mach gI4).l0Line gI4 17 = none ∧
      ((mach gI4).core 0).l1i.at? 17 = none ∧ gI4.want = some gI4.ctl.pc.toNat ∧ gI4.ctl.pc.toNat % 8 = 0 ∧
      MemOk (mach gI4) ∧ ∀ i < 256, PlainByte (mach gI4) ((⟨0x1017, 0⟩ : Leaf).key (lineVa 17) + i)) ∧
    (let s : State := { mach gI4 with cores := [(0, { core0 with l1i := [(17, (4352, 0))] })] }
     s.wanting 0 17 = [4] ∧ (s.core 0).l1i.at? 17 = some (4352, 0) ∧ (⟨0x1017, 0⟩ : Leaf).key (lineVa 17) = 4352) :=
  ⟨⟨by decide, runs_mach _ _ rfl rfl rfl rfl rfl rfl, usable_of _ _ _ rfl rfl, by decide⟩,
   ⟨by decide, by decide, by decide, by decide⟩, ⟨by decide, by decide, by decide, by decide⟩,
   ⟨by decide, by decide⟩,
   ⟨by decide, rfl, rfl, rfl, by decide, by decide, ⟨rfl, List.nodup_nil⟩, fun i h => plain_of _ _ rfl rfl
     (Nat.div_eq_of_lt (by rw [show (⟨0x1017, 0⟩ : Leaf).key (lineVa 17) = 4352 from by decide]; omega))⟩,
   ⟨by decide, rfl, by decide⟩⟩

/-! ## Floating point -/

theorem calm0 (f : Fl) : Calm (mach g0) g0 f := by
  unfold Calm; rw [show (mach g0).arithMask g0 = 0 from rfl]; exact Nat.and_zero _

theorem witness_FloatingPoint : (∃ i r, arithFloatRow i = some r ∧ i.wf = true ∧ Runs (mach g0) g0 ∧
      Usable g0 r.srcs (g0.on r.c) ∧ Fillable g0 [⟨r.d, r.k, false⟩] (g0.on r.c) ∧
      Calm (mach g0) g0 (raisedBy (g0.on r.c) (r.val g0))) ∧
    (∃ i r, arithFloatRow i = some r ∧ r.ax = some .f16 ∧ i.wf = true ∧ Runs (mach g0) g0 ∧
      Usable g0 r.srcs (g0.on r.c) ∧ Fillable g0 [⟨r.d, r.k, false⟩] (g0.on r.c) ∧
      Calm (mach g0) g0 (raisedBy (g0.on r.c) (r.val g0))) ∧
    (∃ i r, otherFloatRow i = some r ∧ i.wf = true ∧ Runs (mach g0) g0 ∧
      Usable g0 r.srcs (g0.on r.c) ∧ Fillable g0 [⟨r.d, r.k, false⟩] (g0.on r.c) ∧
      Calm (mach g0) g0 (raisedBy (g0.on r.c) (r.val g0))) ∧
    ((Instr.fcmp c7 .f64 .or (.p 6) (v 2) (v 4)).wf = true ∧ (Instr.fcmpImm c7 .f32 .lt (.p 7) (v 2) (-1)).wf = true ∧
      Usable g0 (fuses .f64 [v 2, v 4]) (g0.on c7) ∧ Calm (mach g0) g0 ⟨true, true, true, true, true⟩) :=
  ⟨⟨.fma c7 ⟨false, .rz, .f32⟩ (.v 4) (v 1) (v 2) (v 3), _, rfl, by decide, runs_mach _ _ rfl rfl rfl rfl rfl rfl,
     usable_of _ _ _ rfl rfl, fillable_of _ _ _ rfl, calm0 _⟩,
   ⟨.fmul c7 ⟨true, .ne, .f16⟩ (.x 4) ⟨.x 1, false⟩ (v 2), _, rfl, rfl, by decide, runs_mach _ _ rfl rfl rfl rfl rfl rfl,
     usable_of _ _ _ rfl rfl, fillable_of _ _ _ rfl, calm0 _⟩,
   ⟨.xacc c7 .bf16x2 (v 20) (v 7), _, rfl, by decide, runs_mach _ _ rfl rfl rfl rfl rfl rfl,
     usable_of _ _ _ rfl rfl, fillable_of _ _ _ rfl, calm0 _⟩,
   ⟨by decide, by decide, usable_of _ _ _ rfl rfl, calm0 _⟩⟩

theorem witness_RoundingAndAccumulators : ((Instr.xrnd c7 .ne true (.v 1) (v 20)).wf = true ∧ Runs (mach g0) g0 ∧
      Usable g0 [⟨.v 20, 10, false⟩] (g0.on c7) ∧ Fillable g0 [⟨.v 1, 1, false⟩] (g0.on c7) ∧
      Calm (mach g0) g0 (raisedBy (g0.on c7) fun l => xRound .ne (xVal (g0.rdN (.v 20) 10 l)))) ∧
    (fmt32.read 0x80000001).isNan = false ∧ 0x80000001 < 2 ^ fmt32.width ∧ (fmt16.read 0x7BFF).isNan = false :=
  ⟨⟨by decide, runs_mach _ _ rfl rfl rfl rfl rfl rfl, usable_of _ _ _ rfl rfl, fillable_of _ _ _ rfl, calm0 _⟩,
    by decide, by decide, by decide⟩

/-- A kernel that traps NV, and one that traps nothing; the square root of 4 takes the exact path. -/
def machNv (g : Group) : State := machT g { tm0 with hdr := { maxHeader with arith := 1 } }
def gQ : Group := gV [(64, 0x40800000), (65, 0x40800000), (95, 0x40800000)]

theorem witness_LongLatencyStart : (∃ i c ty ax d srcs f, slowRow i = some (c, ty, ax, d, srcs, f) ∧ i.wf = true ∧
      Runs (mach gQ) gQ ∧ Untraced (mach gQ) ∧ Usable gQ (fuses ty srcs) (gQ.on c) ∧
      Fillable gQ [⟨d, fpRegs ty, false⟩] (gQ.on c) ∧ gQ.on c ≠ [] ∧ (mach gQ).exactHeld gQ < 4 ∧
      (mach gQ).arithMask gQ = 0) ∧
    (∃ i c ty ax d srcs f, slowRow i = some (c, ty, ax, d, srcs, f) ∧ i.wf = true ∧ Runs (machNv gQ) gQ ∧
      Untraced (machNv gQ) ∧ Usable gQ (fuses ty srcs) (gQ.on c) ∧ (machNv gQ).arithMask gQ ≠ 0 ∧
      Calm (machNv gQ) gQ {}) :=
  ⟨⟨.fsqrt c7 ⟨false, .ne, .f32⟩ (.v 1) (v 2), _, _, _, _, _, _, rfl, by decide, runs_mach _ _ rfl rfl rfl rfl rfl rfl,
    untraced_reset _ rfl, usable_of _ _ _ rfl rfl, fillable_of _ _ _ rfl, by decide, by decide, rfl⟩,
   ⟨.frcps c7 (.v 1) (v 2), _, _, _, _, _, _, rfl, by decide, runs_mach _ _ rfl rfl rfl rfl rfl rfl,
    untraced_reset _ rfl, usable_of _ _ _ rfl rfl, by decide, by unfold Calm; decide⟩⟩

theorem witness_LongLatencyResult : ∃ op, op = PendOp.long 2 (.v 8) 2 [(0, 5), (31, 6)] [] ∧
    (waiting op g0).pend? 5 = some (pend op) ∧ VecOpd (.v 8) ∧ (waiting op g0).group? 4 = some g0 ∧
    ((waiting op g0).stream ((waiting op g0).tenantOf g0)).rplLog = [] ∧
    ([(0, 5), (31, 6)].map (·.1) : List Nat).Nodup :=
  ⟨_, rfl, rfl, Or.inl ⟨_, rfl⟩, rfl, rfl, by decide⟩

/-! ## The low rail -/

theorem witness_RailRequests : ((Instr.rail c7 (.s 3) none (some (sr 4))).wf = true ∧ Runs (mach g0) g0 ∧
      Usable g0 [scalUse (sr 4)] (g0.on c7) ∧ Fillable g0 [⟨.s 3, 1, false⟩] (g0.on c7) ∧ g0.on c7 ≠ [] ∧
      (mach g0).boot.stage = 3 ∧ Runs { mach g0 with boot := { stage := 2 } } g0) ∧
    ((machT g0 { tm0 with req := some 5 }).team? 3 = some { tm0 with req := some 5 } ∧
      3 ∈ ((machT g0 { tm0 with req := some 5 }).core 0).teams ∧ ({ tm0 with req := some 5 } : Team).req.getD 7 ≤ 5) :=
  ⟨⟨by decide, runs_mach _ _ rfl rfl rfl rfl rfl rfl, usable_of _ _ _ rfl rfl, fillable_of _ _ _ rfl, by decide, rfl,
    ⟨rfl, rfl, rfl, rfl, rfl, rfl, rfl⟩⟩, rfl, by decide, by decide⟩

/-- A regulator on its way to 5: at 6 it goes on, at 5 it has settled. -/
def tmR : Team := { tm0 with req := some 5, reqPend := some 5 }
def railAt (n : Option Nat) (p : List Pend) : State :=
  { machT g0 tmR with cores := [(0, { core0 with reg := ⟨7, 7, n⟩ })], pending := p }

theorem witness_RegulatorMoves : (((railAt (some 6) []).core 0).reg.next = some 6 ∧ 6 ≠ (railAt (some 6) []).railTarget 0) ∧
    (((railAt (some 5) []).core 0).reg.next = some 5 ∧ 5 = (railAt (some 5) []).railTarget 0 ∧
      (railAt (some 5) []).team? 3 = some tmR ∧ 3 ∈ ((railAt (some 5) []).core 0).teams) ∧
    (let s := railAt none [pend (.rail (.s 3) 5)]
     (s.core 0).reg.next = none ∧ s.group? 4 = some g0 ∧ g0.core = 0 ∧ s.teamOf g0 = some tmR ∧ tmR.req = some 5 ∧
      (s.stream (s.tenantOf g0)).rplLog = []) :=
  ⟨⟨rfl, by decide⟩, ⟨rfl, by decide, rfl, by decide⟩, ⟨rfl, rfl, rfl, rfl, rfl, rfl⟩⟩

/-! ## Visibility -/

theorem witness_CommitsStart : (Instr.cmt c7 .grp true (.s 5)).wf = true ∧ Runs (mach g0) g0 ∧
    Fillable g0 [⟨.s 5, 1, false⟩] (g0.on c7) ∧ (mach g0).teamOf g0 = some tm0 ∧ (mach g0).clusterOf g0 = some cl0 ∧
    (mach g0).noRoom g0 tm0 cl0 .grp = none ∧ (mach g0).noRoom g0 tm0 cl0 .sys = none ∧ g0.on c7 ≠ [] ∧
    g0.on ⟨false, 0⟩ = [] :=
  ⟨by decide, runs_mach _ _ rfl rfl rfl rfl rfl rfl, fillable_of _ _ _ rfl, rfl, rfl, by decide, by decide, by decide, by decide⟩

/-- A byte in the buffer, in the snapshot of a commit, and at the levels above. -/
def hB (n : Byte) : Held := { b := n, va := 8192, ax := false, cnt := 0, pois := false, code := 0 }
def gBuf : Group := { g0 with mem := { buf := [(8192, hB 1)] } }
def tmL : Team := { tm0 with lvl := [(8192, hB 2)] }
def cmtS (sc : Scope) (excl : Bool) : State :=
  { machT gBuf tmL with
    clusters := [(2, { cl0 with lvl := [(8193, hB 3)] })], pending := [pend (.commit (.s 5) sc excl [(8192, hB 1)] false false 0)]
    nextId := 6 }

theorem commitDue (sc : Scope) (excl : Bool) : CommitDue (cmtS sc excl) (pend (.commit (.s 5) sc excl [(8192, hB 1)] false false 0))
    gBuf tmL { cl0 with lvl := [(8193, hB 3)] } (.s 5) sc excl [(8192, hB 1)] :=
  ⟨rfl, ⟨_, _, rfl⟩, rfl, rfl, rfl, rfl, ⟨_, rfl⟩, rfl, ⟨untraced_reset _ rfl, by cases sc <;> cases excl <;> rfl, rfl⟩⟩

theorem memOk_cmtS (sc : Scope) (excl : Bool) : MemOk (cmtS sc excl) := ⟨rfl, List.nodup_nil⟩

theorem witness_CommitsPlace : (∀ sc, CommitDue (cmtS sc false) (pend (.commit (.s 5) sc false [(8192, hB 1)] false false 0))
      gBuf tmL { cl0 with lvl := [(8193, hB 3)] } (.s 5) sc false [(8192, hB 1)]) ∧
    PreciseBytes [(8192, hB 1)] ∧ PreciseBytes tmL.lvl ∧ PreciseBytes [(8193, hB 3)] ∧
    (∀ sc, MemOk (cmtS sc false) ∧ ∀ e ∈ commitBytes sc [(8192, hB 1)] tmL.lvl [(8193, hB 3)], keyCmp e.1 = 0) ∧
    (∃ p : Pend, p.after ≠ [] ∧ ({ cmtS .dev false with pending := [p] } : State).pend? p.id = some p ∧
      ({ cmtS .dev false with pending := [p] } : State).group? p.gid = some gBuf ∧
      p.op = .commit (.s 5) .dev false [(8192, hB 1)] false false 0) :=
  ⟨fun sc => commitDue sc false, by unfold PreciseBytes; decide, by unfold PreciseBytes; decide, by unfold PreciseBytes; decide,
    fun sc => ⟨memOk_cmtS _ _, by cases sc <;> decide⟩,
    ⟨{ pend (.commit (.s 5) .dev false [(8192, hB 1)] false false 0) with after := [(4, .team)] }, by decide, rfl, rfl, rfl⟩⟩

/-- A sibling group wrote the word at a place after the reference point. -/
def overS : State := { cmtS .grp true with teams := [(3, { tmL with ord := { pos := 1, stamps := [(2048, [(6, 1)])] } })] }

theorem witness_CommitsEnd : (CommitDue overS (pend (.commit (.s 5) .grp true [(8192, hB 1)] false false 0)) gBuf
      { tmL with ord := { pos := 1, stamps := [(2048, [(6, 1)])] } } { cl0 with lvl := [(8193, hB 3)] } (.s 5) .grp true
      [(8192, hB 1)] ∧ overlaps [(2048, [(6, 1)])] 5 gBuf.mem.ref ((overlay [(8192, hB 1)] []).map (·.1)) = true) ∧
    (∃ op, op = PendOp.commit (.s 5) .sys false [] true false 9 ∧ (waiting op g0).pend? 5 = some (pend op) ∧
      (waiting op g0).group? 4 = some g0 ∧ Unwatched (waiting op g0) g0) :=
  ⟨⟨⟨rfl, ⟨_, _, rfl⟩, rfl, rfl, rfl, rfl, ⟨_, rfl⟩, rfl, ⟨untraced_reset _ rfl, rfl, rfl⟩⟩, by decide⟩,
   ⟨_, rfl, rfl, rfl, ⟨untraced_reset _ rfl, rfl, rfl⟩⟩⟩

theorem witness_AbortsDiscard : ∃ op, op = PendOp.abort (.s 5) .team (some (8192, 1)) none ∧
    (let s := { machT gBuf tmL with pending := [pend op], nextId := 6 }
     s.pend? 5 = some (pend op) ∧ s.group? 4 = some gBuf ∧ s.teamOf gBuf = some tmL ∧ s.clusterOf gBuf = some cl0 ∧
      Unwatched s gBuf ∧ 4 ∈ tmL.groups ∧ gBuf.team ∈ cl0.teams) :=
  ⟨_, rfl, rfl, rfl, rfl, rfl, ⟨untraced_reset _ rfl, rfl, rfl⟩, by decide, by decide⟩

theorem witness_FencesOrder : Runs (mach g0) g0 ∧ g0.on c7 ≠ [] ∧ g0.on ⟨false, 0⟩ = [] :=
  ⟨runs_mach _ _ rfl rfl rfl rfl rfl rfl, by decide, by decide⟩

/-! ## Atomics and synchronisation -/

def gAt : Group := gV [(128, 8192), (129, 8192), (159, 12280)]

theorem allowed_gAt (al w : Nat) (ha : al = 8 ∨ al = 4) : Allowed (mach gAt) gAt true true false al w (gAt.on c7) (gAt.rdN (.v 4) 2) fun _ => leaf2 where
  aligned := by rcases ha with h | h <;> subst h <;> decide
  canon := by decide
  unlocked := fun l _ => rfl
  held := by decide
  waited := rfl
  perms := fun _ _ => rfl
  typed := fun _ _ => rfl
  line := fun _ _ h => nomatch h
  unbroken := rfl
  unspoilt := fun _ => rfl

theorem witness_AtomicsStart : ∃ i r, atomicRow i = some r ∧ i.wf = true ∧ Runs (mach gAt) gAt ∧
    (mach gAt).teamOf gAt = some tm0 ∧ (mach gAt).clusterOf gAt = some cl0 ∧ Usable gAt r.srcs (gAt.on r.c) ∧
    Fillable gAt (match r.d with | none => [] | some d => [⟨d, r.k, false⟩]) (gAt.on r.c) ∧ gAt.on r.c ≠ [] ∧ Allowed (mach gAt) gAt true true false r.al r.w (gAt.on r.c) (gAt.rdN r.a.o 2) (fun _ => leaf2) ∧
    (∀ l ∈ gAt.on r.c, keyTier (leaf2.key (gAt.rdN r.a.o 2 l)) ≠ 3) ∧
    (mach gAt).carrying 4 tm0 cl0 ((gAt.on r.c).map fun l => ⟨l, gAt.rdN r.a.o 2 l, leaf2⟩) r.w = none ∧
    (∀ m ∈ lowerLevels gAt tm0 cl0 r.sc, ∀ l ∈ gAt.on r.c, holdsGranule m (leaf2.key (gAt.rdN r.a.o 2 l)) r.w = false) :=
  ⟨.atom c7 .cas .dev .b64 (some (.v 10)) (v 4) (v 6) (some (v 8)), _, rfl, by decide, runs_mach _ _ rfl rfl rfl rfl rfl rfl,
    rfl, rfl, usable_of _ _ _ rfl rfl, fillable_of _ _ _ rfl, by decide, allowed_gAt 8 8 (Or.inl rfl), by decide, by decide, by decide⟩

theorem due_waiting (op : PendOp) (g : Group) (ht : g.team = 3) (hs : g.shadow = none) : Due (waiting op g) (pend op) g tm0 cl0 :=
  have u := unwatched_mach g ht
  ⟨rfl, rfl, rfl, by unfold State.teamOf; rw [ht]; rfl, by unfold State.clusterOf State.teamOf; rw [ht]; rfl, hs,
    ⟨untraced_reset _ rfl, u.untracked, u.unlogged⟩⟩

/-- The queue of the core's near unit, empty and over its size. -/
def nearS (n : Nat) : State :=
  { mach gAt with pending := List.replicate n (pend (.atom none .add .team .n32 false [] [])) }
theorem near_length (n : Nat) : (nearS n).nearQueue 0 = n := by
  unfold State.nearQueue
  rw [show (nearS n).pending = List.replicate n (pend (.atom none .add .team .n32 false [] [])) from rfl,
    List.filter_replicate_of_pos (by rfl), List.length_replicate]

theorem witness_AtomicQueues : (∀ accs, (nearS 0).atomicFull gAt false accs = false) ∧
    (∀ accs, (nearS (Config.atomicRoom false + 1)).atomicFull gAt false accs = true) := by
  constructor <;> intro accs <;> unfold State.atomicFull <;>
    rw [if_neg (by decide), show gAt.core = 0 from rfl, near_length] <;> simp

def word0 : AWord := ⟨8192, 8192, [(0, 5, 0), (31, 6, 0)], {}⟩

theorem devByteAt_waiting (op : PendOp) (g : Group) (d k : Nat) : (waiting op g).devByteAt d k = 0 := by
  have e : (waiting op g).devByte k = 0 := by
    show (waiting op g).backByte k = 0
    unfold State.backByte
    split
    · rfl
    · split <;> rfl
  unfold State.devByteAt; rw [e]; rfl

theorem settled_waiting (op : PendOp) (k : Nat) : Settled (waiting op g0) g0 k 0 := fun _ _ => devByteAt_waiting _ _ _ _

theorem zeroByte (j : Nat) : (BitVec.ofNat 8 (0 / 256 ^ j) : Byte) = 0 := by rw [Nat.zero_div]; rfl

theorem witness_AtomicsPerform : (∀ sc ty far, Due (waiting (.atom (some (.v 9)) .add sc ty far [word0] []) g0)
      (pend (.atom (some (.v 9)) .add sc ty far [word0] [])) g0 tm0 cl0) ∧ [word0][0]? = some word0 ∧
    (∀ op, WordReads (waiting op g0) g0 tm0 .dev 8192 4 0 ∧ WordReads (waiting op g0) g0 tm0 .clu 8192 4 0 ∧
      WordReads (waiting op g0) g0 tm0 .team 8192 4 0) ∧
    (∀ sc ty, Due (waiting (.xadd sc ty [word0] {}) g0) (pend (.xadd sc ty [word0] {})) g0 tm0 cl0) ∧
    (∀ op, WordReads (waiting op g0) g0 tm0 .sys 8192 40 0) ∧ (∀ op, MemOk (waiting op g0)) :=
  have far (op : PendOp) (j : Nat) (h : j < 40) : PlainByte (waiting op g0) (8192 + j) := plain_waiting _ _ _ (by omega)
  ⟨fun _ _ _ => due_waiting _ _ rfl rfl, rfl,
   fun op => ⟨⟨by decide, fun j h => by rw [zeroByte]; exact ⟨fun _ => devByteAt_waiting _ _ _ _, far op j (by omega)⟩⟩,
     ⟨by decide, fun j h => by rw [zeroByte]; exact ⟨settled_waiting _ _, far op j (by omega)⟩⟩,
     ⟨by decide, fun j h => by rw [zeroByte]; exact ⟨settled_waiting _ _, far op j (by omega)⟩⟩⟩,
   fun _ _ => due_waiting _ _ rfl rfl,
   fun op => ⟨by decide, fun j h => by rw [zeroByte]; exact ⟨fun _ => devByteAt_waiting _ _ _ _, far op j h⟩⟩,
   fun op => ⟨rfl, List.nodup_nil⟩⟩

/-- Barriers: s5 = 1 arrival, s6 = token of barrier 31 at phase 0xFFFFFFFF, s7 = ticket 0 of counter 63. -/
def gT : Group := gS [(5, 1), (6, 0x1FFFFFFFFF), (7, 0x3F00000000), (8, 0x1F00000000), (9, 0x3F00000001)]

theorem witness_BarriersAndTickets :
    ((Instr.bari c7 31 (sr 5)).wf = true ∧ Runs (mach gT) gT ∧ (mach gT).tracked 3 = none ∧ (mach gT).teamOf gT = some tm0 ∧
      Usable gT [scalUse (sr 5)] (gT.on c7) ∧ gT.on c7 ≠ [] ∧ sv gT (sr 5) = 1 ∧ (tm0.bar 31).arr < 1 ∧
      1 ≤ ((tm0.setBar 31 ⟨2, 1, 0, false, 0⟩).bar 31).arr ∧ tm0.ringOf 31 = none) ∧
    ((Instr.barw c7 (sr 6)).wf = true ∧
      1 ≤ ((mach gT).phaseOf gT (sv gT (sr 6) / 2 ^ 32 % 32) - BitVec.ofNat 32 (sv gT (sr 6))).toNat ∧
      ((mach gT).phaseOf gT (sv gT (sr 6) / 2 ^ 32 % 32) - BitVec.ofNat 32 (sv gT (sr 6))).toNat ≤ 2 ^ 31 ∧
      ((mach gT).phaseOf gT (sv gT (sr 8) / 2 ^ 32 % 32) - BitVec.ofNat 32 (sv gT (sr 8))).toNat = 0) ∧
    ((Instr.tktw c7 (sr 7)).wf = true ∧
      ((mach gT).servOf gT (sv gT (sr 7) / 2 ^ 32 % 64) - BitVec.ofNat 32 (sv gT (sr 7))).toNat < 2 ^ 31 ∧
      ¬ ((mach gT).servOf gT (sv gT (sr 9) / 2 ^ 32 % 64) - BitVec.ofNat 32 (sv gT (sr 9))).toNat < 2 ^ 31) ∧
    Due (waiting (.tkts 63) gT) (pend (.tkts 63)) gT tm0 cl0 :=
  ⟨⟨by decide, runs_mach _ _ rfl rfl rfl rfl rfl rfl, (unwatched_mach gT rfl).untracked, rfl, usable_of _ _ _ rfl rfl, by decide,
    by decide, by decide, by decide, by decide⟩, by decide, by decide, due_waiting _ _ rfl rfl⟩

/-- A first arrival of two, one that completes its phase, one that completes a phase of a ring's barrier, and
two while the barrier is held. -/
def bar_ (n : Nat) (b : Bar) : Team := tm0.setBar n b
def barS (t : Team) (n : Nat) : State := { machT g0 t with pending := [pend (.barv (.s 2) n)], nextId := 6 }

theorem dueBar (t : Team) (n : Nat) (hc : t.cluster = 2) (hk : t.track = none) : Due (barS t n) (pend (.barv (.s 2) n)) g0 t cl0 :=
  have u := unwatched_machT g0 t rfl hk
  ⟨rfl, rfl, rfl, rfl, by
    show ((barS t n).team? 3).bind _ = _
    rw [show (barS t n).team? 3 = some t from rfl, Option.bind_some, hc]; rfl, rfl, ⟨untraced_reset _ rfl, u.untracked, u.unlogged⟩⟩

theorem witness_BarrierArrivals :
    (∀ n b, Due (barS (bar_ n b) n) (pend (.barv (.s 2) n)) g0 (bar_ n b) cl0) ∧
    (((bar_ 31 ⟨2, 0, 5, false, 0⟩).bar 31).held = false ∧ ((bar_ 31 ⟨2, 0, 5, false, 0⟩).bar 31).arr + 1 ≠ 2) ∧
    (∃ t, phaseDone (bar_ 31 ⟨1, 0, 5, false, 0⟩) 31 = some t) ∧ (∃ t, phaseDone (bar_ 0 ⟨1, 0, 5, false, 0⟩) 0 = some t) ∧
    ((bar_ 0 ⟨3, 3, 5, true, 1⟩).bar 0).arr2 + 1 ≠ 3 ∧ ((bar_ 0 ⟨3, 3, 5, true, 2⟩).bar 0).arr2 + 1 = 3 :=
  ⟨fun n b => dueBar _ _ rfl rfl, by decide, ⟨_, rfl⟩, ⟨_, rfl⟩, by decide, by decide⟩

theorem witness_ParksAndWakes :
    (let g := gS [(2, 12280)]
     (Instr.park c7 .dev (.s 6) (sr 2) (sr 3) (sr 4)).wf = true ∧ Runs (mach g) g ∧
      Usable g [scalUse (sr 2), scalUse (sr 3), scalUse (sr 4)] (g.on c7) ∧ (mach g).parksOf g.core < 128 ∧
      g.on c7 = 0 :: [1, 31]) ∧
    (Due (waiting (.park (.s 6) .dev 8192 8192 0 0) (gK .park)) (pend (.park (.s 6) .dev 8192 8192 0 0)) (gK .park) tm0 cl0 ∧
      (∀ j < 8, TakesByte (waiting (.park (.s 6) .dev 8192 8192 0 0) (gK .park)) (gK .park) (some .dev) []
        ⟨0, 8192, 0, {}, (List.range 8).map (8192 + ·), ((List.range 8).map (8192 + ·)).map fun k => AMap.at? (gK .park).mem.buf k⟩ j 0) ∧
      MemOk (waiting (.park (.s 6) .dev 8192 8192 0 0) (gK .park))) ∧
    (∃ x : ParkEnt, x.deadline = some 5 ∧ x.d = .s 6 ∧
      (let s := { mach (gK .park) with clk := 5, cores := [(0, { core0 with parks := [x] })] }
       s.groupAt 0 0 = some 4 ∧ s.group? 4 = some (gK .park) ∧ Untraced s ∧ (s.stream (s.tenantOf (gK .park))).rplLog = [] ∧
        (s.core 0).parks.find? (fun e => e.gid == 4) = some x)) ∧
    (∃ x : ParkEnt, ∃ h₀ : Group, x.gid = 6 ∧ h₀.park = some .park ∧ h₀.team = 3 ∧
      (let s := { waiting (.wake (.s 7) .dev 8192 1) g0 with
                  groups := [(4, g0), (6, h₀)], cores := [(0, { core0 with parks := [x] })] }
       s.parkedOn g0 .dev 8192 = [x] ∧ s.group? 6 = some h₀ ∧ x.d = .s 6)) :=
  ⟨⟨by decide, runs_mach _ _ rfl rfl rfl rfl rfl rfl, usable_of _ _ _ rfl rfl, by decide, by decide⟩,
   ⟨due_waiting _ _ rfl rfl, fun j h => by
      have : j = 0 ∨ j = 1 ∨ j = 2 ∨ j = 3 ∨ j = 4 ∨ j = 5 ∨ j = 6 ∨ j = 7 := by omega
      rcases this with h | h | h | h | h | h | h | h <;> subst h <;>
        exact ⟨rfl, fun _ _ => rfl, plain_waiting _ _ _ (by decide), Or.inr fun _ h => nomatch h⟩, ⟨rfl, List.nodup_nil⟩⟩,
   ⟨⟨4, .dev, 8192, some 5, 0, .s 6, 0⟩, rfl, rfl, rfl, rfl, untraced_reset _ rfl, rfl, rfl⟩,
   ⟨⟨6, .dev, 8192, none, 0, .s 6, 0⟩, { gK .park with slot := 1, gidx := 1 }, rfl, rfl, rfl, by decide, rfl, rfl⟩⟩

/-! ## Traps and special registers -/

/-- A team with a handler at 65536; v1 empty in lane 1 and poisoned in lane 31. -/
def tmH : Team := { tm0 with tbase := 65536 }
def gEm : Group := { g0 with regs := { empt := [33] } }
def gPo : Group := { g0 with regs := { pois := [63] } }
/-- The address of lane 31 is poisoned. -/
def gPoL : Group := { gA with regs := { gA.regs with pois := [159] } }
def gMis : Group := gV [(128, 8192), (129, 8193), (159, 8195)]
def gNc : Group := gV [(128, 8192), (161, 0x01000000), (159, 8192)]

theorem hasHandler (g : Group) (cls : Nat) (hg : g.team = 3) (hh : g.sys.high = false) : HasHandler (machT g tmH) g tmH cls :=
  ⟨by unfold State.teamOf; rw [hg]; rfl, rfl, rfl, hh, by decide, fun _ => rfl, untraced_reset _ rfl⟩

theorem emptyUse (b : Bool) : Fillable gEm [⟨.v 2, 1, b⟩, ⟨.v 3, 1, b⟩] (gEm.on c7) := by
  unfold Fillable; cases b <;> decide

theorem witness_TrapsTaken :
    (Runs (machT g0 tmH) g0 ∧ (∀ cls, HasHandler (machT g0 tmH) g0 tmH cls) ∧ g0.on c7 ≠ [] ∧
      (Instr.trap c7 127).wf = true ∧ (Instr.brkp c7 127).wf = true) ∧
    ((Instr.iadd c7 ⟨false, false, .i32⟩ (.v 3) ⟨.v 1, true⟩ (v 2)).wf = true ∧ Runs (machT gEm tmH) gEm ∧
      HasHandler (machT gEm tmH) gEm tmH 5 ∧
      (gEm.on c7).filter (fun l => !(gEm.emptyCells ⟨.v 1, 1, true⟩ [l]).isEmpty) = [1]) ∧
    ((Instr.iadd c7 ⟨false, false, .i32⟩ (.v 3) (v 1) (v 2)).wf = true ∧ Runs (machT gPo tmH) gPo ∧
      HasHandler (machT gPo tmH) gPo tmH 15 ∧ Fillable gPo [⟨.v 1, 1, false⟩, ⟨.v 2, 1, false⟩] (gPo.on c7) ∧
      (gPo.on c7).filter (fun l => [(⟨.v 1, 1, false⟩ : Use), ⟨.v 2, 1, false⟩].any
        fun u => !(lanesIn gPo.regs.pois u [l]).isEmpty) = [31]) ∧
    (Runs (machT gPoL tmH) gPoL ∧ HasHandler (machT gPoL tmH) gPoL tmH 15 ∧ Fillable gPoL (memUses memA) (gPoL.on c7) ∧
      Fillable gPoL [⟨.v 8, 1, false⟩] (gPoL.on c7) ∧
      ((gPoL.on c7).filter fun l => (memUses memA).any fun u => !(lanesIn gPoL.regs.pois u [l]).isEmpty).map
        (fun l => (l, effAddr gPoL memA none l)) = (31, 12284) :: []) ∧
    ((Instr.ld c7 false .b16 false (.v 8) memA).wf = true ∧ Runs (machT gMis tmH) gMis ∧ HasHandler (machT gMis tmH) gMis tmH 3 ∧
      Usable gMis (memUses memA) (gMis.on c7) ∧ Fillable gMis [⟨.v 8, 1, false⟩] (gMis.on c7) ∧
      ((gMis.on c7).map fun l => (l, effAddr gMis memA none l)).filter (fun e => e.2 % Wd.b16.bytes != 0) =
        (1, 8193) :: [(31, 8195)]) ∧
    (Runs (machT gNc tmH) gNc ∧ HasHandler (machT gNc tmH) gNc tmH 2 ∧
      ((gNc.on c7).map fun l => (l, effAddr gNc memA none l)).filter (fun e => e.2 % Wd.b16.bytes != 0) = [] ∧
      (((gNc.on c7).map fun l => (l, effAddr gNc memA none l)).filter fun e => canonical e.2 == false).map (·.1) = [1]) :=
  ⟨⟨runs_mach _ _ rfl rfl rfl rfl rfl rfl, fun _ => hasHandler _ _ rfl rfl, by decide, by decide, by decide⟩,
   ⟨by decide, runs_mach _ _ rfl rfl rfl rfl rfl rfl, hasHandler _ _ rfl rfl, by decide⟩,
   ⟨by decide, runs_mach _ _ rfl rfl rfl rfl rfl rfl, hasHandler _ _ rfl rfl, fillable_of _ _ _ rfl, by decide⟩,
   ⟨runs_mach _ _ rfl rfl rfl rfl rfl rfl, hasHandler _ _ rfl rfl, fillable_of _ _ _ rfl, fillable_of _ _ _ rfl, by decide⟩,
   ⟨by decide, runs_mach _ _ rfl rfl rfl rfl rfl rfl, hasHandler _ _ rfl rfl, usable_of _ _ _ rfl rfl, fillable_of _ _ _ rfl,
    by decide⟩,
   ⟨runs_mach _ _ rfl rfl rfl rfl rfl rfl, hasHandler _ _ rfl rfl, by decide, by decide⟩⟩

/-- A kernel that traps NV, and an infinity less an infinity in every lane. -/
def tmNv : Team := { tmH with hdr := { maxHeader with arith := 1 } }
def gInf : Group := gV [(64, 0x7F800000), (65, 0x7F800000), (95, 0x7F800000)]

theorem witness_ArithTraps : ∃ i r, arithFloatRow i = some r ∧ i.wf = true ∧ Runs (machT gInf tmNv) gInf ∧
    HasHandler (machT gInf tmNv) gInf tmNv 11 ∧ (machT gInf tmNv).queueMode gInf = false ∧ Usable gInf r.srcs (gInf.on r.c) ∧
    Fillable gInf [⟨r.d, r.k, false⟩] (gInf.on r.c) ∧
    (gInf.on r.c).filter (fun l => (r.val gInf l).2.bits &&& (machT gInf tmNv).arithMask gInf != 0) ≠ [] :=
  ⟨.fsub c7 ⟨false, .ne, .f32⟩ (.v 1) (v 2) (v 2), _, rfl, by decide, runs_mach _ _ rfl rfl rfl rfl rfl rfl,
    ⟨rfl, rfl, rfl, rfl, by decide, fun _ => rfl, untraced_reset _ rfl⟩, by decide, usable_of _ _ _ rfl rfl,
    fillable_of _ _ _ rfl, by decide⟩

theorem witness_AgentTraps : (Instr.trap c7 0).wf = true ∧ Runs (mach g0) g0 ∧ Untraced (mach g0) ∧
    (mach g0).teamOf g0 = some tm0 ∧ tm0.halted = false ∧ (tm0.treat == .save) = false ∧ g0.sys.high = false ∧
    tm0.tbase = 0 ∧ g0.on c7 ≠ [] :=
  ⟨by decide, runs_mach _ _ rfl rfl rfl rfl rfl rfl, untraced_reset _ rfl, rfl, rfl, rfl, rfl, rfl, by decide⟩

/-- A group at H whose interrupted instruction, at 4096, is a nop. -/
def gHi : Group := { g0 with ctl := { g0.ctl with pc := 4160 }, sys := { high := true, epc := 4096 } }
def atH : State :=
  { machT gHi tmH with mem := ((leBytes 8 0x0138000000000000).mapIdx fun i b => (4096 + i, b)).filter fun e => e.2 != 0 }

theorem witness_TrapReturns : Runs atH gHi ∧ Untraced atH ∧ atH.teamOf gHi = some tmH ∧ gHi.sys.high = true ∧
    gHi.sys.step = false ∧ atH.cur ∈ tmH.groups ∧ atH.queueMode gHi = false ∧
    (atH.queueMode gHi = true → ∀ k ∈ tmH.groups, ∀ w, atH.group? k = some w → w.sys.pendTrap = none) ∧
    atH.wordAt gHi 4096 = some 0x0138000000000000 ∧ bitAt 0x0138000000000000 0 = false ∧
    CodeAddr gHi.sys.epc ∧ CodeAddr 4104 :=
  ⟨⟨rfl, rfl, rfl, rfl, rfl, rfl, rfl⟩, untraced_reset _ rfl, rfl, rfl, rfl, by decide, by decide, (fun h => absurd h (by decide)),
    by decide, by decide, ⟨by decide, by decide⟩, ⟨by decide, by decide⟩⟩

/-- A status register, an indexed one with its last index, and SV_PTR; a register of the group and one of the
tenant's stream, written at H. -/
theorem witness_SpecialRegisters :
    ((Instr.srd c7 0 (.s 5) none).wf = true ∧ (Instr.srd c7 0x14 (.s 5) (some (.s 2))).wf = true ∧
      (Instr.srd c7 0x502 (.s 5) none).wf = true ∧ sregCause false false 0 none = none ∧
      sregCause false false 0x14 (some 143) = none ∧ sregCause false false 0x502 none = none ∧
      Runs (mach g0) g0 ∧ Usable g0 (indexUse (some (.s 2))) (g0.on c7) ∧ Fillable g0 [⟨.s 5, 1, false⟩] (g0.on c7) ∧
      (mach g0).floatPending 4 = false) ∧
    ((Instr.swr c7 0x700 none (sr 6)).wf = true ∧ (Instr.swr c7 0x510 (some (.s 2)) (sr 6)).wf = true ∧
      Runs (machT gHi tmH) gHi ∧ sregCause true true 0x700 none = none ∧ sregCause true true 0x504 none = none ∧
      (gHi.rdS (.s 6)).toNat % 1024 = 0 ∧ (∃ u, localWrite (machT gHi tmH) gHi 0x700 0 = some u) ∧
      localWrite (machT gHi tmH) gHi 0x504 0 = none ∧ gHi.on c7 ≠ []) :=
  ⟨⟨by decide, by decide, by decide, by decide, by decide, by decide, runs_mach _ _ rfl rfl rfl rfl rfl rfl, usable_of _ _ _ rfl rfl,
    fillable_of _ _ _ rfl, by decide⟩,
   ⟨by decide, by decide, runs_mach _ _ rfl rfl rfl rfl rfl rfl, by decide, by decide, by decide, ⟨_, rfl⟩, rfl, by decide⟩⟩

theorem witness_SleepsAndStops :
    ((Instr.sleep c7 (sr 4)).wf = true ∧ Runs (mach gM) gM ∧ Usable gM [scalUse (sr 4)] (gM.on c7) ∧ gM.on c7 ≠ [] ∧
      sv gM (sr 4) % 2 ^ 32 ≠ 0 ∧ sv gM (sr 9) % 2 ^ 32 = 0) ∧
    (∀ n, (mach (gK (.sleep n))).groupAt 0 0 = some 4 ∧ (mach (gK (.sleep n))).group? 4 = some (gK (.sleep n)) ∧
      MayRun (mach (gK (.sleep n))) (gK (.sleep n))) ∧
    (∃ g : Group, g.sys.skid = some 0 ∧ g.held = none ∧ (mach g).groupAt 0 0 = some 4 ∧ (mach g).group? 4 = some g ∧
      Untraced (mach g)) ∧
    (∃ g : Group, g.stopReq = some 0 ∧ g.held = none ∧ g.shadow = none ∧ g.trc.rec? = none ∧ Runs (mach g) g ∧
      Untraced (mach g) ∧ g.on c7 ≠ [] ∧ (mach g).groupAt 0 0 = some 4 ∧
      (let s := { mach g with clk := 20000 }; 0 + 20000 ≤ s.clk ∧ s.groupAt 0 0 = some 4 ∧ s.group? 4 = some g)) :=
  ⟨⟨by decide, runs_mach _ _ rfl rfl rfl rfl rfl rfl, usable_of _ _ _ rfl rfl, by decide, by decide, by decide⟩,
   fun n => ⟨rfl, rfl, mayRun _ _ rfl rfl rfl rfl rfl rfl⟩,
   ⟨{ g0 with sys := { skid := some 0 } }, rfl, rfl, rfl, rfl, untraced_reset _ rfl⟩,
   ⟨{ g0 with stopReq := some 0 }, rfl, rfl, rfl, rfl, runs_mach _ _ rfl rfl rfl rfl rfl rfl, untraced_reset _ rfl, by decide,
     rfl, Nat.le_refl _, rfl, rfl⟩⟩

/-! ## Pre-emption -/

/-- A launch of another tenant waits for core 0; the slice has ended; the tenant has one context slot. -/
def grW : Grid := { gr0 with clusters := [], next := 0, waiting := true, rcd := { oneRecord with tenant := 1 } }
def sliceS (t : Team) (w : Bool) : State :=
  { machT g0 t with
    clk := 5000000, grids := (1, gr0) :: (if w then [(9, grW)] else []), cores := [(0, { core0 with sliceDone := true })]
    tenants := [(0, { ctx := 1 })] }

theorem oneTeam (s : State) (t : Team) (h1 : s.cluster? 2 = some cl0) (h2 : s.grid? 1 = some gr0) (h3 : s.team? 3 = some t)
    (h4 : s.streams = []) (h5 : t.cluster = 2) (h6 : t.resident = true) (h7 : t.retired = false) (h8 : t.treat = .no) :
    OneTeam s 2 3 cl0 t gr0 := ⟨h1, h2, rfl, h3, h5, h6, h7, h8, untraced_reset _ h4⟩

/-- A team that may be flushed, one that may be drained, and one that neither holds for. -/
def tmFl : Team := { tm0 with hdr := { maxHeader with flags := 1 } }
def tmDr : Team := { tm0 with hdr := { maxHeader with expect := 100 }, issued := 99, clean := false }

theorem witness_Preemption :
    (((sliceS tm0 false).core 0).teams ≠ [] ∧ ((sliceS tm0 false).core 0).sliceDone = true ∧
      ((sliceS tm0 false).modCore 0 fun k => { k with sliceDone := true }).waitsFor 0 = false ∧ Untraced (sliceS tm0 false)) ∧
    (let u := (sliceS tm0 true).modCore 0 fun k => { k with sliceDone := true }
     u.waitsFor 0 = true ∧ u.clustersOn 0 = [2] ∧ OneTeam u 2 3 cl0 tm0 gr0) ∧
    ((sliceS tmDr false).mayDrain tmDr = true ∧ (sliceS tm0 false).mayDrain tm0 = false ∧
      ((sliceS tm0 false).tenant 0).freeSlots 1 = some [0] ∧ ((mach g0).tenant 0).freeSlots 1 = none ∧
      bitAt tmFl.hdr.flags 0 = true ∧ tmFl.clean = true ∧ tmFl.bin = none) ∧
    (∀ t ∈ [tm0, tmFl, tmDr], (sliceS t false).teams = [(3, t)] ∧ OneTeam (sliceS t false) 2 3 cl0 t gr0 ∧
      gr0.rcd.tenant = 64 % 64 ∧ t.agent = false ∧ (sliceS t false).boot.stage ≠ 0) ∧
    (let t : Team := { tm0 with treat := .drain 5000000 }
     (sliceS t false).team? 3 = some t ∧ 5000000 ≤ (sliceS t false).clk ∧ t.retired = false ∧ Untraced (sliceS t false)) :=
  ⟨⟨by decide, by decide, by decide +kernel, untraced_reset _ rfl⟩,
   ⟨by decide +kernel, by decide, oneTeam _ _ rfl rfl rfl rfl rfl rfl rfl rfl⟩,
   ⟨by decide, by decide, by decide, by decide, by decide, rfl, rfl⟩,
   (by
     intro t ht
     simp only [List.mem_cons, List.not_mem_nil, or_false] at ht
     rcases ht with h | h | h <;> subst h <;> exact ⟨rfl, oneTeam _ _ rfl rfl rfl rfl rfl rfl rfl rfl, rfl, rfl, by decide⟩),
   ⟨rfl, Nat.le_refl _, rfl, untraced_reset _ rfl⟩⟩

/-- A cluster being saved whose one group is frozen, and a saved one with room on the device. -/
def tmSv : Team := { tm0 with treat := .save }
def tmAw : Team := { tm0 with resident := false, ctxSlot := some 0, lvl := [(8192, hB 2)] }
def awayS : State := { machT { g0 with frozen := true } tmAw with cores := [] }

theorem witness_SavesAndRestores :
    (let s := machT { g0 with frozen := true } tmSv
     s.cluster? 2 = some cl0 ∧ cl0.teams = [3] ∧ s.team? 3 = some tmSv ∧ Stopped s 3 tmSv) ∧
    (awayS.cluster? 2 = some cl0 ∧ awayS.grid? 1 = some gr0 ∧ awayS.team? 3 = some tmAw ∧ tmAw.resident = false ∧
      tmAw.retired = false ∧ tmAw.bin = none ∧ tmAw.agent = false ∧ tmAw.trapper = none ∧ awayS.launchHold = false ∧
      Untraced awayS ∧ awayS.pending = [] ∧
      (awayS.pickOrigin awayS.siteUse ⟨1, 1, 1, false, some 1⟩ (needOf gr0.rcd gr0.hdr gr0.binTab) gr0.rcd.seed 0).isSome) :=
  ⟨⟨rfl, rfl, rfl, ⟨rfl, rfl, rfl, (by
      intro k hk g hg
      simp only [show tmSv.groups = [4] from rfl, List.mem_singleton] at hk
      subst hk
      exact Or.inr (Or.inl (by cases hg; rfl))),
    (fun _ h => nomatch h), (fun _ h => nomatch h), (fun _ h => nomatch h), (fun _ h => nomatch h)⟩⟩,
   ⟨rfl, rfl, rfl, rfl, rfl, rfl, rfl, rfl, rfl, untraced_reset _ rfl, rfl, by decide +kernel⟩⟩

theorem witness_AgentRequests : ∃ t : Team, t.resident = true ∧ t.treat = .no ∧
    (let s := { machT g0 t with tenants := [(0, { ctx := 1 })] }
     s.agentTeams (64 % 64) = [(3, t)] ∧ s.team? 3 = some t ∧ Untraced s ∧ s.boot.stage ≠ 0 ∧
      (s.tenant (64 % 64)).freeSlots 1 = some [0] ∧ s.committing 4 = false ∧
      ({ s with pending := [pend (.commit (.s 5) .grp false [] false false 0)] } : State).committing 4 = true) :=
  ⟨{ tm0 with halted := true, agent := true, trapper := some 4 }, rfl, rfl, by decide, rfl, untraced_reset _ rfl, by decide,
    by decide, by decide, by decide⟩

/-! ## Tasks and launches -/

/-- Bin 3 of core 0, bound to an entry at 4096. -/
def binS (g : Group) (b : Bin) : State :=
  { mach g with cores := [(0, { core0 with bins := [(3, b)], creg := 48, cscr := 40, cl1 := 8 })] }
def hdrB : Header := { maxHeader with acc := 0, bins := 0 }
def bin0 (lanes : List Word64) : Bin := { entry := some (4096, 100), hdr := some hdrB, grid := 1, lanes := lanes }

theorem witness_BinsAndYields :
    ((Instr.spawn c7 15 (v 6)).wf = true ∧ Runs (binS g0 (bin0 [])) g0 ∧ Usable g0 [⟨.v 6, 2, false⟩] (g0.on c7) ∧
      ((binS g0 (bin0 [])).bin 0 3).lanes.length + (g0.on c7).length ≤ 64 ∧
      64 < ((binS g0 (bin0 (List.replicate 62 0))).bin 0 3).lanes.length + (g0.on c7).length) ∧
    ((Instr.binf c7 15).wf = true ∧ Runs (mach g0) g0 ∧ g0.on c7 ≠ []) ∧
    (∃ b : Bin, ((binS g0 b).bin 0 3).deadline = some 0 ∧ ((binS g0 b).bin 0 3).lanes ≠ [] ∧ 0 ≤ (binS g0 b).clk) ∧
    (∃ h gr, (binS g0 (bin0 (List.replicate 33 0))).binReady 0 3 = some (h, gr) ∧
      ((binS g0 (bin0 (List.replicate 33 0))).bin 0 3).entry = some (4096, 100) ∧
      Untraced (binS g0 (bin0 (List.replicate 33 0))) ∧ (binS g0 (bin0 (List.replicate 33 0))).pending = []) :=
  ⟨⟨by decide, ⟨rfl, rfl, rfl, rfl, rfl, rfl, rfl⟩, usable_of _ _ _ rfl rfl, by decide, by decide⟩,
   ⟨by decide, runs_mach _ _ rfl rfl rfl rfl rfl rfl, by decide⟩,
   ⟨{ bin0 [0] with deadline := some 0 }, rfl, by decide, Nat.zero_le _⟩,
   ⟨hdrB, gr0, by decide +kernel, rfl, untraced_reset _ rfl, rfl⟩⟩

def launch0 : Launch := { addr := 8192, tenant := 0, lno := 9, refused := 0, rcd := some oneRecord, hdr := some maxHeader }

theorem witness_Launching :
    (∃ t : Task, t.st = .ready ∧ t.bin = none ∧ t.launch = some launch0 ∧ launch0.refused = 0 ∧
      (let s := { mach g0 with trd := { tasks := [(65535, t)] } }; s.task (0 * 65536 + 65535 % 65536) = t ∧ Untraced s)) ∧
    (∃ t : Task, t.st = .ready ∧ t.bin = some 3 ∧ t.binEntry = some (4096, 100) ∧
      (let s := { binS g0 (bin0 []) with trd := { tasks := [(65535, t)] } }
       s.task (0 * 65536 + 65535 % 65536) = t ∧ s.binBound t.core 3 = some (4096, 100) ∧ (s.bin t.core 3).lanes.length < 64)) ∧
    (let s := { mach g0 with trd := { devq := [launch0] } }
     s.launchHold = false ∧ s.trd.queues = [] ∧ s.trd.devq = launch0 :: [] ∧ AMap.at? s.trd.taken 256 = none ∧
      oneRecord.prio < 4 ∧ Untraced s) ∧
    (let gr : Grid := { gr0 with next := 0, clusters := [] }
     let s := { mach g0 with grids := [(1, gr)], clusters := [], teams := [], groups := [], cores := [] }
     s.gridOfLno 7 = some (1, gr) ∧ s.launchHold = false ∧ gr.waiting = false ∧ gr.nextIndex = some 0 ∧
      bitAt gr.hdr.flags 2 = false ∧ Untraced s ∧
      (s.pickOrigin s.siteUse gr.rcd.shape (needOf gr.rcd gr.hdr gr.binTab) gr.rcd.seed 0).isSome) ∧
    (let gr : Grid := { gr0 with next := 0, clusters := [], waiting := true, retry := true, rcd := { oneRecord with w := 6, h := 7 } }
     let s := { mach g0 with grids := [(1, gr)] }
     s.gridOfLno 7 = some (1, gr) ∧ gr.waiting = true ∧ gr.retry = true ∧
      s.pickOrigin s.siteUse gr.rcd.shape (needOf gr.rcd gr.hdr gr.binTab) gr.rcd.seed 0 = none) ∧
    (let s := mach { g0 with ended := true }
     s.team? 3 = some tm0 ∧ s.cluster? 2 = some cl0 ∧ tm0.retired = false ∧ s.teamOver 3 tm0 = true ∧ cl0.teams = [3] ∧
      s.gridOfLno 7 = some (1, gr0) ∧ s.grid? 1 = some gr0 ∧ s.gridOver gr0 = true ∧ gr0.rcd.crec = 0 ∧ gr0.rcd.ctask = 0) :=
  ⟨⟨{ st := .ready, launch := some launch0 }, rfl, rfl, rfl, rfl, by decide, untraced_reset _ rfl⟩,
   ⟨{ st := .ready, bin := some 3, binEntry := some (4096, 100) }, rfl, rfl, rfl, by decide, by decide, by decide⟩,
   ⟨by decide, rfl, rfl, rfl, by decide, untraced_reset _ rfl⟩,
   ⟨by decide, by decide, rfl, by decide, by decide, untraced_reset _ rfl, by decide +kernel⟩,
   ⟨by decide, rfl, rfl, by decide +kernel⟩,
   ⟨rfl, rfl, rfl, by decide, rfl, by decide, rfl, by decide, rfl, rfl⟩⟩

/-! ## The service agent's registers and errors -/

def page0 : FaultPage := { id := 9, seq := 5, tenant := 3, page := 0, waiters := [(4, 0)] }

/-- Tenant 2 with an invalidation that has begun. -/
def invS : State := { mach g0 with tenants := [(2, { inv := 1, invDone := false })] }

theorem witness_AgentWrites : State.reset.boot.stage = 0 ∧
    (Untraced { mach g0 with faults := [page0] } ∧
      (({ mach g0 with faults := [page0] } : State).faults.find? fun p => p.tenant == 3 && p.seq % 2 ^ 56 == 5 && p.ans.isNone) =
        some page0 ∧
      (({ mach g0 with faults := [page0] } : State).faults.find? fun p => p.tenant == 3 && p.seq % 2 ^ 56 == 6 && p.ans.isNone) =
        none) ∧
    (∃ w : Word64, bitsAt w.toNat 0 6 ≤ 45 ∧ bitsAt w.toNat 6 6 = 0 ∧ bitsAt w.toNat 57 7 = 0) ∧
    (∃ w : Word64, 45 < bitsAt w.toNat 0 6) ∧ (∃ w : Word64, bitsAt w.toNat 6 6 ≠ 0) ∧
    invS.invReady (2 % 64) = true ∧ invS.invReady (3 % 64) = false ∧
    (agentRow (.mmFqbaseWrite 63 4096)).isSome ∧ (selvageRow (.svBaseWrite 64 4102)).isSome ∧
    (let x := State.reset.queue (5 % 256)
     ((BitVec.ofNat 32 0 - x.head).toNat ≤ 2 ^ bitsAt x.ctl.toNat 8 4) ∧
     2 ^ bitsAt x.ctl.toNat 8 4 < (BitVec.ofNat 32 (2 ^ 20) - x.head).toNat) ∧
    ((mach g0).boot.stage ≠ 0 ∧ (tenantWritten ((mach g0).tenant 63) 0x803 8).isSome) ∧ 12 % 8 ≠ 0 :=
  ⟨rfl, ⟨untraced_reset _ rfl, by decide, by decide⟩, ⟨0x1005, by decide, by decide, by decide⟩, ⟨46, by decide⟩, ⟨64, by decide⟩,
   by decide, by decide, rfl, rfl, ⟨by decide, by decide⟩, ⟨by decide, rfl⟩, by decide⟩

/-- A block at 256 of team 3 is approximate. -/
def tmAx : Team := { tm0 with sp := { ax := [(1, [])] } }
def axLine : State := { mach g0 with lines := [(0, { l2 := [0], tol := true })] }

theorem witness_StorageErrors :
    (((mach g0).line (lineOf 0)).cached = false ∧ (axLine.line (lineOf 0)).cached = true ∧
      (axLine.line (lineOf 0)).tol = true) ∧
    atSlot (mach g0) 0 0 4 g0 ∧ (mach g0).team? 3 = some tm0 ∧ tm0.blockAx 256 = false ∧ tmAx.blockAx 511 = true ∧
    (7 < tm0.hdr.acc ∧ twApx (tm0.tword 7) = false ∧ twApx (({ tm0 with tstate := [(7, 0x20)] } : Team).tword 7) = true) ∧
    (mach g0).cluster? 2 = some cl0 ∧
    State.reset.plat.bad1.has 49151 = false ∧ State.reset.plat.bad0.has 0 = false ∧
    (∃ s : State, s.plat.bad0.has 5 = true) :=
  ⟨⟨rfl, rfl, rfl⟩, ⟨rfl, rfl⟩, rfl, by decide, by decide, ⟨by decide, by decide, by decide⟩, rfl, by decide, by decide,
   ⟨{ State.reset with plat := { State.reset.plat with bad0 := [5] } }, by decide⟩⟩

/-! ## The engines -/

/-- Fields of a command that matter here. -/
def cmd0 (heddle : Bool) (op : EngOp) (st : CmdSt) : Cmd :=
  { id := 20, heddle := heddle, gid := 4, team := 3, i := .hclr c7 false (.acc 1), c := c7, pc := 4096, op := op, sc := .dev
    st := st, blk := [0, 0, 0, 0, 0, 0] }
def withCmds (s : State) (cs : List Cmd) : State := { s with cores := [(0, { core0 with cmds := cs })] }

/-- The grid's format slots: 1 of two planes, 2 of FP16. -/
def slotsE : List Word64 := [0, 0x2201, 2]
/-- A group with a block at s16: every register zero, or one that a multiply or a drain takes. -/
def gBlk (l : List Nat) : Group := gS (l.mapIdx fun i x => (16 + i, BitVec.ofNat 64 x))
def engS (g : Group) : State := { mach g with grids := [(1, { gr0 with rcd := { oneRecord with slots := slotsE } })] }
def hmmWord : Nat := ((Instr.hmm c7 false (.acc 1) (sr 16) 1 1).encode.map (·.1)).getD 0
/-- s30 holds the word of an `hmm`. -/
def gFol : Group := { gBlk [0, 0, 256] with regs := { s := [(18, 256), (30, BitVec.ofNat 64 hmmWord)] } }

/-- An engine instruction whose operands trap nothing at issue. -/
def EngFits (g : Group) (i : Instr) : Prop := i.wf = true ∧ ∃ r, engRow (engS g) g i = some r ∧ r.fits (blockOf g r.blk)

/-- Every engine instruction queues under some registers. -/
theorem witness_EngineRows :
    (EngFits g0 (.qcp c7 .sp .dev (.s 9) (sr 16) (sr 4)) ∧ EngFits g0 (.qcpSt c7 .sp .dev (.s 9) (sr 16) (sr 4)) ∧
      EngFits g0 (.qcp c7 (.ring 7) .dev (.s 9) (sr 16) (sr 4)) ∧
      EngFits g0 (.qmc c7 .dev (.s 9) (sr 16) (sr 4) (sr 5)) ∧ EngFits g0 (.qcol c7 .dev (.s 9) (sr 16)) ∧
      EngFits g0 (.qput c7 .dev (.s 9) (sr 16)) ∧ EngFits g0 (.qget c7 .dev (.s 9) (sr 16)) ∧
      EngFits g0 (.hclr c7 true (.acc 0)) ∧ EngFits g0 (.hacl c7 false (.acc 1) (sr 16))) ∧
    (EngFits gFol (.hmm c7 false (.acc 1) (sr 16) 1 1) ∧ EngFits gFol (.hmmf c7 (.acc 1) (sr 16) 2 2) ∧
      EngFits gFol (.qcpm c7 (.s 9) (sr 4) (sr 4) (sr 30))) ∧
    (EngFits (gBlk [0, 0, 4096 * 2 ^ 32 + 4096]) (.bpack c7 (sr 16) 1) ∧
      EngFits (gBlk [0, 0, 4096 * 2 ^ 32 + 4096]) (.bunpk c7 (sr 16) 1)) ∧
    (EngFits (gBlk [0, 512, 0, 0, 0x3F80000000000000]) (.hdrn c7 ⟨true, true, true, true, true, false⟩ .dev (.acc 0) (sr 16) 1) ∧
      EngFits (gBlk [0, 512, 0, 0, 0x3F80000000000000])
        (.hdrn c7 ⟨true, true, false, true, false, false⟩ .dev (.acc 0) (sr 16) 0)) :=
  ⟨⟨⟨by decide, _, rfl, ⟨⟨by decide, by decide, ⟨by decide, by decide⟩, by decide⟩, fun _ h => nomatch h⟩⟩,
    ⟨by decide, _, rfl, ⟨⟨by decide, by decide, ⟨by decide, by decide⟩, by decide⟩, fun _ h => nomatch h⟩⟩,
    ⟨by decide, _, rfl, ⟨⟨by decide, by decide, ⟨by decide, by decide⟩, by decide⟩, fun _ h => by cases h; decide⟩⟩,
    ⟨by decide, _, rfl, ⟨⟨by decide, by decide, ⟨by decide, by decide⟩, by decide⟩, by decide⟩⟩,
    ⟨by decide, _, rfl, ⟨by decide, by decide, by decide, by decide⟩⟩,
    ⟨by decide, _, rfl, ⟨by decide, by decide, by decide, ⟨by decide, by decide⟩, by decide, by decide⟩⟩,
    ⟨by decide, _, rfl, ⟨by decide, by decide, by decide, ⟨by decide, by decide⟩, by decide, by decide⟩⟩,
    ⟨by decide, _, rfl, trivial⟩,
    ⟨by decide, _, rfl, ⟨by decide, by decide, by decide⟩⟩⟩,
   ⟨⟨by decide, _, rfl, ⟨by decide, by decide, by decide, by decide, by decide, by decide, by decide⟩⟩,
    ⟨by decide, _, rfl, ⟨by decide, by decide, by decide, by decide, by decide, by decide, by decide⟩⟩,
    ⟨by decide, _, rfl, ⟨by decide, by decide, ⟨by decide, by decide⟩, by decide⟩⟩⟩,
   ⟨⟨by decide, _, rfl, ⟨by decide, by decide, by decide, by decide, by decide, by decide, by decide, by decide⟩⟩,
    ⟨by decide, _, rfl, ⟨by decide, by decide, by decide, by decide, by decide, by decide, by decide, by decide⟩⟩⟩,
   ⟨by decide, _, rfl, ⟨by decide, by decide, by decide, by decide, by decide, by decide, by decide, by decide, by decide, by decide, by decide⟩⟩,
   ⟨by decide, _, rfl, ⟨by decide, by decide, by decide, by decide, by decide, by decide, by decide, by decide, by decide, by decide, by decide⟩⟩⟩

theorem witness_EngineCommandsQueue : ∃ i r, engRow (mach g0) g0 i = some r ∧ i.wf = true ∧
    (∀ g : Group, g.trc.started = true → g.shadow = none → g.trc.replay = none → g.trc.rec? = none → g.sys.skid = none →
      g.sys.stepping = false → Runs (mach g) g) ∧
    Usable g0 ((match r.blk with | none => [] | some (a, n) => [⟨a.o, n, a.bang⟩]) ++ r.more) (g0.on r.c) ∧
    Fillable g0 (dstUse r.d) (g0.on r.c) ∧ r.fits (blockOf g0 r.blk) ∧ g0.on r.c ≠ [] ∧
    ({ g0 with ctl := { g0.ctl with act := 0 } } : Group).on r.c = [] ∧
    ((mach g0).engCmds g0.core r.heddle).length < 16 ∧
    16 ≤ ((withCmds (mach g0) (List.replicate 16 (cmd0 true (.hclr false 1) .queued))).engCmds g0.core r.heddle).length :=
  ⟨.hclr c7 true (.acc 0), _, rfl, by decide, fun g => runs_mach g tm0, usable_of _ _ _ rfl rfl,
    (fun u h => nomatch h), trivial, by decide, by decide, by decide, by decide⟩

def gH : Group := { g0 with held := some 20 }
def qS (heddle : Bool) (op : EngOp) (st : CmdSt) (d : Option Opd) : State :=
  withCmds (mach gH) [{ cmd0 heddle op st with d := d }]

theorem heads_qS (heddle : Bool) (op : EngOp) (d : Option Opd) :
    Heads (qS heddle op .queued d) 0 { cmd0 heddle op .queued with d := d } gH tm0 :=
  ⟨by cases heddle <;> rfl, rfl, rfl, rfl, rfl, rfl, rfl, rfl, rfl, (by show (0 : Nat) ≤ 64; decide)⟩

theorem witness_CommandsAccepted :
    (∀ heddle op d, Heads (qS heddle op .queued d) 0 { cmd0 heddle op .queued with d := d } gH tm0 ∧
      Untraced (qS heddle op .queued d)) ∧
    Idle { cmd0 false .qput .queued with d := some (.s 63) } ∧ Idle { cmd0 false .qget .queued with d := some (.s 0) } :=
  ⟨fun a b c => ⟨heads_qS a b c, untraced_reset _ rfl⟩, ⟨Or.inl rfl, rfl, rfl, rfl, by decide⟩, ⟨Or.inr rfl, rfl, rfl, rfl, by decide⟩⟩

/-- A copy of 64 bytes of fill to the scratchpad, one granule of it left. -/
def fillRcd : List Byte := leBytes 8 0 ++ leBytes 2 0 ++ leBytes 2 8 ++ leBytes 4 0x5A5A5A5A ++ leBytes 16 0 ++
  leBytes 20 0 ++ leBytes 4 63 ++ leBytes 8 0
def cmdFill : Cmd := { cmd0 false (.qcp .sp false 0) .running with rcd := fillRcd, work := [3], base := 128 }

theorem witness_CommandsRun :
    (∀ b : List Nat, let c := { cmd0 false .qput .accepted with blk := b }
     ((withCmds (mach g0) [c]).engCmds 0 false).find? (·.st == .accepted) = some c ∧
      (((withCmds (mach g0) [c]).engCmds 0 false).filter (·.st == .running)).length < 8 ∧ c.bad = false ∧ c.status = 0) ∧
    (let c := cmd0 true (.hclr true 7) .accepted
     let s := withCmds (mach g0) [{ cmd0 true (.bpack 1) .running with id := 19 }, c]
     Named s 0 c.id c ∧ s.team? c.team = some tm0 ∧ c.bad = false ∧ c.status = 0 ∧ c.fault = none ∧
      (∀ x ∈ ((s.engCmds 0 true).filter (·.st != .queued)).takeWhile (·.id != c.id), x.op.drains = true ∧
        (x.team ≠ c.team ∨ x.op.tile ≠ some 7))) ∧
    (let s := withCmds (mach g0) [cmdFill]
     let b := cmdFill.boxOf (((s.group? cmdFill.gid).map s.slotsOf).getD [])
     let a := cmdFill.base + rotate b.l.rot (16 * 3)
     Named s 0 cmdFill.id cmdFill ∧ s.team? cmdFill.team = some tm0 ∧ cmdFill.fault = none ∧
      (∀ i < 16, b.source (16 * 3 + i) = .fill 0x5A) ∧ tm0.blockAx a = false ∧ tm0.windowAt a = none) ∧
    (let c := cmd0 false .qget .running
     let s := withCmds (mach g0) [c]
     Named s 0 c.id c ∧ s.team? c.team = some tm0 ∧ Untraced s ∧ c.fault = none ∧ c.work = [] ∧ c.left = [] ∧ Idle c) ∧
    (let c := cmd0 true (.hclr false 1) .running
     let s := withCmds (mach g0) [c]
     Named s 0 c.id c ∧ s.team? c.team = some tm0 ∧ Untraced s ∧ c.fault = none ∧ c.work = [] ∧ c.status = 0 ∧
      c.noRec = false ∧ ∀ p ∈ s.pending, ∀ d a, p.op ≠ .fmtq d a) :=
  ⟨fun _ => ⟨rfl, (by show (0 : Nat) < 8; decide), rfl, rfl⟩,
   ⟨⟨rfl, rfl⟩, rfl, rfl, rfl, rfl, by decide⟩,
   ⟨⟨rfl, rfl⟩, rfl, rfl, by decide +kernel, by decide +kernel, rfl⟩,
   ⟨⟨rfl, rfl⟩, rfl, untraced_reset _ rfl, rfl, rfl, rfl, ⟨Or.inr rfl, rfl, rfl, rfl, by decide⟩⟩,
   ⟨⟨rfl, rfl⟩, rfl, untraced_reset _ rfl, rfl, rfl, rfl, rfl, (fun _ h => nomatch h)⟩⟩

/-- A multicast of the filled tile to team 3 of its own cluster, and to a team whose gate is closed. -/
def cmdCast : Cmd := { cmd0 false (.qmc 0 1) .running with rcd := fillRcd, left := [0], base := 128 }
/-- A sum of FP32 over two ranks, of which this is rank 1; and a transfer through port 0. -/
def collRcd : List Byte := leBytes 24 (4 * 2 ^ 128) ++ [0, 0, 0, 1, 2, 0, 0, 0] ++ leBytes 4 7 ++ leBytes 28 0
def cmdColl : Cmd := { cmd0 false .qcol .running with rcd := collRcd, left := [0] }
def cmdPut : Cmd := { cmd0 false .qput .running with work := [1] }
def netS (c : Cmd) (up : Bool) : State :=
  { withCmds (mach g0) [c] with
    plat := { State.reset.plat with wpeer := [(0, 0x8000000000000001)], link := if up then [(4, 2)] else [] } }

theorem witness_CommandsMeetOthers :
    ((∀ t ∈ [tm0, { tm0 with gate := false }, { tm0 with sp := { full := [8] } }],
      let s := withCmds (machT g0 t) [cmdCast]
      Named s 0 cmdCast.id cmdCast ∧ s.team? cmdCast.team = some t ∧ 0 ∈ cmdCast.left ∧ cmdCast.work = [] ∧
        s.teamIn t.cluster 0 = some (3, t)) ∧
      (let s := withCmds (mach g0) [cmdCast]
       let b := cmdCast.boxOf (((s.group? cmdCast.gid).map s.slotsOf).getD [])
       s.refuses cmdCast b 3 tm0 = false ∧ (∀ q k, AMap.at? cmdCast.data q = some k → k.ax = false) ∧
        (∀ a, tm0.blockAx a = false) ∧ b.bytes = 64 ∧ (cmdCast.base + rotate b.l.rot (16 * 0)) / 16 = 8)) ∧
    (Named (netS cmdColl false) 0 cmdColl.id cmdColl ∧ cmdColl.bad = false ∧ cmdColl.writes = false ∧ cmdColl.st ≠ .queued ∧
      0 < (collOf cmdColl.rcd).npeer ∧ 0 ≠ (collOf cmdColl.rcd).rank ∧ cmdColl.mask.testBit 0 = false ∧
      (collOf cmdColl.rcd).count = 4 ∧ cmdColl.status = 0 ∧ cmdColl.left ≠ [] ∧ cmdColl.failed = false ∧
      (∀ e ∈ (netS cmdColl true).cores, ∀ x ∈ e.2.cmds, ¬ x.id < cmdColl.id) ∧
      (let peer := (AMap.get 0 (netS cmdColl true).plat.wgrp (64 * (collOf cmdColl.rcd).grp + 0)).toNat % 64
       Reaches (netS cmdColl true) peer ∧ ¬ Reaches (netS cmdColl false) peer)) ∧
    (let c := { cmdColl with left := [] }
     Named (netS c false) 0 c.id c ∧ c.failed = false ∧ c.work = [] ∧ c.left = []) ∧
    (let us := if (collOf cmdColl.rcd).timeout = 0 then 1000000 else (collOf cmdColl.rcd).timeout
     (∃ s : State, cmdColl.since + s.realClocks (1000 * us) ≤ s.clk) ∧
      (netS cmdColl false).clk < cmdColl.since + (netS cmdColl false).realClocks (1000 * us)) ∧
    (∀ b, Named (netS cmdPut b) 0 cmdPut.id cmdPut ∧ cmdPut.status = 0 ∧ cmdPut.work ≠ []) ∧
    (Reaches (netS cmdPut true) (nth cmdPut.blk 0 % 64) ∧ ¬ Reaches (netS cmdPut false) (nth cmdPut.blk 0 % 64) ∧
      (netS cmdPut true).clk < cmdPut.since + (netS cmdPut true).realClocks 1000000000) :=
  ⟨⟨(by
      intro t ht
      simp only [List.mem_cons, List.not_mem_nil, or_false] at ht
      rcases ht with h | h | h <;> subst h <;> exact ⟨⟨rfl, rfl⟩, rfl, by decide, rfl, rfl⟩),
     by decide +kernel, (fun _ _ h => nomatch h), (fun _ => rfl), by decide +kernel, by decide +kernel⟩,
   ⟨⟨rfl, rfl⟩, rfl, rfl, by decide, by decide, by decide, by decide, by decide, rfl, by decide, rfl, by decide,
    ⟨rfl, 0, by decide, by decide, by decide⟩, (fun ⟨_, p, _, _, h⟩ => absurd (show (0 : Nat) = 2 from h) (by decide))⟩,
   ⟨⟨rfl, rfl⟩, rfl, rfl, rfl⟩,
   ⟨⟨{ State.reset with clk := 10 ^ 12 }, by decide⟩, by decide⟩,
   (fun b => by cases b <;> exact ⟨⟨rfl, rfl⟩, rfl, by decide⟩),
   ⟨⟨rfl, 0, by decide, by decide, by decide⟩, (fun ⟨_, p, _, _, h⟩ => absurd (show (0 : Nat) = 2 from h) (by decide)), by decide⟩⟩

/-! ## Trace and replay -/

def streamed (g : Group) (r : Stream) : State := { mach g with streams := [(0, r)] }

theorem witness_MarksAndSamples :
    (Instr.tmark c7 127 (sr 6)).wf = true ∧ (Instr.msmp c7).wf = true ∧ (Instr.rmark c7 (.s 5)).wf = true ∧
    (∀ r, Runs (streamed g0 r) g0) ∧ Usable g0 [scalUse (sr 6)] (g0.on c7) ∧ Fillable g0 [⟨.s 5, 1, false⟩] (g0.on c7) ∧
    g0.on c7 ≠ [] ∧ (streamed g0 {}).traces ((streamed g0 {}).tenantOf g0) 8 = false ∧
    (streamed g0 { ctl := 0x101 }).traces ((streamed g0 { ctl := 0x101 }).tenantOf g0) 8 = true ∧
    BitVec.ofNat 32 (g0.ctl.pc.toNat / 2 ^ 32) = g0.trc.hi ∧ ((streamed g0 { ctl := 0x101 }).core g0.core).dropped.at? ((streamed g0 { ctl := 0x101 }).tenantOf g0) = none ∧
    ((streamed g0 { ctl := 0x101 }).core g0.core).fifoUsed + 17 ≤ 16384 ∧
    (((streamed g0 { rpl := 41 }).stream ((streamed g0 { rpl := 41 }).tenantOf g0)).logSize).isSome :=
  ⟨by decide, by decide, by decide, fun _ => ⟨rfl, rfl, rfl, rfl, rfl, rfl, rfl⟩, usable_of _ _ _ rfl rfl,
    fillable_of _ _ _ rfl, by decide, by decide, by decide, by decide, by decide, by decide, by decide⟩

/-- A packet of three bytes that nothing stands before; a buffer of 64 bytes. -/
def pkt0 : Pkt := ⟨64, 0, 4, 1152, 0x0A, [1, 2, 3]⟩
def devS (r : Stream) : State := { State.reset with streams := [(64, r)] }
def rec0 (g : Group) : RplRec :=
  { off := 0, len := 0, int := 0, snap := g, hdr := maxHeader, rcd := oneRecord, ids := [], gid := [] }

theorem witness_StreamsAreWritten :
    (let s := devS { queue := [pkt0] }
     firstPkt (s.stream 64).queue = some (pkt0, []) ∧ s.passed 64 pkt0.stamp = true ∧ PlainStream s.time (s.stream 64) pkt0 ∧
      packetBytes 0 pkt0 = 0x50 :: [1, 2, 3] ∧ (4 : Nat) ≤ 2 ^ bitsAt (s.stream 64).base.toNat 0 5 ∧ 64 ≤ s.tierSize 0 ∧
      MemOk s ∧ ∀ k < 2 ^ 52, PlainByte s k) ∧
    (let s := devS { queue := [{ pkt0 with stamp := 1 }] }
     firstPkt (s.stream 64).queue = some ({ pkt0 with stamp := 1 }, []) ∧ s.passed 64 1 = false) ∧
    (∀ c ∈ [(0 : BitVec 12), 2], let s := devS { ctl := c, wptr := 64, queue := [pkt0] }
     firstPkt (s.stream 64).queue = some (pkt0, []) ∧ s.passed 64 pkt0.stamp = true ∧ PlainStream s.time (s.stream 64) pkt0 ∧
      pkt0.ty ≠ 0x14 ∧ pkt0.ty ≠ 0x13 ∧ 2 ^ bitsAt (s.stream 64).base.toNat 0 5 -
        ((s.stream 64).wptr - (s.stream 64).rptr).toNat < (packetBytes (s.stream 64).lastStamp pkt0).length ∧
      (s.stream 64).ctl.toNat.testBit 1 = decide (c = 2)) ∧
    (let s : State := { devS { ctl := 1, syncTus := 1 } with time9 := 36000 }
     (s.stream 64).ctl.toNat.testBit 0 = true ∧ (s.stream 64).syncTus ≠ 0 ∧
      (s.stream 64).lastSync + 4000 * (s.stream 64).syncTus.toNat ≤ s.time) ∧
    (let s := devS { ctl := 1, syncTus := 1 }
     s.time < (s.stream 64).lastSync + 4000 * (s.stream 64).syncTus.toNat) ∧
    ((devS {}).unread 64 0 = [] ∧ ((devS {}).stream 64).blocked 0 = false) ∧
    (let s : State := { devS { ctl := 2, wptr := 64, queue := [pkt0] } with plat := { State.reset.plat with stn := [pkt0] } }
     s.unread 64 1152 ≠ [] ∧ (s.stream 64).blocked s.time = true) :=
  ⟨⟨rfl, by decide, ⟨rfl, rfl, Or.inl rfl, Or.inr (by decide), by decide⟩, by decide, by decide, by decide,
      ⟨rfl, List.nodup_nil⟩, fun k h => plain_of _ _ rfl rfl (Nat.div_eq_of_lt (Nat.lt_trans h (by decide)))⟩,
   ⟨rfl, by decide⟩,
   (by
     intro c hc
     simp only [List.mem_cons, List.not_mem_nil, or_false] at hc
     rcases hc with h | h <;> subst h <;>
       exact ⟨rfl, by decide, ⟨rfl, rfl, Or.inl rfl, Or.inr (by decide), by decide⟩, by decide, by decide, by decide, by decide⟩),
   ⟨by decide, by decide, by decide⟩, by decide, ⟨by decide, by decide⟩, by decide⟩

/-- Tenant 0 with a page of 1 GiB at 0, readable and writable: a root at 65536, one table below it. -/
def tables : List Host.Cell :=
  [(65536, 1), (65537, 0x10), (65538, 1), (69632, 0x0F)]
def paged (s : State) : State := { s with mem := tables, tenants := [(0, { root := 65536 })] }

/-- A group whose interval has run out, with its log of 128 KiB. -/
def gInt : Group := { g0 with trc := { started := true, inInterval := 65536, rec? := some 1 } }
def logged : Stream := { rpl := 35, rplLog := [(1, rec0 g0)] }
/-- The record that a read of tenant 0 at 8192 + 16 names: handle 1. -/
def rplS (cores : AMap Core) : State :=
  { paged { streamed g0 logged with cores := cores } with mem := (8208, 1) :: tables }

def rplBytes : List Byte := List.replicate 16 0 ++ [1] ++ List.replicate 7 0

theorem untraced_logged (s : State) (h : s.streams = [(0, logged)]) : Untraced s := by
  intro t b
  have e : (s.stream t).ctl = 0 := by
    unfold State.stream AMap.get AMap.at?; rw [h]
    by_cases k : (0 == t) = true
    · simp only [List.find?, k]; rfl
    · simp only [List.find?, k]; rfl
  unfold State.traces; rw [e]; rfl

theorem witness_IntervalsAndReplay :
    (atSlot (mach g0) 0 0 4 g0 ∧ g0.trc.rec? = none) ∧
    (atSlot (streamed gInt logged) 0 0 4 gInt ∧ gInt.trc.rec? = some 1 ∧ 2 ^ 16 ≤ gInt.trc.inInterval ∧
      gInt.trc.replay = none ∧ LogRoom (streamed gInt logged) gInt 1 (rec0 g0) ∧ Untraced (streamed gInt logged) ∧
      ∀ p ∈ (streamed gInt logged).pending, p.gid ≠ 4) ∧
    ((rplS []).boot.stage ≠ 0 ∧ (rplS []).readVirt 0 8192 24 = (some rplBytes, rplS []) ∧
      AMap.at? ((rplS []).stream 0).rplLog (leNat (rplBytes.drop 16)) = some (rec0 g0) ∧ Untraced (rplS []) ∧
      (rplS []).replayCores (needOf { (rec0 g0).rcd with tenant := 0, crec := 0, ctask := 0 } { (rec0 g0).hdr with bins := 0 } []) ≠ []) :=
  ⟨⟨⟨rfl, rfl⟩, rfl⟩,
   ⟨⟨rfl, rfl⟩, rfl, by decide, rfl, ⟨⟨17, by decide, by decide⟩, rfl, rfl, rfl, by decide⟩, untraced_logged _ rfl,
    (fun _ h => nomatch h)⟩,
   ⟨by decide, by decide +kernel, by decide +kernel, untraced_logged _ rfl, by decide +kernel⟩⟩

/-! ## The platform -/

/-- S2 with the stacks trained or not, a transition begun at 7, HOLD2 set, nothing resident or the small machine. -/
def trained : AMap Word64 := (List.range 12).map fun i => (i, 0x8000000000000000)
def s2S (s : State) (b : Boot) (h : AMap Word64) : State :=
  { s with boot := { b with stage := 2 }, plat := { s.plat with hbmst := h }, clk := 10 ^ 12 }

theorem witness_PowerAndBoot :
    (∀ b, ({ State.reset with boot := { powered := b } } : State).boot.powered = b) ∧
    (∃ s : State, s.plat.ckRun = some (1, 0)) ∧
    (State.reset.boot.stage = 0 ∧ State.reset.boot.fromNet = false ∧ ([1, 2, 3] : List Byte).length ≤ 2 ^ 20) ∧
    (∀ image, ¬ Passes { State.reset with fuses := { State.reset.fuses with keys := [] } } image) ∧
    (∀ image, Config.verifies (Config.imageKey image) (Config.imageBare image) (Config.imageSig image) = true →
      ∃ s : State, Passes s image) ∧
    (State.reset.clk < State.reset.boot.since + State.reset.realClocks 30000000000 ∧
      (let s : State := { State.reset with clk := 10 ^ 12 }
       s.boot.stage = 0 ∧ s.boot.since + s.realClocks 30000000000 ≤ s.clk)) ∧
    (∀ n, ({ State.reset with boot := { stage := n } } : State).boot.stage = n) ∧
    (∀ b h, (s2S State.reset b h).boot.stage = 2 ∧ (s2S State.reset b h).boot.trans = b.trans ∧
      (s2S State.reset b h).boot.hold2 = b.hold2 ∧ (s2S State.reset b h).boot.hbmf = b.hbmf) ∧
    (∀ i < 12, bitAt (AMap.get 0 (s2S State.reset {} trained).plat.hbmst i).toNat 63 = true) ∧
    bitAt (AMap.get 0 (s2S State.reset {} []).plat.hbmst 0).toNat 63 = false ∧
    (let s := s2S (mach g0) { trans := some 7 } []
     s.boot.trans = some 7 ∧ (∃ e ∈ s.teams, e.2.resident = true ∧ e.2.retired = false) ∧ Untraced s) ∧
    (let s := s2S State.reset { trans := some 7 } []
     s.boot.trans = some 7 ∧ s.boot.hold2 = false ∧ (∀ e ∈ s.teams, e.2.resident = true → e.2.retired = true) ∧ Untraced s ∧
      7 + s.realClocks 100000000 ≤ s.clk ∧ MemOk s ∧ PlainByte s 4096) ∧
    (∃ gr : Grid, (s2S { mach g0 with grids := [(1, { gr0 with waiting := true })] } { trans := some 7 } []).grid? 1 = some gr ∧
      gr.waiting = true) ∧
    (let s : State := { mach g0 with boot := { stage := 2, trans := some 7 } }
     Untraced s ∧ s.clk < 7 + s.realClocks 100000000) ∧
    (bitAt (1 : Word64).toNat 0 = true ∧ bitAt (2 : Word64).toNat 0 = false) ∧
    ((List.replicate 32 (0 : Byte)).length = 32 ∧ (mach g0).boot.stage ≠ 0 ∧ (mach g0).boot.keyx = false ∧
      (mach g0).boot.reports < 1024) :=
  ⟨fun _ => rfl, ⟨{ State.reset with plat := { State.reset.plat with ckRun := some (1, 0) } }, rfl⟩, ⟨rfl, rfl, by decide⟩,
   (by rintro image ⟨_, ⟨i, _, _, h⟩, _⟩; cases h),
   (fun image h => ⟨{ State.reset with fuses := { State.reset.fuses with
       revoked := [], keys := [Config.hash (Config.imageKey image)], rollback := 0 } }, h,
     ⟨0, by decide, (fun h => nomatch h), rfl⟩, Nat.zero_le _⟩),
   ⟨by decide, rfl, by decide⟩, fun _ => rfl, fun _ _ => ⟨rfl, rfl, rfl, rfl⟩, by decide, by decide,
   ⟨rfl, ⟨(3, tm0), by decide, rfl, rfl⟩, untraced_reset _ rfl⟩,
   ⟨rfl, rfl, (fun _ h => nomatch h), untraced_reset _ rfl, by decide, ⟨rfl, List.nodup_nil⟩, plain_of _ _ rfl rfl (by decide)⟩,
   ⟨_, rfl, rfl⟩, ⟨untraced_reset _ rfl, by decide⟩, ⟨by decide, by decide⟩, ⟨by decide, by decide, rfl, by decide⟩⟩

/-- Peer 63 is configured, reached through port 0, with tenant 0, whose pages are those above. -/
def peerS : State :=
  let s := paged (mach g0)
  { s with plat := { s.plat with wpeer := [(63, 0x8000000000000001)], link := [(4, 2)] } }
def snoopS : State := { mach g0 with lines := [(3 * 2 ^ 44 + 5, { l3 := [0] })] }

theorem plain_mach (g : Group) (k : Nat) (h : k < 2 ^ 52) : PlainByte (mach g) k :=
  plain_of _ _ rfl rfl (Nat.div_eq_of_lt (Nat.lt_trans h (by decide)))
theorem repaired_of (s : State) (h : s.plat.bad0 = []) : Repaired s := by
  intro seg k; rw [h] at k; exact absurd k (by simp [NSet.has])

theorem witness_HostAndPeers :
    (4096 + 2 ≤ (mach g0).tierSize 0 ∧ 2 ≤ (mach g0).boot.stage ∧ (mach g0).plat.ckState ≠ 1 ∧ MemOk (mach g0) ∧
      Repaired (mach g0) ∧ (∀ i < 2, PlainByte (mach g0) (4096 + i)) ∧ ∀ i < 2, (mach g0).pois.has (4096 + i) = false) ∧
    (State.reset.boot.stage < 2 ∧ State.reset.tierSize 0 < 2 ^ 29 + 1) ∧
    (∃ s : State, s.plat.ckState = 1 ∧ (∃ pa bs, HeldOp.hostWrite pa bs ∈ s.plat.heldOps)) ∧
    (¬ ∃ pa bs, HeldOp.hostWrite pa bs ∈ (mach g0).plat.heldOps) ∧
    (bitAt (AMap.get 0 peerS.plat.wpeer (63 % 64)).toNat 63 = true ∧
      bitsAt (AMap.get 0 peerS.plat.wpeer (63 % 64)).toNat 8 6 = 0 ∧ Reaches peerS 63 ∧ ¬ Reaches peerS 62 ∧
      peerS.peerKeys 0 4096 2 true = (0, [4096, 4097], peerS) ∧ peerS.peerKeys 0 4096 2 false = (0, [4096, 4097], peerS) ∧
      peerS.peerKeys 0 (2 ^ 40) 2 true = (3, [], peerS) ∧ peerS.peerKeys 0 (2 ^ 40) 2 false = (3, [], peerS) ∧
      MemOk peerS ∧ Repaired peerS ∧ (∀ k < 2 ^ 52, PlainByte peerS k ∧ peerS.pois.has k = false)) ∧
    ((snoopS.line (3 * 2 ^ 44 + 5 % 2 ^ 44)).cached = true ∧ MemOk snoopS ∧
      ((mach g0).line (3 * 2 ^ 44 + 5 % 2 ^ 44)).cached = false) :=
  ⟨⟨by decide, by decide, by decide, ⟨rfl, List.nodup_nil⟩, repaired_of _ rfl, fun i h => plain_mach _ _ (by omega),
     fun _ _ => rfl⟩, ⟨by decide, by decide⟩,
   ⟨{ State.reset with plat := { State.reset.plat with ckState := 1, heldOps := [.hostWrite 0 [1]] } }, rfl, 0, [1], by decide⟩,
   (fun ⟨_, _, h⟩ => nomatch h),
   ⟨by decide, by decide, ⟨rfl, 0, by decide, by decide, by decide⟩,
    (fun ⟨_, p, _, h, _⟩ => absurd (h.symm.trans (Nat.zero_testBit p)) (by decide)),
    by decide +kernel, by decide +kernel, by decide +kernel, by decide +kernel, ⟨by decide, by decide⟩, repaired_of _ rfl,
    fun k h => ⟨plain_of _ _ rfl rfl (Nat.div_eq_of_lt (Nat.lt_trans h (by decide))), rfl⟩⟩,
   ⟨by decide +kernel, ⟨by decide, by decide⟩, by decide +kernel⟩⟩

/-- A stage S3 with nothing resident and a tier 2 of 2^44 bytes, an operation running with OP and its base, or none. -/
def ckS (run : Nat) (op : Option (Nat × Nat)) : State :=
  { State.reset with
    boot := { stage := 3 }, installed := (2 ^ 40, 0, 2 ^ 44)
    plat := { State.reset.plat with ckState := run, ckRun := op } }
def magic (i : Nat) : Byte := BitVec.ofNat 8 (Config.ckptMagic.toNat / 256 ^ i)
def headS : State :=
  { ckS 0 none with
    fuses := { State.reset.fuses with serial := 0 }
    mem := ((List.range 8).map fun i => (2 * 2 ^ 52 + i, magic i)) ++ [(2 * 2 ^ 52 + 24, 1)] }

theorem magic_bytes : magic 0 + 0 = magic 0 ∧ leNat ((List.range 8).map magic) = Config.ckptMagic.toNat := by
  refine ⟨by simp, ?_⟩
  have h := Config.ckptMagic.isLt
  simp only [magic, leNat, List.range, List.range.loop, List.map, BitVec.toNat_ofNat]
  omega

theorem head_ok : headS.headCode 0 = 0 := by
  have h : leNat ((List.range 8).map fun i => Memory.read headS.mem (tier2 (0 + 0 + i))) = Config.ckptMagic.toNat :=
    magic_bytes.2
  have h1 : leNat ((List.range 1).map fun i => Memory.read headS.mem (tier2 (0 + 24 + i))) = 1 := rfl
  have h2 : leNat ((List.range 8).map fun i => Memory.read headS.mem (tier2 (0 + 8 + i))) = 0 := rfl
  unfold State.headCode
  simp only [h, h1, h2, show headS.fuses.serial = 0 from rfl, bne_self_eq_false, Bool.or_self, Nat.zero_mod, if_false,
    Bool.false_eq_true]

theorem head_bad : (ckS 0 none).headCode 0 = 4 := by
  have h1 : leNat ((List.range 1).map fun i => Memory.read (ckS 0 none).mem (tier2 (0 + 24 + i))) = 0 := rfl
  unfold State.headCode
  simp only [h1]
  simp

theorem witness_CheckpointsAndRestores :
    State.reset.boot.stage ≠ 3 ∧ (mach g0).occupied = true ∧ (ckS 1 (some (1, 0))).plat.ckState = 1 ∧
    (∀ s ∈ [ckS 0 none, headS], ¬ (s.boot.stage ≠ 3 ∨ s.occupied = true ∨ s.plat.ckState = 1) ∧ s.boot.stage ≠ 0) ∧
    (ckS 0 none).tierSize 2 < 2 ^ 44 + 4096 + 768 * 2 ^ 30 ∧ 0 + 4096 + 768 * 2 ^ 30 ≤ (ckS 0 none).tierSize 2 ∧
    headS.headCode 0 = 0 ∧ (ckS 0 none).headCode 0 ≠ 0 ∧
    (∀ op, let s := ckS 1 (some (op, 0))
     s.plat.ckRun = some (op, 0) ∧ s.plat.ckState = 1 ∧ MemOk s ∧ Repaired s ∧ 0 + 4096 + 768 * 2 ^ 30 ≤ 2 ^ 52 ∧
      (∀ k < 768 * 2 ^ 30, PlainByte s k ∧ Marked s k ∧ PlainByte s (2 * 2 ^ 52 + 0 + 4096 + k) ∧
        Marked s (2 * 2 ^ 52 + 0 + 4096 + k))) ∧
    (∀ b op, (ckS 0 none).plat.ckRun ≠ some (op, b)) ∧
    (HeldRow (.hostWrite 0 [1]) (.hostPostedWrite 0 [1]) ∧ HeldRow (.hostRead 0 1) (.hostRead 0 1) ∧
      HeldRow (.peerWrite 63 8 [1]) (.weftPeerWrite 63 8 [1]) ∧ HeldRow (.peerRead 63 8 1) (.weftPeerRead 63 8 1)) ∧
    (∃ a, (ckS 1 (some (1, 0))).holds ((ckS 1 (some (1, 0))).access a) = false) ∧ (ckS 1 (some (1, 0))).plat.heldOps = [] :=
  ⟨by decide, by decide, rfl,
   (by
     intro s hs
     simp only [List.mem_cons, List.not_mem_nil, or_false] at hs
     rcases hs with h | h <;> subst h <;> refine ⟨?_, by decide⟩ <;> rintro (h | h | h) <;> revert h <;> decide),
   by decide, by decide, head_ok, (by rw [head_bad]; decide),
   (fun op => ⟨rfl, rfl, ⟨rfl, List.nodup_nil⟩, repaired_of _ rfl, by decide, fun k h =>
     ⟨plain_of _ _ rfl rfl (Nat.div_eq_of_lt (by omega)), Or.inl rfl, plain_of _ _ rfl rfl (Nat.div_eq_of_lt (by omega)),
      Or.inl rfl⟩⟩),
   (fun _ _ h => nomatch h), ⟨rfl, rfl, ⟨by decide, by decide, rfl⟩, ⟨by decide, by decide, rfl⟩⟩,
   ⟨.hostRead 0 1, by decide +kernel⟩, rfl⟩

/-- The device stream records refreshes, with as many packets of one source waiting. -/
def refS (n : Nat) : State :=
  { devS { ctl := 0x81 } with plat := { State.reset.plat with stn := List.replicate n ⟨64, 0, 4, 1187, 0x14, []⟩ } }

theorem witness_Environment :
    1520 ≤ (1520 : BitVec 16).toInt ∧ 1680 ≤ (1680 : BitVec 16).toInt ∧ 1840 ≤ (1840 : BitVec 16).toInt ∧
    (0xFFFF : BitVec 16).toInt < 1520 ∧
    Untraced State.reset ∧ State.reset.plat.ptpPort ≠ 15 ∧
    (∃ s : State, s.plat.ptpPort = 15 ∧ s.plat.hold = true ∧ s.grid? 1 = some { gr0 with waiting := true }) ∧
    (4 < 5 ∨ (1 ≤ 1 ∧ 1 < 12 ∧ State.reset.boot.stage ≠ 3)) ∧ ¬ (1 ≤ 0 ∧ 0 < 12 ∧ State.reset.boot.stage ≠ 3) ∧
    ¬ (1 ≤ 11 ∧ 11 < 12 ∧ (mach g0).boot.stage ≠ 3) ∧
    State.reset.traces 64 7 = false ∧ (refS 0).traces 64 7 = true ∧
    ((refS 0).plat.stn.filter fun p => p.stream == 64 && p.src == 1187).length ≤ Config.stationRoom ∧
    (refS 0).plat.stnDrops.at? (65 * 1187 + 64) = none ∧ (refS (Config.stationRoom + 1)).traces 64 7 = true ∧
    Config.stationRoom < ((refS (Config.stationRoom + 1)).plat.stn.filter fun p => p.stream == 64 && p.src == 1187).length :=
  ⟨by decide, by decide, by decide, by decide, untraced_reset _ rfl, by decide,
   ⟨{ mach g0 with
      grids := [(1, { gr0 with waiting := true })], plat := { State.reset.plat with ptpPort := 15, hold := true } },
    rfl, rfl, rfl⟩, Or.inl (by decide), by decide, by decide, by decide, by decide, Nat.zero_le _, rfl, by decide,
   by simp [refS]⟩

/-! ## Encoding and steps -/

theorem witness_CodesRoundTrip : ∃ i w w1, i.wf = true ∧ i.encode = some (w, w1) ∧ decode .max w (w1.getD 0) = .ok i :=
  ⟨.shlImm c7 ⟨false, false, .b32⟩ (.v 191) (v 190) 31,
    ((Instr.shlImm c7 ⟨false, false, .b32⟩ (.v 191) (v 190) 31).encode.map (·.1)).getD 0, none, by decide, by decide, by decide⟩

/-- A nop about to be fetched, and an S1 about to end. -/
def nopS : State := State.reset.withFetchWord 64 0x0138000000000000
def gNop : Group := { core := 0, slot := 0, team := 3, gidx := 0, ctl := { pc := 4096, act := 0xFFFFFFFF } }
def s1S : State := { State.reset with boot := { stage := 1 } }

theorem move_nop : (turned nopS).move = (.issue 4, turned nopS) := rfl
theorem move_s1 : (turned s1S).move = (.ev .s1Complete, turned s1S) := rfl

/-- A group that has its first word, and asks for the second. -/
def gBuf1 : Group := { g0 with fbuf := [(4096, 0x0138000000000000)] }

theorem witness_StepRunsDecoded :
    ((mach gBuf1).group? 4 = some gBuf1 ∧ gBuf1.fbuf.at? (4096 : Word64).toNat = some 0x0138000000000000 ∧
      gBuf1.fbuf.at? (4160 : Word64).toNat = none ∧ gBuf1.fbuf.at? ((4160 : Word64) - 8).toNat = none ∧
      gBuf1.fbuf.at? (4104 : Word64).toNat = none ∧ (gBuf1.fbuf.at? ((4104 : Word64) - 8).toNat).isSome ∧
      (mach gBuf1).tlbLookup 0 0 (lineVa 16) = some ⟨0x1017, 0⟩ ∧ entX (⟨0x1017, 0⟩ : Leaf).e.toNat = true ∧
      (mach gBuf1).l0Line gBuf1 16 = some ((⟨0x1017, 0⟩ : Leaf).key (lineVa 16), 0)) ∧
    ((∀ t rest, nopS.turns = t :: rest → ∀ j, t.ev = some j → isEvent j = false) ∧ (turned nopS).dark none = false ∧
      ∃ g u, FetchesPlain ((turned nopS).tried 4) 4 g 0x0138000000000000 0 u ∧
        decode (u.decCtx g) 0x0138000000000000 0 = .ok (.nop c7)) ∧
    ((∀ t rest, s1S.turns = t :: rest → ∀ j, t.ev = some j → isEvent j = false) ∧ (turned s1S).dark none = false) ∧
    (let s : State := { State.reset with turns := [⟨3, some .lossOfPower⟩] }
     isEvent .lossOfPower = true ∧ (turned s).dark (some .lossOfPower) = false) ∧
    (∃ s : State, s.boot.powered = false ∧ s.turns = []) :=
  ⟨⟨rfl, rfl, rfl, rfl, rfl, rfl, by decide, by decide, by decide⟩,
   ⟨(fun _ _ h => nomatch h), rfl, _, _,
     ⟨rfl, by decide, rfl, rfl, rfl, by decide, rfl, ⟨_, rfl, fun _ => ⟨rfl, rfl⟩, fun h => absurd h (by decide)⟩, by decide⟩,
     by decide⟩,
   ⟨(fun _ _ h => nomatch h), rfl⟩, ⟨rfl, rfl⟩,
   ⟨{ State.reset with boot := { powered := false } }, rfl, rfl⟩⟩

theorem witness_StepsKeepMemory : MemOk nopS ∧ ∃ t, step nopS = .next t :=
  ⟨⟨by decide, by decide⟩, _, rfl⟩

/-! ## Ill-formed terms: one for each check of `Instr.wf`, beside a well-formed neighbour -/

theorem test_wf_guard : (Instr.nop ⟨true, 7⟩).wf = false ∧ (Instr.nop ⟨true, 3⟩).wf = true := by decide
theorem test_wf_predicate : (Instr.nop ⟨false, 8⟩).wf = false ∧ (Instr.nop ⟨false, 7⟩).wf = true := by decide
/-- No scalar form of an approximate sum. -/
theorem test_wf_form : (Instr.iadd c7 ⟨true, true, .i32⟩ (.s 3) (sr 1) (sr 2)).wf = false ∧
    (Instr.iadd c7 ⟨false, true, .i32⟩ (.s 3) (sr 1) (sr 2)).wf = true := by decide
theorem test_wf_range : (Instr.trap c7 128).wf = false ∧ (Instr.trap c7 127).wf = true := by decide
theorem test_wf_position : (Instr.iadd c7 ⟨false, false, .i32⟩ (.s 3) (v 1) (v 2)).wf = false ∧
    (Instr.iadd c7 ⟨false, false, .i32⟩ (.v 192) (v 1) (v 2)).wf = false ∧
    (Instr.iadd c7 ⟨false, false, .i32⟩ (.v 191) (v 1) (v 2)).wf = true := by decide
/-- 02 R29: a pair begins at an even register. -/
theorem test_wf_pair : (Instr.iadd c7 ⟨false, false, .i64⟩ (.v 3) (v 4) (v 6)).wf = false ∧
    (Instr.iadd c7 ⟨false, false, .i64⟩ (.v 2) (v 4) (v 6)).wf = true := by decide
/-- 07 R182: no approximate form of a binary64 source. -/
theorem test_wf_approximate : (Instr.fcvt c7 ⟨true, .ne, .f32⟩ .f64 false (.x 2) ⟨.x 4, false⟩ none).wf = false ∧
    (Instr.fcvt c7 ⟨true, .ne, .f16⟩ .f32 false (.x 2) ⟨.x 4, false⟩ none).wf = true := by decide
/-- 02 R34: an x-register read by a precise sum, and a v-register written by an approximate one. -/
theorem test_wf_type : (Instr.iadd c7 ⟨false, false, .i32⟩ (.v 3) ⟨.x 1, false⟩ (v 2)).wf = false ∧
    (Instr.iadd c7 ⟨true, false, .i32⟩ (.v 3) (v 1) (v 2)).wf = false ∧
    (Instr.iadd c7 ⟨true, false, .i32⟩ (.x 3) ⟨.x 1, false⟩ (v 2)).wf = true := by decide

/-! ## Single instructions -/

/-- What a group's registers show after an instruction. -/
def after (i : Instr) (g : Group) (f : Group → List Nat) : List Nat :=
  match exec i (mach g) with
  | .next t => ((t.group? 4).map f).getD []
  | _ => []
/-- Registers v1, v2, ... of lane 0. -/
def gL (l : List Nat) : Group := gV (l.mapIdx fun i x => (32 * (i + 1), BitVec.ofNat 32 x))
def vi : Ty → IForm := fun t => ⟨false, false, t⟩
/-- v8 in the lanes 0 and 2 (which is inactive), and the PC. -/
def see (h : Group) : List Nat := [h.rdN (.v 8) 1 0, h.rdN (.v 8) 1 2, h.ctl.pc.toNat]

/-- 05 R91. -/
theorem test_iadd_wraps : after (.iadd c7 (vi .i32) (.v 8) (v 1) (v 2)) (gL [0xFFFFFFFF, 3]) see = [2, 0, 4104] := by decide
theorem test_isub_order : after (.isub c7 (vi .i32) (.v 8) (v 1) (v 2)) (gL [5, 7]) see = [0xFFFFFFFE, 0, 4104] := by decide
theorem test_imulh_signs : after (.imulh c7 (vi .i32) (.v 8) (v 1) (v 2)) (gL [0xFFFFFFFF, 2]) see = [0xFFFFFFFF, 0, 4104] := by
  decide
theorem test_imulh_naturals : after (.imulh c7 (vi .n32) (.v 8) (v 1) (v 2)) (gL [0xFFFFFFFF, 2]) see = [1, 0, 4104] := by decide
theorem test_iabs_least : after (.iabs c7 (vi .i32) (.v 8) (v 1)) (gL [0x80000000]) see = [0x80000000, 0, 4104] := by decide
/-- 05 R91: an immediate of an unsigned type is sign-extended too. -/
theorem test_imin_immediate : after (.iminImm c7 (vi .n32) (.v 8) (v 1) (-1)) (gL [7]) see = [7, 0, 4104] := by decide
/-- 05 R92: table 0x30 is A AND NOT B. -/
theorem test_lop_table : after (.lop c7 false .b32 (.v 8) (v 1) (v 2) (v 1) 0x30) (gL [0xF0F0, 0xFF00]) see =
    [0x00F0, 0, 4104] := by decide
/-- 05 R93. -/
theorem test_shl_whole : after (.shlImm c7 (vi .b32) (.v 8) (v 1) 32) (gL [0xFFFFFFFF]) see = [0, 0, 4104] := by decide
theorem test_sar_beyond : after (.sar c7 (vi .i32) (.v 8) (v 1) (v 2)) (gL [0x80000000, 200]) see =
    [0xFFFFFFFF, 0, 4104] := by decide
/-- 05 R94. -/
theorem test_shf_left : after (.shfL c7 false (.v 8) (v 1) (v 2) (v 3)) (gL [0x12345678, 0x9ABCDEF0, 8]) see =
    [0x3456789A, 0, 4104] := by decide
/-- 05 R96, the two examples. -/
theorem test_bfe_positive : after (.bfe c7 (vi .i32) (.v 8) (v 1) (v 2)) (gL [0x0F50, 0x0404]) see = [5, 0, 4104] := by decide
theorem test_bfe_negative : after (.bfe c7 (vi .i32) (.v 8) (v 1) (v 2)) (gL [0x0F50, 0x0408]) see =
    [0xFFFFFFFF, 0, 4104] := by decide
/-- 05 R97, the example. -/
theorem test_prmt_reverses : after (.prmt c7 (.v 8) (v 1) (v 2) (v 3)) (gL [0x11223344, 0, 0x0123]) see =
    [0x44332211, 0, 4104] := by decide
/-- 05 R98: signed and unsigned. -/
theorem test_icmp_signed : after (.icmp c7 (vi .i32) .lt (.p 1) (v 1) (v 2)) (gL [0xFFFFFFFF, 1])
    (fun h => [(AMap.get 0 h.regs.p 1).toNat % 2]) = [1] := by decide
theorem test_icmp_naturals : after (.icmp c7 (vi .n32) .lt (.p 1) (v 1) (v 2)) (gL [0xFFFFFFFF, 1])
    (fun h => [(AMap.get 0 h.regs.p 1).toNat % 2]) = [0] := by decide
/-- 05 R100: from the lowest lane, zero-extended. -/
theorem test_mov_lowest : after (.mov c7 ⟨false, true, .b32⟩ false (.s 5) (v 1)) (gL [0xFFFFFFFE])
    (fun h => [h.rdN (.s 5) 1 0]) = [0xFFFFFFFE] := by decide
/-- 04 R79: the ballot of lanes 0, 1 and 31. -/
theorem test_ballot : after (.voteBallot c7 true (.s 5) (.p 7)) g0 (fun h => [h.rdN (.s 5) 1 0]) = [0x80000003] := by decide
/-- 04 R71, R77: a branch back by three words (02, ShortTarget), and the end of the lanes that a guard names. -/
theorem test_bra_back : after (.bra c7 (-3)) g0 (fun h => [h.ctl.pc.toNat, h.ctl.act.toNat]) = [4072, 0x80000003] := by decide
theorem test_exit_some : after (.exit ⟨false, 0⟩) (gB 3 2 []) (fun h => [h.ctl.act.toNat]) = [1] := by decide
/-- 07 R167: 1 + 2, infinity less infinity with NV, and a product rounded once. -/
theorem test_fadd : after (.fadd c7 ⟨false, .ne, .f32⟩ (.v 8) (v 1) (v 2)) (gL [0x3F800000, 0x40000000]) see =
    [0x40400000, 0, 4104] := by decide +kernel
theorem test_fsub_invalid : after (.fsub c7 ⟨false, .ne, .f32⟩ (.v 8) (v 1) (v 1)) (gL [0x7F800000])
    (fun h => [h.rdN (.v 8) 1 0, h.sys.fpsr.toNat]) = [0x7FC00000, 1] := by decide +kernel
/-- 07 R168: -0 lies below +0; R169: the sign alone; R171: a cast saturates. -/
theorem test_fmin_zeros : after (.fmin c7 false .f32 (.v 8) (v 1) (v 2)) (gL [0, 0x80000000]) see = [0x80000000, 0, 4104] := by
  decide +kernel
theorem test_fmov_negates : after (.fmov c7 false .f32 true true (.v 8) (v 1)) (gL [0x7F800001]) see =
    [0xFF800001, 0, 4104] := by decide +kernel

/-- A nop placed in memory is fetched, decoded and executed by the next step. -/
theorem test_step_nop : (match step nopS with
    | .next t => (t.groups.map fun e => e.2.ctl.pc)
    | _ => []) = [4104] := by decide

end Sys2Proof.Tests
end

section
/-!
SUPPORT. First words of the four formats (02 Tables 2-2 to 2-5): what it is for fields to fit, and that a word of
fields that fit reads, field by field, as them.
-/
namespace Sys2Proof

/-! ## Bits of a field -/

/-- Bits of a field, read from the word. -/
theorem bitsAt_of_field {w lo n f : Nat} (h : bitsAt w lo n = f) (j m : Nat) (hjm : j + m ≤ n) :
    bitsAt w (lo + j) m = bitsAt f j m := by
  subst h
  unfold bitsAt
  obtain ⟨k, rfl⟩ := Nat.exists_eq_add_of_le hjm
  rw [Nat.pow_add 2 lo j, ← Nat.div_div_eq_div_mul, Nat.add_assoc, Nat.pow_add 2 j, Nat.mod_mul_right_div_self,
    Nat.mod_mod_of_dvd _ (Nat.pow_dvd_pow 2 (Nat.le_add_right m k))]

theorem bitAt_of_field {w lo n f : Nat} (h : bitsAt w lo n = f) (j : Nat) (hj : j + 1 ≤ n) :
    bitAt w (lo + j) = bitAt f j := by
  have := bitsAt_of_field h j 1 hj
  unfold bitsAt at this
  unfold bitAt
  rw [Nat.pow_one] at this
  rw [this]

/-! ## Fields within their widths, and a word that reads as them -/

/-- Every field of a body stands within its width. -/
def Body.Fits : Body → Prop
  | .r dst sa sb sc _ _ _ md ext =>
    dst < 2 ^ 8 ∧ sa < 2 ^ 8 ∧ sb < 2 ^ 8 ∧ sc < 2 ^ 8 ∧ md < 2 ^ 8 ∧ ext < 2 ^ 7
  | .i dst sa imm _ md ext6 => dst < 2 ^ 8 ∧ sa < 2 ^ 8 ∧ imm < 2 ^ 19 ∧ md < 2 ^ 8 ∧ ext6 < 2 ^ 6
  | .b off cnd _ md ext => off < 2 ^ 24 ∧ cnd < 2 ^ 8 ∧ md < 2 ^ 8 ∧ ext < 2 ^ 7
  | .m dt base mid _ _ mod6 _ _ _ ext4 =>
    dt < 2 ^ 8 ∧ base < 2 ^ 8 ∧ mid < 2 ^ 19 ∧ mod6 < 2 ^ 6 ∧ ext4 < 2 ^ 4

/-- Every field of a first word stands within its width. -/
structure View.Fits (v : View) : Prop where
  op : v.op < 2 ^ 8
  pg : v.c.pg < 2 ^ 3
  body : v.body.Fits

/-- The head of a word, and its long bit, read as given. -/
structure ReadsHead (w op : Nat) (ax : Bool) (c : Ctl) (long : Bool) : Prop where
  op : fOp w = op
  ax : fAx w = ax
  ctl : fCtl w = c
  long : fLong w = long

/-- A word of format R (02 Table 2-2). -/
structure ReadsR (w op : Nat) (ax : Bool) (c : Ctl) (dst : Nat) (a b e : Src) (md ext : Nat) (long : Bool) : Prop
    extends ReadsHead w op ax c long where
  dst : fDst w = dst
  sa : fSa w = a.o.code
  sb : fSb w = b.o.code
  sc : fSc w = e.o.code
  fa : fFa w = a.bang
  fb : fFb w = b.bang
  fc : fFc w = e.bang
  md : fMod w = md
  ext : fExt w = ext

/-- A word of format I (02 Table 2-3). -/
structure ReadsI (w op : Nat) (ax : Bool) (c : Ctl) (dst sa imm : Nat) (fa : Bool) (md ext6 : Nat) (long : Bool) : Prop
    extends ReadsHead w op ax c long where
  dst : fDst w = dst
  sa : fSa w = sa
  imm : bitsAt w 16 19 = imm
  fa : fFaI w = fa
  md : fMod w = md
  ext6 : fExt6 w = ext6

/-- A word of format B (02 Table 2-4). -/
structure ReadsB (w op : Nat) (ax : Bool) (c : Ctl) (off : Nat) (cnd : Src) (ext : Nat) (long : Bool) : Prop
    extends ReadsHead w op ax c long where
  off : bitsAt w 27 24 = off
  sc : fSc w = cnd.o.code
  fc : bitAt w 18 = cnd.bang
  ext : fExt w = ext

/-- A word of format M (02 Table 2-5). -/
structure ReadsM (w op : Nat) (ax : Bool) (c : Ctl) (dt base mid : Nat) (bs ix : Bool) (mod6 : Nat)
    (fd fb fi : Bool) (ext4 : Nat) (long : Bool) : Prop extends ReadsHead w op ax c long where
  dt : fDst w = dt
  base : fSa w = base
  mid : bitsAt w 16 19 = mid
  bs : fBs w = bs
  ix : fIx w = ix
  mod6 : bitsAt w 8 6 = mod6
  fd : fFd w = fd
  fb : fFbM w = fb
  fi : fFi w = fi
  ext4 : fExt4 w = ext4

theorem fCtl_of_bits {w : Nat} {c : Ctl} (hn : bitAt w 54 = c.neg) (hp : bitsAt w 51 3 = c.pg) : fCtl w = c := by
  unfold fCtl
  rw [hn, hp]

theorem word0_reads_r {op dst md ext : Nat} {ax : Bool} {c : Ctl} {a b e : Src} {w1 : Option Nat}
    (h : View.Fits ⟨op, ax, c, bodyR dst a b e md ext, w1⟩) :
    ReadsR (View.word0 ⟨op, ax, c, bodyR dst a b e md ext, w1⟩) op ax c dst a b e md ext w1.isSome := by
  obtain ⟨hop, hpg, hd, ha, hb, he, hm, hx⟩ := h
  exact {
    op := word0_r_op _ _ _ _ _ _ _ _ _ _ _ _ _ _ hop hpg hd ha hb he hm hx
    ax := word0_r_ax _ _ _ _ _ _ _ _ _ _ _ _ _ _ hpg hd ha hb he hm hx
    ctl := fCtl_of_bits (word0_r_neg _ _ _ _ _ _ _ _ _ _ _ _ _ _ hpg hd ha hb he hm hx)
      (word0_r_pg _ _ _ _ _ _ _ _ _ _ _ _ _ _ hpg hd ha hb he hm hx)
    long := word0_r_long _ _ _ _ _ _ _ _ _ _ _ _ _ _
    dst := word0_r_dst _ _ _ _ _ _ _ _ _ _ _ _ _ _ hd ha hb he hm hx
    sa := word0_r_sa _ _ _ _ _ _ _ _ _ _ _ _ _ _ ha hb he hm hx
    sb := word0_r_sb _ _ _ _ _ _ _ _ _ _ _ _ _ _ hb he hm hx
    sc := word0_r_sc _ _ _ _ _ _ _ _ _ _ _ _ _ _ he hm hx
    fa := word0_r_fa _ _ _ _ _ _ _ _ _ _ _ _ _ _ hm hx
    fb := word0_r_fb _ _ _ _ _ _ _ _ _ _ _ _ _ _ hm hx
    fc := word0_r_fc _ _ _ _ _ _ _ _ _ _ _ _ _ _ hm hx
    md := word0_r_md _ _ _ _ _ _ _ _ _ _ _ _ _ _ hm hx
    ext := word0_r_ext _ _ _ _ _ _ _ _ _ _ _ _ _ _ hx }

theorem word0_reads_i {op dst sa imm md ext6 : Nat} {ax fa : Bool} {c : Ctl} {w1 : Option Nat}
    (h : View.Fits ⟨op, ax, c, .i dst sa imm fa md ext6, w1⟩) :
    ReadsI (View.word0 ⟨op, ax, c, .i dst sa imm fa md ext6, w1⟩) op ax c dst sa imm fa md ext6 w1.isSome := by
  obtain ⟨hop, hpg, hd, ha, hi, hm, hx⟩ := h
  exact {
    op := word0_i_op _ _ _ _ _ _ _ _ _ _ _ hop hpg hd ha hi hm hx
    ax := word0_i_ax _ _ _ _ _ _ _ _ _ _ _ hpg hd ha hi hm hx
    ctl := fCtl_of_bits (word0_i_neg _ _ _ _ _ _ _ _ _ _ _ hpg hd ha hi hm hx)
      (word0_i_pg _ _ _ _ _ _ _ _ _ _ _ hpg hd ha hi hm hx)
    long := word0_i_long _ _ _ _ _ _ _ _ _ _ _
    dst := word0_i_dst _ _ _ _ _ _ _ _ _ _ _ hd ha hi hm hx
    sa := word0_i_sa _ _ _ _ _ _ _ _ _ _ _ ha hi hm hx
    imm := word0_i_imm _ _ _ _ _ _ _ _ _ _ _ hi hm hx
    fa := word0_i_fa _ _ _ _ _ _ _ _ _ _ _
    md := word0_i_md _ _ _ _ _ _ _ _ _ _ _ hm hx
    ext6 := word0_i_ext6 _ _ _ _ _ _ _ _ _ _ _ hx }

theorem word0_reads_b {op off ext : Nat} {ax : Bool} {c : Ctl} {cnd : Src} {w1 : Option Nat}
    (h : View.Fits ⟨op, ax, c, .b off cnd.o.code cnd.bang 0 ext, w1⟩) :
    ReadsB (View.word0 ⟨op, ax, c, .b off cnd.o.code cnd.bang 0 ext, w1⟩) op ax c off cnd ext w1.isSome := by
  obtain ⟨hop, hpg, ho, hc, hm, hx⟩ := h
  exact {
    op := word0_b_op _ _ _ _ _ _ _ _ _ _ hop hpg ho hc hm hx
    ax := word0_b_ax _ _ _ _ _ _ _ _ _ _ hpg ho hc hm hx
    ctl := fCtl_of_bits (word0_b_neg _ _ _ _ _ _ _ _ _ _ hpg ho hc hm hx)
      (word0_b_pg _ _ _ _ _ _ _ _ _ _ hpg ho hc hm hx)
    long := word0_b_long _ _ _ _ _ _ _ _ _ _
    off := word0_b_off _ _ _ _ _ _ _ _ _ _ ho hc hm hx
    sc := word0_b_cnd _ _ _ _ _ _ _ _ _ _ hc hm hx
    fc := word0_b_fc _ _ _ _ _ _ _ _ _ _ hm hx
    ext := word0_b_ext _ _ _ _ _ _ _ _ _ _ hx }

theorem word0_reads_m {op dt base mid mod6 ext4 : Nat} {ax bs ix fd fb fi : Bool} {c : Ctl} {w1 : Option Nat}
    (h : View.Fits ⟨op, ax, c, .m dt base mid bs ix mod6 fd fb fi ext4, w1⟩) :
    ReadsM (View.word0 ⟨op, ax, c, .m dt base mid bs ix mod6 fd fb fi ext4, w1⟩)
      op ax c dt base mid bs ix mod6 fd fb fi ext4 w1.isSome := by
  obtain ⟨hop, hpg, hd, ha, hi, hm, hx⟩ := h
  exact {
    op := word0_m_op _ _ _ _ _ _ _ _ _ _ _ _ _ _ _ hop hpg hd ha hi hm hx
    ax := word0_m_ax _ _ _ _ _ _ _ _ _ _ _ _ _ _ _ hpg hd ha hi hm hx
    ctl := fCtl_of_bits (word0_m_neg _ _ _ _ _ _ _ _ _ _ _ _ _ _ _ hpg hd ha hi hm hx)
      (word0_m_pg _ _ _ _ _ _ _ _ _ _ _ _ _ _ _ hpg hd ha hi hm hx)
    long := word0_m_long _ _ _ _ _ _ _ _ _ _ _ _ _ _ _
    dt := word0_m_dt _ _ _ _ _ _ _ _ _ _ _ _ _ _ _ hd ha hi hm hx
    base := word0_m_base _ _ _ _ _ _ _ _ _ _ _ _ _ _ _ ha hi hm hx
    mid := word0_m_mid _ _ _ _ _ _ _ _ _ _ _ _ _ _ _ hi hm hx
    bs := word0_m_bs _ _ _ _ _ _ _ _ _ _ _ _ _ _ _ hm hx
    ix := word0_m_ix _ _ _ _ _ _ _ _ _ _ _ _ _ _ _ hm hx
    mod6 := word0_m_mod6 _ _ _ _ _ _ _ _ _ _ _ _ _ _ _ hm hx
    fd := word0_m_fd _ _ _ _ _ _ _ _ _ _ _ _ _ _ _ hx
    fb := word0_m_fb _ _ _ _ _ _ _ _ _ _ _ _ _ _ _ hx
    fi := word0_m_fi _ _ _ _ _ _ _ _ _ _ _ _ _ _ _ hx
    ext4 := word0_m_ext4 _ _ _ _ _ _ _ _ _ _ _ _ _ _ _ hx }

/-- L says whether there is a second word. -/
theorem word0_long (v : View) : bitAt v.word0 0 = v.w1.isSome := by
  obtain ⟨op, ax, c, body, w1⟩ := v
  cases body with
  | r => exact word0_r_long _ _ _ _ _ _ _ _ _ _ _ _ _ _
  | i => exact word0_i_long _ _ _ _ _ _ _ _ _ _ _
  | b => exact word0_b_long _ _ _ _ _ _ _ _ _ _
  | m => exact word0_m_long _ _ _ _ _ _ _ _ _ _ _ _ _ _ _

/-- The fields of a body stay below the head of the word, and leave bit 0 free. -/
theorem Body.pack_lt {b : Body} (h : b.Fits) : b.pack + 1 < 2 ^ 51 := by
  cases b with
  | r dst sa sb sc fa fb fc md ext =>
    obtain ⟨hd, ha, hb, he, hm, hx⟩ := h
    have := bit_le fa; have := bit_le fb; have := bit_le fc
    simp only [Body.pack]
    omega
  | i dst sa imm fa md ext6 =>
    obtain ⟨hd, ha, hi, hm, hx⟩ := h
    have := bit_le fa
    simp only [Body.pack]
    omega
  | b off cnd fc md ext =>
    obtain ⟨ho, hc, hm, hx⟩ := h
    have := bit_le fc
    simp only [Body.pack]
    omega
  | m dt base mid bs ix mod6 fd fb fi ext4 =>
    obtain ⟨hd, ha, hi, hm, hx⟩ := h
    have := bit_le bs; have := bit_le ix; have := bit_le fd; have := bit_le fb; have := bit_le fi
    simp only [Body.pack]
    omega

/-- A first word has 64 bits. -/
theorem word0_lt {v : View} (h : v.Fits) : v.word0 < 2 ^ 64 := by
  have ho := h.op
  have hp := h.pg
  have hb := Body.pack_lt h.body
  have := bit_le v.ax; have := bit_le v.c.neg; have := bit_le v.w1.isSome
  unfold View.word0
  omega

end Sys2Proof
end

section
/-!
SUPPORT. Codes read back: enumerated fields, the bits of MOD, and operands in their positions (02 R28, R31).
-/
namespace Sys2Proof

/-! ## Codes of the enumerated fields -/

@[simp] theorem Ty.ofCode_code (t : Ty) : Ty.ofCode t.code = some t := by cases t <;> rfl
@[simp] theorem Rm.ofCode_code (m : Rm) : Rm.ofCode m.code = m := by cases m <;> rfl
@[simp] theorem BrCc.ofCode_code (m : BrCc) : BrCc.ofCode m.code = some m := by cases m <;> rfl
@[simp] theorem ICc.ofCode_code (m : ICc) : ICc.ofCode m.code = some m := by cases m <;> rfl
@[simp] theorem FCc.ofCode_code (m : FCc) : FCc.ofCode m.code = some m := by cases m <;> rfl
@[simp] theorem IdSel.ofCode_code (m : IdSel) : IdSel.ofCode m.code = some m := by cases m <;> rfl
@[simp] theorem XMode.ofCode_code (m : XMode) : XMode.ofCode m.code = some m := by cases m <;> rfl
@[simp] theorem Wd.ofCode_code (m : Wd) : Wd.ofCode m.code = some m := by cases m <;> rfl
@[simp] theorem Scope.ofCode_code (m : Scope) : Scope.ofCode m.code = some m := by cases m <;> rfl
@[simp] theorem AOp.ofCode_code (m : AOp) : AOp.ofCode m.code = some m := by cases m <;> rfl

theorem Ty.code_lt (t : Ty) : t.code < 14 := by cases t <;> decide
theorem Rm.code_lt (m : Rm) : m.code < 4 := by cases m <;> decide
theorem BrCc.code_lt (m : BrCc) : m.code < 4 := by cases m <;> decide
theorem ICc.code_lt (m : ICc) : m.code < 6 := by cases m <;> decide
theorem FCc.code_lt (m : FCc) : m.code < 8 := by cases m <;> decide
theorem IdSel.code_lt (m : IdSel) : m.code < 13 := by cases m <;> decide
theorem XMode.code_lt (m : XMode) : m.code < 4 := by cases m <;> decide
theorem Wd.code_lt (m : Wd) : m.code < 5 := by cases m <;> decide
theorem Scope.code_lt (m : Scope) : m.code < 5 := by cases m <;> decide
theorem AOp.code_lt (m : AOp) : m.code < 9 := by cases m <;> decide

theorem bit_beq_one (b : Bool) : (bit b == 1) = b := by cases b <;> rfl
@[simp] theorem bitAt_bit (b : Bool) : bitAt (bit b) 0 = b := by cases b <;> rfl

/-! ## Bits of MOD -/

section Mod
variable {w md : Nat} (h : fMod w = md)
include h

theorem fI_of_mod : fI w = bitAt md 7 := bitAt_of_field h 7 (by decide)
theorem fQ_of_mod : fQ w = bitAt md 6 := bitAt_of_field h 6 (by decide)
theorem fRm_of_mod : fRm w = Rm.ofCode (bitsAt md 4 2) := congrArg Rm.ofCode (bitsAt_of_field h 4 2 (by decide))
theorem fTy_of_mod : fTy w = Ty.ofCode (bitsAt md 0 4) := congrArg Ty.ofCode (bitsAt_of_field h 0 4 (by decide))
theorem fScope_of_mod : fScope w = Scope.ofCode (bitsAt md 0 3) :=
  congrArg Scope.ofCode (bitsAt_of_field h 0 3 (by decide))
theorem fScopeA_of_mod : fScopeA w = Scope.ofCode (bitsAt md 4 3) :=
  congrArg Scope.ofCode (bitsAt_of_field h 4 3 (by decide))
theorem bit8_of_mod : bitAt w 8 = bitAt md 0 := bitAt_of_field h 0 (by decide)
theorem bit11_of_mod : bitAt w 11 = bitAt md 3 := bitAt_of_field h 3 (by decide)
theorem bit12_of_mod : bitAt w 12 = bitAt md 4 := bitAt_of_field h 4 (by decide)
theorem bit13_of_mod : bitAt w 13 = bitAt md 5 := bitAt_of_field h 5 (by decide)
theorem bit14_of_mod : bitAt w 14 = bitAt md 6 := bitAt_of_field h 6 (by decide)
theorem bit15_of_mod : bitAt w 15 = bitAt md 7 := bitAt_of_field h 7 (by decide)
theorem bits14_of_mod : bitsAt w 14 2 = bitsAt md 6 2 := bitsAt_of_field h 6 2 (by decide)
end Mod

theorem modI_lt (imm : Bool) (f : IForm) : modI imm f < 2 ^ 8 := by
  have := f.ty.code_lt; have := bit_le imm; have := bit_le f.scal
  unfold modI
  omega
theorem modF_lt (imm : Bool) (md : Rm) (t : Ty) : modF imm md t < 2 ^ 8 := by
  have := t.code_lt; have := md.code_lt; have := bit_le imm
  unfold modF
  omega
theorem modA_lt (nr : Bool) (sc : Scope) (t : Ty) : modA nr sc t < 2 ^ 8 := by
  have := t.code_lt; have := sc.code_lt; have := bit_le nr
  unfold modA
  omega

theorem modI_ty (imm : Bool) (f : IForm) : bitsAt (modI imm f) 0 4 = f.ty.code :=
  bitsAt_digit _ (bit imm * 8 + bit f.scal * 4) _ 0 0 4 (Nat.lt_trans f.ty.code_lt (by decide)) (by decide)
    (by unfold modI; omega)
theorem modI_scal (imm : Bool) (f : IForm) : bitAt (modI imm f) 6 = f.scal :=
  bitAt_digit _ (bit imm) f.ty.code 6 _ (Nat.lt_trans f.ty.code_lt (by decide)) (by unfold modI; omega)
theorem modI_imm (imm : Bool) (f : IForm) : bitAt (modI imm f) 7 = imm := by
  have := f.ty.code_lt; have := bit_le f.scal
  exact bitAt_digit _ 0 (bit f.scal * 64 + f.ty.code) 7 _ (by omega) (by unfold modI; omega)
theorem modF_ty (imm : Bool) (md : Rm) (t : Ty) : bitsAt (modF imm md t) 0 4 = t.code :=
  bitsAt_digit _ (bit imm * 8 + md.code) _ 0 0 4 (Nat.lt_trans t.code_lt (by decide)) (by decide)
    (by unfold modF; omega)
theorem modF_rm (imm : Bool) (md : Rm) (t : Ty) : bitsAt (modF imm md t) 4 2 = md.code :=
  bitsAt_digit _ (bit imm * 2) _ t.code 4 2 md.code_lt (Nat.lt_trans t.code_lt (by decide)) (by unfold modF; omega)
theorem modF_imm (imm : Bool) (md : Rm) (t : Ty) : bitAt (modF imm md t) 7 = imm := by
  have := t.code_lt; have := md.code_lt
  exact bitAt_digit _ 0 (md.code * 16 + t.code) 7 _ (by omega) (by unfold modF; omega)
theorem modA_ty (nr : Bool) (sc : Scope) (t : Ty) : bitsAt (modA nr sc t) 0 4 = t.code :=
  bitsAt_digit _ (bit nr * 8 + sc.code) _ 0 0 4 (Nat.lt_trans t.code_lt (by decide)) (by decide)
    (by unfold modA; omega)
theorem modA_scope (nr : Bool) (sc : Scope) (t : Ty) : bitsAt (modA nr sc t) 4 3 = sc.code :=
  bitsAt_digit _ (bit nr) _ t.code 4 3 (Nat.lt_trans sc.code_lt (by decide)) (Nat.lt_trans t.code_lt (by decide))
    (by unfold modA; omega)
theorem modA_nr (nr : Bool) (sc : Scope) (t : Ty) : bitAt (modA nr sc t) 7 = nr := by
  have := t.code_lt; have := sc.code_lt
  exact bitAt_digit _ 0 (sc.code * 16 + t.code) 7 _ (by omega) (by unfold modA; omega)

/-- The form bits of the integer class, its types, and which format. -/
theorem fIForm_modI {w : Nat} {ax imm : Bool} {f : IForm} (ha : fAx w = ax) (hm : fMod w = modI imm f) :
    fIForm w = some ⟨ax, f.scal, f.ty⟩ := by
  rw [fIForm, fTy_of_mod hm, modI_ty, Ty.ofCode_code, ha, fQ_of_mod hm, modI_scal]; rfl
theorem fTy_modI {w : Nat} {imm : Bool} {f : IForm} (hm : fMod w = modI imm f) : fTy w = some f.ty := by
  rw [fTy_of_mod hm, modI_ty, Ty.ofCode_code]
theorem fQ_modI {w : Nat} {imm : Bool} {f : IForm} (hm : fMod w = modI imm f) : fQ w = f.scal := by
  rw [fQ_of_mod hm, modI_scal]
theorem fI_modI {w : Nat} {imm : Bool} {f : IForm} (hm : fMod w = modI imm f) : fI w = imm := by
  rw [fI_of_mod hm, modI_imm]
/-- The form bits of the floating-point class, its types, and which format. -/
theorem fFForm_modF {w : Nat} {ax imm : Bool} {md : Rm} {t : Ty} (ha : fAx w = ax) (hm : fMod w = modF imm md t) :
    fFForm w = some ⟨ax, md, t⟩ := by
  rw [fFForm, fTy_of_mod hm, modF_ty, Ty.ofCode_code, ha, fRm_of_mod hm, modF_rm, Rm.ofCode_code]; rfl
theorem fTy_modF {w : Nat} {imm : Bool} {md : Rm} {t : Ty} (hm : fMod w = modF imm md t) : fTy w = some t := by
  rw [fTy_of_mod hm, modF_ty, Ty.ofCode_code]
theorem fRm_modF {w : Nat} {imm : Bool} {md : Rm} {t : Ty} (hm : fMod w = modF imm md t) : fRm w = md := by
  rw [fRm_of_mod hm, modF_rm, Rm.ofCode_code]
theorem fI_modF {w : Nat} {imm : Bool} {md : Rm} {t : Ty} (hm : fMod w = modF imm md t) : fI w = imm := by
  rw [fI_of_mod hm, modF_imm]
/-- Type, scope and NR of the class 0xA0. -/
theorem fTy_modA {w : Nat} {nr : Bool} {sc : Scope} {t : Ty} (hm : fMod w = modA nr sc t) : fTy w = some t := by
  rw [fTy_of_mod hm, modA_ty, Ty.ofCode_code]
theorem fScopeA_modA {w : Nat} {nr : Bool} {sc : Scope} {t : Ty} (hm : fMod w = modA nr sc t) :
    fScopeA w = some sc := by rw [fScopeA_of_mod hm, modA_scope, Scope.ofCode_code]
theorem fI_modA {w : Nat} {nr : Bool} {sc : Scope} {t : Ty} (hm : fMod w = modA nr sc t) : fI w = nr := by
  rw [fI_of_mod hm, modA_nr]

/-! ## Specifiers: an operand of the kind its position names is read back from its code -/

variable {o : Opd} {k : Nat} {x : XUse} {f : IForm}

theorem code_lt {n : Need} (h : n.posOk = true) : n.o.code < 2 ^ 8 := by
  obtain ⟨o, pos, len, x⟩ := n
  cases pos <;> cases o <;> simp [Need.posOk] at h <;> simp only [Opd.code] <;> omega

/-- The reader of the codes of a position (02 Table 2-6). -/
def Pos.spec : Pos → Nat → Option Opd
  | .vec, n => some (vecSpec n)
  | .scal, n => scalSpec n
  | .pred, n => predSpec n
  | .acc, n => accSpec n

theorem Pos.spec_code {n : Need} (h : n.posOk = true) : n.pos.spec n.o.code = some n.o := by
  obtain ⟨o, pos, len, x⟩ := n
  cases pos <;> cases o <;> simp [Need.posOk] at h <;>
    simp [Pos.spec, Opd.code, vecSpec, scalSpec, predSpec, accSpec, h]

@[simp] theorem nI_o : (nI f o k x).o = o := by
  unfold nI
  split <;> rfl

theorem formCode_lt (h : (nI f o k x).posOk = true) : o.code < 2 ^ 8 := by
  simpa using code_lt h

theorem vecSpec_code (h : (nV o k x).posOk = true) : vecSpec o.code = o := Option.some.inj (Pos.spec_code h)
theorem scalSpec_code (h : (nBlk o k).posOk = true) : scalSpec o.code = some o := Pos.spec_code h
theorem predSpec_code (h : (nP o).posOk = true) : predSpec o.code = some o := Pos.spec_code h
theorem accSpec_code (h : (nAcc o).posOk = true) : accSpec o.code = some o := Pos.spec_code h

theorem formSpec_code (h : (nI f o k x).posOk = true) : formSpec f.scal o.code = some o := by
  have hs := Pos.spec_code h
  cases hf : f.scal <;> simpa [nI, hf, Pos.spec, formSpec] using hs

/-! ## Reading operands of format R -/

namespace ReadsR
variable {w op dst md ext : Nat} {ax long : Bool} {c : Ctl} {d : Opd} {a b e : Src}

theorem vD (h : ReadsR w op ax c d.code a b e md ext long) (hd : (nV d k x).posOk = true) : vD w = d := by
  rw [Sys2Proof.vD, h.dst, vecSpec_code hd]
theorem sD (h : ReadsR w op ax c d.code a b e md ext long) (hd : (nS d).posOk = true) : sD w = some d := by
  rw [Sys2Proof.sD, h.dst, scalSpec_code hd]
theorem pD (h : ReadsR w op ax c d.code a b e md ext long) (hd : (nP d).posOk = true) : pD w = some d := by
  rw [Sys2Proof.pD, h.dst, predSpec_code hd]
theorem accD (h : ReadsR w op ax c d.code a b e md ext long) (hd : (nAcc d).posOk = true) :
    accSpec (fDst w) = some d := by rw [h.dst, accSpec_code hd]
theorem formD (h : ReadsR w op ax c d.code a b e md ext long) (hd : (nI f d k x).posOk = true) :
    formSpec f.scal (fDst w) = some d := by rw [h.dst, formSpec_code hd]

theorem srcA (h : ReadsR w op ax c dst a b e md ext long) : srcA w a.o = a := by rw [Sys2Proof.srcA, h.fa]
theorem srcB (h : ReadsR w op ax c dst a b e md ext long) : srcB w b.o = b := by rw [Sys2Proof.srcB, h.fb]
theorem srcC (h : ReadsR w op ax c dst a b e md ext long) : srcC w e.o = e := by rw [Sys2Proof.srcC, h.fc]

theorem vA (h : ReadsR w op ax c dst a b e md ext long) (ha : (nV a.o k x).posOk = true) : vA w = a := by
  rw [Sys2Proof.vA, h.sa, vecSpec_code ha, h.srcA]
theorem vB (h : ReadsR w op ax c dst a b e md ext long) (hb : (nV b.o k x).posOk = true) : vB w = b := by
  rw [Sys2Proof.vB, h.sb, vecSpec_code hb, h.srcB]
theorem vC (h : ReadsR w op ax c dst a b e md ext long) (he : (nV e.o k x).posOk = true) : vC w = e := by
  rw [Sys2Proof.vC, h.sc, vecSpec_code he, h.srcC]

theorem sA (h : ReadsR w op ax c dst a b e md ext long) (ha : (nBlk a.o k).posOk = true) : sA w = some a := by
  rw [Sys2Proof.sA, h.sa, scalSpec_code ha, Option.map_some, h.srcA]
theorem sB (h : ReadsR w op ax c dst a b e md ext long) (hb : (nBlk b.o k).posOk = true) : sB w = some b := by
  rw [Sys2Proof.sB, h.sb, scalSpec_code hb, Option.map_some, h.srcB]
theorem sC (h : ReadsR w op ax c dst a b e md ext long) (he : (nBlk e.o k).posOk = true) : sC w = some e := by
  rw [Sys2Proof.sC, h.sc, scalSpec_code he, Option.map_some, h.srcC]

theorem formA (h : ReadsR w op ax c dst a b e md ext long) (ha : (nI f a.o k x).posOk = true) :
    formSpec f.scal (fSa w) = some a.o := by rw [h.sa, formSpec_code ha]
theorem formB (h : ReadsR w op ax c dst a b e md ext long) (hb : (nI f b.o k x).posOk = true) :
    formSpec f.scal (fSb w) = some b.o := by rw [h.sb, formSpec_code hb]
theorem formC (h : ReadsR w op ax c dst a b e md ext long) (he : (nI f e.o k x).posOk = true) :
    formSpec f.scal (fSc w) = some e.o := by rw [h.sc, formSpec_code he]

theorem predA (h : ReadsR w op ax c dst d.src b e md ext long) (hd : (nP d).posOk = true) :
    predSpec (fSa w) = some d := (congrArg predSpec h.sa).trans (predSpec_code hd)
theorem predB (h : ReadsR w op ax c dst a d.src e md ext long) (hd : (nP d).posOk = true) :
    predSpec (fSb w) = some d := (congrArg predSpec h.sb).trans (predSpec_code hd)
theorem predC (h : ReadsR w op ax c dst a b d.src md ext long) (hd : (nP d).posOk = true) :
    predSpec (fSc w) = some d := (congrArg predSpec h.sc).trans (predSpec_code hd)
end ReadsR

end Sys2Proof
end

section
/-!
SUPPORT. Reading an instruction back from its word: what it says, what it takes in each format, and the memory
operand of format M (02 R24, R25).
-/
namespace Sys2Proof

/-! ## Classes -/

/-- The classes of instructions, by the chapter that has their encoding table (02 Table 2-9). -/
inductive Cls where
  | control | integer | memory | float | approx | visibility | sync | task | quill | heddle | system | trace | event

/-- The class of an instruction; an event row has no word and is in none. -/
def Instr.cls : Instr → Cls
  | .nop .. | .bra .. | .braLong .. | .bru .. | .bruLong .. | .brx .. | .call .. | .callLong .. | .callx ..
  | .ret .. | .join .. | .exit .. | .plog .. | .voteAll .. | .voteAny .. | .voteLeader .. | .voteBallot ..
  | .ipf .. | .iinv .. | .runaOn .. | .runaOff .. => .control
  | .iadd .. | .iaddImm .. | .isub .. | .isubImm .. | .imul .. | .imulImm .. | .imulh .. | .imad .. | .iabs ..
  | .imin .. | .iminImm .. | .imax .. | .imaxImm .. | .lop .. | .shl .. | .shlImm .. | .shr .. | .shrImm ..
  | .sar .. | .sarImm .. | .shfL .. | .shfR .. | .popc .. | .clz .. | .brev .. | .bfe .. | .bfi .. | .prmt ..
  | .icmp .. | .icmpImm .. | .isel .. | .mov .. | .movi .. | .moviLong .. | .ident .. | .xlane .. | .lea ..
  | .cvti .. => .integer
  | .ld .. | .ldLong .. | .st .. | .stLong .. | .lds .. | .sts .. | .ldr .. | .str .. | .pf .. | .pfLong ..
  | .stmap .. | .stunmap .. | .femEmpty .. | .femFull .. | .femAx .. | .femPr .. | .ringq .. | .cwbL3 ..
  | .cwbMem .. | .cinvCore .. | .cinvDie .. | .cinvDev .. | .tlbq .. => .memory
  | .fadd .. | .faddImm .. | .fsub .. | .fmul .. | .fmulImm .. | .fma .. | .fdot2 .. | .fscale .. | .fmin ..
  | .fminImm .. | .fmax .. | .fmaxImm .. | .fmov .. | .fcmp .. | .fcmpImm .. | .fcvt .. | .frnd .. | .frcps ..
  | .frsqs .. | .fsqrt .. | .fdiv .. | .fex2 .. | .flg2 .. | .fclass .. | .fxtrExp .. | .fxtrMan .. | .xacc ..
  | .xrnd .. => .float
  | .endorse .. | .rail .. | .railq .. | .tolq .. => .approx
  | .cmt .. | .abt .. | .fence .. | .lda .. | .ldaLong .. | .bufq .. | .rlq .. => .visibility
  | .atom .. | .atomf .. | .xadd .. | .bari .. | .barv .. | .barw .. | .tkt .. | .tktw .. | .tkts .. | .park ..
  | .wake .. => .sync
  | .spawn .. | .binf .. | .tpostRec .. | .tpostBin .. | .tdec .. | .tq .. | .lnch .. | .yield .. => .task
  | .qcp .. | .qcpSt .. | .qcpm .. | .qmc .. | .qcol .. | .qput .. | .qget .. | .qstatEng .. | .qstatCmd .. => .quill
  | .hmm .. | .hmmf .. | .hclr .. | .hacl .. | .hdrn .. | .bpack .. | .bunpk .. | .fmtqSlot .. | .fmtqAcc .. => .heddle
  | .trap .. | .brkp .. | .rtt .. | .rttSkip .. | .srd .. | .swr .. | .sleep .. | .spt .. => .system
  | .tmark .. | .msmp .. | .rmark .. | .pcnt .. | .vclk .. => .trace
  | _ => .event

/-! ## Reading an instruction back -/

/-- Every register of a list stands in a position of its kind. -/
def AllPlaced : List Need → Prop
  | [] => True
  | [n] => n.posOk = true
  | n :: l => n.posOk = true ∧ AllPlaced l

theorem allPlaced_cons {n : Need} {l : List Need} : AllPlaced (n :: l) ↔ n.posOk = true ∧ AllPlaced l := by
  cases l with
  | nil => exact (and_iff_left trivial).symm
  | cons => exact Iff.rfl

theorem AllPlaced.cons {n : Need} {l : List Need} (h : AllPlaced (n :: l)) : n.posOk = true ∧ AllPlaced l :=
  allPlaced_cons.mp h

theorem allPlaced_iff {l : List Need} : AllPlaced l ↔ ∀ n ∈ l, n.posOk = true := by
  induction l with
  | nil => simp [AllPlaced]
  | cons n l ih => rw [allPlaced_cons, ih, List.forall_mem_cons]

/-- The registers of an instruction stand in positions of their kinds. -/
def Placed (i : Instr) : Prop := AllPlaced (needs i)

/-- Under a guard that exists, an instruction's fields fit, and its words are read as that instruction. -/
def ReadBack (i : Instr) : Prop :=
  ∀ v, view i = some v → v.c.pg < 2 ^ 3 → v.Fits ∧ parse v.word0 (v.w1.getD 0) = some i

theorem readBack_r {i : Instr} {op dst md ext : Nat} {ax : Bool} {c : Ctl} {a b e : Src}
    (hv : view i = some ⟨op, ax, c, bodyR dst a b e md ext, none⟩)
    (hp : ∀ w, ReadsR w op ax c dst a b e md ext false → parse w 0 = some i)
    (hd : dst < 2 ^ 8 := by decide) (ha : a.o.code < 2 ^ 8 := by decide) (hb : b.o.code < 2 ^ 8 := by decide)
    (he : e.o.code < 2 ^ 8 := by decide) (hm : md < 2 ^ 8 := by decide) (hx : ext < 2 ^ 7 := by decide)
    (ho : op < 2 ^ 8 := by decide) : ReadBack i := by
  intro v h hpg
  rw [hv] at h
  obtain rfl := Option.some.inj h
  have hf : View.Fits ⟨op, ax, c, bodyR dst a b e md ext, none⟩ := ⟨ho, hpg, hd, ha, hb, he, hm, hx⟩
  exact ⟨hf, hp _ (word0_reads_r hf)⟩

theorem readBack_i {i : Instr} {op dst sa imm md ext6 : Nat} {ax fa : Bool} {c : Ctl} {w1 : Option Nat}
    (hv : view i = some ⟨op, ax, c, .i dst sa imm fa md ext6, w1⟩)
    (hp : ∀ w, ReadsI w op ax c dst sa imm fa md ext6 w1.isSome → parse w (w1.getD 0) = some i)
    (hd : dst < 2 ^ 8 := by decide) (ha : sa < 2 ^ 8 := by decide) (hi : imm < 2 ^ 19 := by decide)
    (hm : md < 2 ^ 8 := by decide) (hx : ext6 < 2 ^ 6 := by decide) (ho : op < 2 ^ 8 := by decide) :
    ReadBack i := by
  intro v h hpg
  rw [hv] at h
  obtain rfl := Option.some.inj h
  have hf : View.Fits ⟨op, ax, c, .i dst sa imm fa md ext6, w1⟩ := ⟨ho, hpg, hd, ha, hi, hm, hx⟩
  exact ⟨hf, hp _ (word0_reads_i hf)⟩

theorem readBack_b {i : Instr} {op ext : Nat} {off : BitVec 24} {c : Ctl} {cnd : Src} {w1 : Option Nat}
    (hv : view i = vwBr op c cnd ext off w1)
    (hp : ∀ w, ReadsB w op false c off.toNat cnd ext w1.isSome → parse w (w1.getD 0) = some i)
    (hc : cnd.o.code < 2 ^ 8 := by decide) (hx : ext < 2 ^ 7 := by decide) (ho : op < 2 ^ 8 := by decide) :
    ReadBack i := by
  intro v h hpg
  rw [hv] at h
  obtain rfl := Option.some.inj h
  have hf : View.Fits ⟨op, false, c, .b off.toNat cnd.o.code cnd.bang 0 ext, w1⟩ :=
    ⟨ho, hpg, off.isLt, hc, by decide, hx⟩
  exact ⟨hf, hp _ (word0_reads_b hf)⟩

/-! ## Memory operands (02 R25) -/

/-- The code of POL: 0xFF where there is no policy operand. -/
def IdxOp.polCode (i : IdxOp) : Nat := match i.pol with | none => 255 | some p => p.code

/-- What the position and range checks leave of an index. -/
structure IdxOp.Ok (i : IdxOp) : Prop where
  reg : (nV i.i 1 .no).posOk = true
  scl : i.scl < 5
  pol : ∀ p, i.pol = some p → (nS p).posOk = true

/-- What the position and range checks leave of a memory operand. -/
structure MemOp.Ok (m : MemOp) : Prop where
  scalar : m.bs = true → (nS m.base.o).posOk = true
  vector : m.bs = false → (nV m.base.o 2 .no).posOk = true
  idx : ∀ i, m.idx = some i → i.Ok ∧ m.off = 0

theorem okMem_idx {m : MemOp} {pol long : Bool} {i : IdxOp} (h : okMem m pol long = true) (hi : m.idx = some i) :
    i.scl < 5 ∧ (pol = true ∨ i.pol = none) ∧ m.off = 0 := by
  unfold okMem at h
  simp only [hi, Bool.and_eq_true, decide_eq_true_eq, Bool.or_eq_true, Option.isNone_iff_eq_none, beq_iff_eq] at h
  obtain ⟨⟨hs, hp⟩, ho⟩ := h
  exact ⟨by omega, hp, ho⟩

theorem MemOp.ok_of {m : MemOp} {pol long : Bool} (hn : AllPlaced (nMem m))
    (ho : okMem m pol long = true) : m.Ok := by
  rw [allPlaced_iff] at hn
  constructor
  · intro hb
    exact hn _ (by simp [nMem, hb])
  · intro hb
    exact hn _ (by simp [nMem, hb])
  · intro i hi
    obtain ⟨hs, -, hoff⟩ := okMem_idx ho hi
    refine ⟨⟨hn _ (by simp [nMem, hi]), hs, fun p hp => hn _ (by simp [nMem, hi, hp])⟩, hoff⟩

theorem MemOp.Ok.base_lt {m : MemOp} (h : m.Ok) : m.base.o.code < 2 ^ 8 := by
  cases hb : m.bs with
  | false => exact code_lt (h.vector hb)
  | true => exact code_lt (h.scalar hb)

theorem IdxOp.Ok.polCode_lt {i : IdxOp} (h : i.Ok) : i.polCode < 2 ^ 8 := by
  unfold IdxOp.polCode
  cases hp : i.pol with
  | none => decide
  | some p => exact code_lt (h.pol p hp)

theorem MemOp.mid_of_idx {m : MemOp} {i : IdxOp} (hi : m.idx = some i) :
    m.mid = i.i.code * 2 ^ 11 + i.scl * 2 ^ 8 + i.polCode := by
  unfold MemOp.mid
  rw [hi]; rfl

theorem MemOp.mid_of_none {m : MemOp} (hi : m.idx = none) : m.mid = m.off.toNat := by
  unfold MemOp.mid
  rw [hi]

theorem MemOp.Ok.mid_lt {m : MemOp} (h : m.Ok) : m.mid < 2 ^ 19 := by
  cases hi : m.idx with
  | none => rw [MemOp.mid_of_none hi]; exact m.off.isLt
  | some i =>
    obtain ⟨hi', -⟩ := h.idx i hi
    have := code_lt hi'.reg
    have := hi'.scl
    have := hi'.polCode_lt
    rw [MemOp.mid_of_idx hi]
    simp only [nV] at *
    omega

/-- A scalar code is below 0xFF, which stands for no policy operand. -/
theorem scalCode_lt {o : Opd} (h : (nS o).posOk = true) : o.code < 64 := by
  cases o <;> simp [nS, Need.posOk] at h
  case s n => exact h

theorem parseMem_of_reads {w op dt q ext4 : Nat} {ax fd long : Bool} {c : Ctl} {m : MemOp}
    (h : ReadsM w op ax c dt m.base.o.code m.mid m.bs m.idx.isSome q fd m.base.bang m.fi ext4 long)
    (hm : m.Ok) : parseMem w = some m := by
  obtain ⟨bs, base, off, idx⟩ := m
  have hs (hb : bs = true) : scalSpec (fSa w) = some base.o := h.base ▸ scalSpec_code (hm.scalar hb)
  have hv (hb : bs = false) : vecSpec (fSa w) = base.o := h.base ▸ vecSpec_code (hm.vector hb)
  cases idx with
  | none =>
    have hi : fImm w = off := by rw [fImm, h.mid]; simp [MemOp.mid]
    cases bs with
    | true => simp [parseMem, hs, h.ix, h.bs, h.fb, hi]
    | false => simp [parseMem, hv, h.ix, h.bs, h.fb, hi]
  | some i =>
    obtain ⟨hi, hoff⟩ := hm.idx i rfl
    obtain rfl : off = 0 := hoff
    have hmid := h.mid.trans (MemOp.mid_of_idx rfl)
    have hlt := hi.polCode_lt
    have hscl := hi.scl
    have hsb : vecSpec (fSb w) = i.i := by
      rw [fSb, bitsAt_of_field hmid 11 8 (by decide), bitsAt_digit _ 0 i.i.code (i.scl * 2 ^ 8 + i.polCode) 11 8
        (code_lt hi.reg) (by omega) (by omega), vecSpec_code hi.reg]
    have hsc : bitsAt w 24 3 = i.scl := by
      rw [bitsAt_of_field hmid 8 3 (by decide)]
      exact bitsAt_digit _ i.i.code _ i.polCode 8 3 (by omega) (by omega) (by omega)
    have hp : bitsAt w 16 8 = i.polCode := by
      rw [bitsAt_of_field hmid 0 8 (by decide)]
      exact bitsAt_digit _ (i.i.code * 8 + i.scl) _ 0 0 8 hlt (by decide) (by omega)
    have hfi : fFi w = i.fi := h.fi
    obtain ⟨r, scl, pol, fi⟩ := i
    cases pol with
    | none =>
      have h255 : bitsAt w 16 8 = 255 := hp
      cases bs with
      | true => simp [parseMem, hs, h.ix, h.bs, h.fb, hsb, hsc, h255, hfi]
      | false => simp [parseMem, hv, h.ix, h.bs, h.fb, hsb, hsc, h255, hfi]
    | some p =>
      have hcode : bitsAt w 16 8 = p.code := hp
      have hpos := hi.pol p rfl
      have hne : p.code ≠ 255 := by have := scalCode_lt hpos; omega
      cases bs with
      | true => simp [parseMem, hs, h.ix, h.bs, h.fb, hsb, hsc, hcode, hne, scalSpec_code hpos, hfi]
      | false => simp [parseMem, hv, h.ix, h.bs, h.fb, hsb, hsc, hcode, hne, scalSpec_code hpos, hfi]

theorem readBack_m {i : Instr} {op q ext4 : Nat} {ax : Bool} {c : Ctl} {d : Src} {m : MemOp} {w1 : Option Nat}
    (hv : view i = vwMem op c ax d m q ext4 w1) (hm : m.Ok)
    (hp : ∀ w, ReadsM w op ax c d.o.code m.base.o.code m.mid m.bs m.idx.isSome q d.bang m.base.bang m.fi ext4
      w1.isSome → parse w (w1.getD 0) = some i)
    (hd : d.o.code < 2 ^ 8 := by decide)
    (hq : q < 2 ^ 6 := by decide) (hx : ext4 < 2 ^ 4 := by decide) (ho : op < 2 ^ 8 := by decide) :
    ReadBack i := by
  intro v h hpg
  rw [hv] at h
  obtain rfl := Option.some.inj h
  have hf : View.Fits ⟨op, ax, c, .m d.o.code m.base.o.code m.mid m.bs m.idx.isSome q d.bang m.base.bang m.fi ext4,
    w1⟩ := ⟨ho, hpg, hd, hm.base_lt, hm.mid_lt, hq, hx⟩
  exact ⟨hf, hp _ (word0_reads_m hf)⟩

/-! ## MOD6 of format M (06 Table 6-6) -/

theorem mod6_lt {w : Wd} {sx : Bool} {q : Nat} (hq : q < 4) : mod6 w sx q < 2 ^ 6 := by
  have := w.code_lt; have := bit_le sx
  unfold mod6
  omega

section Mod6
variable {x : Nat} {w : Wd} {sx : Bool} {q : Nat} (h : bitsAt x 8 6 = mod6 w sx q)
include h

theorem fWd_of_mod6 : fWd x = some w := by
  have hd : bitsAt x 8 3 = w.code := by
    rw [bitsAt_of_field h 0 3 (by decide)]
    exact bitsAt_digit _ (q * 2 + bit sx) _ 0 0 3 (Nat.lt_trans w.code_lt (by decide)) (by decide) (by unfold mod6; omega)
  rw [fWd, hd, Wd.ofCode_code]

theorem fSx_of_mod6 : fSx x = sx := by
  have hd := w.code_lt
  rw [fSx, bitAt_of_field h 3 (by decide)]
  exact bitAt_digit _ q w.code 3 _ (by omega) (by unfold mod6; omega)

theorem fQ2_of_mod6 (hq : q < 4) : fQ2 x = q := by
  have hd := w.code_lt; have := bit_le sx
  rw [fQ2, bitsAt_of_field h 4 2 (by decide)]
  exact bitsAt_digit _ 0 q (bit sx * 8 + w.code) 4 2 (by omega) (by omega) (by unfold mod6; omega)
end Mod6

end Sys2Proof
end

section
/-!
SUPPORT. Every row of the classes of control flow, integers, memory, floating point and approximation is read
back (04 Table 4-4, 05 Table 5-1, 06 Table 6-7, 07 Table 7-4, 08 Table 8-7).
-/
namespace Sys2Proof

/-- Control flow (04 Table 4-4). -/
theorem readBack_control {i : Instr} (hi : i.cls = .control) (hn : Placed i) : ReadBack i := by
  cases i with
  | nop c | exit c => exact readBack_r rfl fun w h => by simp [parse, parseCtl, h.op, h.ctl]
  | ret | join => exact readBack_r rfl fun w h => by simp [parse, parseCtl, h.op]
  | runaOn c | runaOff c => exact readBack_r rfl fun w h => by simp [parse, parseCtl, h.op, h.ctl, h.ext]
  | bra c off | call c off =>
    exact readBack_b rfl fun w h => by simp [parse, parseCtl, h.op, h.ctl, h.long, fOff24, h.off]
  | braLong c off | callLong c off =>
    exact readBack_b (off := 0) (w1 := some off.toNat) rfl fun w h => by
      simp [parse, parseCtl, h.op, h.ctl, h.long]
  | bru c cc a off =>
    exact readBack_b rfl (hc := code_lt hn) (hx := Nat.lt_trans cc.code_lt (by decide)) fun w h => by
      simp [parse, parseCtl, h.op, h.ctl, h.long, fOff24, h.off, h.ext, h.sc, h.fc, scalSpec_code hn]
  | bruLong c cc a off =>
    exact readBack_b (off := 0) (w1 := some off.toNat) rfl (hc := code_lt hn)
      (hx := Nat.lt_trans cc.code_lt (by decide)) fun w h => by
        simp [parse, parseCtl, h.op, h.ctl, h.long, h.ext, h.sc, h.fc, scalSpec_code hn]
  | brx c a | callx c a =>
    exact readBack_r rfl (ha := code_lt hn) fun w h => by simp [parse, parseCtl, h.op, h.ctl, h.vA hn]
  | plog c d a b tt =>
    obtain ⟨hd, ha, hb⟩ := hn
    exact readBack_r rfl (hd := code_lt hd) (ha := code_lt ha) (hb := code_lt hb)
      (hx := Nat.lt_trans tt.isLt (by decide)) fun w h => by
        simp [parse, parseCtl, h.op, h.ctl, h.ext, h.pD hd, h.predA ha, h.predB hb]
  | voteAll c d a | voteAny c d a | voteLeader c d a =>
    obtain ⟨hd, ha⟩ := hn
    exact readBack_r rfl (hd := code_lt hd) (ha := code_lt ha) fun w h => by
      simp [parse, parseCtl, h.op, h.ctl, h.ext, h.pD hd, h.predA ha]
  | voteBallot c scal d a =>
    cases scal with
    | true =>
      obtain ⟨hd, ha⟩ := hn
      exact readBack_r rfl (hd := code_lt hd) (ha := code_lt ha) fun w h => by
        simp [parse, parseCtl, h.op, h.ctl, h.ext, bit8_of_mod h.md, h.sD hd, h.predA ha]
    | false =>
      obtain ⟨hd, ha⟩ := hn
      exact readBack_r rfl (hd := code_lt hd) (ha := code_lt ha) fun w h => by
        simp [parse, parseCtl, h.op, h.ctl, h.ext, bit8_of_mod h.md, h.vD hd, h.predA ha]
  | ipf c l0 a b =>
    obtain ⟨ha, hb⟩ := hn
    exact readBack_r rfl (ha := code_lt ha) (hb := code_lt hb) (hx := Nat.lt_of_le_of_lt (bit_le l0) (by decide))
      fun w h => by simp [parse, parseCtl, h.op, h.ctl, h.ext, bit_beq_one, h.sA ha, h.sB hb]
  | iinv c d a b =>
    obtain ⟨hd, ha, hb⟩ := hn
    exact readBack_r rfl (hd := code_lt hd) (ha := code_lt ha) (hb := code_lt hb) fun w h => by
      simp [parse, parseCtl, h.op, h.ctl, h.sD hd, h.sA ha, h.sB hb]
  | _ => cases hi

/-! ## The integer class -/

/-- The truth table of `lop`: its high bit stands in Q, the others in EXT (05 R92). -/
theorem lop_table (tt : BitVec 8) (t : Ty) :
    bit (bitAt (tt.toNat / 128 * 64 + t.code) 6) * 128 + tt.toNat % 128 = tt.toNat := by
  have ht := t.code_lt
  have htt := tt.isLt
  unfold bitAt bit
  split <;> simp only [beq_iff_eq] at * <;> omega

theorem lop_ty (tt : BitVec 8) (t : Ty) : bitsAt (tt.toNat / 128 * 64 + t.code) 0 4 = t.code :=
  bitsAt_digit _ (tt.toNat / 128 * 4) _ 0 0 4 (Nat.lt_trans t.code_lt (by decide)) (by decide) (by omega)

/-- A type and a flag above it in EXT (05 R106; 07 Table 7-6). -/
theorem tyFlag_lt (t : Ty) (b : Bool) : t.code + 16 * bit b < 2 ^ 7 := by
  have := t.code_lt; have := bit_le b
  omega
theorem tyFlag_flag (t : Ty) (b : Bool) : ((t.code + 16 * bit b) / 16 % 2 == 1) = b := by
  have := t.code_lt
  cases b <;> simp [bit] <;> omega

theorem formSpec_true (n : Nat) : formSpec true n = scalSpec n := rfl
theorem formSpec_false (n : Nat) : formSpec false n = some (vecSpec n) := rfl

/-- The integer class (05 Table 5-1). -/
theorem readBack_integer {i : Instr} (hi : i.cls = .integer) (hn : Placed i) (hf : formOk i = true) :
    ReadBack i := by
  cases i with
  | iadd c f d a b | isub c f d a b | imul c f d a b | imin c f d a b | imax c f d a b | shl c f d a b
  | shr c f d a b | sar c f d a b =>
    obtain ⟨hd, ha, hb⟩ := hn
    exact readBack_r rfl (hd := formCode_lt hd) (ha := formCode_lt ha) (hb := formCode_lt hb)
      (hm := modI_lt _ _) fun w h => by
        simp [parse, parseInt, parseRI, h.op, h.ctl, fIForm_modI h.ax h.md, fI_modI h.md, h.formD hd, h.formA ha,
          h.formB hb, h.srcA, h.srcB]
  | iaddImm c f d a imm | isubImm c f d a imm | imulImm c f d a imm | iminImm c f d a imm
  | imaxImm c f d a imm | shlImm c f d a imm | shrImm c f d a imm | sarImm c f d a imm =>
    obtain ⟨hd, ha⟩ := hn
    exact readBack_i rfl (hd := formCode_lt hd) (ha := formCode_lt ha) (hi := imm.isLt) (hm := modI_lt _ _)
      fun w h => by
        simp [parse, parseInt, parseRI, h.op, h.ctl, fIForm_modI h.ax h.md, fI_modI h.md, h.dst, h.sa,
          formSpec_code hd, formSpec_code ha, h.fa, fImm, h.imm]
  | imulh c f d a b | bfe c f d a b =>
    obtain ⟨hd, ha, hb⟩ := hn
    exact readBack_r rfl (hd := formCode_lt hd) (ha := formCode_lt ha) (hb := formCode_lt hb)
      (hm := modI_lt _ _) fun w h => by
        simp [parse, parseInt, parseR2, h.op, h.ctl, fIForm_modI h.ax h.md, h.formD hd, h.formA ha, h.formB hb,
          h.srcA, h.srcB]
  | imad c f d a b e | bfi c f d a b e =>
    obtain ⟨hd, ha, hb, he⟩ := hn
    exact readBack_r rfl (hd := formCode_lt hd) (ha := formCode_lt ha) (hb := formCode_lt hb)
      (he := formCode_lt he) (hm := modI_lt _ _) fun w h => by
        simp [parse, parseInt, parseR3, h.op, h.ctl, fIForm_modI h.ax h.md, h.formD hd, h.formA ha, h.formB hb,
          h.formC he, h.srcA, h.srcB, h.srcC]
  | iabs c f d a | popc c f d a | clz c f d a =>
    obtain ⟨hd, ha⟩ := hn
    exact readBack_r rfl (hd := formCode_lt hd) (ha := formCode_lt ha) (hm := modI_lt _ _) fun w h => by
      simp [parse, parseInt, parseR1, h.op, h.ctl, fIForm_modI h.ax h.md, h.formD hd, h.formA ha, h.srcA]
  | lop c ax ty d a b e tt =>
    obtain ⟨hd, ha, hb, he⟩ := hn
    have ht := ty.code_lt
    have htt := tt.isLt
    exact readBack_r rfl (hd := code_lt hd) (ha := code_lt ha) (hb := code_lt hb) (he := code_lt he)
      (hm := by omega) (hx := by omega) fun w h => by
        simp [parse, parseInt, h.op, h.ctl, h.ax, fTy_of_mod h.md, fQ_of_mod h.md, h.ext, lop_ty, lop_table,
          h.vD hd, h.vA ha, h.vB hb, h.vC he]
  | shfL c ax d a b e | shfR c ax d a b e =>
    obtain ⟨hd, ha, hb, he⟩ := hn
    exact readBack_r rfl (hd := code_lt hd) (ha := code_lt ha) (hb := code_lt hb) (he := code_lt he)
      (hm := modI_lt _ _) fun w h => by
        simp [parse, parseInt, h.op, h.ctl, h.ax, h.ext, h.vD hd, h.vA ha, h.vB hb, h.vC he]
  | prmt c d a b e =>
    obtain ⟨hd, ha, hb, he⟩ := hn
    exact readBack_r rfl (hd := code_lt hd) (ha := code_lt ha) (hb := code_lt hb) (he := code_lt he)
      (hm := modI_lt _ _) fun w h => by
        simp [parse, parseInt, h.op, h.ctl, h.vD hd, h.vA ha, h.vB hb, h.vC he]
  | brev c ty d a =>
    obtain ⟨hd, ha⟩ := hn
    exact readBack_r rfl (hd := code_lt hd) (ha := code_lt ha) (hm := modI_lt _ _) fun w h => by
      simp [parse, parseInt, h.op, h.ctl, fTy_modI h.md, h.vD hd, h.vA ha]
  | icmp c f cc d a b =>
    obtain ⟨hd, ha, hb⟩ := hn
    exact readBack_r rfl (hd := code_lt hd) (ha := formCode_lt ha) (hb := formCode_lt hb)
      (hm := modI_lt _ _) (hx := Nat.lt_trans cc.code_lt (by decide)) fun w h => by
        simp [parse, parseInt, h.op, h.ctl, h.ext, fIForm_modI h.ax h.md, fI_modI h.md, h.pD hd, h.formA ha,
          h.formB hb, h.srcA, h.srcB]
  | icmpImm c f cc d a imm =>
    obtain ⟨hd, ha⟩ := hn
    exact readBack_i rfl (hd := code_lt hd) (ha := formCode_lt ha) (hi := imm.isLt) (hm := modI_lt _ _)
      (hx := Nat.lt_trans cc.code_lt (by decide)) fun w h => by
        simp [parse, parseInt, h.op, h.ctl, h.ext6, fIForm_modI h.ax h.md, fI_modI h.md, pD, h.dst,
          predSpec_code hd, h.sa, formSpec_code ha, h.fa, fImm, h.imm]
  | isel c ax ty d a b q =>
    obtain ⟨hd, ha, hb, hq⟩ := hn
    exact readBack_r rfl (hd := code_lt hd) (ha := code_lt ha) (hb := code_lt hb) (he := code_lt hq)
      (hm := modI_lt _ _) fun w h => by
        simp [parse, parseInt, h.op, h.ctl, h.ax, fTy_modI h.md, h.vD hd, h.vA ha, h.vB hb, h.predC hq]
  | mov c f fromScal d a =>
    cases fromScal with
    | true =>
      obtain ⟨hd, ha⟩ := hn
      exact readBack_r rfl (hd := formCode_lt hd) (ha := code_lt ha) (hm := modI_lt _ _) fun w h => by
        simp [parse, parseInt, h.op, h.ctl, h.ext, fIForm_modI h.ax h.md, h.formD hd, bit_beq_one,
          formSpec_true, h.sa, scalSpec_code ha, h.srcA]
    | false =>
      obtain ⟨hd, ha⟩ := hn
      exact readBack_r rfl (hd := formCode_lt hd) (ha := code_lt ha) (hm := modI_lt _ _) fun w h => by
        simp [parse, parseInt, h.op, h.ctl, h.ext, fIForm_modI h.ax h.md, h.formD hd, bit_beq_one,
          formSpec_false, h.sa, vecSpec_code ha, h.srcA]
  | movi c f d imm =>
    exact readBack_i rfl (hd := formCode_lt hn) (hi := imm.isLt) (hm := modI_lt _ _) fun w h => by
      simp [parse, parseInt, h.op, h.ctl, h.long, fIForm_modI h.ax h.md, h.dst, formSpec_code hn, fImm, h.imm]
  | moviLong c f d imm =>
    exact readBack_i rfl (hd := formCode_lt hn) (hm := modI_lt _ _) fun w h => by
      simp [parse, parseInt, h.op, h.ctl, h.long, fIForm_modI h.ax h.md, h.dst, formSpec_code hn]
  | ident c scal sel d =>
    exact readBack_r rfl (hd := formCode_lt hn) (hm := modI_lt _ _) (hx := Nat.lt_trans sel.code_lt (by decide))
      fun w h => by
        simp [parse, parseInt, h.op, h.ctl, h.ext, fQ_modI h.md, h.formD hn]
  | xlane c ax m ty d a b =>
    have hm := m.code_lt
    cases b with
    | reg b =>
      obtain ⟨hd, ha, hb⟩ := hn
      exact readBack_r (b := b) (e := Src.zero) (ext := m.code) rfl (hd := code_lt hd) (ha := code_lt ha)
        (hb := code_lt hb) (hm := modI_lt _ _) (hx := Nat.lt_trans hm (by decide)) fun w h => by
          simp [parse, parseInt, h.op, h.ctl, h.ax, h.ext, fTy_modI h.md, h.vD hd, h.vA ha, h.vB hb, hm,
            Nat.mod_eq_of_lt hm]
    | imm n =>
      obtain ⟨hd, ha⟩ := hn
      have hlt : n < 32 := of_decide_eq_true (Bool.and_eq_true_iff.mp hf).2
      exact readBack_r (b := Src.zero) (e := ⟨.s n, false⟩) (ext := m.code + 4) rfl (hd := code_lt hd)
        (ha := code_lt ha) (he := Nat.lt_trans hlt (by decide)) (hm := modI_lt _ _) (hx := by omega) fun w h => by
          simp [parse, parseInt, h.op, h.ctl, h.ax, h.ext, h.sc, Opd.code, fTy_modI h.md, h.vD hd, h.vA ha,
            Nat.mod_eq_of_lt hm]
  | lea c f d a b sh =>
    obtain ⟨hd, ha, hb⟩ := hn
    have hs : sh < 8 := of_decide_eq_true (Bool.and_eq_true_iff.mp hf).2
    exact readBack_r rfl (hd := formCode_lt hd) (ha := formCode_lt ha) (hb := formCode_lt hb)
      (he := Nat.lt_trans hs (by decide)) (hm := modI_lt _ _) fun w h => by
        simp [parse, parseInt, h.op, h.ctl, fIForm_modI h.ax h.md, h.formD hd, h.formA ha, h.formB hb, h.srcA, h.srcB,
          h.sc, Opd.code]
  | cvti c f sty sat d a =>
    obtain ⟨hd, ha⟩ := hn
    have hs : sty.code < 16 := Nat.lt_trans sty.code_lt (by decide)
    exact readBack_r rfl (hd := formCode_lt hd) (ha := formCode_lt ha) (hm := modI_lt _ _) (hx := tyFlag_lt _ _)
      fun w h => by
        simp [parse, parseInt, h.op, h.ctl, h.ext, fIForm_modI h.ax h.md, Nat.mod_eq_of_lt hs, tyFlag_flag,
          h.formD hd, h.formA ha, h.srcA]
  | _ => cases hi

/-! ## The memory class -/

/-- A ring operand as the memory operand whose base field holds ring and view (06 R143). -/
def RingOp.mem (r : RingOp) : MemOp := ⟨false, ⟨.v (r.ring + 8 * bit r.cons), false⟩, r.off, r.idx⟩

theorem RingOp.mem_ok {r : RingOp} (hn : AllPlaced (nRing r)) (ho : okRing r = true) :
    r.mem.Ok ∧ r.ring < 8 := by
  obtain ⟨hm, hr⟩ := Bool.and_eq_true_iff.mp ho
  have hr := of_decide_eq_true hr
  have hb := bit_le r.cons
  refine ⟨⟨(fun h => nomatch h), fun _ => decide_eq_true (show r.ring + 8 * bit r.cons < 192 by omega),
    fun i hi => ?_⟩, hr⟩
  replace hi : r.idx = some i := hi
  obtain ⟨hs, hp, hoff⟩ := okMem_idx hm hi
  replace hp : i.pol = none := hp.resolve_left (by decide)
  refine ⟨⟨?_, hs, fun p h => by simp [hp] at h⟩, hoff⟩
  simpa [nRing, hi, AllPlaced] using hn

theorem parseRing_of_reads {w op dt q ext4 : Nat} {ax fd long : Bool} {c : Ctl} {r : RingOp}
    (h : ReadsM w op ax c dt r.mem.base.o.code r.mem.mid r.mem.bs r.mem.idx.isSome q fd r.mem.base.bang r.mem.fi ext4
      long) (hm : r.mem.Ok) (hr : r.ring < 8) : parseRing w = some r := by
  have hb : fSa w = r.ring + 8 * bit r.cons := h.base
  have h1 : (r.ring + 8 * bit r.cons) % 8 = r.ring := by omega
  have h2 : (r.ring + 8 * bit r.cons) / 8 % 2 = bit r.cons := by
    have := bit_le r.cons
    omega
  rw [parseRing, parseMem_of_reads h hm, hb, h1, h2, bit_beq_one]
  rfl

/-- The two marks of `lds` and `ldr` stand in MOD6[5:4]. -/
theorem marks_lt (fw clr : Bool) : bit fw + 2 * bit clr < 4 := by cases fw <;> cases clr <;> decide
theorem marks_high (fw clr : Bool) : ((bit fw + 2 * bit clr) / 2 == 1) = clr := by
  cases fw <;> cases clr <;> rfl
theorem mark_lt (b : Bool) : bit b < 4 := Nat.lt_of_le_of_lt (bit_le b) (by decide)
theorem mark_low (b : Bool) : (bit b % 2 == 1) = b := by cases b <;> rfl

/-- The memory class (06 Table 6-7). -/
theorem readBack_memory {i : Instr} (hi : i.cls = .memory) (hn : Placed i) (hf : formOk i = true) :
    ReadBack i := by
  cases i with
  | ld c ax wd sx d m | ldLong c ax wd sx d m off =>
    obtain ⟨hd, hm⟩ := hn.cons
    have hm := MemOp.ok_of hm (Bool.and_eq_true_iff.mp hf).1
    exact readBack_m rfl hm (hd := code_lt hd) (hq := mod6_lt (by decide)) fun w h => by
      simp [parse, parseMemory, h.op, h.ctl, h.ax, h.long, fWd_of_mod6 h.mod6, fSx_of_mod6 h.mod6, h.dt,
        vecSpec_code hd, Opd.src, parseMem_of_reads h hm]
  | st c ax wd a m | stLong c ax wd a m off =>
    obtain ⟨ha, hm⟩ := hn.cons
    have hm := MemOp.ok_of hm hf
    exact readBack_m rfl hm (hd := code_lt ha) (hq := mod6_lt (by decide)) fun w h => by
      simp [parse, parseMemory, h.op, h.ctl, h.ax, h.long, fWd_of_mod6 h.mod6, h.dt, h.fd,
        vecSpec_code ha, parseMem_of_reads h hm]
  | lds c ax wd sx fw clr d m =>
    obtain ⟨hd, hm⟩ := hn.cons
    have hm := MemOp.ok_of hm (Bool.and_eq_true_iff.mp hf).1
    have hq := marks_lt fw clr
    exact readBack_m rfl hm (hd := code_lt hd) (hq := mod6_lt hq) fun w h => by
      simp [parse, parseMemory, h.op, h.ctl, h.ax, fWd_of_mod6 h.mod6, fSx_of_mod6 h.mod6, fQ2_of_mod6 h.mod6 hq,
        mark_low, marks_high, h.dt, vecSpec_code hd, Opd.src, parseMem_of_reads h hm]
  | sts c ax wd set a m =>
    obtain ⟨ha, hm⟩ := hn.cons
    have hm := MemOp.ok_of hm hf
    exact readBack_m rfl hm (hd := code_lt ha) (hq := mod6_lt (mark_lt set)) fun w h => by
      simp [parse, parseMemory, h.op, h.ctl, h.ax, fWd_of_mod6 h.mod6, fQ2_of_mod6 h.mod6 (mark_lt set), mark_low,
        h.dt, h.fd, vecSpec_code ha, parseMem_of_reads h hm]
  | ldr c ax wd sx fw clr d r =>
    obtain ⟨hd, hr⟩ := hn.cons
    obtain ⟨hm, hr⟩ := RingOp.mem_ok hr (Bool.and_eq_true_iff.mp hf).1
    have hq := marks_lt fw clr
    exact readBack_m (m := r.mem) rfl hm (hd := code_lt hd) (hq := mod6_lt hq) fun w h => by
      simp [parse, parseMemory, h.op, h.ctl, h.ax, fWd_of_mod6 h.mod6, fSx_of_mod6 h.mod6, fQ2_of_mod6 h.mod6 hq,
        mark_low, marks_high, h.dt, vecSpec_code hd, Opd.src, parseRing_of_reads h hm hr]
  | str c ax wd set a r =>
    obtain ⟨ha, hr⟩ := hn.cons
    obtain ⟨hm, hr⟩ := RingOp.mem_ok hr hf
    exact readBack_m (m := r.mem) rfl hm (hd := code_lt ha) (hq := mod6_lt (mark_lt set)) fun w h => by
      simp [parse, parseMemory, h.op, h.ctl, h.ax, fWd_of_mod6 h.mod6, fQ2_of_mod6 h.mod6 (mark_lt set), mark_low,
        h.dt, h.fd, vecSpec_code ha, parseRing_of_reads h hm hr]
  | pf c lvl m | pfLong c lvl m off =>
    obtain ⟨hm, hl⟩ := Bool.and_eq_true_iff.mp hf
    have hm := MemOp.ok_of hn hm
    exact readBack_m rfl hm
      (hx := Nat.lt_trans (of_decide_eq_true hl) (by decide)) fun w h => by
        simp [parse, parseMemory, h.op, h.ctl, h.long, h.ext4, parseMem_of_reads h hm]
  | stmap c n a b e =>
    obtain ⟨ha, hb, he⟩ := hn
    exact readBack_r rfl (ha := code_lt ha) (hb := code_lt hb) (he := code_lt he)
      (hx := Nat.lt_trans (of_decide_eq_true hf) (by decide)) fun w h => by
        simp [parse, parseMemory, h.op, h.ctl, h.ext, h.sA ha, h.sB hb, h.sC he]
  | stunmap c n =>
    exact readBack_r rfl (hx := Nat.lt_trans (of_decide_eq_true hf) (by decide)) fun w h => by
      simp [parse, parseMemory, h.op, h.ctl, h.ext]
  | femEmpty c a b | femFull c a b | femAx c a b | femPr c a b =>
    obtain ⟨ha, hb⟩ := hn
    exact readBack_r rfl (ha := code_lt ha) (hb := code_lt hb) fun w h => by
      simp [parse, parseMemory, h.op, h.ctl, h.ext, h.sA ha, h.sB hb]
  | ringq c n d =>
    exact readBack_r rfl (hd := code_lt hn) (hx := Nat.lt_trans (of_decide_eq_true hf) (by decide)) fun w h => by
      simp [parse, parseMemory, h.op, h.ctl, h.ext, h.sD hn]
  | cwbL3 c d a b | cwbMem c d a b | cinvCore c d a b | cinvDie c d a b | cinvDev c d a b =>
    obtain ⟨hd, ha, hb⟩ := hn
    exact readBack_r rfl (hd := code_lt hd) (ha := code_lt ha) (hb := code_lt hb) fun w h => by
      simp [parse, parseMemory, h.op, h.ctl, h.ext, h.sD hd, h.sA ha, h.sB hb]
  | tlbq c k d a =>
    obtain ⟨hd, ha⟩ := hn
    exact readBack_r rfl (hd := code_lt hd) (ha := code_lt ha) (hx := Nat.lt_trans (of_decide_eq_true hf) (by decide))
      fun w h => by simp [parse, parseMemory, h.op, h.ctl, h.ext, h.sD hd, h.sA ha]
  | _ => cases hi

/-! ## The floating-point and approximate classes -/

theorem xrndMod_lt (clr : Bool) (md : Rm) : bit clr * 64 + md.code * 16 + 8 < 2 ^ 8 := by
  cases clr <;> cases md <;> decide
theorem xrndMod_rm (clr : Bool) (md : Rm) : bitsAt (bit clr * 64 + md.code * 16 + 8) 4 2 = md.code := by
  cases clr <;> cases md <;> rfl
theorem xrndMod_clr (clr : Bool) (md : Rm) : bitAt (bit clr * 64 + md.code * 16 + 8) 6 = clr := by
  cases clr <;> cases md <;> rfl

/-- The flags of `fmov` stand in EXT[2:1] (07 R169). -/
theorem signs_lt (abs neg : Bool) : 2 * bit abs + 4 * bit neg < 2 ^ 7 := by cases abs <;> cases neg <;> decide
theorem signs_abs (abs neg : Bool) : bitAt (2 * bit abs + 4 * bit neg) 1 = abs := by
  cases abs <;> cases neg <;> rfl
theorem signs_neg (abs neg : Bool) : bitAt (2 * bit abs + 4 * bit neg) 2 = neg := by
  cases abs <;> cases neg <;> rfl

/-- `fcvt` names a second source exactly where it packs two results. -/
theorem okFcvt_packs {d s : Ty} {hi b : Bool} (h : okFcvt d s hi b = true) : b = d.packed := by
  obtain ⟨h, -⟩ := Bool.and_eq_true_iff.mp h
  obtain ⟨h, -⟩ := Bool.and_eq_true_iff.mp h
  exact beq_iff_eq.mp h
theorem Ty.packed_iff (t : Ty) : t.packed = true ↔ t = .f16x2 ∨ t = .bf16x2 := by
  cases t <;> simp [Ty.packed]

/-- The floating-point class (07 Table 7-4). -/
theorem readBack_float {i : Instr} (hi : i.cls = .float) (hn : Placed i) (hf : formOk i = true) :
    ReadBack i := by
  cases i with
  | fadd c f d a b | fmul c f d a b | fsub c f d a b | fdiv c f d a b | fscale c f d a b =>
    obtain ⟨hd, ha, hb⟩ := hn
    exact readBack_r rfl (hd := code_lt hd) (ha := code_lt ha) (hb := code_lt hb) (hm := modF_lt _ _ _)
      fun w h => by
        simp [parse, parseFp, parseFRI, h.op, h.ctl, fFForm_modF h.ax h.md, fI_modF h.md, h.vD hd, h.vA ha, h.vB hb]
  | fmin c ax ty d a b | fmax c ax ty d a b =>
    obtain ⟨hd, ha, hb⟩ := hn
    exact readBack_r rfl (hd := code_lt hd) (ha := code_lt ha) (hb := code_lt hb) (hm := modF_lt _ _ _)
      fun w h => by
        simp [parse, parseFp, parseFRI, h.op, h.ctl, fFForm_modF h.ax h.md, fI_modF h.md, h.vD hd, h.vA ha, h.vB hb]
  | faddImm c f d a imm | fmulImm c f d a imm | fminImm c ax ty d a imm | fmaxImm c ax ty d a imm =>
    obtain ⟨hd, ha⟩ := hn
    exact readBack_i rfl (hd := code_lt hd) (ha := code_lt ha) (hi := imm.isLt) (hm := modF_lt _ _ _) fun w h => by
      simp [parse, parseFp, parseFRI, h.op, h.ctl, fFForm_modF h.ax h.md, fI_modF h.md, vD, h.dst, h.sa,
        vecSpec_code hd, vecSpec_code ha, h.fa, fImm, h.imm]
  | fma c f d a b e | fdot2 c f d a b e =>
    obtain ⟨hd, ha, hb, he⟩ := hn
    exact readBack_r rfl (hd := code_lt hd) (ha := code_lt ha) (hb := code_lt hb) (he := code_lt he)
      (hm := modF_lt _ _ _) fun w h => by
        simp [parse, parseFp, h.op, h.ctl, fFForm_modF h.ax h.md, h.vD hd, h.vA ha, h.vB hb, h.vC he]
  | fmov c ax ty abs neg d a =>
    obtain ⟨hd, ha⟩ := hn
    exact readBack_r rfl (hd := code_lt hd) (ha := code_lt ha) (hm := modF_lt _ _ _) (hx := signs_lt _ _)
      fun w h => by
        simp [parse, parseFp, h.op, h.ctl, h.ax, h.ext, fTy_modF h.md, signs_abs, signs_neg, h.vD hd, h.vA ha]
  | fcmp c ty cc d a b =>
    obtain ⟨hd, ha, hb⟩ := hn
    exact readBack_r rfl (hd := code_lt hd) (ha := code_lt ha) (hb := code_lt hb) (hm := modF_lt _ _ _)
      (hx := Nat.lt_trans cc.code_lt (by decide)) fun w h => by
        simp [parse, parseFp, h.op, h.ctl, h.ext, fTy_modF h.md, fI_modF h.md, h.pD hd, h.vA ha, h.vB hb]
  | fcmpImm c ty cc d a imm =>
    obtain ⟨hd, ha⟩ := hn
    exact readBack_i rfl (hd := code_lt hd) (ha := code_lt ha) (hi := imm.isLt) (hm := modF_lt _ _ _)
      (hx := Nat.lt_trans cc.code_lt (by decide)) fun w h => by
        simp [parse, parseFp, h.op, h.ctl, h.ext6, fTy_modF h.md, fI_modF h.md, pD, h.dst, h.sa, predSpec_code hd,
          vecSpec_code ha, h.fa, fImm, h.imm]
  | fcvt c f sty up d a b =>
    have hp : b.isSome = f.ty.packed := okFcvt_packs (Bool.and_eq_true_iff.mp hf).1
    have hs : sty.code < 16 := Nat.lt_trans sty.code_lt (by decide)
    cases b with
    | none =>
      obtain ⟨hd, ha⟩ := hn
      have ht : ¬ (f.ty = .f16x2 ∨ f.ty = .bf16x2) := by
        rw [← Ty.packed_iff, ← hp]; decide
      exact readBack_r (b := Src.zero) rfl (hd := code_lt hd) (ha := code_lt ha) (hm := modF_lt _ _ _)
        (hx := tyFlag_lt _ _) fun w h => by
          simp [parse, parseFp, h.op, h.ctl, h.ext, fFForm_modF h.ax h.md, Nat.mod_eq_of_lt hs, tyFlag_flag, h.vD hd,
            h.vA ha, ht]
    | some b =>
      obtain ⟨hd, ha, hb⟩ := hn
      have ht : f.ty = .f16x2 ∨ f.ty = .bf16x2 := (Ty.packed_iff _).mp hp.symm
      exact readBack_r (b := b) rfl (hd := code_lt hd) (ha := code_lt ha) (hb := code_lt hb) (hm := modF_lt _ _ _)
        (hx := tyFlag_lt _ _) fun w h => by
          simp [parse, parseFp, h.op, h.ctl, h.ext, fFForm_modF h.ax h.md, Nat.mod_eq_of_lt hs, tyFlag_flag, h.vD hd,
            h.vA ha, h.vB hb, ht]
  | frnd c md ty d a =>
    obtain ⟨hd, ha⟩ := hn
    exact readBack_r rfl (hd := code_lt hd) (ha := code_lt ha) (hm := modF_lt _ _ _) fun w h => by
      simp [parse, parseFp, h.op, h.ctl, fTy_modF h.md, fRm_modF h.md, h.vD hd, h.vA ha]
  | frcps c d a | frsqs c d a | fex2 c d a | flg2 c d a =>
    obtain ⟨hd, ha⟩ := hn
    exact readBack_r rfl (hd := code_lt hd) (ha := code_lt ha) (hm := modF_lt _ _ _) fun w h => by
      simp [parse, parseFp, h.op, h.ctl, h.vD hd, h.vA ha]
  | fsqrt c f d a =>
    obtain ⟨hd, ha⟩ := hn
    exact readBack_r rfl (hd := code_lt hd) (ha := code_lt ha) (hm := modF_lt _ _ _) fun w h => by
      simp [parse, parseFp, h.op, h.ctl, fFForm_modF h.ax h.md, h.vD hd, h.vA ha]
  | fclass c ty d a | fxtrExp c ty d a | fxtrMan c ty d a =>
    obtain ⟨hd, ha⟩ := hn
    exact readBack_r rfl (hd := code_lt hd) (ha := code_lt ha) (hm := modF_lt _ _ _) fun w h => by
      simp [parse, parseFp, h.op, h.ctl, h.ext, fTy_modF h.md, h.vD hd, h.vA ha]
  | xacc c ty acc b =>
    obtain ⟨ha, hb⟩ := hn
    exact readBack_r rfl (hd := code_lt ha) (ha := code_lt ha) (hb := code_lt hb) (hm := modF_lt _ _ _) fun w h => by
      simp [parse, parseFp, h.op, h.ctl, fTy_modF h.md, h.vA ha, h.vB hb]
  | xrnd c md clr d acc =>
    obtain ⟨hd, ha⟩ := hn
    exact readBack_r rfl (hd := code_lt hd) (ha := code_lt ha) (hm := xrndMod_lt _ _) fun w h => by
      simp [parse, parseFp, h.op, h.ctl, fRm_of_mod h.md, fQ_of_mod h.md, xrndMod_rm, xrndMod_clr, h.vD hd, h.vA ha]
  | _ => cases hi

/-- Approximate-only instructions (08 Table 8-7). -/
theorem readBack_approx {i : Instr} (hi : i.cls = .approx) (hn : Placed i) (hf : formOk i = true)
    (hr : rangeOk i = true) : ReadBack i := by
  cases i with
  | endorse c ty d a =>
    obtain ⟨hd, ha⟩ := hn
    exact readBack_r rfl (hd := code_lt hd) (ha := code_lt ha) (hm := modF_lt _ _ _) fun w h => by
      simp [parse, parseApprox, h.op, h.ctl, fTy_modF h.md, h.vD hd, h.vA ha]
  | rail c d code a =>
    cases code with
    | none =>
      cases a with
      | none => cases hr
      | some a =>
        obtain ⟨hd, ha⟩ := hn
        exact readBack_r (a := a) (ext := 8) rfl (hd := code_lt hd) (ha := code_lt ha) fun w h => by
          simp [parse, parseApprox, h.op, h.ctl, h.ext, h.sD hd, h.sA ha]
    | some n =>
      cases a with
      | none =>
        have hlt : n < 8 := of_decide_eq_true hf
        exact readBack_r (a := Src.zero) (ext := n) rfl (hd := code_lt hn) (hx := Nat.lt_trans hlt (by decide))
          fun w h => by simp [parse, parseApprox, h.op, h.ctl, h.ext, h.sD hn, Nat.ne_of_lt hlt]
      | some a => cases hr
  | railq c d =>
    exact readBack_r rfl (hd := code_lt hn) fun w h => by simp [parse, parseApprox, h.op, h.ctl, h.sD hn]
  | tolq c d a =>
    obtain ⟨hd, ha⟩ := hn
    exact readBack_r rfl (hd := code_lt hd) (ha := code_lt ha) fun w h => by
      simp [parse, parseApprox, h.op, h.ctl, h.sD hd, h.sA ha]
  | _ => cases hi

end Sys2Proof
end

section
/-!
SUPPORT. Every row of the other classes is read back (11 Table 11-3, 12 Table 12-3, 14 Table 14-7, 15 Table 15-6,
16 Table 16-5, 18 Table 18-8, 21 Table 21-10).
-/
namespace Sys2Proof

/-! ## Visibility, synchronisation and tasks -/

theorem cmtMod_lt (excl : Bool) (sc : Scope) : bit excl * 8 + sc.code < 2 ^ 8 := by
  cases excl <;> cases sc <;> decide
theorem cmtMod_scope (excl : Bool) (sc : Scope) : bitsAt (bit excl * 8 + sc.code) 0 3 = sc.code := by
  cases excl <;> cases sc <;> rfl
theorem cmtMod_excl (excl : Bool) (sc : Scope) : bitAt (bit excl * 8 + sc.code) 3 = excl := by
  cases excl <;> cases sc <;> rfl

theorem Scope.code_lt_mod (sc : Scope) : sc.code < 2 ^ 8 := Nat.lt_trans sc.code_lt (by decide)
theorem Scope.code_bits (sc : Scope) : bitsAt sc.code 0 3 = sc.code := by cases sc <;> rfl
theorem Scope.shifted_lt (sc : Scope) : sc.code * 16 < 2 ^ 8 := by cases sc <;> decide
theorem Scope.shifted_bits (sc : Scope) : bitsAt (sc.code * 16) 4 3 = sc.code := by cases sc <;> rfl

/-- `lda` codes its scope, which is not the group's, less 1 in MOD6[5:4]. -/
theorem ldaScope_lt (sc : Scope) : sc.code - 1 < 4 := by cases sc <;> decide
theorem ldaScope_code {sc : Scope} (h : (sc != .grp) = true) : sc.code - 1 + 1 = sc.code := by
  cases sc <;> cases h <;> rfl

/-- Visibility (11 Table 11-3). -/
theorem readBack_visibility {i : Instr} (hi : i.cls = .visibility) (hn : Placed i) (hf : formOk i = true)
    (hr : rangeOk i = true) : ReadBack i := by
  cases i with
  | cmt c sc excl d =>
    exact readBack_r rfl (hd := code_lt hn) (hm := cmtMod_lt _ _) fun w h => by
      simp [parse, parseVis, h.op, h.ctl, fScope_of_mod h.md, bit11_of_mod h.md, cmtMod_scope, cmtMod_excl, h.sD hn]
  | abt c sc d r =>
    cases r with
    | none =>
      exact readBack_r rfl (hd := code_lt hn) (hm := sc.code_lt_mod) fun w h => by
        simp [parse, parseVis, h.op, h.ctl, h.ext, fScope_of_mod h.md, sc.code_bits, h.sD hn]
    | some r =>
      obtain ⟨hd, ha, hb⟩ := hn
      exact readBack_r rfl (hd := code_lt hd) (ha := code_lt ha) (hb := code_lt hb) (hm := sc.code_lt_mod)
        fun w h => by
          simp [parse, parseVis, h.op, h.ctl, h.ext, fScope_of_mod h.md, sc.code_bits, h.sD hd, h.sA ha, h.sB hb]
  | fence c sc =>
    exact readBack_r rfl (hm := sc.code_lt_mod) fun w h => by
      simp [parse, parseVis, h.op, h.ctl, fScope_of_mod h.md, sc.code_bits]
  | lda c sc wd sx d m | ldaLong c sc wd sx d m off =>
    obtain ⟨hd, hm⟩ := hn.cons
    have hm := MemOp.ok_of hm (Bool.and_eq_true_iff.mp (Bool.and_eq_true_iff.mp hf).1).1
    have hq := ldaScope_lt sc
    exact readBack_m rfl hm (hd := code_lt hd) (hq := mod6_lt hq) fun w h => by
      simp [parse, parseVis, h.op, h.ctl, h.long, fWd_of_mod6 h.mod6, fSx_of_mod6 h.mod6, fQ2_of_mod6 h.mod6 hq,
        ldaScope_code hr, vD, h.dt, vecSpec_code hd, Opd.src, parseMem_of_reads h hm]
  | bufq c d => exact readBack_r rfl (hd := code_lt hn) fun w h => by simp [parse, parseVis, h.op, h.ctl, h.sD hn]
  | rlq c sp d a b =>
    obtain ⟨hd, ha, hb⟩ := hn
    exact readBack_r rfl (hd := code_lt hd) (ha := code_lt ha) (hb := code_lt hb)
      (hx := Nat.lt_of_le_of_lt (bit_le sp) (by decide)) fun w h => by
        simp [parse, parseVis, h.op, h.ctl, h.ext, bit_beq_one, h.sD hd, h.sA ha, h.sB hb]
  | _ => cases hi

/-- Atomics and synchronisation (12 Table 12-3). -/
theorem readBack_sync {i : Instr} (hi : i.cls = .sync) (hn : Placed i) (hf : formOk i = true)
    (hr : rangeOk i = true) : ReadBack i := by
  cases i with
  | atom c op sc ty d a b e | atomf c op sc ty d a b e =>
    have hx : op.code < 2 ^ 7 := Nat.lt_trans op.code_lt (by decide)
    have hm := modA_lt d.isNone sc ty
    have hcas : e.isSome = (op == .cas) := beq_iff_eq.mp hr
    cases e with
    | none =>
      have hop : op ≠ .cas := by rintro rfl; cases hcas
      cases d with
      | none =>
        obtain ⟨ha, hb⟩ := hn
        exact readBack_r rfl (ha := code_lt ha) (hb := code_lt hb) (hm := hm) (hx := hx) fun w h => by
          simp [parse, parseSync, h.op, h.ctl, h.ext, fScopeA_modA h.md, fTy_modA h.md,
            fI_modA h.md, h.vA ha, h.vB hb, hop]
      | some d =>
        obtain ⟨hd, ha, hb⟩ := hn
        exact readBack_r (dst := d.code) rfl (hd := code_lt hd) (ha := code_lt ha) (hb := code_lt hb) (hm := hm)
          (hx := hx) fun w h => by
          simp [parse, parseSync, h.op, h.ctl, h.ext, fScopeA_modA h.md, fTy_modA h.md,
            fI_modA h.md, h.vD hd, h.vA ha, h.vB hb, hop]
    | some e =>
      obtain rfl : op = .cas := beq_iff_eq.mp hcas.symm
      cases d with
      | none =>
        obtain ⟨ha, hb, he⟩ := hn
        exact readBack_r (e := e) rfl (ha := code_lt ha) (hb := code_lt hb) (he := code_lt he) (hm := hm)
          (hx := hx) fun w h => by
          simp [parse, parseSync, h.op, h.ctl, h.ext, fScopeA_modA h.md, fTy_modA h.md,
            fI_modA h.md, h.vA ha, h.vB hb, h.vC he]
      | some d =>
        obtain ⟨hd, ha, hb, he⟩ := hn
        exact readBack_r (dst := d.code) (e := e) rfl (hd := code_lt hd) (ha := code_lt ha) (hb := code_lt hb)
          (he := code_lt he) (hm := hm) (hx := hx) fun w h => by
          simp [parse, parseSync, h.op, h.ctl, h.ext, fScopeA_modA h.md, fTy_modA h.md,
            fI_modA h.md, h.vD hd, h.vA ha, h.vB hb, h.vC he]
  | xadd c sc ty a b =>
    obtain ⟨ha, hb⟩ := hn
    exact readBack_r rfl (ha := code_lt ha) (hb := code_lt hb) (hm := modA_lt _ _ _) fun w h => by
      simp [parse, parseSync, h.op, h.ctl, fScopeA_modA h.md, fTy_modA h.md, h.vA ha, h.vB hb]
  | bari c n a =>
    exact readBack_r rfl (ha := code_lt hn) (hx := Nat.lt_trans (of_decide_eq_true hf) (by decide)) fun w h => by
      simp [parse, parseSync, h.op, h.ctl, h.ext, h.sA hn]
  | barv c n d | tkt c n d =>
    exact readBack_r rfl (hd := code_lt hn) (hx := Nat.lt_trans (of_decide_eq_true hf) (by decide)) fun w h => by
      simp [parse, parseSync, h.op, h.ctl, h.ext, h.sD hn]
  | barw c a | tktw c a =>
    exact readBack_r rfl (ha := code_lt hn) fun w h => by simp [parse, parseSync, h.op, h.ctl, h.sA hn]
  | tkts c n =>
    exact readBack_r rfl (hx := Nat.lt_trans (of_decide_eq_true hf) (by decide)) fun w h => by
      simp [parse, parseSync, h.op, h.ctl, h.ext]
  | park c sc d a b e =>
    obtain ⟨hd, ha, hb, he⟩ := hn
    exact readBack_r rfl (hd := code_lt hd) (ha := code_lt ha) (hb := code_lt hb) (he := code_lt he)
      (hm := sc.shifted_lt) fun w h => by
        simp [parse, parseSync, h.op, h.ctl, fScopeA_of_mod h.md, sc.shifted_bits, h.sD hd, h.sA ha, h.sB hb, h.sC he]
  | wake c sc d a b =>
    obtain ⟨hd, ha, hb⟩ := hn
    exact readBack_r rfl (hd := code_lt hd) (ha := code_lt ha) (hb := code_lt hb) (hm := sc.shifted_lt) fun w h => by
      simp [parse, parseSync, h.op, h.ctl, fScopeA_of_mod h.md, sc.shifted_bits, h.sD hd, h.sA ha, h.sB hb]
  | _ => cases hi

/-- Tasks (14 Table 14-7). -/
theorem readBack_task {i : Instr} (hi : i.cls = .task) (hn : Placed i) (hf : formOk i = true) : ReadBack i := by
  cases i with
  | spawn c n a =>
    exact readBack_r rfl (ha := code_lt hn) (hx := Nat.lt_trans (of_decide_eq_true hf) (by decide)) fun w h => by
      simp [parse, parseTask, h.op, h.ctl, h.ext, h.vA hn]
  | binf c n =>
    exact readBack_r rfl (hx := Nat.lt_trans (of_decide_eq_true hf) (by decide)) fun w h => by
      simp [parse, parseTask, h.op, h.ctl, h.ext]
  | tpostRec c d a b =>
    obtain ⟨hd, ha, hb⟩ := hn
    exact readBack_r rfl (hd := code_lt hd) (ha := code_lt ha) (hb := code_lt hb) fun w h => by
      simp [parse, parseTask, h.op, h.ctl, h.ext, h.sD hd, h.sA ha, h.sB hb]
  | tpostBin c n d a b =>
    obtain ⟨hd, ha, hb⟩ := hn
    have hlt : n < 16 := of_decide_eq_true hf
    exact readBack_r rfl (hd := code_lt hd) (ha := code_lt ha) (hb := code_lt hb) (hx := by omega) fun w h => by
      simp [parse, parseTask, h.op, h.ctl, h.ext, h.sD hd, h.sA ha, h.sB hb]
  | tdec c d a b =>
    obtain ⟨hd, ha, hb⟩ := hn
    exact readBack_r rfl (hd := code_lt hd) (ha := code_lt ha) (hb := code_lt hb) fun w h => by
      simp [parse, parseTask, h.op, h.ctl, h.sD hd, h.sA ha, h.sB hb]
  | tq c d a | lnch c d a =>
    obtain ⟨hd, ha⟩ := hn
    exact readBack_r rfl (hd := code_lt hd) (ha := code_lt ha) fun w h => by
      simp [parse, parseTask, h.op, h.ctl, h.sD hd, h.sA ha]
  | yield c => exact readBack_r rfl fun w h => by simp [parse, parseTask, h.op, h.ctl]
  | _ => cases hi

/-! ## The engines -/

theorem QDst.code_lt (k : QDst) : k.code < 3 := by cases k <;> simp [QDst.code]

/-- MOD of `qcp` (15 R342): DK, ST and the scope. -/
def qcpMod (k : QDst) (st : Bool) (sc : Scope) : Nat := k.code * 64 + 32 * bit st + sc.code

theorem qcpMod_lt (k : QDst) (st : Bool) (sc : Scope) : qcpMod k st sc < 2 ^ 8 := by
  have := k.code_lt; have := bit_le st; have := sc.code_lt
  unfold qcpMod
  omega
theorem qcpMod_scope (k : QDst) (st : Bool) (sc : Scope) : bitsAt (qcpMod k st sc) 0 3 = sc.code :=
  bitsAt_digit _ (k.code * 8 + 4 * bit st) _ 0 0 3 (Nat.lt_trans sc.code_lt (by decide)) (by decide)
    (by unfold qcpMod; omega)
theorem qcpMod_st (k : QDst) (st : Bool) (sc : Scope) : bitAt (qcpMod k st sc) 5 = st :=
  bitAt_digit _ k.code sc.code 5 _ (Nat.lt_trans sc.code_lt (by decide)) (by unfold qcpMod; omega)
theorem qcpMod_dst (k : QDst) (st : Bool) (sc : Scope) : bitsAt (qcpMod k st sc) 6 2 = k.code := by
  have := bit_le st; have := sc.code_lt
  exact bitsAt_digit _ 0 _ (32 * bit st + sc.code) 6 2 (Nat.lt_trans k.code_lt (by decide)) (by omega)
    (by unfold qcpMod; omega)

theorem fQDst_of_code {w : Nat} {k : QDst} (hc : bitsAt w 14 2 = k.code) (hx : fExt w = k.ext) : fQDst w = some k := by
  unfold fQDst
  rw [hc, hx]
  cases k <;> rfl

/-- Quill (15 Table 15-6). -/
theorem readBack_quill {i : Instr} (hi : i.cls = .quill) (hn : Placed i) (hf : formOk i = true) : ReadBack i := by
  cases i with
  | qcp c k sc d a b =>
    obtain ⟨hd, ha, hb⟩ := hn
    have hx : k.ext < 2 ^ 7 := by
      cases k with
      | ring n => exact Nat.lt_trans (of_decide_eq_true (Bool.and_eq_true_iff.mp hf).2) (by decide)
      | _ => decide
    exact readBack_r (md := qcpMod k false sc) rfl (hd := code_lt hd) (ha := code_lt ha)
      (hb := code_lt hb) (hm := qcpMod_lt _ _ _) (hx := hx) fun w h => by
        simp [parse, parseQuill, h.op, h.ctl, fQDst_of_code ((bits14_of_mod h.md).trans (qcpMod_dst _ _ _)) h.ext,
          fScope_of_mod h.md, qcpMod_scope, bit13_of_mod h.md, qcpMod_st, h.sD hd, h.sA ha, h.sB hb]
  | qcpSt c k sc d a b =>
    obtain ⟨hd, ha, hb⟩ := hn
    have hx : k.ext < 2 ^ 7 := by
      cases k with
      | ring n => cases (Bool.and_eq_true_iff.mp hf).2
      | _ => decide
    exact readBack_r (md := qcpMod k true sc) rfl (hd := code_lt hd) (ha := code_lt ha)
      (hb := code_lt hb) (hm := qcpMod_lt _ _ _) (hx := hx) fun w h => by
        simp [parse, parseQuill, h.op, h.ctl, fQDst_of_code ((bits14_of_mod h.md).trans (qcpMod_dst _ _ _)) h.ext,
          fScope_of_mod h.md, qcpMod_scope, bit13_of_mod h.md, qcpMod_st, h.sD hd, h.sA ha, h.sB hb]
  | qcpm c d a b e =>
    obtain ⟨hd, ha, hb, he⟩ := hn
    exact readBack_r rfl (hd := code_lt hd) (ha := code_lt ha) (hb := code_lt hb) (he := code_lt he) fun w h => by
      simp [parse, parseQuill, h.op, h.ctl, h.sD hd, h.sA ha, h.sB hb, h.sC he]
  | qmc c sc d a b e =>
    obtain ⟨hd, ha, hb, he⟩ := hn
    exact readBack_r rfl (hd := code_lt hd) (ha := code_lt ha) (hb := code_lt hb) (he := code_lt he)
      (hm := sc.code_lt_mod) fun w h => by
        simp [parse, parseQuill, h.op, h.ctl, fScope_of_mod h.md, sc.code_bits, h.sD hd, h.sA ha, h.sB hb, h.sC he]
  | qcol c sc d a | qput c sc d a | qget c sc d a =>
    obtain ⟨hd, ha⟩ := hn
    exact readBack_r rfl (hd := code_lt hd) (ha := code_lt ha) (hm := sc.code_lt_mod) fun w h => by
      simp [parse, parseQuill, h.op, h.ctl, fScope_of_mod h.md, sc.code_bits, h.sD hd, h.sA ha]
  | qstatEng c d =>
    exact readBack_r rfl (hd := code_lt hn) fun w h => by simp [parse, parseQuill, h.op, h.ctl, h.ext, h.sD hn]
  | qstatCmd c d a =>
    obtain ⟨hd, ha⟩ := hn
    exact readBack_r rfl (hd := code_lt hd) (ha := code_lt ha) fun w h => by
      simp [parse, parseQuill, h.op, h.ctl, h.ext, h.sD hd, h.sA ha]
  | _ => cases hi

/-- A flag above a 3-bit slot in EXT (16 Table 16-5). -/
theorem slotFlag_flag {n : Nat} (h : n < 8) (b : Bool) : bitAt (n + 8 * bit b) 3 = b :=
  bitAt_digit _ 0 n 3 b h (by omega)
theorem flag8_flag (b : Bool) : bitAt (8 * bit b) 3 = b := by cases b <;> rfl
theorem flag8_lt (b : Bool) : 8 * bit b < 2 ^ 7 := by cases b <;> decide

/-- MOD of `hdrn` (16 Table 16-5). -/
def DrnMods.code (m : DrnMods) (sc : Scope) : Nat :=
  bit m.bias * 128 + bit m.act * 64 + bit m.req * 32 + bit m.amax * 16 + bit m.sp * 8 + sc.code

section Drain
variable (m : DrnMods) (sc : Scope)

theorem DrnMods.low_lt : bit m.sp * 8 + sc.code < 2 ^ 4 := by
  have := sc.code_lt; have := bit_le m.sp
  omega
theorem DrnMods.code_lt : m.code sc < 2 ^ 8 := by
  have := m.low_lt sc; have := bit_le m.bias; have := bit_le m.act; have := bit_le m.req; have := bit_le m.amax
  unfold DrnMods.code
  omega
theorem DrnMods.code_scope : bitsAt (m.code sc) 0 3 = sc.code :=
  bitsAt_digit _ (bit m.bias * 16 + bit m.act * 8 + bit m.req * 4 + bit m.amax * 2 + bit m.sp) _ 0 0 3
    (Nat.lt_trans sc.code_lt (by decide)) (by decide) (by unfold DrnMods.code; omega)
theorem DrnMods.code_sp : bitAt (m.code sc) 3 = m.sp :=
  bitAt_digit _ (bit m.bias * 8 + bit m.act * 4 + bit m.req * 2 + bit m.amax) sc.code 3 _
    (Nat.lt_trans sc.code_lt (by decide)) (by unfold DrnMods.code; omega)
theorem DrnMods.code_amax : bitAt (m.code sc) 4 = m.amax :=
  bitAt_digit _ (bit m.bias * 4 + bit m.act * 2 + bit m.req) (bit m.sp * 8 + sc.code) 4 _ (m.low_lt sc)
    (by unfold DrnMods.code; omega)
theorem DrnMods.code_req : bitAt (m.code sc) 5 = m.req := by
  have := m.low_lt sc; have := bit_le m.amax
  exact bitAt_digit _ (bit m.bias * 2 + bit m.act) (bit m.amax * 16 + (bit m.sp * 8 + sc.code)) 5 _ (by omega)
    (by unfold DrnMods.code; omega)
theorem DrnMods.code_act : bitAt (m.code sc) 6 = m.act := by
  have := m.low_lt sc; have := bit_le m.amax; have := bit_le m.req
  exact bitAt_digit _ (bit m.bias) (bit m.req * 32 + bit m.amax * 16 + (bit m.sp * 8 + sc.code)) 6 _ (by omega)
    (by unfold DrnMods.code; omega)
theorem DrnMods.code_bias : bitAt (m.code sc) 7 = m.bias := by
  have := m.low_lt sc; have := bit_le m.amax; have := bit_le m.req; have := bit_le m.act
  exact bitAt_digit _ 0 (bit m.act * 64 + bit m.req * 32 + bit m.amax * 16 + (bit m.sp * 8 + sc.code)) 7 _
    (by omega) (by unfold DrnMods.code; omega)
end Drain

/-- Heddle (16 Table 16-5). -/
theorem readBack_heddle {i : Instr} (hi : i.cls = .heddle) (hn : Placed i) (hf : formOk i = true) :
    ReadBack i := by
  cases i with
  | hmm c ax acc a x y =>
    obtain ⟨hd, ha⟩ := hn
    obtain ⟨hx, hy⟩ := Bool.and_eq_true_iff.mp hf
    have hx := of_decide_eq_true hx
    have hy := of_decide_eq_true hy
    have hq : (x + 8 * y) / 8 = y := by omega
    exact readBack_r rfl (hd := code_lt hd) (ha := code_lt ha) (hx := by omega) fun w h => by
      simp [parse, parseHeddle, h.op, h.ctl, h.ax, h.ext, h.accD hd, h.sA ha, Nat.mod_eq_of_lt hx, hq]
  | hmmf c acc a x y =>
    obtain ⟨hd, ha⟩ := hn
    obtain ⟨hx, hy⟩ := Bool.and_eq_true_iff.mp hf
    have hx := of_decide_eq_true hx
    have hy := of_decide_eq_true hy
    have hq : (x + 8 * y) / 8 = y := by omega
    exact readBack_r rfl (hd := code_lt hd) (ha := code_lt ha) (hx := by omega) fun w h => by
      simp [parse, parseHeddle, h.op, h.ctl, h.ext, h.accD hd, h.sA ha, Nat.mod_eq_of_lt hx, hq]
  | hclr c fp acc =>
    exact readBack_r rfl (hd := code_lt hn) (hx := flag8_lt fp) fun w h => by
      simp [parse, parseHeddle, h.op, h.ctl, h.ext, flag8_flag, h.accD hn]
  | hacl c fp acc a =>
    obtain ⟨hd, ha⟩ := hn
    exact readBack_r rfl (hd := code_lt hd) (ha := code_lt ha) (hx := flag8_lt fp) fun w h => by
      simp [parse, parseHeddle, h.op, h.ctl, h.ext, flag8_flag, h.accD hd, h.sA ha]
  | hdrn c m sc acc a n =>
    obtain ⟨hd, ha⟩ := hn
    have hlt : n < 8 := of_decide_eq_true (Bool.and_eq_true_iff.mp hf).2
    have hc := bit_le m.clr
    exact readBack_r (md := m.code sc) rfl (hd := code_lt hd) (ha := code_lt ha) (hm := m.code_lt sc)
      (hx := by omega) fun w h => by
        simp [parse, parseHeddle, h.op, h.ctl, h.ext, fScope_of_mod h.md, bit15_of_mod h.md, bit14_of_mod h.md,
          bit13_of_mod h.md, bit12_of_mod h.md, bit11_of_mod h.md, m.code_scope, m.code_bias, m.code_act, m.code_req,
          m.code_amax, m.code_sp, slotFlag_flag hlt, Nat.mod_eq_of_lt hlt, h.accD hd, h.sA ha]
  | bpack c a n | bunpk c a n =>
    exact readBack_r rfl (ha := code_lt hn) (hx := Nat.lt_trans (of_decide_eq_true hf) (by decide)) fun w h => by
      simp [parse, parseHeddle, h.op, h.ctl, h.ext, h.sA hn]
  | fmtqSlot c d n =>
    have hlt : n < 8 := of_decide_eq_true hf
    have hb : bitAt n 3 = false := slotFlag_flag hlt false
    exact readBack_r rfl (hd := code_lt hn) (hx := Nat.lt_trans hlt (by decide)) fun w h => by
      simp [parse, parseHeddle, h.op, h.ctl, h.ext, hb, Nat.mod_eq_of_lt hlt, h.sD hn]
  | fmtqAcc c d n =>
    obtain ⟨hd, -⟩ := hn
    have hlt : n < 8 := of_decide_eq_true hf
    have hb : bitAt (8 + n) 3 = true := Nat.add_comm n 8 ▸ slotFlag_flag hlt true
    exact readBack_r rfl (hd := code_lt hd) (hx := by omega) fun w h => by
      simp [parse, parseHeddle, h.op, h.ctl, h.ext, hb, Nat.mod_eq_of_lt hlt, h.sD hd]
  | _ => cases hi

/-! ## System and trace -/

/-- A special-register number has 12 bits. -/
theorem sregIndexed_lt {n : Nat} {b : Bool} (h : sregIndexed n = some b) : n < 2 ^ 12 := by
  refine Decidable.by_contra fun hn => ?_
  simp (disch := omega) only [sregIndexed, if_neg, reduceCtorEq] at h

theorem bitsAt_sreg {w n : Nat} (h : bitsAt w 16 19 = n) (hn : n < 2 ^ 12) : bitsAt w 16 12 = n := by
  rw [bitsAt_of_field h 0 12 (by decide), bitsAt, Nat.pow_zero, Nat.div_one, Nat.mod_eq_of_lt hn]

/-- System (18 Table 18-8). -/
theorem readBack_system {i : Instr} (hi : i.cls = .system) (hn : Placed i) (hf : formOk i = true)
    (hr : rangeOk i = true) : ReadBack i := by
  cases i with
  | trap c n | brkp c n =>
    exact readBack_r rfl (hx := of_decide_eq_true hr) fun w h => by simp [parse, parseSys, h.op, h.ctl, h.ext]
  | rtt | rttSkip => exact readBack_r rfl fun w h => by simp [parse, parseSys, h.op, h.ext]
  | srd c n d x =>
    have hlt := sregIndexed_lt (beq_iff_eq.mp hf)
    cases x with
    | none =>
      exact readBack_i (sa := 0) (ext6 := 0) rfl (hd := code_lt hn) (hi := Nat.lt_trans hlt (by decide)) fun w h => by
        simp [parse, parseSys, h.op, h.ctl, h.ext6, bitsAt_sreg h.imm hlt, sD, h.dst, scalSpec_code hn]
    | some x =>
      obtain ⟨hd, hx⟩ := hn
      exact readBack_i (sa := x.code) (ext6 := 1) rfl (hd := code_lt hd) (ha := code_lt hx)
        (hi := Nat.lt_trans hlt (by decide)) fun w h => by
          simp [parse, parseSys, h.op, h.ctl, h.ext6, bitsAt_sreg h.imm hlt, sD, h.dst, h.sa, scalSpec_code hd,
            scalSpec_code hx]
  | swr c n x a =>
    have hlt := sregIndexed_lt (beq_iff_eq.mp hf)
    cases x with
    | none =>
      exact readBack_i (dst := 0) (ext6 := 0) rfl (ha := code_lt hn) (hi := Nat.lt_trans hlt (by decide)) fun w h => by
        simp [parse, parseSys, h.op, h.ctl, h.ext6, bitsAt_sreg h.imm hlt, h.sa, h.fa, scalSpec_code hn]
    | some x =>
      obtain ⟨hx, ha⟩ := hn
      exact readBack_i (dst := x.code) (ext6 := 1) rfl (hd := code_lt hx) (ha := code_lt ha)
        (hi := Nat.lt_trans hlt (by decide)) fun w h => by
          simp [parse, parseSys, h.op, h.ctl, h.ext6, bitsAt_sreg h.imm hlt, sD, h.dst, h.sa, h.fa, scalSpec_code hx,
            scalSpec_code ha]
  | sleep c a => exact readBack_r rfl (ha := code_lt hn) fun w h => by simp [parse, parseSys, h.op, h.ctl, h.sA hn]
  | spt c => exact readBack_r rfl fun w h => by simp [parse, parseSys, h.op, h.ctl]
  | _ => cases hi

theorem counterOk_lt {n : Nat} (h : counterOk n = true) : n < 2 ^ 7 := by
  simp only [counterOk, Bool.or_eq_true, Bool.and_eq_true, decide_eq_true_eq] at h
  omega

/-- Trace (21 Table 21-10). -/
theorem readBack_trace {i : Instr} (hi : i.cls = .trace) (hn : Placed i) (hf : formOk i = true)
    (hr : rangeOk i = true) : ReadBack i := by
  cases i with
  | tmark c n a =>
    exact readBack_r rfl (ha := code_lt hn) (hx := of_decide_eq_true hr) fun w h => by
      simp [parse, parseTrace, h.op, h.ctl, h.ext, h.sA hn]
  | msmp c => exact readBack_r rfl fun w h => by simp [parse, parseTrace, h.op, h.ctl]
  | rmark c d => exact readBack_r rfl (hd := code_lt hn) fun w h => by simp [parse, parseTrace, h.op, h.ctl, h.sD hn]
  | pcnt c d n =>
    exact readBack_r rfl (hd := code_lt hn) (hx := counterOk_lt hf) fun w h => by
      simp [parse, parseTrace, h.op, h.ctl, h.ext, h.sD hn]
  | vclk c d a =>
    obtain ⟨hd, ha⟩ := hn
    exact readBack_r rfl (hd := code_lt hd) (ha := code_lt ha) fun w h => by
      simp [parse, parseTrace, h.op, h.ctl, h.sD hd, h.sA ha]
  | _ => cases hi

end Sys2Proof
end

section
/-!
PROOF. DecodeCheck and the encoder are inverse to each other (02 R35 to R39).
-/
namespace Sys2Proof

/-! ## The round trip -/

/-- An event row has no word (02 R39). -/
theorem view_event {i : Instr} (h : i.cls = .event) : view i = none := by
  cases i <;> cases h <;> rfl

theorem readBack {i : Instr} (hn : Placed i) (hf : formOk i = true) (hr : rangeOk i = true) : ReadBack i := by
  cases h : i.cls with
  | control => exact readBack_control h hn
  | integer => exact readBack_integer h hn hf
  | memory => exact readBack_memory h hn hf
  | float => exact readBack_float h hn hf
  | approx => exact readBack_approx h hn hf hr
  | visibility => exact readBack_visibility h hn hf hr
  | sync => exact readBack_sync h hn hf hr
  | task => exact readBack_task h hn hf
  | quill => exact readBack_quill h hn hf
  | heddle => exact readBack_heddle h hn hf
  | system => exact readBack_system h hn hf hr
  | trace => exact readBack_trace h hn hf hr
  | event =>
    intro v hv
    rw [view_event h] at hv
    cases hv

/-- The largest header uses every bin. -/
theorem binOf_max {i : Instr} {b : Nat} (hf : formOk i = true) (hb : binOf i = some b) :
    bitAt DecCtx.max.bins b = true := by
  have hlt : b < 16 := by
    cases i <;> cases hb <;> exact of_decide_eq_true hf
  have hall : ∀ b < 16, bitAt DecCtx.max.bins b = true := by decide
  exact hall b hlt

/-- What well-formedness says of an instruction that has words. -/
structure WfParts (i : Instr) (v : View) : Prop where
  guard : v.c.ok = true
  pg : v.c.pg < 2 ^ 3
  form : formOk i = true
  range : rangeOk i = true
  placed : Placed i
  alloc : ∀ n ∈ needs i, n.allocOk .max = true
  typed : ∀ n ∈ needs i, n.typeBad = false

theorem wfParts {i : Instr} {v : View} (hv : view i = some v) (hw : i.wf = true) : WfParts i v := by
  obtain ⟨form, range, placed, typed⟩ := Machine.wf_parts i v hv hw
  unfold Instr.wf at hw
  simp only [hv, Bool.and_eq_true, decide_eq_true_eq, List.all_eq_true] at hw
  obtain ⟨⟨⟨⟨⟨⟨guard, pg⟩, -⟩, -⟩, -⟩, alloc⟩, -⟩ := hw
  exact ⟨guard, pg, form, range, allPlaced_iff.mpr placed, alloc, typed⟩

/-- The bin an instruction names is in use. -/
def BinUsed (k : DecCtx) (i : Instr) : Prop := ∀ b, binOf i = some b → bitAt k.bins b = true

/-- What it takes to pass the checks of 02 R35 after the reading of the word. -/
structure Passes (k : DecCtx) (w w1 : Nat) (i : Instr) (v : View) : Prop where
  word0 : v.word0 = w
  word1 : v.w1.isSome = true → v.w1 = some w1
  guard : v.c.ok = true
  form : formOk i = true
  alloc : ∀ n ∈ needs i, n.allocOk k = true
  bin : BinUsed k i
  typed : ∀ n ∈ needs i, n.typeBad = false
  role : roleOk k.role v.op (vecFormOf v) = true

theorem decode_ok_of_passes {k : DecCtx} {w w1 : Nat} {i : Instr} {v : View} (hp : parse w w1 = some i)
    (hv : view i = some v) (h : Passes k w w1 i v) : decode k w w1 = .ok i := by
  have hfields : ¬ (v.word0 ≠ w ∨ (v.w1.isSome = true ∧ v.w1 ≠ some w1) ∨ v.c.ok = false ∨ formOk i = false) := by
    rintro (h0 | ⟨h1, h2⟩ | hg | hf)
    · exact h0 h.word0
    · exact h2 (h.word1 h1)
    · exact Bool.false_ne_true (hg.symm.trans h.guard)
    · exact Bool.false_ne_true (hf.symm.trans h.form)
  have halloc : ¬ (needs i).any (fun n => !n.allocOk k) = true := by
    simpa using h.alloc
  have htype : ¬ (needs i).any Need.typeBad = true := by
    simpa using h.typed
  unfold decode
  simp only [hp, hv]
  rw [if_neg hfields, if_neg halloc]
  cases hb : binOf i with
  | none => rw [if_neg Bool.false_ne_true, if_neg htype, if_pos h.role]
  | some b => rw [if_neg (by simp [h.bin b hb]), if_neg htype, if_pos h.role]

/-- A word that a check refuses is not accepted. -/
theorem ok_of_ite {p : Prop} [Decidable p] {d e : Decoded} {i : Instr}
    (h : (if p then d else e) = .ok i) (hd : d ≠ .ok i := by nofun) : ¬ p ∧ e = .ok i := by
  split at h
  next => exact absurd h hd
  next hp => exact ⟨hp, h⟩

/-- Whatever DecodeCheck accepts has the words it was read from. -/
theorem view_of_decode_ok {k : DecCtx} {w w1 : Nat} {i : Instr} (h : decode k w w1 = .ok i) :
    ∃ v, view i = some v ∧ v.word0 = w ∧ (v.w1.isSome = true → v.w1 = some w1) := by
  unfold decode at h
  split at h
  next => cases h
  next j hp =>
    split at h
    next => cases h
    next v hv =>
      obtain ⟨hfields, h⟩ := ok_of_ite h
      obtain ⟨-, h⟩ := ok_of_ite h
      obtain ⟨-, h⟩ := ok_of_ite h
      obtain ⟨-, h⟩ := ok_of_ite h
      have hj : j = i := by
        split at h
        next => exact Decoded.ok.inj h
        next => cases h
      subst hj
      exact ⟨v, hv, Decidable.of_not_not fun h0 => hfields (.inl h0), fun hs =>
        Decidable.of_not_not fun h1 => hfields (.inr (.inl ⟨hs, h1⟩))⟩

theorem passes_max {i : Instr} {v : View} (h : WfParts i v) : Passes .max v.word0 (v.w1.getD 0) i v where
  word0 := rfl
  word1 h1 := by
    obtain ⟨x, hx⟩ := Option.isSome_iff_exists.mp h1
    simp [hx]
  guard := h.guard
  form := h.form
  alloc := h.alloc
  bin _ hb := binOf_max h.form hb
  typed := h.typed
  role := rfl

/-- A well-formed instruction that has a word is read back from its words, under the largest header and a
general group. -/
theorem decode_encode {i : Instr} {v : View} (hv : view i = some v) (hw : i.wf = true) :
    v.word0 < 2 ^ 64 ∧ bitAt v.word0 0 = v.w1.isSome ∧ decode .max v.word0 (v.w1.getD 0) = .ok i := by
  have h := wfParts hv hw
  obtain ⟨hfit, hparse⟩ := readBack h.placed h.form h.range v hv h.pg
  exact ⟨word0_lt hfit, word0_long v, decode_ok_of_passes hparse hv (passes_max h)⟩

/-- Whatever DecodeCheck accepts has the encoding it was read from. -/
theorem encode_of_decode {k : DecCtx} {w w1 : Nat} {i : Instr} (h : decode k w w1 = .ok i) :
    i.encode = some (w, none) ∨ i.encode = some (w, some w1) := by
  obtain ⟨v, hv, rfl, h1⟩ := view_of_decode_ok h
  unfold Instr.encode
  rw [hv]
  cases hw : v.w1 with
  | none => exact .inl (by simp [hw])
  | some x => exact .inr (by simp [h1 (by simp [hw])])

/-- Settles O55: row by row each field is read back from the place `view` lays it in, and DecodeCheck accepts a
word only if laying out what it read gives the word. -/
theorem codesRoundTrip : Obligations.CodesRoundTrip := by
  refine ⟨fun i hw w w1 he => ?_, fun k w w1 i h => encode_of_decode h⟩
  obtain ⟨v, hv, he⟩ := Option.map_eq_some_iff.mp he
  obtain ⟨rfl, rfl⟩ := Prod.mk.inj he
  exact decode_encode hv hw

end Sys2Proof
end

section
/-!
PROOF. The words that the spec writes out (02 R24 to R38).
-/
namespace Sys2Proof.Claims

theorem specWords_decode : ∀ e ∈ specWords, decode .max e.1 0 = .ok e.2 := by decide

/-- Table 2-10, under a header of 32 vector, 8 approximate and 8 scalar registers. -/
theorem specFates_refused : ∀ e ∈ specFates, decode ⟨32, 8, 8, 0, 0, .general⟩ e.1 0 = e.2 := by decide

/-- Settles O56: each word is evaluated. -/
theorem specWordsDecode : Obligations.SpecWordsDecode := ⟨specWords_decode, specFates_refused⟩

end Sys2Proof.Claims
end

section
/-!
PROOF. A step is the execution of the decoded instruction, or of the event whose turn it is (02 R35; 04 R57, R58).
-/
namespace Sys2Proof.Machine
open Sys2Proof.Claims

/-! ## Fetching a word (04 R57, R58) -/

theorem ask_eq_setGroup {s : State} {k : Nat} {g : Group} (va : Word64) (hg : s.group? k = some g) :
    s.ask k va = s.setGroup k { g with want := some va.toNat } := by
  unfold State.ask State.modGroup
  rw [hg]

section FetchWord
variable {s : State} {k : Nat} {g : Group} {va : Word64} (hg : s.group? k = some g)
include hg

theorem fetchWord_buffered {w : Nat} (hw : g.fbuf.at? va.toNat = some w) : s.fetchWord k va = .ok (w, s) := by
  unfold State.fetchWord
  simp only [hg, hw]

theorem fetchWord_redirected (hw : g.fbuf.at? va.toNat = none) (hp : g.fbuf.at? (va - 8).toNat = none) :
    s.fetchWord k va = .error (s.setGroup k { g with want := some va.toNat }) := by
  unfold State.fetchWord
  simp only [hg, hw, hp, Option.isNone_none, if_true, ask_eq_setGroup va hg]

/-- A line that the core translates, with X, to where it was filled from is used as it is. -/
theorem fetchWord_of_l0 {l : Leaf} {p : Nat} (hw : g.fbuf.at? va.toNat = none)
    (hp : (g.fbuf.at? (va - 8).toNat).isSome)
    (ht : s.tlbLookup g.core (s.tenantOf g) (lineVa (va.toNat / 256)) = some l) (hx : entX l.e.toNat = true)
    (h0 : s.l0Line g (va.toNat / 256) = some (l.key (lineVa (va.toNat / 256)), p)) :
    s.fetchWord k va = .ok (s.lineWord (l.key (lineVa (va.toNat / 256)), p) va.toNat,
      s.setGroup k (g.buffer s (l.key (lineVa (va.toNat / 256)), p) va.toNat)) := by
  have hn : (g.fbuf.at? (va - 8).toNat).isNone = false := by
    rw [← Option.not_isSome, hp]; rfl
  have hu : s.useLine g.core (s.tenantOf g) (va.toNat / 256) (s.l0Line g (va.toNat / 256)) =
      (some (l.key (lineVa (va.toNat / 256)), p), s) := by
    simp [State.useLine, State.hitLine, h0, ht, hx]
  simp only [State.fetchWord, hg, hw, hn, hu, Bool.false_eq_true, if_false]

end FetchWord

/-- Using a held line draws at most a free value. -/
theorem useLine_frame (s : State) (core tenant line : Nat) (e : Option (Nat × Nat)) :
    ∃ n, (s.useLine core tenant line e).2 = { s with freeCount := n } := by
  unfold State.useLine
  split
  · exact ⟨_, rfl⟩
  · exact ⟨_, rfl⟩

/-- Fetching a word leaves everything but the groups and the count of free values. -/
theorem fetchWord_frame {s x : State} {k w : Nat} {va : Word64} (h : s.fetchWord k va = .ok (w, x)) :
    ∃ gs n, x = { s with groups := gs, freeCount := n } := by
  unfold State.fetchWord at h
  split at h
  next => cases h
  next g hg =>
    split at h
    next =>
      obtain ⟨-, rfl⟩ := Prod.mk.inj (Except.ok.inj h)
      exact ⟨s.groups, s.freeCount, rfl⟩
    next =>
      split at h
      next => cases h
      next =>
        obtain ⟨n, hn⟩ := useLine_frame s g.core (s.tenantOf g) (va.toNat / 256) (s.l0Line g (va.toNat / 256))
        dsimp only at h
        split at h
        next e he =>
          obtain ⟨-, rfl⟩ := Prod.mk.inj (Except.ok.inj h)
          exact ⟨_, n, by rw [hn]; rfl⟩
        next => cases h

/-- The state after the words of an instruction are at hand. -/
theorem fetchesPlain_frame {s u : State} {k w w1 : Nat} {g : Group} (h : FetchesPlain s k g w w1 u) :
    ∃ gs n, u = { s with groups := gs, freeCount := n } := by
  obtain ⟨x, hx, hshort, hlong⟩ := h.words
  obtain ⟨gs, n, rfl⟩ := fetchWord_frame hx
  cases hb : bitAt w 0 with
  | false =>
    obtain ⟨-, rfl⟩ := hshort hb
    exact ⟨gs, n, rfl⟩
  | true =>
    obtain ⟨gs', n', rfl⟩ := fetchWord_frame (hlong hb).2
    exact ⟨gs', n', rfl⟩

/-- Where nothing stands between a group's turn and its instruction, fetch and decode come to that instruction. -/
theorem fetch_of_plain {s u : State} {k w w1 : Nat} {g : Group} {i : Instr} (h : FetchesPlain s k g w w1 u)
    (hd : decode (u.decCtx g) w w1 = .ok i) : s.fetch k = .ok i { u with cur := k } := by
  obtain ⟨gs, n, hu⟩ := fetchesPlain_frame h
  have hstop : s.safeStop k = none := by
    unfold State.safeStop
    simp [h.group, h.stop]
  have hskid : stepsInSkid g (s.queueMode g) = false := by
    unfold stepsInSkid
    simp [h.skid]
  have hbrk : (if g.shadow.isNone then u.brkAt (u.tenantOf g) g.ctl.pc else none) = none := by
    have : u.brkAt (u.tenantOf g) g.ctl.pc = none := by rw [hu]; exact h.brk
    rw [this, ite_self]
  obtain ⟨x, hx, hshort, hlong⟩ := h.words
  unfold State.fetch
  cases hb : bitAt w 0 with
  | false =>
    obtain ⟨rfl, rfl⟩ := hshort hb
    simp only [h.group, hstop, h.log, h.failed, hskid, h.pc, hx, hb, hbrk, hd, Option.isSome_none, Bool.and_false,
      Bool.false_and, List.isEmpty_nil, Bool.not_true, Bool.false_eq_true, Bool.true_eq_false, if_false]
  | true =>
    obtain ⟨hpc, hx'⟩ := hlong hb
    simp only [h.group, hstop, h.log, h.failed, hskid, h.pc, hx, hb, hpc, hx', hbrk, hd, Option.isSome_none,
      Bool.and_false, Bool.false_and, List.isEmpty_nil, Bool.not_true, Bool.false_eq_true, Bool.true_eq_false,
      decide_false, if_false, if_true]

/-! ## Turns -/

theorem groupTurn_of_plain {s u : State} {k w w1 : Nat} {g : Group} {i : Instr}
    (h : FetchesPlain (s.tried k) k g w w1 u) (hd : decode (u.decCtx g) w w1 = .ok i) :
    groupTurn k s = exec i { u with cur := k } := by
  have hh : (s.tried k).holds { u with cur := k } = false := by
    obtain ⟨gs, n, rfl⟩ := fetchesPlain_frame h
    exact holds_of_streams _ _ rfl
  unfold groupTurn
  simp only [h.group, if_neg h.active, fetch_of_plain h hd, hh, Bool.false_eq_true, if_false]

theorem turned_nil {s : State} (ht : s.turns = []) : turned s = s.pass 1 := by
  unfold turned
  rw [ht]

theorem turned_cons {s : State} {t : Turn} {rest : List Turn} (ht : s.turns = t :: rest) :
    turned s = ({ s with turns := rest } : State).pass t.dt := by
  unfold turned
  rw [ht]

/-- A turn that names no event is the machine's own move. -/
theorem step_own {s : State} (h : ∀ t rest, s.turns = t :: rest → ∀ j, t.ev = some j → isEvent j = false) :
    step s = ownMove (turned s) := by
  unfold step
  cases ht : s.turns with
  | nil => simp only [turned_nil ht]
  | cons t rest =>
    cases he : t.ev with
    | none => simp only [he, turned_cons ht]
    | some j => simp only [he, h t rest ht j he, turned_cons ht, Bool.false_eq_true, if_false]

theorem step_named {s : State} {t : Turn} {rest : List Turn} {i : Instr} (ht : s.turns = t :: rest)
    (he : t.ev = some i) (hi : isEvent i = true) (hd : (turned s).dark (some i) = false) :
    step s = exec i (turned s) := by
  rw [turned_cons ht] at *
  unfold step
  simp only [ht, he, hi, hd, Bool.false_eq_true, if_false, if_true]

theorem ownMove_issue {s v : State} {k : Nat} (hd : s.dark none = false) (hm : s.move = (.issue k, v)) :
    ownMove s = groupTurn k v := by
  unfold ownMove
  simp [hd, hm]

theorem ownMove_event {s v : State} {i : Instr} (hd : s.dark none = false) (hm : s.move = (.ev i, v)) :
    ownMove s = exec i v := by
  unfold ownMove
  simp [hd, hm]

theorem foldl_boot {α : Type} (f : State → α → State) (hf : ∀ s a, (f s a).boot = s.boot) (l : List α)
    (s : State) : (l.foldl f s).boot = s.boot := by
  induction l generalizing s with
  | nil => rfl
  | cons a l ih => rw [List.foldl_cons, ih, hf]

@[simp] theorem pass_boot (s : State) (dt : Nat) : (s.pass dt).boot = s.boot := by
  unfold State.pass
  dsimp only
  split
  · rfl
  · apply foldl_boot
    intro s' e
    rfl

theorem step_unpowered {s : State} (hp : s.boot.powered = false) (ht : s.turns = []) :
    step s = .fault .unpowered := by
  have hd : (s.pass 1).dark none = true := by
    unfold State.dark
    rw [pass_boot, hp]; rfl
  rw [step_own (by simp [ht]), turned_nil ht]
  unfold ownMove
  simp [hd]

/-- Settles O57: fetching a word leaves everything but the groups and the free values, so that a turn comes to
the `exec` of what was decoded. -/
theorem stepRunsDecoded : Obligations.StepRunsDecoded := by
  refine ⟨fun s k g va hg => ⟨fun w hw => fetchWord_buffered hg hw, fetchWord_redirected hg, ?_⟩, ?_, ?_, ?_, ?_⟩
  · intro l p hw hp ht hx h0
    exact ⟨_, fetchWord_of_l0 hg hw hp ht hx h0, rfl⟩
  · intro s v k w w1 g i hev hd hm u hf hdec
    rw [step_own hev, ownMove_issue hd hm, groupTurn_of_plain hf hdec]
  · intro s v i hev hd hm
    rw [step_own hev, ownMove_event hd hm]
  · intro s t rest i ht he hi hd
    exact step_named ht he hi hd
  · intro s hp ht
    exact step_unpowered hp ht

end Sys2Proof.Machine
end
